-- ==== Sys2Proof/Word.lean ====
section
/-! DEFINITION. The word types of XED-ENC and their plainest arithmetic (spec/00_scope.md rules R10, R11). -/

namespace Sys2Proof

/-- One byte of the output buffer (spec/10_state.md R33). -/
abbrev Byte := BitVec 8

/-- A 64-bit request value: displacements and immediates are held extended to 64 bits (R23, R24). -/
abbrev Word64 := BitVec 64

/-- `trunc_N(v)`: the value modulo `2^N` (R11). -/
def truncBits (n v : Nat) : Nat := v % 2 ^ n

/-- `low3(n) = n mod 8` (R11). -/
def low3 (n : Nat) : BitVec 3 := BitVec.ofNat 3 n

/-- `bit3(n) = (n div 8) mod 2` (R11). -/
def bit3 (n : Nat) : Bool := n / 8 % 2 == 1

/-- `bit4(n) = (n div 16) mod 2` (R11). -/
def bit4 (n : Nat) : Bool := n / 16 % 2 == 1

end Sys2Proof
end

