-- ==== Sys2Proof/Syntax.lean ====
section
/-! DEFINITION. The syntax of XED-ENC: register identifiers, the request record and its field names, operand
descriptors, the decoded record, and `Instr`, one constructor per row of spec/opcode_table.json. -/

namespace Sys2Proof

/-- The register classes: those rules name (spec/10_state.md R37, R38), and classes of a register space (parameter P14)
that no rule names. -/
inductive RegClass where
  | gpr8 | gpr8h | gpr16 | gpr32 | gpr64 | mmx | xmm | ymm | zmm | mask | cr | dr | seg | x87 | ip
  | other (id : Nat)
  deriving DecidableEq, Repr, Inhabited

/-- A register identifier: a class and an offset in it (R37: "the pair (class, offset)"). -/
structure Reg where
  cls : RegClass
  off : Nat
  deriving DecidableEq, Repr, Inhabited

/-- A register identifier or INVALID, which is `none` (R39). -/
abbrev RegOrInvalid := Option Reg

/-- The operand names of the order array (R29). -/
inductive OperandName where
  | invalid
  | reg0 | reg1 | reg2 | reg3 | reg4 | reg5 | reg6 | reg7 | reg8
  | mem0 | mem1 | agen | imm0 | imm1 | relbr | ptr
  deriving DecidableEq, Repr, Inhabited

/-- The REP field (R25). -/
inductive Rep where
  | none | rep | repne
  deriving DecidableEq, Repr, Inhabited

/-- The HINT field (R25). -/
inductive Hint where
  | none | taken | notTaken
  deriving DecidableEq, Repr, Inhabited

/-- The return codes (spec/60_exceptions.md R391); their numbers are parameter P13, `CodeNumbers`. -/
inductive ReturnCode where
  | noError | bufferTooShort | generalError
  deriving DecidableEq, Repr, Inhabited

/-- The derived bits (R27): "computed, not user-set". -/
structure Derived where
  hasModrm : Bool := false
  mod : BitVec 2 := 0
  reg : BitVec 3 := 0
  rm : BitVec 3 := 0
  hasSib : Bool := false
  sibscale : BitVec 2 := 0
  sibindex : BitVec 3 := 0
  sibbase : BitVec 3 := 0
  rexw : Bool := false
  rexr : Bool := false
  rexx : Bool := false
  rexb : Bool := false
  rexrr : Bool := false
  vvvv : BitVec 4 := 0
  vexdest4 : Bool := false
  aaa : BitVec 3 := 0
  needrex : Bool := false
  norex : Bool := false
  osz : Bool := false
  asz : Bool := false
  segpfx : BitVec 8 := 0
  opcodeLow3 : BitVec 3 := 0
  deriving DecidableEq, Repr, Inhabited

/-- The nine register-operand slots REG0 to REG8 (R22). -/
structure RegFile where
  r0 : RegOrInvalid := none
  r1 : RegOrInvalid := none
  r2 : RegOrInvalid := none
  r3 : RegOrInvalid := none
  r4 : RegOrInvalid := none
  r5 : RegOrInvalid := none
  r6 : RegOrInvalid := none
  r7 : RegOrInvalid := none
  r8 : RegOrInvalid := none
  deriving DecidableEq, Repr, Inhabited

/-- The Encode Request `rq` (R20 to R29). The defaults are the reset values of R42. `named` holds the further named fields
that a table needs (R26), by number, in canonical form: numbers strictly rising, a field not listed is 0. -/
structure Request where
  mode : Nat := 0
  smode : Nat := 0
  iclass : Nat := 0
  eosz : Nat := 0
  easz : Nat := 0
  error : ReturnCode := .noError
  regs : RegFile := {}
  base0 : RegOrInvalid := none
  index : RegOrInvalid := none
  scale : Nat := 0
  seg0 : RegOrInvalid := none
  base1 : RegOrInvalid := none
  seg1 : RegOrInvalid := none
  mem0 : Bool := false
  mem1 : Bool := false
  agen : Bool := false
  disp : Word64 := 0
  dispWidth : Nat := 0
  brdisp : Word64 := 0
  brdispWidth : Nat := 0
  relbr : Bool := false
  ptr : Bool := false
  imm0 : Word64 := 0
  imm0Signed : Bool := false
  immWidth : Nat := 0
  imm1 : Byte := 0
  imm1Present : Bool := false
  rep : Rep := .none
  hint : Hint := .none
  vl : Nat := 0
  mustUseEvex : Bool := false
  roundc : Nat := 0
  zeroing : Bool := false
  sae : Bool := false
  bcast : Bool := false
  named : List (Nat × Nat) := []
  derived : Derived := {}
  order : List OperandName := []
  norder : Nat := 0
  deriving DecidableEq, Repr, Inhabited

/-- A field name with a value, the operand pair of SET_FIELD and of the OTHER descriptor
(spec/44_request_surface.md R320): one constructor per request field of R21 to R27 and R29, `error` for the name
that is refused, `named` for any other name: a further named field where the table needs it (R26), else unknown. -/
inductive FieldAssign where
  | mode (v : Nat) | smode (v : Nat) | iclass (v : Nat) | eosz (v : Nat) | easz (v : Nat)
  | error (v : ReturnCode)
  | reg (slot : Fin 9) (v : RegOrInvalid)
  | base0 (v : RegOrInvalid) | index (v : RegOrInvalid) | scale (v : Nat) | seg0 (v : RegOrInvalid)
  | base1 (v : RegOrInvalid) | seg1 (v : RegOrInvalid)
  | mem0 (v : Bool) | mem1 (v : Bool) | agen (v : Bool)
  | disp (v : Word64) | dispWidth (v : Nat) | brdisp (v : Word64) | brdispWidth (v : Nat)
  | relbr (v : Bool) | ptr (v : Bool)
  | imm0 (v : Word64) | imm0Signed (v : Bool) | immWidth (v : Nat) | imm1 (v : Byte) | imm1Present (v : Bool)
  | rep (v : Rep) | hint (v : Hint) | vl (v : Nat) | mustUseEvex (v : Bool) | roundc (v : Nat)
  | zeroing (v : Bool) | sae (v : Bool) | bcast (v : Bool)
  | hasModrm (v : Bool) | mod (v : BitVec 2) | modrmReg (v : BitVec 3) | rm (v : BitVec 3) | hasSib (v : Bool)
  | sibscale (v : BitVec 2) | sibindex (v : BitVec 3) | sibbase (v : BitVec 3)
  | rexw (v : Bool) | rexr (v : Bool) | rexx (v : Bool) | rexb (v : Bool) | rexrr (v : Bool)
  | vvvv (v : BitVec 4) | vexdest4 (v : Bool) | aaa (v : BitVec 3) | needrex (v : Bool) | norex (v : Bool)
  | osz (v : Bool) | asz (v : Bool) | segpfx (v : BitVec 8) | opcodeLow3 (v : BitVec 3)
  | orderEntry (position : Nat) (v : OperandName) | norder (v : Nat)
  | named (id value : Nat)
  deriving DecidableEq, Repr, Inhabited

/-- The payload of a MEM descriptor (spec/30_encoding.md R101 tag 7). -/
structure MemDesc where
  base : RegOrInvalid
  index : RegOrInvalid
  seg : RegOrInvalid
  scale : Nat
  dispValue : Word64
  dispWidth : Nat
  dataWidth : Nat
  deriving DecidableEq, Repr, Inhabited

/-- A high-level Operand Descriptor (R101); `unrecognized` is every tag that is not 1 to 8. -/
inductive Descriptor where
  | reg (r : RegOrInvalid)
  | brdisp (value : BitVec 32) (width : Nat)
  | ptr (value : BitVec 32) (width : Nat)
  | uimm0 (value : Word64) (width : Nat)
  | simm0 (value : BitVec 32) (width : Nat)
  | imm1 (value : Byte)
  | mem (m : MemDesc)
  | other (f : FieldAssign)
  | unrecognized (tag : Nat)
  deriving DecidableEq, Repr, Inhabited

/-- One entry of `D.operands` (spec/10_state.md R35). -/
structure DecodedOperand where
  name : OperandName
  suppressed : Bool
  deriving DecidableEq, Repr, Inhabited

/-- A recorded field location of a decoded instruction: byte offset and width in bits (R35). -/
structure FieldLoc where
  pos : Nat
  width : Nat
  deriving DecidableEq, Repr, Inhabited

/-- The decoded-instruction record `D` (R35): `D.field(F)` is the field F of `fields`. -/
structure DecodedRecord where
  fields : Request
  iclass : Nat
  operands : List DecodedOperand
  length : Nat
  dispLoc : Option FieldLoc
  brdispLoc : Option FieldLoc
  imm0Loc : Option FieldLoc
  evexMaskFeatures : Bool
  disp8Guarantee : Bool
  deriving DecidableEq, Repr, Inhabited

/-- The displacement widths on the wire (spec/30_encoding.md R112). -/
inductive DispWidth where
  | w8 | w16 | w32
  deriving DecidableEq, Repr, Inhabited

/-- The offset widths of a far pointer (R114). -/
inductive FarWidth where
  | w16 | w32
  deriving DecidableEq, Repr, Inhabited

/-- The first-immediate widths emitted whole (R113). -/
inductive ImmWidth where
  | w8 | w16 | w32 | w64
  deriving DecidableEq, Repr, Inhabited

/-- The two forms of the IMM0 wire item (R113): a whole value, or the byte `rrrriiii` with a register number. -/
inductive Imm0Item where
  | value (w : ImmWidth) (v : Word64)
  | is4 (r : BitVec 4) (i : BitVec 4)
  deriving DecidableEq, Repr, Inhabited

/-- The fields of the second VEX byte in the two-byte form, as they stand on the wire (R106). -/
structure Vex2Fields where
  r : BitVec 1
  v : BitVec 4
  l : BitVec 1
  p : BitVec 2
  deriving DecidableEq, Repr, Inhabited

/-- The fields of the three-byte VEX prefix, as they stand on the wire (R107). -/
structure Vex3Fields where
  r : BitVec 1
  x : BitVec 1
  b : BitVec 1
  m : BitVec 5
  w : BitVec 1
  v : BitVec 4
  l : BitVec 1
  p : BitVec 2
  deriving DecidableEq, Repr, Inhabited

/-- The fields of the EVEX prefix, as they stand on the wire (R108); `rr` is R', `vv` is V', `bb` the bit b of P2. -/
structure EvexFields where
  r : BitVec 1
  x : BitVec 1
  b : BitVec 1
  rr : BitVec 1
  m : BitVec 3
  w : BitVec 1
  v : BitVec 4
  p : BitVec 2
  z : BitVec 1
  l : BitVec 2
  bb : BitVec 1
  vv : BitVec 1
  a : BitVec 3
  deriving DecidableEq, Repr, Inhabited

/-- The instructions: one constructor per row of spec/opcode_table.json, in its order. -/
inductive Instr where
  -- commands (spec/30_encoding.md R100)
  | reqInit (mode smode : Nat)
  | setIclass (iclass : Nat)
  | setEosz (bits : Nat)
  | setEasz (bits : Nat)
  | setRep
  | clearRep
  | setRepne
  | clearRepne
  | setHintTaken
  | setHintNotTaken
  | setReg (slot : Nat) (r : RegOrInvalid)
  | setDisp (value : Word64) (widthBytes : Nat)
  | setDispBits (value : Word64) (width : Nat)
  | setBrdisp (value : Word64) (width : Nat)
  | setUimm0 (value : Word64) (width : Nat)
  | setSimm0 (value : BitVec 32) (width : Nat)
  | setUimm1 (value : Word64)
  | setBase0 (r : RegOrInvalid)
  | setBase1 (r : RegOrInvalid)
  | setIndex (r : RegOrInvalid)
  | setScale (scale : Nat)
  | setSeg0 (r : RegOrInvalid)
  | setSeg1 (r : RegOrInvalid)
  | setRelbr
  | setPtr
  | setAgen
  | setMem0
  | setMem1
  | setOperandOrder (position : Nat) (name : OperandName)
  | getOperandOrder (position : Nat)
  | setField (f : FieldAssign)
  | emitBits (width : Nat) (value : Word64)
  | encode (capacity : Nat)
  | encodeNop (length : Nat)
  | build (mode smode iclass eosz easz : Nat) (rep : Rep) (hint : Hint) (ds : List Descriptor)
  | initFromDecode (d : DecodedRecord)
  | patchDisp (d : DecodedRecord) (value : Word64) (width : Nat)
  | patchRelbr (d : DecodedRecord) (value : Word64) (width : Nat)
  | patchImm0 (d : DecodedRecord) (value : Word64) (width : Nat)
  -- operand descriptors of BUILD (R101)
  | descReg (r : RegOrInvalid)
  | descBrdisp (value : BitVec 32) (width : Nat)
  | descPtr (value : BitVec 32) (width : Nat)
  | descUimm0 (value : Word64) (width : Nat)
  | descSimm0 (value : BitVec 32) (width : Nat)
  | descImm1 (value : Byte)
  | descMem (m : MemDesc)
  | descOther (f : FieldAssign)
  -- wire items (R103 to R114)
  | pfxSegEs
  | pfxSegCs
  | pfxSegSs
  | pfxSegDs
  | pfxSegFs
  | pfxSegGs
  | pfxOsz
  | pfxAsz
  | pfxRepne
  | pfxRep
  | rex (w r x b : BitVec 1)
  | escMap1
  | escMap2
  | escMap3
  | vex2 (f : Vex2Fields)
  | vex3 (f : Vex3Fields)
  | evex (f : EvexFields)
  | opcode (o : Byte)
  | modrm (mod : BitVec 2) (reg rm : BitVec 3)
  | sib (ss : BitVec 2) (index base : BitVec 3)
  | disp (w : DispWidth) (v : Word64)
  | brdisp (w : DispWidth) (v : Word64)
  | farptr (w : FarWidth) (offset : Word64) (selector : BitVec 16)
  | imm0 (f : Imm0Item)
  | imm1 (v : Byte)
  -- rows of the NOP table (R115)
  | nop1
  | nop2
  | nop3
  | nop4
  | nop5
  | nop6
  | nop7
  | nop8
  | nop9
  -- iforms of the fixture table T0 (spec/42_table_lookup.md R234)
  | addGprvMemv
  | addGprvGprv01
  | addMemvImmb
  | movGpr8Gpr8
  | movGprvImmv
  | jmpRelbrd
  | jzRelbrb
  | movzxGprvMemb
  | vaddpsVexRrr
  | vaddpsVexRrm
  | vaddpsEvexRkrr
  | enterImmwImmb
  | movsb
  deriving DecidableEq, Repr, Inhabited

end Sys2Proof
end

