-- ==== Sys2Proof/Config.lean ====
section
/-! DEFINITION. What is fixed for the machine (spec/00_scope.md R9) and the free values: constants with no body, so
that no proof can rest on what they are. -/

namespace Sys2Proof.Config

/-- P1, MAX_INSTRUCTION_BYTES. -/
def maxInstructionBytes : Nat := 15

/-- A byte of the output buffer after an ENCODE that failed in the Emit phase: "any value (a draw)"
(spec/20_memory.md R86). First argument: the number of the draw; second: the offset. Log 19. -/
opaque freeBufferByte : Nat → Nat → Byte

/-- The request after ENCODE, and in FATAL: "unspecified" (spec/10_state.md R41, spec/60_exceptions.md R394). Log 18. -/
opaque freeRequest : Nat → Request

/-- The length an ENCODE that failed reports: "unspecified" (spec/43_encode_dispatch.md R275). Log 20. -/
opaque freeLength : Nat → Nat

end Sys2Proof.Config
end

