-- ==== Sys2Proof/WellFormed.lean ====
section
/-! DEFINITION. Which instructions the encoder admits: every number fits the operand's bytes at the command port
(log 2), a register's class and offset likewise, a message holds at most 255 entries. -/

namespace Sys2Proof

/-- A natural operand fits its eight bytes. -/
def natFits (n : Nat) : Bool := decide (n < 2 ^ 64)

/-- A register identifier fits its two bytes: a class number and an offset. -/
def regFits : RegOrInvalid → Bool
  | none => true
  | some r =>
    decide (r.off < 256) &&
      match r.cls with
      | .other id => decide (id < 240)
      | _ => true

/-- The registers of the nine slots. -/
def RegFile.wf (f : RegFile) : Bool :=
  regFits f.r0 && regFits f.r1 && regFits f.r2 && regFits f.r3
    && regFits f.r4 && regFits f.r5 && regFits f.r6 && regFits f.r7
    && regFits f.r8

/-- The fields of a decoded record: numbers fit, registers too, and no order array, which D does not carry
(R35: its fields are those of R21 to R27). -/
def Request.wf (q : Request) : Bool :=
  natFits q.mode && natFits q.smode && natFits q.iclass && natFits q.eosz && natFits q.easz && q.regs.wf
    && regFits q.base0 && regFits q.index && natFits q.scale && regFits q.seg0
    && regFits q.base1 && regFits q.seg1 && natFits q.dispWidth && natFits q.brdispWidth
    && natFits q.immWidth && natFits q.vl && natFits q.roundc && decide (q.named.length < 256)
    && q.named.all (fun e => natFits e.1 && natFits e.2) && decide (q.order = []) && decide (q.norder = 0)

/-- A field assignment; a name that is none of R21 to R29 has a number from 59 to 255 (log 2). -/
def FieldAssign.wf : FieldAssign → Bool
  | .mode v | .smode v | .iclass v | .eosz v | .easz v | .scale v | .dispWidth v | .brdispWidth v | .immWidth v
  | .vl v | .roundc v | .norder v => natFits v
  | .reg _ v | .base0 v | .index v | .seg0 v | .base1 v | .seg1 v => regFits v
  | .orderEntry k _ => natFits k
  | .named i v => decide (59 ≤ i ∧ i < 256) && natFits v
  | _ => true

/-- The payload of a MEM descriptor. -/
def MemDesc.wf (m : MemDesc) : Bool :=
  regFits m.base && regFits m.index && regFits m.seg && natFits m.scale
    && natFits m.dispWidth && natFits m.dataWidth

/-- A descriptor; an unrecognized tag is a byte (that it is the tag of no descriptor is `Descriptor.tagFits`). -/
def Descriptor.wf : Descriptor → Bool
  | .reg r => regFits r
  | .brdisp _ w | .ptr _ w | .uimm0 _ w | .simm0 _ w => natFits w
  | .imm1 _ => true
  | .mem m => m.wf
  | .other f => f.wf
  | .unrecognized t => decide (t < 256)

/-- A recorded location, or the absent one. -/
def locWf : Option FieldLoc → Bool
  | none => true
  | some l => natFits l.pos && natFits l.width

/-- A decoded record (R35). -/
def DecodedRecord.wf (d : DecodedRecord) : Bool :=
  d.fields.wf && natFits d.iclass && decide (d.operands.length < 256) && natFits d.length && locWf d.dispLoc
    && locWf d.brdispLoc && locWf d.imm0Loc

/-- The displacement and immediate wire items carry a value of their own width (R112 to R114). -/
def DispWidth.bits : DispWidth → Nat
  | .w8 => 8
  | .w16 => 16
  | .w32 => 32

def FarWidth.bits : FarWidth → Nat
  | .w16 => 16
  | .w32 => 32

def ImmWidth.bits : ImmWidth → Nat
  | .w8 => 8
  | .w16 => 16
  | .w32 => 32
  | .w64 => 64

def Imm0Item.wf : Imm0Item → Bool
  | .value w v => decide (v.toNat < 2 ^ w.bits)
  | .is4 _ _ => true

/-- Well-formed instructions. -/
def Instr.wf : Instr → Bool
  | .reqInit a b => natFits a && natFits b
  | .setIclass n | .setEosz n | .setEasz n | .setScale n | .getOperandOrder n | .encode n | .encodeNop n => natFits n
  | .setReg s r => natFits s && regFits r
  | .setDisp _ w | .setDispBits _ w | .setBrdisp _ w | .setUimm0 _ w | .setSimm0 _ w | .emitBits w _ => natFits w
  | .setBase0 r | .setBase1 r | .setIndex r | .setSeg0 r | .setSeg1 r | .descReg r => regFits r
  | .setOperandOrder k _ => natFits k
  | .setField f | .descOther f => f.wf
  | .build m sm ic eo ea _ _ ds =>
    natFits m && natFits sm && natFits ic && natFits eo && natFits ea && decide (ds.length < 256) && ds.all Descriptor.wf
  | .initFromDecode d => d.wf
  | .patchDisp d _ w | .patchRelbr d _ w | .patchImm0 d _ w => d.wf && natFits w
  | .descBrdisp _ w | .descPtr _ w | .descUimm0 _ w | .descSimm0 _ w => natFits w
  | .descMem m => m.wf
  | .disp w v | .brdisp w v => decide (v.toNat < 2 ^ w.bits)
  | .farptr w o _ => decide (o.toNat < 2 ^ w.bits)
  | .imm0 f => f.wf
  | .setRep | .clearRep | .setRepne | .clearRepne | .setHintTaken | .setHintNotTaken | .setUimm1 _ | .setRelbr
  | .setPtr | .setAgen | .setMem0 | .setMem1 | .descImm1 _ | .pfxSegEs | .pfxSegCs | .pfxSegSs | .pfxSegDs
  | .pfxSegFs | .pfxSegGs | .pfxOsz | .pfxAsz | .pfxRepne | .pfxRep | .rex _ _ _ _ | .escMap1 | .escMap2 | .escMap3
  | .vex2 _ | .vex3 _ | .evex _ | .opcode _ | .modrm _ _ _ | .sib _ _ _ | .imm1 _ | .nop1 | .nop2 | .nop3 | .nop4
  | .nop5 | .nop6 | .nop7 | .nop8 | .nop9 | .addGprvMemv | .addGprvGprv01 | .addMemvImmb | .movGpr8Gpr8
  | .movGprvImmv | .jmpRelbrd | .jzRelbrb | .movzxGprvMemb | .vaddpsVexRrr | .vaddpsVexRrm | .vaddpsEvexRkrr
  | .enterImmwImmb | .movsb => true

end Sys2Proof
end

