-- ==== Sys2Proof/Decode.lean ====
section
/-! DEFINITION. Decoding and encoding at the command port.

A message is a format and bytes. The format says which kind of row of spec/opcode_table.json the bytes are (the
table's column "format"): rows of different kinds share words (0F is SET_SIMM0 and the escape of map 1), so bytes alone
do not name a row (log 3). A command is its 8-bit code followed by its operands (spec/30_encoding.md R100); operands are
abstract in the spec, their bytes are this model's (log 2): a natural number is eight bytes, least significant first; a
register is its class's number and its offset, two zero bytes are INVALID; a name is one byte. Bytes after the last
operand are ignored. -/

namespace Sys2Proof

/-- The kinds of message (the column "format" of the table; the wire items whose pattern has no fixed bit have a kind
of their own). -/
inductive Format where
  | command | descriptor | wire
  | opcodeByte | modrmByte | sibByte | dispField | brdispField | farPointer | imm0Field | imm1Byte
  | nopRow | iformRow
  deriving DecidableEq, Repr, Inhabited

/-- One message of the host. -/
structure Packet where
  format : Format
  bytes : List Byte
  deriving DecidableEq, Repr, Inhabited

/-- Why a message is no instruction. -/
inductive DecodeError where
  /-- The message ends before its last operand. -/
  | truncated
  /-- A reserved command code (R118). -/
  | unknownCommand (code : Nat)
  /-- No row of this format has these bytes. -/
  | unknownRow
  /-- The descriptor tag is not 1 to 8 (R101; inside BUILD such a tag is an operand, R351). -/
  | unknownTag (tag : Nat)
  /-- The two bytes name no register class, or no member of it (spec/10_state.md R37; membership is tested by `step`,
  against the register space in force). -/
  | unknownRegister
  /-- The byte names no member of the operand's set. -/
  | unknownName (value : Nat)
  /-- The value does not fit the field. -/
  | tooWide (value : Nat)
  deriving DecidableEq, Repr, Inhabited

/-! ## The numbers of the commands and of the descriptor tags (parameter P20) -/

/-- The 8-bit codes of the commands of R100, in the order of `tableCommands`, and the tags of the descriptors of R101, in the
order of `tableTags` (spec/00_scope.md R9 P20, spec/93_implementation_defined.md U20). -/
structure PortCodes where
  commands : List Nat
  tags : List Nat
  deriving DecidableEq, Repr, Inhabited

/-- The codes of R100. -/
def tableCommands : List Nat :=
  [0x00, 0x01, 0x02, 0x03, 0x04, 0x05, 0x06, 0x07, 0x08, 0x09, 0x0A, 0x0B, 0x0C, 0x0D, 0x0E, 0x0F, 0x10, 0x11, 0x12, 0x13,
    0x14, 0x15, 0x16, 0x17, 0x18, 0x19, 0x1A, 0x1B, 0x1C, 0x1D, 0x1E, 0x20, 0x21, 0x22, 0x30, 0x40, 0x41, 0x42, 0x43]

/-- The tags of R101. -/
def tableTags : List Nat := [1, 2, 3, 4, 5, 6, 7, 8]

/-- The default numbers. -/
def defaultPort : PortCodes where
  commands := tableCommands
  tags := tableTags

/-- The entry of the second list at the place a number has in the first. -/
def renumber (n : Nat) : List Nat → List Nat → Option Nat
  | a :: as, b :: bs => if a = n then some b else renumber n as bs
  | _, _ => none

/-- The command of R100 that a code stands for. -/
def PortCodes.commandOf (c : PortCodes) (n : Nat) : Option Nat := renumber n c.commands tableCommands

/-- The descriptor of R101 that a tag stands for. -/
def PortCodes.tagOf (c : PortCodes) (n : Nat) : Option Nat := renumber n c.tags tableTags

/-- The code of a command of R100. -/
def PortCodes.commandAt (c : PortCodes) (n : Nat) : Nat := (renumber n tableCommands c.commands).getD n

/-- The tag of a descriptor of R101. -/
def PortCodes.tagAt (c : PortCodes) (n : Nat) : Nat := (renumber n tableTags c.tags).getD n

/-- Every command and every tag has its own number of one byte. -/
def PortCodes.wf (c : PortCodes) : Bool :=
  decide (c.commands.length = tableCommands.length ∧ c.tags.length = tableTags.length ∧ c.commands.Nodup ∧ c.tags.Nodup)
    && c.commands.all (fun n => decide (n < 256)) && c.tags.all (fun n => decide (n < 256))

/-! ## Readers and writers -/

/-- A reader of bytes: a value and the bytes left, or the reason there is none. -/
abbrev Dec (α : Type) := StateT (List Byte) (Except DecodeError) α

/-- Refuses with a reason. -/
def Dec.fail {α : Type} (e : DecodeError) : Dec α := fun _ => .error e

/-- One byte. -/
def getByte : Dec Byte := fun bs =>
  match bs with
  | [] => .error .truncated
  | b :: rest => .ok (b, rest)

def putByte (b : Byte) : List Byte := [b]

/-- A row's number as its one-byte code. -/
def putTag (n : Nat) : List Byte := [BitVec.ofNat 8 n]

/-- The number whose bytes these are, least significant first (spec/20_memory.md R73). -/
def fromLE : List Byte → Nat
  | [] => 0
  | b :: rest => b.toNat + 256 * fromLE rest

/-- The low `n` bytes of a number, least significant first (spec/20_memory.md R73). -/
def leBytes : Nat → Nat → List Byte
  | 0, _ => []
  | n + 1, v => BitVec.ofNat 8 v :: leBytes n (v / 256)

/-- `n` bytes as a number, least significant first. -/
def getLE : Nat → Dec Nat
  | 0 => pure 0
  | n + 1 => do
    let b ← getByte
    let v ← getLE n
    return b.toNat + 256 * v

/-- A natural operand: eight bytes (log 2). -/
def getNat : Dec Nat := getLE 8

def putNat (n : Nat) : List Byte := leBytes 8 n

def getWord64 : Dec Word64 := BitVec.ofNat 64 <$> getLE 8

def putWord64 (v : Word64) : List Byte := leBytes 8 v.toNat

def getWord32 : Dec (BitVec 32) := BitVec.ofNat 32 <$> getLE 4

def putWord32 (v : BitVec 32) : List Byte := leBytes 4 v.toNat

/-- A field of `w` bits in a byte of its own. -/
def getBits (w : Nat) : Dec (BitVec w) := do
  let b ← getByte
  if b.toNat < 2 ^ w then return BitVec.ofNat w b.toNat else Dec.fail (.tooWide b.toNat)

def putBits {w : Nat} (v : BitVec w) : List Byte := putTag v.toNat

/-- A flag: 0 or 1. -/
def getBool : Dec Bool := do
  let b ← getByte
  match b.toNat with
  | 0 => return false
  | 1 => return true
  | n => Dec.fail (.unknownName n)

def putBool (b : Bool) : List Byte := putTag b.toNat

/-- The number of a register class at the port, from 1 (0 is INVALID, R39). -/
def RegClass.code : RegClass → Nat
  | .gpr8 => 1 | .gpr8h => 2 | .gpr16 => 3 | .gpr32 => 4 | .gpr64 => 5 | .mmx => 6 | .xmm => 7 | .ymm => 8
  | .zmm => 9 | .mask => 10 | .cr => 11 | .dr => 12 | .seg => 13 | .x87 => 14 | .ip => 15
  | .other id => 16 + id

def RegClass.ofCode : Nat → Option RegClass
  | 0 => none
  | 1 => some .gpr8 | 2 => some .gpr8h | 3 => some .gpr16 | 4 => some .gpr32 | 5 => some .gpr64 | 6 => some .mmx
  | 7 => some .xmm | 8 => some .ymm | 9 => some .zmm | 10 => some .mask | 11 => some .cr | 12 => some .dr
  | 13 => some .seg | 14 => some .x87 | 15 => some .ip
  | n => some (.other (n - 16))

/-- A register identifier or INVALID. -/
def getReg : Dec RegOrInvalid := do
  let c ← getByte
  let o ← getByte
  if c = 0 then
    (if o = 0 then return none else Dec.fail .unknownRegister)
  else
    match RegClass.ofCode c.toNat with
    | none => Dec.fail .unknownRegister
    | some cls => return some ⟨cls, o.toNat⟩

def putReg : RegOrInvalid → List Byte
  | none => putTag 0 ++ putTag 0
  | some r => putTag r.cls.code ++ putTag r.off

/-- The number of an operand name at the port (R29); 0 is INVALID. -/
def OperandName.code : OperandName → Nat
  | .invalid => 0 | .reg0 => 1 | .reg1 => 2 | .reg2 => 3 | .reg3 => 4 | .reg4 => 5 | .reg5 => 6 | .reg6 => 7
  | .reg7 => 8 | .reg8 => 9 | .mem0 => 10 | .mem1 => 11 | .agen => 12 | .imm0 => 13 | .imm1 => 14 | .relbr => 15
  | .ptr => 16

def getName : Dec OperandName := do
  let b ← getByte
  match b.toNat with
  | 0 => return .invalid
  | 1 => return .reg0
  | 2 => return .reg1
  | 3 => return .reg2
  | 4 => return .reg3
  | 5 => return .reg4
  | 6 => return .reg5
  | 7 => return .reg6
  | 8 => return .reg7
  | 9 => return .reg8
  | 10 => return .mem0
  | 11 => return .mem1
  | 12 => return .agen
  | 13 => return .imm0
  | 14 => return .imm1
  | 15 => return .relbr
  | 16 => return .ptr
  | n => Dec.fail (.unknownName n)

def putName (n : OperandName) : List Byte := putTag n.code

/-- NONE, REP, REPNE (R25). -/
def getRep : Dec Rep := do
  let b ← getByte
  match b.toNat with
  | 0 => return .none
  | 1 => return .rep
  | 2 => return .repne
  | n => Dec.fail (.unknownName n)

def putRep : Rep → List Byte
  | .none => putTag 0
  | .rep => putTag 1
  | .repne => putTag 2

/-- NONE, TAKEN, NOT_TAKEN (R25). -/
def getHint : Dec Hint := do
  let b ← getByte
  match b.toNat with
  | 0 => return .none
  | 1 => return .taken
  | 2 => return .notTaken
  | n => Dec.fail (.unknownName n)

def putHint : Hint → List Byte
  | .none => putTag 0
  | .taken => putTag 1
  | .notTaken => putTag 2

/-- The number of a return code at the port, as a field value (log 2); the numbers delivered are parameter P13. -/
def ReturnCode.tag : ReturnCode → Nat
  | .noError => 0
  | .bufferTooShort => 1
  | .generalError => 2

/-- A return code by its number at the port. -/
def getCode : Dec ReturnCode := do
  let b ← getByte
  match b.toNat with
  | 0 => return .noError
  | 1 => return .bufferTooShort
  | 2 => return .generalError
  | n => Dec.fail (.unknownName n)

def putCode (c : ReturnCode) : List Byte := putTag c.tag

/-- A register slot 0 to 8 (R22). -/
def getSlot : Dec (Fin 9) := do
  let b ← getByte
  if h : b.toNat < 9 then return ⟨b.toNat, h⟩ else Dec.fail (.unknownName b.toNat)

def putSlot (s : Fin 9) : List Byte := putTag s.val

/-- The nine slots of a record. -/
def getRegFile : Dec RegFile := do
  let r0 ← getReg
  let r1 ← getReg
  let r2 ← getReg
  let r3 ← getReg
  let r4 ← getReg
  let r5 ← getReg
  let r6 ← getReg
  let r7 ← getReg
  let r8 ← getReg
  return ⟨r0, r1, r2, r3, r4, r5, r6, r7, r8⟩

def putRegFile (f : RegFile) : List Byte :=
  putReg f.r0 ++ (putReg f.r1 ++ (putReg f.r2 ++ (putReg f.r3 ++ (putReg f.r4 ++ (putReg f.r5 ++ (putReg f.r6 ++
    (putReg f.r7 ++ putReg f.r8)))))))

/-- The derived bits of a record (R27). -/
def getDerived : Dec Derived := do
  let hasModrm ← getBool
  let mod ← getBits 2
  let reg ← getBits 3
  let rm ← getBits 3
  let hasSib ← getBool
  let sibscale ← getBits 2
  let sibindex ← getBits 3
  let sibbase ← getBits 3
  let rexw ← getBool
  let rexr ← getBool
  let rexx ← getBool
  let rexb ← getBool
  let rexrr ← getBool
  let vvvv ← getBits 4
  let vexdest4 ← getBool
  let aaa ← getBits 3
  let needrex ← getBool
  let norex ← getBool
  let osz ← getBool
  let asz ← getBool
  let segpfx ← getByte
  let opcodeLow3 ← getBits 3
  return {
    hasModrm := hasModrm, mod := mod, reg := reg, rm := rm, hasSib := hasSib, sibscale := sibscale,
    sibindex := sibindex, sibbase := sibbase, rexw := rexw, rexr := rexr, rexx := rexx, rexb := rexb,
    rexrr := rexrr, vvvv := vvvv, vexdest4 := vexdest4, aaa := aaa, needrex := needrex, norex := norex,
    osz := osz, asz := asz, segpfx := segpfx, opcodeLow3 := opcodeLow3 }

/-- The derived bits of a record, as bytes. -/
def putDerived (x : Derived) : List Byte :=
  putBool x.hasModrm ++ (putBits x.mod ++ (putBits x.reg ++ (putBits x.rm ++ (putBool x.hasSib ++ (
    putBits x.sibscale ++ (putBits x.sibindex ++ (putBits x.sibbase ++ (putBool x.rexw ++ (
    putBool x.rexr ++ (putBool x.rexx ++ (putBool x.rexb ++ (putBool x.rexrr ++ (putBits x.vvvv ++ (
    putBool x.vexdest4 ++ (putBits x.aaa ++ (putBool x.needrex ++ (putBool x.norex ++ (putBool x.osz ++ (
    putBool x.asz ++ (putByte x.segpfx ++ (putBits x.opcodeLow3)))))))))))))))))))))

/-- `n` entries, one after another. -/
def getMany {α : Type} (p : Dec α) : Nat → Dec (List α)
  | 0 => pure []
  | n + 1 => do
    let a ← p
    let rest ← getMany p n
    return a :: rest

def putMany {α : Type} (put : α → List Byte) : List α → List Byte
  | [] => []
  | a :: rest => put a ++ putMany put rest

/-- A further named field of a record: its number and its value. -/
def getNamedField : Dec (Nat × Nat) := do
  let id ← getNat
  let value ← getNat
  return (id, value)

def putNamedField (e : Nat × Nat) : List Byte := putNat e.1 ++ putNat e.2

/-- The further named fields of a record: how many, then each. -/
def getNamedFields : Dec (List (Nat × Nat)) := do
  let n ← getByte
  getMany getNamedField n.toNat

def putNamedFields (l : List (Nat × Nat)) : List Byte := putTag l.length ++ putMany putNamedField l

/-- The request fields of a record, in the order of R21 to R27. -/
def getRequest : Dec Request := do
  let mode ← getNat
  let smode ← getNat
  let iclass ← getNat
  let eosz ← getNat
  let easz ← getNat
  let error ← getCode
  let regs ← getRegFile
  let base0 ← getReg
  let index ← getReg
  let scale ← getNat
  let seg0 ← getReg
  let base1 ← getReg
  let seg1 ← getReg
  let mem0 ← getBool
  let mem1 ← getBool
  let agen ← getBool
  let disp ← getWord64
  let dispWidth ← getNat
  let brdisp ← getWord64
  let brdispWidth ← getNat
  let relbr ← getBool
  let ptr ← getBool
  let imm0 ← getWord64
  let imm0Signed ← getBool
  let immWidth ← getNat
  let imm1 ← getByte
  let imm1Present ← getBool
  let rep ← getRep
  let hint ← getHint
  let vl ← getNat
  let mustUseEvex ← getBool
  let roundc ← getNat
  let zeroing ← getBool
  let sae ← getBool
  let bcast ← getBool
  let named ← getNamedFields
  let derived ← getDerived
  return {
    mode := mode, smode := smode, iclass := iclass, eosz := eosz, easz := easz, error := error, regs := regs,
    base0 := base0, index := index, scale := scale, seg0 := seg0, base1 := base1, seg1 := seg1, mem0 := mem0,
    mem1 := mem1, agen := agen, disp := disp, dispWidth := dispWidth, brdisp := brdisp,
    brdispWidth := brdispWidth, relbr := relbr, ptr := ptr, imm0 := imm0, imm0Signed := imm0Signed,
    immWidth := immWidth, imm1 := imm1, imm1Present := imm1Present, rep := rep, hint := hint, vl := vl,
    mustUseEvex := mustUseEvex, roundc := roundc, zeroing := zeroing, sae := sae, bcast := bcast,
    named := named, derived := derived }

/-- The request fields of a record, as bytes. -/
def putRequest (x : Request) : List Byte :=
  putNat x.mode ++ (putNat x.smode ++ (putNat x.iclass ++ (putNat x.eosz ++ (putNat x.easz ++ (
    putCode x.error ++ (putRegFile x.regs ++ (putReg x.base0 ++ (putReg x.index ++ (putNat x.scale ++ (
    putReg x.seg0 ++ (putReg x.base1 ++ (putReg x.seg1 ++ (putBool x.mem0 ++ (putBool x.mem1 ++ (
    putBool x.agen ++ (putWord64 x.disp ++ (putNat x.dispWidth ++ (putWord64 x.brdisp ++ (
    putNat x.brdispWidth ++ (putBool x.relbr ++ (putBool x.ptr ++ (putWord64 x.imm0 ++ (
    putBool x.imm0Signed ++ (putNat x.immWidth ++ (putByte x.imm1 ++ (putBool x.imm1Present ++ (
    putRep x.rep ++ (putHint x.hint ++ (putNat x.vl ++ (putBool x.mustUseEvex ++ (putNat x.roundc ++ (
    putBool x.zeroing ++ (putBool x.sae ++ (putBool x.bcast ++ (putNamedFields x.named ++ (putDerived x.derived))))))))))))))))))))))))))))))))))))

/-- A field name and its value: a number for the field, then the value (log 2). -/
def getField : Dec FieldAssign := do
  let id ← getByte
  match id.toNat with
  | 0 => FieldAssign.mode <$> getNat
  | 1 => FieldAssign.smode <$> getNat
  | 2 => FieldAssign.iclass <$> getNat
  | 3 => FieldAssign.eosz <$> getNat
  | 4 => FieldAssign.easz <$> getNat
  | 5 => FieldAssign.error <$> getCode
  | 6 => do
    let s ← getSlot
    let v ← getReg
    return .reg s v
  | 7 => FieldAssign.base0 <$> getReg
  | 8 => FieldAssign.index <$> getReg
  | 9 => FieldAssign.scale <$> getNat
  | 10 => FieldAssign.seg0 <$> getReg
  | 11 => FieldAssign.base1 <$> getReg
  | 12 => FieldAssign.seg1 <$> getReg
  | 13 => FieldAssign.mem0 <$> getBool
  | 14 => FieldAssign.mem1 <$> getBool
  | 15 => FieldAssign.agen <$> getBool
  | 16 => FieldAssign.disp <$> getWord64
  | 17 => FieldAssign.dispWidth <$> getNat
  | 18 => FieldAssign.brdisp <$> getWord64
  | 19 => FieldAssign.brdispWidth <$> getNat
  | 20 => FieldAssign.relbr <$> getBool
  | 21 => FieldAssign.ptr <$> getBool
  | 22 => FieldAssign.imm0 <$> getWord64
  | 23 => FieldAssign.imm0Signed <$> getBool
  | 24 => FieldAssign.immWidth <$> getNat
  | 25 => FieldAssign.imm1 <$> getByte
  | 26 => FieldAssign.imm1Present <$> getBool
  | 27 => FieldAssign.rep <$> getRep
  | 28 => FieldAssign.hint <$> getHint
  | 29 => FieldAssign.vl <$> getNat
  | 30 => FieldAssign.mustUseEvex <$> getBool
  | 31 => FieldAssign.roundc <$> getNat
  | 32 => FieldAssign.zeroing <$> getBool
  | 33 => FieldAssign.sae <$> getBool
  | 34 => FieldAssign.bcast <$> getBool
  | 35 => FieldAssign.hasModrm <$> getBool
  | 36 => FieldAssign.mod <$> getBits 2
  | 37 => FieldAssign.modrmReg <$> getBits 3
  | 38 => FieldAssign.rm <$> getBits 3
  | 39 => FieldAssign.hasSib <$> getBool
  | 40 => FieldAssign.sibscale <$> getBits 2
  | 41 => FieldAssign.sibindex <$> getBits 3
  | 42 => FieldAssign.sibbase <$> getBits 3
  | 43 => FieldAssign.rexw <$> getBool
  | 44 => FieldAssign.rexr <$> getBool
  | 45 => FieldAssign.rexx <$> getBool
  | 46 => FieldAssign.rexb <$> getBool
  | 47 => FieldAssign.rexrr <$> getBool
  | 48 => FieldAssign.vvvv <$> getBits 4
  | 49 => FieldAssign.vexdest4 <$> getBool
  | 50 => FieldAssign.aaa <$> getBits 3
  | 51 => FieldAssign.needrex <$> getBool
  | 52 => FieldAssign.norex <$> getBool
  | 53 => FieldAssign.osz <$> getBool
  | 54 => FieldAssign.asz <$> getBool
  | 55 => FieldAssign.segpfx <$> getByte
  | 56 => FieldAssign.opcodeLow3 <$> getBits 3
  | 57 => do
    let k ← getNat
    let v ← getName
    return .orderEntry k v
  | 58 => FieldAssign.norder <$> getNat
  | i => FieldAssign.named i <$> getNat

/-- A field name and its value, as bytes. -/
def putField : FieldAssign → List Byte
  | .mode v => putTag 0 ++ putNat v
  | .smode v => putTag 1 ++ putNat v
  | .iclass v => putTag 2 ++ putNat v
  | .eosz v => putTag 3 ++ putNat v
  | .easz v => putTag 4 ++ putNat v
  | .error v => putTag 5 ++ putCode v
  | .reg s v => putTag 6 ++ (putSlot s ++ putReg v)
  | .base0 v => putTag 7 ++ putReg v
  | .index v => putTag 8 ++ putReg v
  | .scale v => putTag 9 ++ putNat v
  | .seg0 v => putTag 10 ++ putReg v
  | .base1 v => putTag 11 ++ putReg v
  | .seg1 v => putTag 12 ++ putReg v
  | .mem0 v => putTag 13 ++ putBool v
  | .mem1 v => putTag 14 ++ putBool v
  | .agen v => putTag 15 ++ putBool v
  | .disp v => putTag 16 ++ putWord64 v
  | .dispWidth v => putTag 17 ++ putNat v
  | .brdisp v => putTag 18 ++ putWord64 v
  | .brdispWidth v => putTag 19 ++ putNat v
  | .relbr v => putTag 20 ++ putBool v
  | .ptr v => putTag 21 ++ putBool v
  | .imm0 v => putTag 22 ++ putWord64 v
  | .imm0Signed v => putTag 23 ++ putBool v
  | .immWidth v => putTag 24 ++ putNat v
  | .imm1 v => putTag 25 ++ putByte v
  | .imm1Present v => putTag 26 ++ putBool v
  | .rep v => putTag 27 ++ putRep v
  | .hint v => putTag 28 ++ putHint v
  | .vl v => putTag 29 ++ putNat v
  | .mustUseEvex v => putTag 30 ++ putBool v
  | .roundc v => putTag 31 ++ putNat v
  | .zeroing v => putTag 32 ++ putBool v
  | .sae v => putTag 33 ++ putBool v
  | .bcast v => putTag 34 ++ putBool v
  | .hasModrm v => putTag 35 ++ putBool v
  | .mod v => putTag 36 ++ putBits v
  | .modrmReg v => putTag 37 ++ putBits v
  | .rm v => putTag 38 ++ putBits v
  | .hasSib v => putTag 39 ++ putBool v
  | .sibscale v => putTag 40 ++ putBits v
  | .sibindex v => putTag 41 ++ putBits v
  | .sibbase v => putTag 42 ++ putBits v
  | .rexw v => putTag 43 ++ putBool v
  | .rexr v => putTag 44 ++ putBool v
  | .rexx v => putTag 45 ++ putBool v
  | .rexb v => putTag 46 ++ putBool v
  | .rexrr v => putTag 47 ++ putBool v
  | .vvvv v => putTag 48 ++ putBits v
  | .vexdest4 v => putTag 49 ++ putBool v
  | .aaa v => putTag 50 ++ putBits v
  | .needrex v => putTag 51 ++ putBool v
  | .norex v => putTag 52 ++ putBool v
  | .osz v => putTag 53 ++ putBool v
  | .asz v => putTag 54 ++ putBool v
  | .segpfx v => putTag 55 ++ putByte v
  | .opcodeLow3 v => putTag 56 ++ putBits v
  | .orderEntry k v => putTag 57 ++ (putNat k ++ putName v)
  | .norder v => putTag 58 ++ putNat v
  | .named i v => putTag i ++ putNat v

/-- The payload of a MEM descriptor (R101 tag 7, in the rule's order). -/
def getMemDesc : Dec MemDesc := do
  let base ← getReg
  let index ← getReg
  let seg ← getReg
  let scale ← getNat
  let dispValue ← getWord64
  let dispWidth ← getNat
  let dataWidth ← getNat
  return ⟨base, index, seg, scale, dispValue, dispWidth, dataWidth⟩

def putMemDesc (m : MemDesc) : List Byte :=
  putReg m.base ++ (putReg m.index ++ (putReg m.seg ++ (putNat m.scale ++ (putWord64 m.dispValue ++
    (putNat m.dispWidth ++ putNat m.dataWidth)))))

/-- An Operand Descriptor: the tag byte of R101, then its payload; an unrecognized tag has none. -/
def getDescriptor (c : PortCodes) : Dec Descriptor := do
  let tag ← getByte
  match c.tagOf tag.toNat with
  | some 1 => Descriptor.reg <$> getReg
  | some 2 => do
    let v ← getWord32
    let w ← getNat
    return .brdisp v w
  | some 3 => do
    let v ← getWord32
    let w ← getNat
    return .ptr v w
  | some 4 => do
    let v ← getWord64
    let w ← getNat
    return .uimm0 v w
  | some 5 => do
    let v ← getWord32
    let w ← getNat
    return .simm0 v w
  | some 6 => Descriptor.imm1 <$> getByte
  | some 7 => Descriptor.mem <$> getMemDesc
  | some 8 => Descriptor.other <$> getField
  | _ => return .unrecognized tag.toNat

def putDescriptor (c : PortCodes) : Descriptor → List Byte
  | .reg r => putTag (c.tagAt 1) ++ putReg r
  | .brdisp v w => putTag (c.tagAt 2) ++ (putWord32 v ++ putNat w)
  | .ptr v w => putTag (c.tagAt 3) ++ (putWord32 v ++ putNat w)
  | .uimm0 v w => putTag (c.tagAt 4) ++ (putWord64 v ++ putNat w)
  | .simm0 v w => putTag (c.tagAt 5) ++ (putWord32 v ++ putNat w)
  | .imm1 v => putTag (c.tagAt 6) ++ putByte v
  | .mem m => putTag (c.tagAt 7) ++ putMemDesc m
  | .other f => putTag (c.tagAt 8) ++ putField f
  | .unrecognized t => putTag t

/-- BUILD's `n` and its descriptors 0 to n-1 (R100). -/
def getDescriptors (c : PortCodes) : Dec (List Descriptor) := do
  let n ← getByte
  getMany (getDescriptor c) n.toNat

def putDescriptors (c : PortCodes) (ds : List Descriptor) : List Byte :=
  putTag ds.length ++ putMany (putDescriptor c) ds

/-- A recorded location, "absent" or a pair (spec/10_state.md R35). -/
def getLoc : Dec (Option FieldLoc) := do
  let present ← getBool
  if present then do
    let pos ← getNat
    let width ← getNat
    return some ⟨pos, width⟩
  else return none

def putLoc : Option FieldLoc → List Byte
  | none => putBool false
  | some l => putBool true ++ (putNat l.pos ++ putNat l.width)

def getOperand : Dec DecodedOperand := do
  let name ← getName
  let suppressed ← getBool
  return ⟨name, suppressed⟩

def putOperand (o : DecodedOperand) : List Byte := putName o.name ++ putBool o.suppressed

/-- The decoded-instruction record `D` (R35). -/
def getRecord : Dec DecodedRecord := do
  let fields ← getRequest
  let iclass ← getNat
  let n ← getByte
  let operands ← getMany getOperand n.toNat
  let length ← getNat
  let dispLoc ← getLoc
  let brdispLoc ← getLoc
  let imm0Loc ← getLoc
  let evexMaskFeatures ← getBool
  let disp8Guarantee ← getBool
  return ⟨fields, iclass, operands, length, dispLoc, brdispLoc, imm0Loc, evexMaskFeatures, disp8Guarantee⟩

def putRecord (d : DecodedRecord) : List Byte :=
  putRequest d.fields ++ (putNat d.iclass ++ (putTag d.operands.length ++ (putMany putOperand d.operands ++
    (putNat d.length ++ (putLoc d.dispLoc ++ (putLoc d.brdispLoc ++ (putLoc d.imm0Loc ++
      (putBool d.evexMaskFeatures ++ putBool d.disp8Guarantee))))))))

/-- The operands of the command that R100 gives the code `code` (exact match on all eight bits; R118: any other is reserved). -/
def getCommand (c : PortCodes) (code : Nat) : Dec Instr :=
  match code with
  | 0x00 => do
    let mode ← getNat
    let smode ← getNat
    return .reqInit mode smode
  | 0x01 => Instr.setIclass <$> getNat
  | 0x02 => Instr.setEosz <$> getNat
  | 0x03 => Instr.setEasz <$> getNat
  | 0x04 => pure .setRep
  | 0x05 => pure .clearRep
  | 0x06 => pure .setRepne
  | 0x07 => pure .clearRepne
  | 0x08 => pure .setHintTaken
  | 0x09 => pure .setHintNotTaken
  | 0x0A => do
    let slot ← getNat
    let r ← getReg
    return .setReg slot r
  | 0x0B => do
    let value ← getWord64
    let widthBytes ← getNat
    return .setDisp value widthBytes
  | 0x0C => do
    let value ← getWord64
    let width ← getNat
    return .setDispBits value width
  | 0x0D => do
    let value ← getWord64
    let width ← getNat
    return .setBrdisp value width
  | 0x0E => do
    let value ← getWord64
    let width ← getNat
    return .setUimm0 value width
  | 0x0F => do
    let value ← getWord32
    let width ← getNat
    return .setSimm0 value width
  | 0x10 => Instr.setUimm1 <$> getWord64
  | 0x11 => Instr.setBase0 <$> getReg
  | 0x12 => Instr.setBase1 <$> getReg
  | 0x13 => Instr.setIndex <$> getReg
  | 0x14 => Instr.setScale <$> getNat
  | 0x15 => Instr.setSeg0 <$> getReg
  | 0x16 => Instr.setSeg1 <$> getReg
  | 0x17 => pure .setRelbr
  | 0x18 => pure .setPtr
  | 0x19 => pure .setAgen
  | 0x1A => pure .setMem0
  | 0x1B => pure .setMem1
  | 0x1C => do
    let position ← getNat
    let name ← getName
    return .setOperandOrder position name
  | 0x1D => Instr.getOperandOrder <$> getNat
  | 0x1E => Instr.setField <$> getField
  | 0x20 => do
    let width ← getNat
    let value ← getWord64
    return .emitBits width value
  | 0x21 => Instr.encode <$> getNat
  | 0x22 => Instr.encodeNop <$> getNat
  | 0x30 => do
    let mode ← getNat
    let smode ← getNat
    let iclass ← getNat
    let eosz ← getNat
    let easz ← getNat
    let rep ← getRep
    let hint ← getHint
    let ds ← getDescriptors c
    return .build mode smode iclass eosz easz rep hint ds
  | 0x40 => Instr.initFromDecode <$> getRecord
  | 0x41 => do
    let d ← getRecord
    let value ← getWord64
    let width ← getNat
    return .patchDisp d value width
  | 0x42 => do
    let d ← getRecord
    let value ← getWord64
    let width ← getNat
    return .patchRelbr d value width
  | 0x43 => do
    let d ← getRecord
    let value ← getWord64
    let width ← getNat
    return .patchImm0 d value width
  | n => Dec.fail (.unknownCommand n)

/-- A command message (R100): a code that stands for no command is reserved (R118). -/
def getCommandMessage (c : PortCodes) : Dec Instr := do
  let code ← getByte
  match c.commandOf code.toNat with
  | some k => getCommand c k
  | none => Dec.fail (.unknownCommand code.toNat)

/-- A descriptor message: one operand of BUILD (R101). -/
def getDescriptorMessage (c : PortCodes) : Dec Instr := do
  let d ← getDescriptor c
  match d with
  | .reg r => return .descReg r
  | .brdisp v w => return .descBrdisp v w
  | .ptr v w => return .descPtr v w
  | .uimm0 v w => return .descUimm0 v w
  | .simm0 v w => return .descSimm0 v w
  | .imm1 v => return .descImm1 v
  | .mem m => return .descMem m
  | .other f => return .descOther f
  | .unrecognized t => Dec.fail (.unknownTag t)

/-- The wire items whose pattern has fixed bits: the bytes are those of the wire (R103 to R108). -/
def wireRow : List Byte → Except DecodeError Instr
  | [] => .error .truncated
  | b0 :: rest =>
    match b0.toNat with
    | 0x26 => .ok .pfxSegEs
    | 0x2E => .ok .pfxSegCs
    | 0x36 => .ok .pfxSegSs
    | 0x3E => .ok .pfxSegDs
    | 0x64 => .ok .pfxSegFs
    | 0x65 => .ok .pfxSegGs
    | 0x66 => .ok .pfxOsz
    | 0x67 => .ok .pfxAsz
    | 0xF2 => .ok .pfxRepne
    | 0xF3 => .ok .pfxRep
    | 0x0F =>
      match rest with
      | [] => .ok .escMap1
      | b1 :: _ => .ok (if b1 = 0x38 then .escMap2 else if b1 = 0x3A then .escMap3 else .escMap1)
    | 0xC5 =>
      match rest with
      | b1 :: _ =>
        .ok (.vex2 ⟨b1.extractLsb' 7 1, b1.extractLsb' 3 4, b1.extractLsb' 2 1, b1.extractLsb' 0 2⟩)
      | _ => .error .truncated
    | 0xC4 =>
      match rest with
      | b1 :: b2 :: _ =>
        .ok (.vex3 ⟨b1.extractLsb' 7 1, b1.extractLsb' 6 1, b1.extractLsb' 5 1, b1.extractLsb' 0 5,
          b2.extractLsb' 7 1, b2.extractLsb' 3 4, b2.extractLsb' 2 1, b2.extractLsb' 0 2⟩)
      | _ => .error .truncated
    | 0x62 =>
      match rest with
      | b1 :: b2 :: b3 :: _ =>
        if b1.extractLsb' 3 1 = 0 ∧ b2.extractLsb' 2 1 = 1 then
          .ok (.evex ⟨b1.extractLsb' 7 1, b1.extractLsb' 6 1, b1.extractLsb' 5 1, b1.extractLsb' 4 1,
            b1.extractLsb' 0 3, b2.extractLsb' 7 1, b2.extractLsb' 3 4, b2.extractLsb' 0 2, b3.extractLsb' 7 1,
            b3.extractLsb' 5 2, b3.extractLsb' 4 1, b3.extractLsb' 3 1, b3.extractLsb' 0 3⟩)
        else .error .unknownRow
      | _ => .error .truncated
    | _ =>
      if b0.extractLsb' 4 4 = 0x4 then
        .ok (.rex (b0.extractLsb' 3 1) (b0.extractLsb' 2 1) (b0.extractLsb' 1 1) (b0.extractLsb' 0 1))
      else .error .unknownRow

/-- The bytes of the NOP rows, as R115 gives them (the row of length 5 is the source's literal). -/
def nopLiteral : Nat → List Byte
  | 1 => [0x90]
  | 2 => [0x66, 0x90]
  | 3 => [0x0F, 0x1F, 0x00]
  | 4 => [0x0F, 0x1F, 0x40, 0x00]
  | 5 => [0x0F, 0x1F, 0x44, 0x00, 0x00]
  | 6 => [0x66, 0x0F, 0x1F, 0x44, 0x00, 0x00]
  | 7 => [0x0F, 0x1F, 0x80, 0x00, 0x00, 0x00, 0x00]
  | 8 => [0x0F, 0x1F, 0x84, 0x00, 0x00, 0x00, 0x00, 0x00]
  | 9 => [0x66, 0x0F, 0x1F, 0x84, 0x00, 0x00, 0x00, 0x00, 0x00]
  | _ => []

/-- The message begins with the bytes of the NOP row of that length. -/
def startsWithNop (n : Nat) (bs : List Byte) : Bool := (nopLiteral n).isPrefixOf bs

/-- A row of the NOP table: the message begins with its bytes (R115). -/
def nopRow (bs : List Byte) : Except DecodeError Instr :=
  if startsWithNop 1 bs then .ok .nop1
  else if startsWithNop 2 bs then .ok .nop2
  else if startsWithNop 3 bs then .ok .nop3
  else if startsWithNop 4 bs then .ok .nop4
  else if startsWithNop 5 bs then .ok .nop5
  else if startsWithNop 6 bs then .ok .nop6
  else if startsWithNop 7 bs then .ok .nop7
  else if startsWithNop 8 bs then .ok .nop8
  else if startsWithNop 9 bs then .ok .nop9
  else .error .unknownRow

/-- The bits 7:6 of a ModRM byte are 11: a register in RM (R110). -/
def isRegisterModrm (b : Byte) : Bool := b.extractLsb' 6 2 == 3

/-- An iform of the fixture table, by the pattern the opcode table gives it (spec/42_table_lookup.md R234). The bits
the pattern leaves variable are computed by the engine (spec/10_state.md R27, R28): any value of them names the row. -/
def iformRow : List Byte → Except DecodeError Instr
  | [] => .error .truncated
  | b0 :: rest =>
    match b0.toNat with
    | 0x03 =>
      match rest with
      | _ :: _ => .ok .addGprvMemv
      | _ => .error .truncated
    | 0x01 =>
      match rest with
      | b1 :: _ => if isRegisterModrm b1 then .ok .addGprvGprv01 else .error .unknownRow
      | _ => .error .truncated
    | 0x83 =>
      match rest with
      | b1 :: _ :: _ => if b1.extractLsb' 3 3 = 0 then .ok .addMemvImmb else .error .unknownRow
      | _ => .error .truncated
    | 0x88 =>
      match rest with
      | b1 :: _ => if isRegisterModrm b1 then .ok .movGpr8Gpr8 else .error .unknownRow
      | _ => .error .truncated
    | 0xE9 => .ok .jmpRelbrd
    | 0x74 => .ok .jzRelbrb
    | 0x0F =>
      match rest with
      | b1 :: _ :: _ => if b1 = 0xB6 then .ok .movzxGprvMemb else .error .unknownRow
      | _ => .error .truncated
    | 0xC5 =>
      match rest with
      | b1 :: b2 :: b3 :: _ =>
        if b1.extractLsb' 0 2 = 0 ∧ b2 = 0x58 then
          .ok (if isRegisterModrm b3 then .vaddpsVexRrr else .vaddpsVexRrm)
        else .error .unknownRow
      | _ => .error .truncated
    | 0x62 =>
      match rest with
      | b1 :: b2 :: _ :: b4 :: b5 :: _ =>
        if b1.extractLsb' 0 4 = 1 ∧ b2.extractLsb' 7 1 = 0 ∧ b2.extractLsb' 0 3 = 4 ∧ b4 = 0x58
            ∧ isRegisterModrm b5 = true then
          .ok .vaddpsEvexRkrr
        else .error .unknownRow
      | _ => .error .truncated
    | 0xC8 => .ok .enterImmwImmb
    | 0xA4 => .ok .movsb
    | _ => if b0.extractLsb' 3 5 = 0x17 then .ok .movGprvImmv else .error .unknownRow

/-- A displacement item: its width in bytes, then the displacement, little-endian (R112). -/
def getDispItem : Dec (DispWidth × Word64) := do
  let n ← getByte
  match n.toNat with
  | 1 => (fun v => (.w8, BitVec.ofNat 64 v)) <$> getLE 1
  | 2 => (fun v => (.w16, BitVec.ofNat 64 v)) <$> getLE 2
  | 4 => (fun v => (.w32, BitVec.ofNat 64 v)) <$> getLE 4
  | k => Dec.fail (.unknownName k)

def putDispItem (w : DispWidth) (v : Word64) : List Byte := putTag (w.bits / 8) ++ leBytes (w.bits / 8) v.toNat

/-- A far-pointer item: the offset's width in bytes, the offset, the selector (R114). -/
def getFarItem : Dec Instr := do
  let n ← getByte
  match n.toNat with
  | 2 => do
    let o ← getLE 2
    let s ← getLE 2
    return .farptr .w16 (BitVec.ofNat 64 o) (BitVec.ofNat 16 s)
  | 4 => do
    let o ← getLE 4
    let s ← getLE 2
    return .farptr .w32 (BitVec.ofNat 64 o) (BitVec.ofNat 16 s)
  | k => Dec.fail (.unknownName k)

/-- A first-immediate item: its width in bytes and the value, little-endian, or 0 and the byte `rrrriiii` (R113). -/
def getImm0Item : Dec Imm0Item := do
  let n ← getByte
  match n.toNat with
  | 0 => (fun b => .is4 (b.extractLsb' 4 4) (b.extractLsb' 0 4)) <$> getByte
  | 1 => (fun v => .value .w8 (BitVec.ofNat 64 v)) <$> getLE 1
  | 2 => (fun v => .value .w16 (BitVec.ofNat 64 v)) <$> getLE 2
  | 4 => (fun v => .value .w32 (BitVec.ofNat 64 v)) <$> getLE 4
  | 8 => (fun v => .value .w64 (BitVec.ofNat 64 v)) <$> getLE 8
  | k => Dec.fail (.unknownName k)

def putImm0Item : Imm0Item → List Byte
  | .value w v => putTag (w.bits / 8) ++ leBytes (w.bits / 8) v.toNat
  | .is4 r i => putTag 0 ++ putByte (r ++ i)

/-- The instruction of a reader's message, whatever stands after it. -/
def Dec.instr (p : Dec Instr) (bs : List Byte) : Except DecodeError Instr := Except.map Prod.fst (p bs)

/-- Decoding a message of a host that uses the numbers `c`: total, rejecting by name. -/
def decodeAt (c : PortCodes) (p : Packet) : Except DecodeError Instr :=
  match p.format with
  | .command => (getCommandMessage c).instr p.bytes
  | .descriptor => (getDescriptorMessage c).instr p.bytes
  | .wire => wireRow p.bytes
  | .opcodeByte => Dec.instr (Instr.opcode <$> getByte) p.bytes
  | .modrmByte =>
    Dec.instr ((fun b => .modrm (b.extractLsb' 6 2) (b.extractLsb' 3 3) (b.extractLsb' 0 3)) <$> getByte) p.bytes
  | .sibByte =>
    Dec.instr ((fun b => .sib (b.extractLsb' 6 2) (b.extractLsb' 3 3) (b.extractLsb' 0 3)) <$> getByte) p.bytes
  | .dispField => Dec.instr ((fun x => .disp x.1 x.2) <$> getDispItem) p.bytes
  | .brdispField => Dec.instr ((fun x => .brdisp x.1 x.2) <$> getDispItem) p.bytes
  | .farPointer => Dec.instr getFarItem p.bytes
  | .imm0Field => Dec.instr (Instr.imm0 <$> getImm0Item) p.bytes
  | .imm1Byte => Dec.instr (Instr.imm1 <$> getByte) p.bytes
  | .nopRow => nopRow p.bytes
  | .iformRow => iformRow p.bytes

/-- Decoding with the numbers of R100 and R101. -/
def decode (p : Packet) : Except DecodeError Instr := decodeAt defaultPort p

/-! ## The encoder -/

/-- The bytes of a VEX or EVEX prefix from its fields (R106 to R108). -/
def vex2Bytes (f : Vex2Fields) : List Byte := [0xC5, f.r ++ f.v ++ f.l ++ f.p]

def vex3Bytes (f : Vex3Fields) : List Byte := [0xC4, f.r ++ f.x ++ f.b ++ f.m, f.w ++ f.v ++ f.l ++ f.p]

def evexBytes (f : EvexFields) : List Byte :=
  [0x62, f.r ++ f.x ++ f.b ++ f.rr ++ 0#1 ++ f.m, f.w ++ f.v ++ 1#1 ++ f.p, f.z ++ f.l ++ f.bb ++ f.vv ++ f.a]

/-- A command's code, then its operands. -/
def PortCodes.command (c : PortCodes) (n : Nat) (operands : List Byte) : Packet :=
  ⟨.command, putTag (c.commandAt n) ++ operands⟩

/-- The tags of R101 under the numbers `c`: an unrecognized tag is the tag of no descriptor. -/
def Descriptor.tagFits (c : PortCodes) : Descriptor → Bool
  | .unrecognized t => (c.tagOf t).isNone
  | .reg _ | .brdisp _ _ | .ptr _ _ | .uimm0 _ _ | .simm0 _ _ | .imm1 _ | .mem _ | .other _ => true

/-- The descriptors of BUILD carry tags that read as what they are; no other instruction carries tags. -/
def Instr.tagsFit (c : PortCodes) : Instr → Bool
  | .build _ _ _ _ _ _ _ ds => ds.all (Descriptor.tagFits c)
  | _ => true

/-- The message of a well-formed instruction, with the numbers `c`. -/
def encodeAt (c : PortCodes) : Instr → Packet
  | .reqInit mode smode => c.command 0x00 (putNat mode ++ (putNat smode))
  | .setIclass iclass => c.command 0x01 (putNat iclass)
  | .setEosz bits => c.command 0x02 (putNat bits)
  | .setEasz bits => c.command 0x03 (putNat bits)
  | .setRep => c.command 0x04 []
  | .clearRep => c.command 0x05 []
  | .setRepne => c.command 0x06 []
  | .clearRepne => c.command 0x07 []
  | .setHintTaken => c.command 0x08 []
  | .setHintNotTaken => c.command 0x09 []
  | .setReg slot r => c.command 0x0A (putNat slot ++ (putReg r))
  | .setDisp value widthBytes => c.command 0x0B (putWord64 value ++ (putNat widthBytes))
  | .setDispBits value width => c.command 0x0C (putWord64 value ++ (putNat width))
  | .setBrdisp value width => c.command 0x0D (putWord64 value ++ (putNat width))
  | .setUimm0 value width => c.command 0x0E (putWord64 value ++ (putNat width))
  | .setSimm0 value width => c.command 0x0F (putWord32 value ++ (putNat width))
  | .setUimm1 value => c.command 0x10 (putWord64 value)
  | .setBase0 r => c.command 0x11 (putReg r)
  | .setBase1 r => c.command 0x12 (putReg r)
  | .setIndex r => c.command 0x13 (putReg r)
  | .setScale scale => c.command 0x14 (putNat scale)
  | .setSeg0 r => c.command 0x15 (putReg r)
  | .setSeg1 r => c.command 0x16 (putReg r)
  | .setRelbr => c.command 0x17 []
  | .setPtr => c.command 0x18 []
  | .setAgen => c.command 0x19 []
  | .setMem0 => c.command 0x1A []
  | .setMem1 => c.command 0x1B []
  | .setOperandOrder position name => c.command 0x1C (putNat position ++ (putName name))
  | .getOperandOrder position => c.command 0x1D (putNat position)
  | .setField f => c.command 0x1E (putField f)
  | .emitBits width value => c.command 0x20 (putNat width ++ (putWord64 value))
  | .encode capacity => c.command 0x21 (putNat capacity)
  | .encodeNop length => c.command 0x22 (putNat length)
  | .build mode smode iclass eosz easz rep hint ds =>
    c.command 0x30 (putNat mode ++ (putNat smode ++ (putNat iclass ++ (putNat eosz ++ (putNat easz ++
      (putRep rep ++ (putHint hint ++ (putDescriptors c ds))))))))
  | .initFromDecode d => c.command 0x40 (putRecord d)
  | .patchDisp d value width => c.command 0x41 (putRecord d ++ (putWord64 value ++ (putNat width)))
  | .patchRelbr d value width => c.command 0x42 (putRecord d ++ (putWord64 value ++ (putNat width)))
  | .patchImm0 d value width => c.command 0x43 (putRecord d ++ (putWord64 value ++ (putNat width)))
  | .descReg r => ⟨.descriptor, putDescriptor c (.reg r)⟩
  | .descBrdisp v w => ⟨.descriptor, putDescriptor c (.brdisp v w)⟩
  | .descPtr v w => ⟨.descriptor, putDescriptor c (.ptr v w)⟩
  | .descUimm0 v w => ⟨.descriptor, putDescriptor c (.uimm0 v w)⟩
  | .descSimm0 v w => ⟨.descriptor, putDescriptor c (.simm0 v w)⟩
  | .descImm1 v => ⟨.descriptor, putDescriptor c (.imm1 v)⟩
  | .descMem m => ⟨.descriptor, putDescriptor c (.mem m)⟩
  | .descOther f => ⟨.descriptor, putDescriptor c (.other f)⟩
  | .pfxSegEs => ⟨.wire, [0x26]⟩
  | .pfxSegCs => ⟨.wire, [0x2E]⟩
  | .pfxSegSs => ⟨.wire, [0x36]⟩
  | .pfxSegDs => ⟨.wire, [0x3E]⟩
  | .pfxSegFs => ⟨.wire, [0x64]⟩
  | .pfxSegGs => ⟨.wire, [0x65]⟩
  | .pfxOsz => ⟨.wire, [0x66]⟩
  | .pfxAsz => ⟨.wire, [0x67]⟩
  | .pfxRepne => ⟨.wire, [0xF2]⟩
  | .pfxRep => ⟨.wire, [0xF3]⟩
  | .rex w r x b => ⟨.wire, [0x4#4 ++ w ++ r ++ x ++ b]⟩
  | .escMap1 => ⟨.wire, [0x0F]⟩
  | .escMap2 => ⟨.wire, [0x0F, 0x38]⟩
  | .escMap3 => ⟨.wire, [0x0F, 0x3A]⟩
  | .vex2 f => ⟨.wire, vex2Bytes f⟩
  | .vex3 f => ⟨.wire, vex3Bytes f⟩
  | .evex f => ⟨.wire, evexBytes f⟩
  | .opcode o => ⟨.opcodeByte, [o]⟩
  | .modrm m r b => ⟨.modrmByte, [m ++ r ++ b]⟩
  | .sib s i b => ⟨.sibByte, [s ++ i ++ b]⟩
  | .disp w v => ⟨.dispField, putDispItem w v⟩
  | .brdisp w v => ⟨.brdispField, putDispItem w v⟩
  | .farptr w o s => ⟨.farPointer, putTag (w.bits / 8) ++ (leBytes (w.bits / 8) o.toNat ++ leBytes 2 s.toNat)⟩
  | .imm0 f => ⟨.imm0Field, putImm0Item f⟩
  | .imm1 v => ⟨.imm1Byte, [v]⟩
  | .nop1 => ⟨.nopRow, nopLiteral 1⟩
  | .nop2 => ⟨.nopRow, nopLiteral 2⟩
  | .nop3 => ⟨.nopRow, nopLiteral 3⟩
  | .nop4 => ⟨.nopRow, nopLiteral 4⟩
  | .nop5 => ⟨.nopRow, nopLiteral 5⟩
  | .nop6 => ⟨.nopRow, nopLiteral 6⟩
  | .nop7 => ⟨.nopRow, nopLiteral 7⟩
  | .nop8 => ⟨.nopRow, nopLiteral 8⟩
  | .nop9 => ⟨.nopRow, nopLiteral 9⟩
  | .addGprvMemv => ⟨.iformRow, [0x03, 0x00]⟩
  | .addGprvGprv01 => ⟨.iformRow, [0x01, 0xC0]⟩
  | .addMemvImmb => ⟨.iformRow, [0x83, 0x00, 0x00]⟩
  | .movGpr8Gpr8 => ⟨.iformRow, [0x88, 0xC0]⟩
  | .movGprvImmv => ⟨.iformRow, [0xB8]⟩
  | .jmpRelbrd => ⟨.iformRow, [0xE9, 0x00, 0x00, 0x00, 0x00]⟩
  | .jzRelbrb => ⟨.iformRow, [0x74, 0x00]⟩
  | .movzxGprvMemb => ⟨.iformRow, [0x0F, 0xB6, 0x00]⟩
  | .vaddpsVexRrr => ⟨.iformRow, [0xC5, 0x00, 0x58, 0xC0]⟩
  | .vaddpsVexRrm => ⟨.iformRow, [0xC5, 0x00, 0x58, 0x00]⟩
  | .vaddpsEvexRkrr => ⟨.iformRow, [0x62, 0x01, 0x04, 0x00, 0x58, 0xC0]⟩
  | .enterImmwImmb => ⟨.iformRow, [0xC8, 0x00, 0x00, 0x00]⟩
  | .movsb => ⟨.iformRow, [0xA4]⟩

/-- The message with the numbers of R100 and R101. -/
def encode (i : Instr) : Packet := encodeAt defaultPort i

/-- A message with the numbers of R100 and R101, of a host that uses the numbers `c`: its first byte renumbered. -/
def PortCodes.renumbered (c : PortCodes) (p : Packet) : Packet :=
  match p.format, p.bytes with
  | .command, b :: rest => ⟨.command, putTag (c.commandAt b.toNat) ++ rest⟩
  | .descriptor, b :: rest => ⟨.descriptor, putTag (c.tagAt b.toNat) ++ rest⟩
  | _, _ => p

/-! ## Words numbered as the opcode table numbers them -/

/-- The bytes of a word of `n` bytes, first byte most significant: the table reads a row's pattern, first byte on the
left, as one number (log 3). -/
def wordBytes : Nat → Nat → List Byte
  | 0, _ => []
  | n + 1, w => BitVec.ofNat 8 (w / 256 ^ n) :: wordBytes n w

/-- The longest message the model lays a table word into; the bytes after the word are 0. -/
def messageBytes : Nat := 512

/-- The formats a table word is tried in, in order: an 8-bit word is a command if it has a command's code (log 3). -/
def tableFormats (nbits : Nat) : List Format :=
  if nbits = 8 then [.command, .nopRow, .iformRow, .wire] else [.nopRow, .iformRow, .wire, .command]

/-- The first of the formats in which the bytes are an instruction. -/
def firstFormat (bs : List Byte) : List Format → Option Packet
  | [] => none
  | f :: rest =>
    match decode ⟨f, bs⟩ with
    | .ok _ => some ⟨f, bs⟩
    | .error _ => firstFormat bs rest

/-- The message a table word stands for. -/
def tablePacket (nbits w : Nat) : Option Packet :=
  firstFormat (wordBytes (nbits / 8) w ++ List.replicate messageBytes 0) (tableFormats nbits)

/-- The instruction the decoder reads from a table word. -/
def decodeTableWord (nbits w : Nat) : Option Instr :=
  match tablePacket nbits w with
  | none => none
  | some p =>
    match decode p with
    | .ok i => some i
    | .error _ => none

end Sys2Proof
end

