-- ==== Sys2Proof/Machine/Registers.lean ====
section
/-! DEFINITION. The register-identifier space (spec/10_state.md R37, R38: parameter P14), the numbers of the return codes
(spec/60_exceptions.md R391: parameter P13) and of the vector lengths (spec/10_state.md R26: parameter P19), with their default
values. -/

namespace Sys2Proof

/-- The general-purpose classes: GPR8, GPR8H, GPR16, GPR32, GPR64 (R37). -/
def RegClass.isGpr : RegClass → Bool
  | .gpr8 | .gpr8h | .gpr16 | .gpr32 | .gpr64 => true
  | _ => false

/-- The vector classes: XMM, YMM, ZMM (R37). -/
def RegClass.isVector : RegClass → Bool
  | .xmm | .ymm | .zmm => true
  | _ => false

/-- A register space (P14): its classes, each with the number of its consecutive members, and the offsets of the
members that rules name: BX, BP, SI, DI in GPR16, the segment registers in SEG, IP, EIP, RIP in IP. -/
structure RegSpace where
  classes : List (RegClass × Nat)
  bx : Nat
  bp : Nat
  si : Nat
  di : Nat
  es : Nat
  cs : Nat
  ss : Nat
  ds : Nat
  fs : Nat
  gs : Nat
  ip : Nat
  eip : Nat
  rip : Nat
  deriving DecidableEq, Repr, Inhabited

/-- The default space (R38, columns "members in offset order" and "count"). -/
def defaultSpace : RegSpace where
  classes :=
    [(.gpr8, 16), (.gpr8h, 4), (.gpr16, 16), (.gpr32, 16), (.gpr64, 16), (.mmx, 8), (.xmm, 32), (.ymm, 32), (.zmm, 32),
      (.mask, 8), (.cr, 16), (.dr, 16), (.seg, 6), (.x87, 8), (.ip, 3)]
  bx := 3
  bp := 5
  si := 6
  di := 7
  es := 0
  cs := 1
  ss := 2
  ds := 3
  fs := 4
  gs := 5
  ip := 0
  eip := 1
  rip := 2

/-- How many members a list of classes gives a class; a class it does not list has none. -/
def classCount (c : RegClass) : List (RegClass × Nat) → Nat
  | [] => 0
  | e :: rest => if e.1 = c then e.2 else classCount c rest

/-- The identifier is a member of its class (R37). -/
def RegSpace.member (g : RegSpace) (r : Reg) : Bool := decide (r.off < classCount r.cls g.classes)

/-- INVALID (R39), or a member of its class. -/
def RegSpace.holds (g : RegSpace) : RegOrInvalid → Bool
  | none => true
  | some r => g.member r

/-! The members that rules name. -/

def RegSpace.regBX (g : RegSpace) : Reg := ⟨.gpr16, g.bx⟩
def RegSpace.regBP (g : RegSpace) : Reg := ⟨.gpr16, g.bp⟩
def RegSpace.regSI (g : RegSpace) : Reg := ⟨.gpr16, g.si⟩
def RegSpace.regDI (g : RegSpace) : Reg := ⟨.gpr16, g.di⟩
def RegSpace.segES (g : RegSpace) : Reg := ⟨.seg, g.es⟩
def RegSpace.segCS (g : RegSpace) : Reg := ⟨.seg, g.cs⟩
def RegSpace.segSS (g : RegSpace) : Reg := ⟨.seg, g.ss⟩
def RegSpace.segDS (g : RegSpace) : Reg := ⟨.seg, g.ds⟩
def RegSpace.segFS (g : RegSpace) : Reg := ⟨.seg, g.fs⟩
def RegSpace.segGS (g : RegSpace) : Reg := ⟨.seg, g.gs⟩
def RegSpace.regIP (g : RegSpace) : Reg := ⟨.ip, g.ip⟩
def RegSpace.regEIP (g : RegSpace) : Reg := ⟨.ip, g.eip⟩
def RegSpace.regRIP (g : RegSpace) : Reg := ⟨.ip, g.rip⟩

/-- Different names are different members, as the names of an enumeration are (R37). -/
def RegSpace.namesDistinct (g : RegSpace) : Bool :=
  decide ([g.bx, g.bp, g.si, g.di].Nodup ∧ [g.es, g.cs, g.ss, g.ds, g.fs, g.gs].Nodup ∧ [g.ip, g.eip, g.rip].Nodup)

/-! ## Instructions whose registers are of the space -/

/-- The nine slots. -/
def RegFile.inSpace (g : RegSpace) (f : RegFile) : Bool :=
  g.holds f.r0 && g.holds f.r1 && g.holds f.r2 && g.holds f.r3 && g.holds f.r4 && g.holds f.r5 && g.holds f.r6
    && g.holds f.r7 && g.holds f.r8

/-- The fields of a record. -/
def Request.inSpace (g : RegSpace) (q : Request) : Bool :=
  q.regs.inSpace g && g.holds q.base0 && g.holds q.index && g.holds q.seg0 && g.holds q.base1 && g.holds q.seg1

/-- A field assignment. -/
def FieldAssign.inSpace (g : RegSpace) : FieldAssign → Bool
  | .reg _ v | .base0 v | .index v | .seg0 v | .base1 v | .seg1 v => g.holds v
  | _ => true

/-- The payload of a MEM descriptor. -/
def MemDesc.inSpace (g : RegSpace) (m : MemDesc) : Bool := g.holds m.base && g.holds m.index && g.holds m.seg

/-- A descriptor. -/
def Descriptor.inSpace (g : RegSpace) : Descriptor → Bool
  | .reg r => g.holds r
  | .mem m => m.inSpace g
  | .other f => f.inSpace g
  | .brdisp _ _ | .ptr _ _ | .uimm0 _ _ | .simm0 _ _ | .imm1 _ | .unrecognized _ => true

/-- Every register an instruction carries is INVALID or a member of the space: a register identifier is nothing else
(R37). -/
def Instr.inSpace (g : RegSpace) : Instr → Bool
  | .setReg _ r | .setBase0 r | .setBase1 r | .setIndex r | .setSeg0 r | .setSeg1 r | .descReg r => g.holds r
  | .setField f | .descOther f => f.inSpace g
  | .build _ _ _ _ _ _ _ ds => ds.all (Descriptor.inSpace g)
  | .initFromDecode d | .patchDisp d _ _ | .patchRelbr d _ _ | .patchImm0 d _ _ => d.fields.inSpace g
  | .descMem m => m.inSpace g
  | .reqInit _ _ | .setIclass _ | .setEosz _ | .setEasz _ | .setRep | .clearRep | .setRepne | .clearRepne
  | .setHintTaken | .setHintNotTaken | .setDisp _ _ | .setDispBits _ _ | .setBrdisp _ _ | .setUimm0 _ _
  | .setSimm0 _ _ | .setUimm1 _ | .setScale _ | .setRelbr | .setPtr | .setAgen | .setMem0 | .setMem1
  | .setOperandOrder _ _ | .getOperandOrder _ | .emitBits _ _ | .encode _ | .encodeNop _ | .descBrdisp _ _
  | .descPtr _ _ | .descUimm0 _ _ | .descSimm0 _ _ | .descImm1 _ | .pfxSegEs | .pfxSegCs | .pfxSegSs | .pfxSegDs
  | .pfxSegFs | .pfxSegGs | .pfxOsz | .pfxAsz | .pfxRepne | .pfxRep | .rex _ _ _ _ | .escMap1 | .escMap2 | .escMap3
  | .vex2 _ | .vex3 _ | .evex _ | .opcode _ | .modrm _ _ _ | .sib _ _ _ | .disp _ _ | .brdisp _ _ | .farptr _ _ _
  | .imm0 _ | .imm1 _ | .nop1 | .nop2 | .nop3 | .nop4 | .nop5 | .nop6 | .nop7 | .nop8 | .nop9 | .addGprvMemv
  | .addGprvGprv01 | .addMemvImmb | .movGpr8Gpr8 | .movGprvImmv | .jmpRelbrd | .jzRelbrb | .movzxGprvMemb
  | .vaddpsVexRrr | .vaddpsVexRrm | .vaddpsEvexRkrr | .enterImmwImmb | .movsb => true

/-! ## Return codes -/

/-- The numbers of the return codes (P13). -/
structure CodeNumbers where
  noError : Nat
  bufferTooShort : Nat
  generalError : Nat
  deriving DecidableEq, Repr, Inhabited

/-- The default numbers (R391). -/
def defaultCodes : CodeNumbers where
  noError := 0
  bufferTooShort := 1
  generalError := 2

/-- The number of a return code. -/
def CodeNumbers.number (n : CodeNumbers) : ReturnCode → Nat
  | .noError => n.noError
  | .bufferTooShort => n.bufferTooShort
  | .generalError => n.generalError

/-! ## Vector lengths -/

/-- The values of VL that stand for 256 and 512 bits at the interface (P19): SET_FIELD, OTHER and a record D give VL by its
number. Unset, which also spells 128 bits, is the 0 of a fresh request (R26, R42). A request holds the length itself: 0, 1, 2. -/
structure LengthNumbers where
  bits256 : Nat
  bits512 : Nat
  deriving DecidableEq, Repr, Inhabited

/-- The default values (R26). -/
def defaultLengths : LengthNumbers where
  bits256 := 1
  bits512 := 2

/-- The length a value of VL stands for; none: the value is outside the set of R26. -/
def LengthNumbers.lengthOf (n : LengthNumbers) (v : Nat) : Option Nat :=
  if v = 0 then some 0 else if v = n.bits256 then some 1 else if v = n.bits512 then some 2 else none

/-- Different lengths have different values. -/
def LengthNumbers.distinct (n : LengthNumbers) : Bool :=
  decide (n.bits256 ≠ 0 ∧ n.bits512 ≠ 0 ∧ n.bits256 ≠ n.bits512)

end Sys2Proof
end

