-- ==== Sys2Proof/Machine/Schema.lean ====
section
/-! DEFINITION. The ISA table T as data (spec/42_table_lookup.md R220 to R228): iforms, groups with their bind rules,
field-binding and emission patterns, field values; and the open parameters the step reads (spec/00_scope.md R9: P5, P13 to
P16, P19, P20 and the NOP rows). -/

namespace Sys2Proof

/-- The encoding space of an iform (R228). -/
inductive Space where
  | legacy | vex | evex
  deriving DecidableEq, Repr, Inhabited

/-- The mandatory prefix of an iform (R228). -/
inductive MandatoryPrefix where
  | none | p66 | pf3 | pf2
  deriving DecidableEq, Repr, Inhabited

/-- How REXW is set (R228): 0, 1, or eosz = 64. -/
inductive WAttr where
  | w0 | w1 | weosz
  deriving DecidableEq, Repr, Inhabited

/-- Whether the iform has a ModRM byte and what its reg field holds (R228). -/
inductive ModrmAttr where
  | none | rr | digit (d : BitVec 3)
  deriving DecidableEq, Repr, Inhabited

/-- An operand pattern (R229, R233): `regv` is REG(GPRv), `same` REG(same), `immv` and `immz` IMMv and IMMz. -/
inductive OperandPattern where
  | reg (classes : List RegClass)
  | regv
  | same
  | mem
  | mem1
  | imm (widths : List Nat)
  | immv
  | immz
  | imm1
  | relbr (widths : List Nat)
  | ptr
  deriving DecidableEq, Repr, Inhabited

/-- The role of an operand in the encoding (R228). -/
inductive Role where
  | modrmReg | modrmRm | vvvv | opcLow3 | mask | is4 | mem | imm | imm1 | brdisp | ptrw | implicit
  deriving DecidableEq, Repr, Inhabited

/-- One iform: the Iform Entry (R221), `fbIndex`, `emitIndex`, `opcode`, `map`, `fvStart`, and the constants of the
reference schema (R228). `operands` is `shape` with `roles`, one role per pattern. -/
structure IformSpec where
  fbIndex : Nat
  emitIndex : Nat
  opcode : Byte
  map : Nat
  fvStart : Nat
  iclass : Nat
  space : Space
  pp : MandatoryPrefix
  w : WAttr
  modrm : ModrmAttr
  oszsens : Bool
  operands : List (OperandPattern × Role)
  eoszSet : List Nat
  modeSet : List Nat
  deriving DecidableEq, Repr, Inhabited

/-! ## What the patterns and bind rules of a table read (R222, R225, R226; log 42) -/

/-- A request field that is a number or a flag (spec/10_state.md R21, R23 to R26, R29). SMODE is one: the patterns of a table
may read it (spec/91_not_in_source.md N12), a bind rule may not (R222; DESIGN CHOICE, unsafe: log 48). -/
inductive NumField where
  | mode | smode | iclass | eosz | easz | scale | mem0 | mem1 | agen | disp | dispWidth | brdisp | brdispWidth | relbr | ptr
  | imm0 | imm0Signed | immWidth | imm1 | imm1Present | rep | hint | vl | mustUseEvex | roundc | zeroing | sae | bcast
  | norder
  deriving DecidableEq, Repr, Inhabited

/-- A derived bit field (spec/10_state.md R27). -/
inductive DerivedField where
  | hasModrm | mod | reg | rm | hasSib | sibscale | sibindex | sibbase | rexw | rexr | rexx | rexb | rexrr | vvvv
  | vexdest4 | aaa | needrex | norex | osz | asz | segpfx | opcodeLow3
  deriving DecidableEq, Repr, Inhabited

/-- A register of the request: a slot, a memory operand's register, or the register of the operand at a position of
the order array. -/
inductive RegField where
  | slot (k : Nat) | base0 | index | seg0 | base1 | seg1 | operand (position : Nat)
  deriving DecidableEq, Repr, Inhabited

/-- The operations of an expression; `eq` and `lt` give 1 or 0. -/
inductive BinaryOp where
  | add | sub | mul | div | mod | eq | lt
  deriving DecidableEq, Repr, Inhabited

/-- A number computed from the request, the Iform Entry and the field-value table. `fieldValue k` is the entry `k`
places after `fvStart` (R227); `isOperand` compares an entry of the order array. -/
inductive Expr where
  | const (n : Nat)
  | field (f : NumField)
  | derived (d : DerivedField)
  | named (id : Nat)
  | effectiveEosz
  | effectiveEasz
  | opcode
  | map
  | fieldValue (k : Nat)
  | isClass (r : RegField) (c : RegClass)
  | isInvalid (r : RegField)
  | offset (r : RegField)
  | isOperand (position : Nat) (n : OperandName)
  | binary (op : BinaryOp) (a b : Expr)
  | choose (condition a b : Expr)
  deriving DecidableEq, Repr, Inhabited

/-! ## Patterns -/

/-- One line of a field-binding pattern (R225): the lines of the reference pattern (R231), a field encoder on one
operand, a derived bit, an error. -/
inductive BindingOp where
  | clearDerived | widthBit | modrmAttribute | roles | sizePrefixes | segmentPrefix | modeCheck | rexCheck
  | place (role : Role) (position : Nat)
  | set (d : DerivedField) (value : Expr)
  | raiseError
  deriving DecidableEq, Repr, Inhabited

/-- A line runs where its guard is not 0. -/
structure BindingLine where
  guard : Expr := .const 1
  op : BindingOp
  deriving DecidableEq, Repr, Inhabited

/-- One step of an emission pattern (R226): the thirteen steps of the reference pattern (spec/43_encode_dispatch.md R258
to R273), or fields given as widths and values. -/
inductive EmitOp where
  | segment | rep | operandSize | addressSize | extension | escape | opcode | modrm | sib | displacement | branch
  | immediate0 | immediate1
  | fields (l : List (Expr × Expr))
  deriving DecidableEq, Repr, Inhabited

/-- A step runs where its guard is not 0. -/
structure EmitLine where
  guard : Expr := .const 1
  op : EmitOp
  deriving DecidableEq, Repr, Inhabited

/-- One rule of a bind function (R222): an iform, taken where its own shape matches the request (R229), if `byShape`, and
the guard is not 0. The guard reads what R222 lists and nothing else (`Machine.readsInBind`); a table with another guard breaks
the contract on T. -/
structure BindRule where
  iform : Nat
  byShape : Bool := true
  guard : Expr := .const 1
  deriving DecidableEq, Repr, Inhabited

/-- The ISA table T (R220 to R222): iclass to group, group to its bind rules in order, iform index to iform, the two
pattern tables, the field-value table. -/
structure IsaTable where
  groupOf : List (Nat × Nat)
  groups : List (List BindRule)
  iforms : List IformSpec
  bindings : List (List BindingLine)
  emissions : List (List EmitLine)
  fieldValues : List Nat
  deriving DecidableEq, Repr, Inhabited

/-- The reference field-binding pattern, line by line (R231). -/
def referenceBinding : List BindingLine :=
  [{ op := .clearDerived }, { op := .widthBit }, { op := .modrmAttribute }, { op := .roles }, { op := .sizePrefixes },
    { op := .segmentPrefix }, { op := .modeCheck }, { op := .rexCheck }]

/-- The reference emission pattern, step 1 to step 13 (R232, spec/43_encode_dispatch.md R257). -/
def referenceEmission : List EmitLine :=
  [{ op := .segment }, { op := .rep }, { op := .operandSize }, { op := .addressSize }, { op := .extension },
    { op := .escape }, { op := .opcode }, { op := .modrm }, { op := .sib }, { op := .displacement }, { op := .branch },
    { op := .immediate0 }, { op := .immediate1 }]

/-- The NOP table (spec/30_encoding.md R115): nine rows of 1 to 9 bytes, each written first byte most significant. -/
structure NopTable where
  n1 : BitVec 8
  n2 : BitVec 16
  n3 : BitVec 24
  n4 : BitVec 32
  n5 : BitVec 40
  n6 : BitVec 48
  n7 : BitVec 56
  n8 : BitVec 64
  n9 : BitVec 72
  deriving DecidableEq, Repr, Inhabited

/-- The open parameters the step reads; no step changes them (spec/10_state.md R43). `table` is `none` while T is not
loaded (spec/70_reset_and_hazards.md R423); `namedFields` are the numbers of the further named request fields the table
needs (spec/10_state.md R26). -/
structure Params where
  table : Option IsaTable
  namedFields : List Nat
  indexIllegal : List Nat
  maxOperands : Nat
  registers : RegSpace
  codes : CodeNumbers
  lengths : LengthNumbers
  port : PortCodes
  nopTable : NopTable
  deriving DecidableEq, Repr, Inhabited

end Sys2Proof
end

