-- ==== Sys2Proof/Machine/Fixture.lean ====
section
/-! DEFINITION. The default values of the open parameters: the fixture table T0 (spec/42_table_lookup.md R234), the NOP
rows (spec/30_encoding.md R115), INDEX_ILLEGAL_SET, MAX_OPERANDS and the defaults of P13 and P14 (spec/00_scope.md R9). -/

namespace Sys2Proof

/-! The iclass ids of T0: arbitrary distinct labels, 0 is INVALID (log 16). -/

def iclassADD : Nat := 1
def iclassMOV : Nat := 2
def iclassJMP : Nat := 3
def iclassJZ : Nat := 4
def iclassMOVZX : Nat := 5
def iclassVADDPS : Nat := 6
def iclassENTER : Nat := 7
def iclassMOVSB : Nat := 8

/-- What the rows of T0 share: legacy space, map 0, no mandatory prefix, W0, no ModRM, not operand-size sensitive, every
operand width and machine mode (R234 gives no `eosz_set` and no `mode_set`: log 15), the one pattern of each kind (R231,
R232). -/
def baseRow (iclass : Nat) (opcode : Byte) (operands : List (OperandPattern × Role)) : IformSpec where
  fbIndex := 0
  emitIndex := 0
  opcode := opcode
  map := 0
  fvStart := 0
  iclass := iclass
  space := .legacy
  pp := .none
  w := .w0
  modrm := .none
  oszsens := false
  operands := operands
  eoszSet := [8, 16, 32, 64]
  modeSet := [16, 32, 64]

def rowAddGprvMemv : IformSpec :=
  { baseRow iclassADD 0x03 [(.regv, .modrmReg), (.mem, .mem)] with w := .weosz, modrm := .rr, oszsens := true }

def rowAddGprvGprv01 : IformSpec :=
  { baseRow iclassADD 0x01 [(.regv, .modrmRm), (.regv, .modrmReg)] with w := .weosz, modrm := .rr, oszsens := true }

def rowAddMemvImmb : IformSpec :=
  { baseRow iclassADD 0x83 [(.mem, .mem), (.imm [8], .imm)] with w := .weosz, modrm := .digit 0, oszsens := true }

def rowMovGpr8Gpr8 : IformSpec :=
  { baseRow iclassMOV 0x88 [(.reg [.gpr8, .gpr8h], .modrmRm), (.reg [.gpr8, .gpr8h], .modrmReg)] with modrm := .rr }

def rowMovGprvImmv : IformSpec :=
  { baseRow iclassMOV 0xB8 [(.regv, .opcLow3), (.immv, .imm)] with w := .weosz, oszsens := true }

def rowJmpRelbrd : IformSpec := baseRow iclassJMP 0xE9 [(.relbr [32], .brdisp)]

def rowJzRelbrb : IformSpec := baseRow iclassJZ 0x74 [(.relbr [8], .brdisp)]

def rowMovzxGprvMemb : IformSpec :=
  { baseRow iclassMOVZX 0xB6 [(.regv, .modrmReg), (.mem, .mem)] with
    map := 1, w := .weosz, modrm := .rr, oszsens := true }

def rowVaddpsVexRrr : IformSpec :=
  { baseRow iclassVADDPS 0x58 [(.reg [.xmm, .ymm], .modrmReg), (.same, .vvvv), (.same, .modrmRm)] with
    space := .vex, map := 1, modrm := .rr }

def rowVaddpsVexRrm : IformSpec :=
  { baseRow iclassVADDPS 0x58 [(.reg [.xmm, .ymm], .modrmReg), (.same, .vvvv), (.mem, .mem)] with
    space := .vex, map := 1, modrm := .rr }

def rowVaddpsEvexRkrr : IformSpec :=
  { baseRow iclassVADDPS 0x58
      [(.reg [.xmm, .ymm, .zmm], .modrmReg), (.reg [.mask], .mask), (.same, .vvvv), (.same, .modrmRm)] with
    space := .evex, map := 1, modrm := .rr }

def rowEnterImmwImmb : IformSpec := baseRow iclassENTER 0xC8 [(.imm [16], .imm), (.imm1, .imm1)]

/-- Row 13 has two shapes, "empty, or MEM0 and MEM1 marked IMPLICIT": one iform each (log 17). -/
def rowMovsb : IformSpec := baseRow iclassMOVSB 0xA4 []

def rowMovsbMem : IformSpec := baseRow iclassMOVSB 0xA4 [(.mem, .implicit), (.mem1, .implicit)]

/-- The rows of T0 in table order. -/
def fixtureRows : List IformSpec :=
  [rowAddGprvMemv, rowAddGprvGprv01, rowAddMemvImmb, rowMovGpr8Gpr8, rowMovGprvImmv, rowJmpRelbrd, rowJzRelbrb,
    rowMovzxGprvMemb, rowVaddpsVexRrr, rowVaddpsVexRrm, rowVaddpsEvexRkrr, rowEnterImmwImmb, rowMovsb, rowMovsbMem]

/-- A group of the reference bind (R230): its rows in table order, each taken where its shape matches. -/
def shapeGroup (rows : List Nat) : List BindRule := rows.map fun n => { iform := n }

/-- T0: one group per iclass, rows in table order, the reference patterns (R234). -/
def fixtureT0 : IsaTable where
  groupOf :=
    [(iclassADD, 0), (iclassMOV, 1), (iclassJMP, 2), (iclassJZ, 3), (iclassMOVZX, 4), (iclassVADDPS, 5),
      (iclassENTER, 6), (iclassMOVSB, 7)]
  groups :=
    [shapeGroup [0, 1, 2], shapeGroup [3, 4], shapeGroup [5], shapeGroup [6], shapeGroup [7], shapeGroup [8, 9, 10],
      shapeGroup [11], shapeGroup [12, 13]]
  iforms := fixtureRows
  bindings := [referenceBinding]
  emissions := [referenceEmission]
  fieldValues := []

/-- The default NOP rows (R115). -/
def defaultNopTable : NopTable where
  n1 := 0x90
  n2 := 0x6690
  n3 := 0x0F1F00
  n4 := 0x0F1F4000
  n5 := 0x0F1F440000
  n6 := 0x660F1F440000
  n7 := 0x0F1F8000000000
  n8 := 0x0F1F840000000000
  n9 := 0x660F1F840000000000

/-- The parameters at their defaults, T0 loaded (log 14). -/
def defaultParams : Params where
  table := some fixtureT0
  namedFields := []
  indexIllegal := [4]
  maxOperands := 8
  registers := defaultSpace
  codes := defaultCodes
  lengths := defaultLengths
  port := defaultPort
  nopTable := defaultNopTable

end Sys2Proof
end

