-- ==== Sys2Proof/Machine/State.lean ====
section
/-! DEFINITION. The state of one engine instance (spec/10_state.md R20) as plain data, why a step can stop, and the
state after block reset (R42). -/

namespace Sys2Proof.Machine

/-- The output buffer (R33): (offset, byte) cells, offsets strictly rising. An offset with no cell has no value. -/
abbrev Mem := List Host.Cell

/-- PHASE (R31). -/
inductive Phase where
  | idle | precondition | bind | emit | finalize | fatal
  deriving DecidableEq, Repr, Inhabited

/-- The encoder vars `ev` (R30). -/
structure EncoderVars where
  iformIndex : Option Nat := none
  ilen : Nat := 0
  olen : Nat := 0
  bitOffset : Nat := 0
  deriving DecidableEq, Repr, Inhabited

/-- What a command returns to the host (spec/60_exceptions.md R390): a code; a code and a length (ENCODE); a boolean
(BUILD and PATCH); an operand name (GET_OPERAND_ORDER); the new cursor (EMIT_BITS); nothing yet, or nothing because
of a fatal assertion. -/
inductive CmdResult where
  | noResult
  | code (c : ReturnCode)
  | encoded (c : ReturnCode) (olen : Nat)
  | flag (b : Bool)
  | name (n : OperandName)
  | cursor (offset : Nat)
  deriving DecidableEq, Repr, Inhabited

/-- The state. INVENTORY.md, "State", names the rule of each field. -/
structure State where
  /-- The Encode Request (R21 to R29). -/
  rq : Request := {}
  /-- The request was encoded, or lost to a fatal assertion: its content is unspecified (R41). The model's own. -/
  consumed : Bool := false
  /-- The encoder vars (R30), and whether they have a value. -/
  ev : EncoderVars := {}
  evLive : Bool := false
  /-- The sequencer (R31). -/
  phase : Phase := .idle
  stepIndex : Nat := 0
  /-- The output buffer and the capacity the host last declared (R20 (4), R33). -/
  buf : Mem := []
  capacity : Nat := 16
  /-- The builder's scratch (R36): the two counters and the loop index over the operand list. -/
  regcnt : Nat := 0
  memcnt : Nat := 0
  loopIndex : Nat := 0
  /-- The open parameters, T among them (R34, spec/00_scope.md R9). -/
  params : Params := defaultParams
  /-- What the last command returned. The model's own. -/
  result : CmdResult := .noResult
  /-- The messages the host has issued and the engine has not run (log 1). The model's own. -/
  input : List Packet := []
  /-- The host asks for block reset (log 22). The model's own. -/
  resetRequest : Bool := false
  /-- How many free values were drawn (log 38). The model's own. -/
  draws : Nat := 0
  deriving DecidableEq, Repr, Inhabited

/-- Faults of the model. -/
inductive Fault where
  /-- The bit emitter would OR into a byte that has no value. Raised by no instruction in any state: EMIT refuses such a
  start (`Refusal.unestablishedByte`) before its loop. Safe: the model stops where the spec gives no value. -/
  | unspecifiedByte (offset : Nat)
  deriving DecidableEq, Repr, Inhabited

/-- Refusals: "a model has no step there" (spec/00_scope.md R8 (4), spec/93_implementation_defined.md section 3). All
are safe: the model stops where the spec gives the input no meaning. -/
inductive Refusal where
  /-- An instruction with no meaning yet; raised by `exec` only. -/
  | notModelled (mnemonic : String)
  /-- The message is no instruction: a reserved command code (R118), operands that are none (log 2), or a register that
  is no member of the register space (R37). Raised by `step`. -/
  | notAnInstruction (e : DecodeError)
  /-- Any command in FATAL (R394, R251). Raised by every instruction. -/
  | engineInFatal
  /-- A command while PHASE is not IDLE (R321, R430). Raised by every instruction, in states no run reaches. -/
  | commandInProgress
  /-- REQ_INIT or BUILD with a mode or stack width outside 16, 32, 64 (R290). -/
  | modeValue
  /-- SET_REG with a slot above 8 (R300). -/
  | registerSlot
  /-- SET_DISP, SET_DISP_BITS or a MEM descriptor with a displacement width outside the legal set (R301, R302). -/
  | displacementWidth
  /-- SET_BRDISP, a BRDISP or a PTR descriptor with a width outside the legal set (R303, R101). -/
  | branchDisplacementWidth
  /-- SET_SEG0 or SET_SEG1 with a register that is no segment register (R311, R312). -/
  | segmentClass
  /-- An order position at or above MAX_OPERANDS (R318, R319, R341). -/
  | operandIndex
  /-- SET_FIELD or OTHER with a name that is no request field: none of R21 to R29, and none the table needs (R26, R320). -/
  | unknownField
  /-- SET_FIELD or OTHER naming ERROR (R320). -/
  | errorField
  /-- SET_FIELD or OTHER with a value that is not of the field's type (R320). -/
  | fieldValue
  /-- EMIT with a width of 0 or above 64 (R150). -/
  | emitWidth
  /-- EMIT_BITS, or a wire item, starting in the middle of a byte that has no value, so that the engine has not established
  it (R158; log 9): in no run, for the cursor stands only in bytes the engine established (R40). -/
  | unestablishedByte
  /-- ENCODE with MODE unset (R251). -/
  | modeNotSet
  /-- ENCODE on a request that is consumed (R41, R251). -/
  | reusedRequest
  /-- ENCODE while T is not loaded (R423). -/
  | tableNotLoaded
  /-- A table T that breaks the conditions on T (spec/93_implementation_defined.md U3): raised by ENCODE. -/
  | tableIllFormed
  /-- A base or index whose class disagrees with the address width (R183): raised by ENCODE. -/
  | addressClassMismatch
  /-- EIP or IP as a base (spec/93_implementation_defined.md U6): raised by ENCODE. -/
  | instructionPointerBase
  /-- RIP-relative with a displacement width other than 32 (R184): raised by ENCODE, in no run. -/
  | ripDisplacementWidth
  /-- Scale 2, 4 or 8 with no index (R185): raised by ENCODE. -/
  | scaleWithoutIndex
  /-- No base and a displacement width other than 32, or 16 under 16-bit addressing (R190, R194): raised by ENCODE. -/
  | noBaseDisplacementWidth
  /-- A displacement width that the address size has no form for (R191, R194): raised by ENCODE. -/
  | displacementWidthForAddressSize
  /-- Scale above 1 under 16-bit addressing (R193): raised by ENCODE. -/
  | scaleUnder16Bit
  /-- REP or REPNE on an iform with a mandatory F2/F3 (R259): raised by ENCODE. -/
  | repOnMandatoryPrefix
  /-- REP or REPNE in VEX or EVEX space (R259): raised by ENCODE. -/
  | repOutsideLegacy
  /-- RELBR = 1 with BRDISP_WIDTH = 0 (R270): raised by ENCODE. -/
  | relbrWithoutDisplacement
  /-- An IMM_WIDTH the iform cannot carry (R272): raised by ENCODE. -/
  | immediateWidth
  /-- BUILD with more than MAX_OPERANDS descriptors (R340). -/
  | operandCount
  /-- A tenth register operand (R342): raised by BUILD and the REG descriptor. -/
  | registerOperandCount
  /-- Index, scale or displacement on the second memory operand (R345): raised by BUILD and the MEM descriptor. -/
  | secondMemoryFields
  /-- A third memory operand (R345): raised by BUILD and the MEM descriptor. -/
  | thirdMemoryOperand
  /-- INIT_FROM_DECODE of a record whose fields are no field values (R360). -/
  | malformedRecord
  /-- INIT_FROM_DECODE of a record with more than MAX_OPERANDS operands that are not suppressed (R361). -/
  | recordOperandCount
  /-- PATCH with a recorded location that reaches outside the instruction, or of no legal width (R366). -/
  | patchLocation
  deriving DecidableEq, Repr, Inhabited

/-- The machine after block reset (R42, R420): every field at its default above. -/
def State.reset : State := {}

end Sys2Proof.Machine
end

