-- ==== Sys2Proof/Machine/Ops.lean ====
section
/-! DEFINITION. The shared operations: the output buffer, how a command is admitted and how it ends: with a result, by
a raise (spec/60_exceptions.md R396, the block's taking of an exception), by a fatal assertion (R394), and block reset
(spec/70_reset_and_hazards.md R420), which is the only return from FATAL. -/

namespace Sys2Proof.Machine

/-! ## The output buffer -/

/-- `buf[a]` (spec/00_scope.md R12); a byte nothing has written has no value (log 10). -/
def Mem.read : Mem → Nat → Option Byte
  | [], _ => none
  | c :: rest, a => if c.1 = a then some c.2 else Mem.read rest a

/-- `buf[a] <- v`, keeping the offsets strictly rising. -/
def Mem.write : Mem → Nat → Byte → Mem
  | [], a, v => [(a, v)]
  | c :: rest, a, v =>
    if a < c.1 then (a, v) :: c :: rest
    else if a = c.1 then (a, v) :: rest
    else c :: Mem.write rest a v

/-- Bytes at consecutive offsets, the first at `a`. -/
def Mem.writeBytes : Mem → Nat → List Byte → Mem
  | m, _, [] => m
  | m, a, b :: rest => Mem.writeBytes (m.write a b) (a + 1) rest

/-- `MemWrite(a, n, v)` (spec/00_scope.md R12): the low `8n` bits of `v`, little-endian. -/
def Mem.writeLE (m : Mem) (a n v : Nat) : Mem := m.writeBytes a (leBytes n v)

/-- The canonical form: offsets strictly rising. An entry always has a value and an offset with no entry has none, so no
entry equals what an unlisted offset reads as. -/
def Mem.wf : Mem → Bool
  | [] => true
  | c :: rest => rest.all (fun d => decide (c.1 < d.1)) && Mem.wf rest

/-! ## How a command ends -/

/-- A step's outcome. -/
abbrev Result := Host.Outcome State Fault Refusal

/-- The reasons a command stops before its last line (spec/00_scope.md R8 (2) to (4)). -/
inductive Stop where
  /-- `raise` (spec/60_exceptions.md R396). -/
  | raise (c : ReturnCode)
  /-- `fatal` (R394). -/
  | fatal
  /-- `refuse` (R411). -/
  | refuse (r : Refusal)
  /-- A fault of the model. -/
  | fault (f : Fault)
  deriving DecidableEq, Repr, Inhabited

/-- A computation that may stop. -/
abbrev Check (α : Type) := Except Stop α

/-- `raise GeneralError`. -/
def generalError {α : Type} : Check α := .error (.raise .generalError)

/-- `refuse r`. -/
def refuse {α : Type} (r : Refusal) : Check α := .error (.refuse r)

/-- A command is accepted in IDLE only: in FATAL every command is refused (spec/60_exceptions.md R394) and within a
command no other starts (spec/44_request_surface.md R321, spec/70_reset_and_hazards.md R430). -/
def State.issue (s : State) (k : State → Result) : Result :=
  match s.phase with
  | .idle => k s
  | .fatal => .refused .engineInFatal
  | .precondition | .bind | .emit | .finalize => .refused .commandInProgress

/-- The command completes and returns `v`. -/
def State.finish (s : State) (v : CmdResult) : Result := .next { s with result := v }

/-- What `raise c` does (R396): the code into `rq[ERROR]`, IDLE, the code to the host. Nothing else is saved. -/
def State.raised (s : State) (c : ReturnCode) : State :=
  { s with
    rq := { s.rq with error := c }
    phase := .idle
    stepIndex := 0
    result := .code c }

/-- What `fatal` does (R394): PHASE is FATAL, no code is delivered; request, encoder vars and buffer are unspecified
(the request a free value, the others without value: log 21). -/
def State.toFatal (s : State) : State :=
  { s with
    rq := Config.freeRequest s.draws
    consumed := true
    ev := {}
    evLive := false
    phase := .fatal
    stepIndex := 0
    buf := []
    result := .noResult
    draws := s.draws + 1 }

/-- The end of a command other than ENCODE that stopped. -/
def State.stopped (s : State) : Stop → Result
  | .raise c => .next (s.raised c)
  | .fatal => .next s.toFatal
  | .refuse r => .refused r
  | .fault f => .fault f

/-- A command whose work is a computation that may stop, and whose result on success is `v`. -/
def State.perform (s : State) (v : CmdResult) (work : State → Check State) : Result :=
  match work s with
  | .ok t => t.finish v
  | .error stop => s.stopped stop

/-- Block reset (spec/70_reset_and_hazards.md R420): every piece of state at the value of spec/10_state.md R42. The
parameters (T among them), the capacity the host declared, the pending messages and the count of draws are no part
of it (log 22). -/
def State.blockReset (s : State) : State :=
  { State.reset with params := s.params, capacity := s.capacity, input := s.input, draws := s.draws }

/-! ## Free values -/

/-- Bytes 0 to `n - 1` of the buffer take any value (spec/20_memory.md R86): draw number `k`. -/
def Mem.drawBytes (m : Mem) (k : Nat) : Nat → Mem
  | 0 => m
  | n + 1 => (m.drawBytes k n).write n (Config.freeBufferByte k n)

/-- The request after ENCODE (spec/10_state.md R41, spec/93_implementation_defined.md U7): consumed, its content any
value except ERROR, which holds the code; the encoder vars have no value (R30). -/
def State.consume (s : State) : State :=
  { s with
    rq := { Config.freeRequest s.draws with error := s.rq.error }
    consumed := true
    ev := {}
    evLive := false
    draws := s.draws + 1 }

/-! ## What the host is given -/

/-- The return code a command ended in (spec/60_exceptions.md R390, R391, spec/00_scope.md R8 (1)): NONE for every command that
completes, whatever else it returns; none after a boolean failure (R395), a fatal assertion, and before the first command
(DEDUCED, unsafe: log 32). -/
def CmdResult.returnCode : CmdResult → Option ReturnCode
  | .code c | .encoded c _ => some c
  | .flag true | .name _ | .cursor _ => some .noError
  | .flag false | .noResult => none

/-- The number of the return code of the last command, as parameter P13 numbers it (R391); the number of NONE also after
EMIT_BITS, GET_OPERAND_ORDER, and a BUILD or PATCH that returned true (DEDUCED, unsafe: log 32). -/
def State.codeNumber (s : State) : Option Nat := s.result.returnCode.map s.params.codes.number

/-! ## A new request -/

/-- What REQ_INIT, BUILD and INIT_FROM_DECODE share (spec/70_reset_and_hazards.md R422, spec/10_state.md R42): a request
that was never encoded; the encoder vars have no value; the builder's scratch starts at 0. -/
def State.startRequest (s : State) (rq : Request) : State :=
  { s with
    rq := rq
    consumed := false
    ev := {}
    evLive := false
    regcnt := 0
    memcnt := 0
    loopIndex := 0 }

end Sys2Proof.Machine
end

