-- ==== Sys2Proof/Machine/Operands.lean ====
section
/-! DEFINITION. The operand forms. The operand slots, the order array and the further named fields of the request
(spec/10_state.md R22, R26, R29), and unit U2, the field encoders of registers and memory operands (spec/41_field_encoders.md R170 to R196). -/

namespace Sys2Proof.Machine

/-! ## Slots and the order array -/

/-- `rq[REG<k>]` (spec/10_state.md R22). -/
def slotGet (f : RegFile) (k : Nat) : RegOrInvalid :=
  match k with
  | 0 => f.r0
  | 1 => f.r1
  | 2 => f.r2
  | 3 => f.r3
  | 4 => f.r4
  | 5 => f.r5
  | 6 => f.r6
  | 7 => f.r7
  | 8 => f.r8
  | _ => none

/-- `rq[REG<k>] <- r`. -/
def slotSet (f : RegFile) (k : Nat) (r : RegOrInvalid) : RegFile :=
  match k with
  | 0 => { f with r0 := r }
  | 1 => { f with r1 := r }
  | 2 => { f with r2 := r }
  | 3 => { f with r3 := r }
  | 4 => { f with r4 := r }
  | 5 => { f with r5 := r }
  | 6 => { f with r6 := r }
  | 7 => { f with r7 := r }
  | 8 => { f with r8 := r }
  | _ => f

/-- The operand name of slot `k`. -/
def regName (k : Nat) : OperandName :=
  match k with
  | 0 => .reg0
  | 1 => .reg1
  | 2 => .reg2
  | 3 => .reg3
  | 4 => .reg4
  | 5 => .reg5
  | 6 => .reg6
  | 7 => .reg7
  | 8 => .reg8
  | _ => .invalid

/-- The slot a register operand name stands for. -/
def nameSlot : OperandName → Option Nat
  | .reg0 => some 0
  | .reg1 => some 1
  | .reg2 => some 2
  | .reg3 => some 3
  | .reg4 => some 4
  | .reg5 => some 5
  | .reg6 => some 6
  | .reg7 => some 7
  | .reg8 => some 8
  | .invalid | .mem0 | .mem1 | .agen | .imm0 | .imm1 | .relbr | .ptr => none

/-- `slot(name)` (spec/42_table_lookup.md R231): the register of a register operand; none for any other name and for
an empty slot. -/
def slotOf (rq : Request) (n : OperandName) : RegOrInvalid :=
  match nameSlot n with
  | some k => slotGet rq.regs k
  | none => none

/-- `rq[ORDER[k]]`; an entry that is not listed is INVALID (R29). -/
def orderGet (order : List OperandName) (k : Nat) : OperandName := order.getD k .invalid

/-- `rq[ORDER[k]] <- n`. -/
def orderSet : List OperandName → Nat → OperandName → List OperandName
  | [], 0, n => [n]
  | [], k + 1, n => .invalid :: orderSet [] k n
  | _ :: rest, 0, n => n :: rest
  | m :: rest, k + 1, n => m :: orderSet rest k n

/-! ## Further named fields (spec/10_state.md R26) -/

/-- The value of a further named field; one that is not listed is 0. -/
def getNamed : List (Nat × Nat) → Nat → Nat
  | [], _ => 0
  | e :: rest, i => if e.1 = i then e.2 else getNamed rest i

/-- The field takes a value; the list keeps its canonical form. -/
def setNamed : List (Nat × Nat) → Nat → Nat → List (Nat × Nat)
  | [], i, v => if v = 0 then [] else [(i, v)]
  | e :: rest, i, v =>
    if i < e.1 then (if v = 0 then e :: rest else (i, v) :: e :: rest)
    else if i = e.1 then (if v = 0 then rest else (i, v) :: rest)
    else e :: setNamed rest i v

/-- The canonical form: numbers strictly rising, no field listed with the value 0. -/
def namedWf : List (Nat × Nat) → Bool
  | [] => true
  | e :: rest => decide (e.2 ≠ 0) && rest.all (fun d => decide (e.1 < d.1)) && namedWf rest

/-! ## Registers (R171 to R180) -/

/-- The number a register is placed with: `off(r)` (R171), four more for AH, CH, DH, BH (R180). -/
def fieldOff (r : Reg) : Nat := if r.cls = .gpr8h then r.off + 4 else r.off

/-- There is a place for the offset: 32 and up never, 16 and up in EVEX space only (R172). -/
def placeable (space : Space) (r : Reg) : Bool :=
  decide (fieldOff r < 16) || decide (space = .evex ∧ fieldOff r < 32)

/-- NOREX for AH, CH, DH, BH, wherever they are placed (R180). -/
def noteHighByte (r : Reg) (d : Derived) : Derived := { d with norex := d.norex || decide (r.cls = .gpr8h) }

/-- NEEDREX for SPL, BPL, SIL, DIL, placed by R173, R174 or R176 (R179), and NOREX (R180). -/
def noteByteRegister (r : Reg) (d : Derived) : Derived :=
  noteHighByte r { d with needrex := d.needrex || decide (r.cls = .gpr8 ∧ 4 ≤ r.off ∧ r.off ≤ 7) }

/-- ENC_REG_MODRM_REG (R173). -/
def encRegModrmReg (space : Space) (r : Reg) (d : Derived) : Check Derived :=
  if placeable space r then
    .ok (noteByteRegister r
      { d with
        reg := low3 (fieldOff r)
        rexr := bit3 (fieldOff r)
        rexrr := if space = .evex then bit4 (fieldOff r) else d.rexrr })
  else generalError

/-- ENC_REG_MODRM_RM (R174). -/
def encRegModrmRm (space : Space) (r : Reg) (d : Derived) : Check Derived :=
  if placeable space r then
    .ok (noteByteRegister r
      { d with
        mod := 3
        rm := low3 (fieldOff r)
        rexb := bit3 (fieldOff r)
        rexx := if space = .evex then bit4 (fieldOff r) else d.rexx
        hasSib := false })
  else generalError

/-- ENC_REG_VVVV (R175). -/
def encRegVvvv (space : Space) (r : Reg) (d : Derived) : Check Derived :=
  if placeable space r then
    .ok (noteHighByte r
      { d with
        vvvv := BitVec.ofNat 4 (fieldOff r)
        vexdest4 := if space = .evex then bit4 (fieldOff r) else d.vexdest4 })
  else generalError

/-- ENC_REG_OPCODE (R176). -/
def encRegOpcode (space : Space) (r : Reg) (d : Derived) : Check Derived :=
  if placeable space r then
    .ok (noteByteRegister r { d with opcodeLow3 := low3 (fieldOff r), rexb := bit3 (fieldOff r) })
  else generalError

/-- ENC_REG_MASK (R177): a register of class MASK; a table that puts another class there breaks its contract. -/
def encRegMask (space : Space) (r : Reg) (d : Derived) : Check Derived :=
  if r.cls ≠ .mask then refuse .tableIllFormed
  else if placeable space r then .ok { d with aaa := low3 (fieldOff r) }
  else generalError

/-- ENC_REG_IS4 at Bind: no bit is placed (spec/42_table_lookup.md R231); a register without a place is an error (R172), AH, CH,
DH, BH set NOREX (R180; log 39). -/
def encRegIs4 (space : Space) (r : Reg) (d : Derived) : Check Derived :=
  if placeable space r then .ok (noteHighByte r d) else generalError

/-- The number ENC_REG_IS4 puts in the top four bits of an immediate byte: `off(r) mod 16`, of every class (R178,
spec/43_encode_dispatch.md R272; log 39). -/
def is4Number (r : Reg) : Nat := r.off % 16

/-! ## The memory operand (R182 to R196) -/

/-- The register class of a base or index under an address width (R183). -/
def addressClass : Nat → Option RegClass
  | 16 => some .gpr16
  | 32 => some .gpr32
  | 64 => some .gpr64
  | _ => none

/-- A base: of the width's class, or RIP; EIP and IP are refused (R183, spec/93_implementation_defined.md U6). -/
def checkBaseClass (g : RegSpace) (easz : Nat) (base : RegOrInvalid) : Check Unit :=
  match base with
  | none => .ok ()
  | some b =>
    if b = g.regRIP then .ok ()
    else if b.cls = .ip then refuse .instructionPointerBase
    else if addressClass easz = some b.cls then .ok ()
    else refuse .addressClassMismatch

/-- An index: of the width's class, or a vector register (R183, R195). -/
def checkIndexClass (easz : Nat) (index : RegOrInvalid) : Check Unit :=
  match index with
  | none => .ok ()
  | some x => if x.cls.isVector || addressClass easz = some x.cls then .ok () else refuse .addressClassMismatch

/-- Index validation (R186): a GPR index whose offset is in INDEX_ILLEGAL_SET. -/
def checkIndex (illegal : List Nat) (index : RegOrInvalid) : Check Unit :=
  match index with
  | none => .ok ()
  | some x => if x.cls.isGpr && illegal.contains x.off then generalError else .ok ()

/-- SCALE_CODE and scale validation (R185). -/
def scaleCode (index : RegOrInvalid) (scale : Nat) : Check (BitVec 2) :=
  match index with
  | some _ =>
    match scale with
    | 1 => .ok 0
    | 2 => .ok 1
    | 4 => .ok 2
    | 8 => .ok 3
    | _ => generalError
  | none =>
    match scale with
    | 0 | 1 => .ok 0
    | 2 | 4 | 8 => refuse .scaleWithoutIndex
    | _ => generalError

/-- When a SIB byte is needed (R187). -/
def needSib (base index : RegOrInvalid) : Bool :=
  match index, base with
  | some _, _ => true
  | none, none => true
  | none, some b => low3 b.off == 4

/-- Every register a field encoder places has a place (R172): base and index of a memory operand. -/
def checkPlace (space : Space) : RegOrInvalid → Check Unit
  | none => .ok ()
  | some r => if placeable space r then .ok () else generalError

/-- The fields of R188 (no SIB byte) or R189 (SIB byte), and V' for a vector index in EVEX space (R195). -/
def sibFields (space : Space) (base index : RegOrInvalid) (code : BitVec 2) (d : Derived) : Derived :=
  if needSib base index then
    { d with
      hasSib := true
      rm := 4
      sibbase := match base with | none => 5 | some b => low3 b.off
      rexb := match base with | none => false | some b => bit3 b.off
      sibindex := match index with | none => 4 | some x => low3 x.off
      rexx := match index with | none => false | some x => bit3 x.off
      sibscale := code
      vexdest4 :=
        match index with
        | some x => if space = .evex ∧ x.cls.isVector = true then bit4 x.off else d.vexdest4
        | none => d.vexdest4 }
  else
    { d with
      hasSib := false
      rm := match base with | none => 4 | some b => low3 b.off
      rexb := match base with | none => false | some b => bit3 b.off
      rexx := false
      sibscale := code }

/-- MOD and the displacement under 32- and 64-bit addressing (R190, R191, R192), as a change of the request. -/
def modDisp (base : RegOrInvalid) (rq : Request) : Check Request :=
  match base with
  | none =>
    if rq.dispWidth = 32 then .ok { rq with derived := { rq.derived with mod := 0 } }
    else refuse .noBaseDisplacementWidth
  | some b =>
    match rq.dispWidth with
    | 0 =>
      if low3 b.off = 5 then
        .ok { rq with dispWidth := 8, disp := 0, derived := { rq.derived with mod := 1 } }
      else .ok { rq with derived := { rq.derived with mod := 0 } }
    | 8 => .ok { rq with derived := { rq.derived with mod := 1 } }
    | 32 => .ok { rq with derived := { rq.derived with mod := 2 } }
    | _ => refuse .displacementWidthForAddressSize

/-- RIP-relative (R184). -/
def encMemRip (rq : Request) : Check Request :=
  if rq.mode ≠ 64 then generalError
  else if rq.index ≠ none then generalError
  else if rq.dispWidth ≠ 32 then refuse .ripDisplacementWidth
  else
    .ok { rq with
      derived := { rq.derived with mod := 0, rm := 5, hasSib := false, rexb := false, rexx := false } }

/-- ENC_MEM under 32- and 64-bit addressing after the class check, its checks in the order of R196. -/
def encMem32 (p : Params) (space : Space) (rq : Request) : Check Request := do
  if rq.base0 = some p.registers.regRIP then encMemRip rq
  else do
    checkIndex p.indexIllegal rq.index
    let code ← scaleCode rq.index rq.scale
    checkPlace space rq.base0
    checkPlace space rq.index
    modDisp rq.base0 { rq with derived := sibFields space rq.base0 rq.index code rq.derived }

/-- The (base, index) table of 16-bit addressing (R193): each pair its own row; any other pair is an error. -/
def table16 (g : RegSpace) (base index : RegOrInvalid) : Check (BitVec 3) :=
  if base = some g.regBX ∧ index = some g.regSI then .ok 0
  else if base = some g.regBX ∧ index = some g.regDI then .ok 1
  else if base = some g.regBP ∧ index = some g.regSI then .ok 2
  else if base = some g.regBP ∧ index = some g.regDI then .ok 3
  else if base = some g.regSI ∧ index = none then .ok 4
  else if base = some g.regDI ∧ index = none then .ok 5
  else if base = some g.regBP ∧ index = none then .ok 6
  else if base = none ∧ index = none then .ok 6
  else if base = some g.regBX ∧ index = none then .ok 7
  else generalError

/-- MOD and the displacement under 16-bit addressing (R194). -/
def modDisp16 (g : RegSpace) (base index : RegOrInvalid) (rq : Request) : Check Request :=
  if base = none ∧ index = none then
    if rq.dispWidth = 16 then .ok { rq with derived := { rq.derived with mod := 0 } }
    else refuse .noBaseDisplacementWidth
  else
    match rq.dispWidth with
    | 0 =>
      if base = some g.regBP ∧ index = none then
        .ok { rq with dispWidth := 8, disp := 0, derived := { rq.derived with mod := 1 } }
      else .ok { rq with derived := { rq.derived with mod := 0 } }
    | 8 => .ok { rq with derived := { rq.derived with mod := 1 } }
    | 16 => .ok { rq with derived := { rq.derived with mod := 2 } }
    | _ => refuse .displacementWidthForAddressSize

/-- ENC_MEM16 (R193, R194) after the class check. The pair is looked up before the scale is tested (log 24). -/
def encMem16 (g : RegSpace) (rq : Request) : Check Request := do
  let rm ← table16 g rq.base0 rq.index
  if 1 < rq.scale then refuse .scaleUnder16Bit
  else
    modDisp16 g rq.base0 rq.index
      { rq with derived := { rq.derived with rm := rm, hasSib := false, rexb := false, rexx := false } }

/-- ENC_MEM (R182): the first memory operand, with the effective address width. The classes of base and index are checked
first, under every width (R183; log 23). -/
def encMem (p : Params) (space : Space) (easz : Nat) (rq : Request) : Check Request := do
  checkBaseClass p.registers easz rq.base0
  checkIndexClass easz rq.index
  let rq := { rq with derived := { rq.derived with hasModrm := true } }
  if easz = 16 then encMem16 p.registers rq else encMem32 p space rq

end Sys2Proof.Machine
end

