-- ==== Sys2Proof/Machine/Setters.lean ====
section
/-! DEFINITION. The request surface: REQ_INIT, the setters and GET_OPERAND_ORDER (spec/44_request_surface.md). -/

namespace Sys2Proof.Machine

/-! ## Shared operations -/

/-- A setter that always completes: the request changes, nothing else does (R321; its code is NONE, log 32). -/
def State.setRequest (s : State) (f : Request → Request) : Result :=
  s.issue fun s => { s with rq := f s.rq }.finish (.code .noError)

/-- A setter that may be refused or fatal. -/
def State.trySet (s : State) (f : State → Check Request) : Result :=
  s.issue fun s =>
    s.perform (.code .noError) fun s =>
      match f s with
      | .ok rq => .ok { s with rq := rq }
      | .error stop => .error stop

/-- 16, 32 or 64. -/
def isMode (m : Nat) : Bool := m == 16 || m == 32 || m == 64

/-- A request at its reset values with its machine mode (R290, spec/10_state.md R42). -/
def freshRequest (mode smode : Nat) : Request := { ({} : Request) with mode := mode, smode := smode }

/-- The work of REQ_INIT (R290): a new request. -/
def initRequest (mode smode : Nat) (s : State) : Check State :=
  if isMode mode && isMode smode then .ok (s.startRequest (freshRequest mode smode))
  else refuse .modeValue

/-- The work of SET_EOSZ (R292). -/
def putEosz (bits : Nat) (rq : Request) : Check Request :=
  if bits = 8 ∨ bits = 16 ∨ bits = 32 ∨ bits = 64 then .ok { rq with eosz := bits } else .error .fatal

/-- The work of SET_EASZ (R293). -/
def putEasz (bits : Nat) (rq : Request) : Check Request :=
  if bits = 16 ∨ bits = 32 ∨ bits = 64 then .ok { rq with easz := bits } else .error .fatal

/-- The work of SET_UIMM0 (R304). -/
def putUimm0 (value : Word64) (width : Nat) (rq : Request) : Request :=
  { rq with imm0 := value, imm0Signed := false, immWidth := width }

/-- The work of SET_SIMM0 (R305): sign-extended. -/
def putSimm0 (value : BitVec 32) (width : Nat) (rq : Request) : Request :=
  { rq with imm0 := value.signExtend 64, imm0Signed := true, immWidth := width }

/-- The work of SET_UIMM1 (R306): the low eight bits. -/
def putUimm1 (value : Byte) (rq : Request) : Request := { rq with imm1 := value, imm1Present := true }

/-- A displacement width in bits (spec/10_state.md R23). -/
def isDispWidth (w : Nat) : Bool := w == 0 || w == 8 || w == 16 || w == 32

/-- INVALID or a segment register (R311). -/
def segmentOrInvalid : RegOrInvalid → Bool
  | none => true
  | some r => decide (r.cls = .seg)

/-- The value of a natural field is in the field's set (spec/10_state.md R21, R23, R24, R26; log 28). -/
def putNatField (legal : Bool) (rq : Request) : Check Request := if legal then .ok rq else refuse .fieldValue

/-- The work of SET_FIELD (R320). A field of R21 to R26 or NORDER takes a value of its set; MODE and SMODE also take 0, their
value at reset, which the values column of R21 does not list (DESIGN CHOICE, unsafe: log 28); another value is refused (DESIGN
CHOICE, safe: log 28). A further named field is written where the table needs it (spec/10_state.md R26). -/
def assignField (p : Params) (f : FieldAssign) (rq : Request) : Check Request :=
  let d := rq.derived
  match f with
  | .mode v => putNatField (v == 0 || isMode v) { rq with mode := v }
  | .smode v => putNatField (v == 0 || isMode v) { rq with smode := v }
  | .iclass v => .ok { rq with iclass := v }
  | .eosz v => putNatField (v == 0 || v == 8 || isMode v) { rq with eosz := v }
  | .easz v => putNatField (v == 0 || isMode v) { rq with easz := v }
  | .error _ => refuse .errorField
  | .reg k v => .ok { rq with regs := slotSet rq.regs k.val v }
  | .base0 v => .ok { rq with base0 := v }
  | .index v => .ok { rq with index := v }
  | .scale v => .ok { rq with scale := v }
  | .seg0 v => .ok { rq with seg0 := v }
  | .base1 v => .ok { rq with base1 := v }
  | .seg1 v => .ok { rq with seg1 := v }
  | .mem0 v => .ok { rq with mem0 := v }
  | .mem1 v => .ok { rq with mem1 := v }
  | .agen v => .ok { rq with agen := v }
  | .disp v => .ok { rq with disp := v }
  | .dispWidth v => putNatField (isDispWidth v) { rq with dispWidth := v }
  | .brdisp v => .ok { rq with brdisp := v }
  | .brdispWidth v => putNatField (isDispWidth v) { rq with brdispWidth := v }
  | .relbr v => .ok { rq with relbr := v }
  | .ptr v => .ok { rq with ptr := v }
  | .imm0 v => .ok { rq with imm0 := v }
  | .imm0Signed v => .ok { rq with imm0Signed := v }
  | .immWidth v => .ok { rq with immWidth := v }
  | .imm1 v => .ok { rq with imm1 := v }
  | .imm1Present v => .ok { rq with imm1Present := v }
  | .rep v => .ok { rq with rep := v }
  | .hint v => .ok { rq with hint := v }
  | .vl v => match p.lengths.lengthOf v with | some l => .ok { rq with vl := l } | none => refuse .fieldValue
  | .mustUseEvex v => .ok { rq with mustUseEvex := v }
  | .roundc v => putNatField (decide (v ≤ 4)) { rq with roundc := v }
  | .zeroing v => .ok { rq with zeroing := v }
  | .sae v => .ok { rq with sae := v }
  | .bcast v => .ok { rq with bcast := v }
  | .hasModrm v => .ok { rq with derived := { d with hasModrm := v } }
  | .mod v => .ok { rq with derived := { d with mod := v } }
  | .modrmReg v => .ok { rq with derived := { d with reg := v } }
  | .rm v => .ok { rq with derived := { d with rm := v } }
  | .hasSib v => .ok { rq with derived := { d with hasSib := v } }
  | .sibscale v => .ok { rq with derived := { d with sibscale := v } }
  | .sibindex v => .ok { rq with derived := { d with sibindex := v } }
  | .sibbase v => .ok { rq with derived := { d with sibbase := v } }
  | .rexw v => .ok { rq with derived := { d with rexw := v } }
  | .rexr v => .ok { rq with derived := { d with rexr := v } }
  | .rexx v => .ok { rq with derived := { d with rexx := v } }
  | .rexb v => .ok { rq with derived := { d with rexb := v } }
  | .rexrr v => .ok { rq with derived := { d with rexrr := v } }
  | .vvvv v => .ok { rq with derived := { d with vvvv := v } }
  | .vexdest4 v => .ok { rq with derived := { d with vexdest4 := v } }
  | .aaa v => .ok { rq with derived := { d with aaa := v } }
  | .needrex v => .ok { rq with derived := { d with needrex := v } }
  | .norex v => .ok { rq with derived := { d with norex := v } }
  | .osz v => .ok { rq with derived := { d with osz := v } }
  | .asz v => .ok { rq with derived := { d with asz := v } }
  | .segpfx v => .ok { rq with derived := { d with segpfx := v } }
  | .opcodeLow3 v => .ok { rq with derived := { d with opcodeLow3 := v } }
  | .orderEntry k v => if k < p.maxOperands then .ok { rq with order := orderSet rq.order k v } else refuse .operandIndex
  | .norder v => putNatField (decide (v ≤ p.maxOperands)) { rq with norder := v }
  | .named i v =>
    if p.namedFields.contains i then .ok { rq with named := setNamed rq.named i v } else refuse .unknownField

/-! ## The commands -/

/-- REQ_INIT (R290). -/
def execReqInit (mode smode : Nat) (s : State) : Result :=
  s.issue fun s => s.perform (.code .noError) (initRequest mode smode)

/-- SET_ICLASS (R291). -/
def execSetIclass (iclass : Nat) (s : State) : Result := s.setRequest fun rq => { rq with iclass := iclass }

/-- SET_EOSZ (R292). -/
def execSetEosz (bits : Nat) (s : State) : Result := s.trySet fun s => putEosz bits s.rq

/-- SET_EASZ (R293). -/
def execSetEasz (bits : Nat) (s : State) : Result := s.trySet fun s => putEasz bits s.rq

/-- SET_REP (R294). -/
def execSetRep (s : State) : Result := s.setRequest fun rq => { rq with rep := .rep }

/-- CLEAR_REP (R295). -/
def execClearRep (s : State) : Result :=
  s.setRequest fun rq => if rq.rep = .rep then { rq with rep := .none } else rq

/-- SET_REPNE (R296). -/
def execSetRepne (s : State) : Result := s.setRequest fun rq => { rq with rep := .repne }

/-- CLEAR_REPNE (R297). -/
def execClearRepne (s : State) : Result :=
  s.setRequest fun rq => if rq.rep = .repne then { rq with rep := .none } else rq

/-- SET_HINT_TAKEN (R298). -/
def execSetHintTaken (s : State) : Result := s.setRequest fun rq => { rq with hint := .taken }

/-- SET_HINT_NOT_TAKEN (R299). -/
def execSetHintNotTaken (s : State) : Result := s.setRequest fun rq => { rq with hint := .notTaken }

/-- SET_REG (R300). -/
def execSetReg (slot : Nat) (r : RegOrInvalid) (s : State) : Result :=
  s.trySet fun s =>
    if slot ≤ 8 then .ok { s.rq with regs := slotSet s.rq.regs slot r } else refuse .registerSlot

/-- SET_DISP (R301): the width in bytes. -/
def execSetDisp (value : Word64) (widthBytes : Nat) (s : State) : Result :=
  s.trySet fun s =>
    if widthBytes = 0 ∨ widthBytes = 1 ∨ widthBytes = 2 ∨ widthBytes = 4 then
      .ok { s.rq with disp := value, dispWidth := 8 * widthBytes }
    else refuse .displacementWidth

/-- SET_DISP_BITS (R302). -/
def execSetDispBits (value : Word64) (width : Nat) (s : State) : Result :=
  s.trySet fun s =>
    if isDispWidth width then .ok { s.rq with disp := value, dispWidth := width } else refuse .displacementWidth

/-- SET_BRDISP (R303). -/
def execSetBrdisp (value : Word64) (width : Nat) (s : State) : Result :=
  s.trySet fun s =>
    if width = 8 ∨ width = 16 ∨ width = 32 then .ok { s.rq with brdisp := value, brdispWidth := width }
    else refuse .branchDisplacementWidth

/-- SET_UIMM0 (R304). -/
def execSetUimm0 (value : Word64) (width : Nat) (s : State) : Result := s.setRequest (putUimm0 value width)

/-- SET_SIMM0 (R305). The width is stored as given; ENCODE refuses one the iform cannot carry (log 25). -/
def execSetSimm0 (value : BitVec 32) (width : Nat) (s : State) : Result := s.setRequest (putSimm0 value width)

/-- SET_UIMM1 (R306). -/
def execSetUimm1 (value : Word64) (s : State) : Result := s.setRequest (putUimm1 (value.setWidth 8))

/-- SET_BASE0 (R307). -/
def execSetBase0 (r : RegOrInvalid) (s : State) : Result := s.setRequest fun rq => { rq with base0 := r }

/-- SET_BASE1 (R308). -/
def execSetBase1 (r : RegOrInvalid) (s : State) : Result := s.setRequest fun rq => { rq with base1 := r }

/-- SET_INDEX (R309). -/
def execSetIndex (r : RegOrInvalid) (s : State) : Result := s.setRequest fun rq => { rq with index := r }

/-- SET_SCALE (R310). -/
def execSetScale (scale : Nat) (s : State) : Result := s.setRequest fun rq => { rq with scale := scale }

/-- SET_SEG0 (R311). -/
def execSetSeg0 (r : RegOrInvalid) (s : State) : Result :=
  s.trySet fun s => if segmentOrInvalid r then .ok { s.rq with seg0 := r } else refuse .segmentClass

/-- SET_SEG1 (R312). -/
def execSetSeg1 (r : RegOrInvalid) (s : State) : Result :=
  s.trySet fun s => if segmentOrInvalid r then .ok { s.rq with seg1 := r } else refuse .segmentClass

/-- SET_RELBR (R313). -/
def execSetRelbr (s : State) : Result := s.setRequest fun rq => { rq with relbr := true }

/-- SET_PTR (R314). -/
def execSetPtr (s : State) : Result := s.setRequest fun rq => { rq with ptr := true }

/-- SET_AGEN (R315). -/
def execSetAgen (s : State) : Result := s.setRequest fun rq => { rq with agen := true }

/-- SET_MEM0 (R316). -/
def execSetMem0 (s : State) : Result := s.setRequest fun rq => { rq with mem0 := true }

/-- SET_MEM1 (R317). -/
def execSetMem1 (s : State) : Result := s.setRequest fun rq => { rq with mem1 := true }

/-- SET_OPERAND_ORDER (R318). -/
def execSetOperandOrder (position : Nat) (name : OperandName) (s : State) : Result :=
  s.trySet fun s =>
    if position < s.params.maxOperands then
      .ok { s.rq with
        order := orderSet s.rq.order position name
        norder := if s.rq.norder ≤ position then position + 1 else s.rq.norder }
    else refuse .operandIndex

/-- GET_OPERAND_ORDER (R319): reads only. An entry at or above NORDER that still holds a name is returned as it stands (DESIGN
CHOICE, unsafe: log 46). -/
def execGetOperandOrder (position : Nat) (s : State) : Result :=
  s.issue fun s =>
    if position < s.params.maxOperands then s.finish (.name (orderGet s.rq.order position))
    else .refused .operandIndex

/-- SET_FIELD (R320). -/
def execSetField (f : FieldAssign) (s : State) : Result := s.trySet fun s => assignField s.params f s.rq

end Sys2Proof.Machine
end

