-- ==== Sys2Proof/Machine/Bridge.lean ====
section
/-! DEFINITION. Unit U6, the decoded-to-encoder bridge and the patch commands (spec/46_bridge_patch.md). -/

namespace Sys2Proof.Machine

/-- Every field has a value of its set (spec/10_state.md R21 to R26, R29), MODE and SMODE also the 0 of reset (log 28). A
request that a program made is so. A record D with a field that is not is refused as malformed: R35 and R360 do not say what
such a D is (DESIGN CHOICE, safe: log 43). -/
def legalRequest (max : Nat) (rq : Request) : Bool :=
  (rq.mode == 0 || isMode rq.mode) && (rq.smode == 0 || isMode rq.smode)
    && (rq.eosz == 0 || rq.eosz == 8 || isMode rq.eosz) && (rq.easz == 0 || isMode rq.easz)
    && isDispWidth rq.dispWidth && isDispWidth rq.brdispWidth && decide (rq.vl ≤ 2) && decide (rq.roundc ≤ 4)
    && namedWf rq.named && decide (rq.norder ≤ max) && decide (rq.order.length ≤ max)

/-- The operands that are not suppressed, in order (R361). -/
def listedOperands (ops : List DecodedOperand) : List OperandName :=
  (ops.filter fun o => !o.suppressed).map DecodedOperand.name

/-- The REX and operand-size derived bits cleared (R362). -/
def clearRexBits (d : Derived) : Derived :=
  { d with
    rexw := false
    rexr := false
    rexx := false
    rexb := false
    rexrr := false
    needrex := false
    norex := false
    osz := false }

/-- The request must use EVEX form (R363). -/
def mustUseEvexMark (d : DecodedRecord) : Bool :=
  (d.fields.mem0 || d.fields.agen) && decide (d.fields.dispWidth = 8) && d.evexMaskFeatures && !d.disp8Guarantee

/-- The further named fields of a record that the table needs (spec/10_state.md R26), in canonical form. -/
def keepNamed (needed : List Nat) : List (Nat × Nat) → List (Nat × Nat)
  | [] => []
  | e :: rest => if needed.contains e.1 then setNamed (keepNamed needed rest) e.1 e.2 else keepNamed needed rest

/-- The request a record gives whose VL stands for the length `l` (R360 to R363): its fields, NONE, its iclass, the order array
of its operands. -/
def requestOf (p : Params) (l : Nat) (d : DecodedRecord) : Request :=
  { d.fields with
    vl := l
    error := .noError
    iclass := d.iclass
    named := keepNamed p.namedFields d.fields.named
    order := listedOperands d.operands
    norder := (listedOperands d.operands).length
    derived := clearRexBits d.fields.derived
    mustUseEvex := d.fields.mustUseEvex || mustUseEvexMark d }

/-- The fields of a record that INIT_FROM_DECODE holds to their sets; order array and further named fields are computed. -/
def recordFields (l : Nat) (d : DecodedRecord) : Request := { d.fields with vl := l, order := [], norder := 0, named := [] }

/-- The work of INIT_FROM_DECODE. -/
def bridgeRequest (d : DecodedRecord) (s : State) : Check State :=
  match s.params.lengths.lengthOf d.fields.vl with
  | none => refuse .malformedRecord
  | some l =>
    if !legalRequest s.params.maxOperands (recordFields l d) then refuse .malformedRecord
    else if s.params.maxOperands < (listedOperands d.operands).length then refuse .recordOperandCount
    else .ok (s.startRequest (requestOf s.params l d))

/-- INIT_FROM_DECODE (R360). -/
def execInitFromDecode (d : DecodedRecord) (s : State) : Result :=
  s.issue fun s => s.perform (.code .noError) (bridgeRequest d)

/-- A location inside the instruction, of a width the format has (R366). -/
def locationInside (l : FieldLoc) (length : Nat) : Bool :=
  (l.width == 8 || l.width == 16 || l.width == 32 || l.width == 64) && decide (l.pos + l.width / 8 ≤ length)

/-- PATCH (R364): the absent test, the width test (R365), the contract on D (R366, log 31), the bytes. -/
def State.patch (s : State) (loc : Option FieldLoc) (length : Nat) (value : Word64) (width : Nat) : Result :=
  s.issue fun s =>
    match loc with
    | none => s.finish (.flag false)
    | some l =>
      if width ≠ l.width then s.finish (.flag false)
      else if !locationInside l length then .refused .patchLocation
      else
        { s with buf := s.buf.writeLE l.pos (l.width / 8) (truncBits l.width value.toNat) }.finish (.flag true)

/-- PATCH_DISP (R364). -/
def execPatchDisp (d : DecodedRecord) (value : Word64) (width : Nat) (s : State) : Result :=
  s.patch d.dispLoc d.length value width

/-- PATCH_RELBR (R368). -/
def execPatchRelbr (d : DecodedRecord) (value : Word64) (width : Nat) (s : State) : Result :=
  s.patch d.brdispLoc d.length value width

/-- PATCH_IMM0 (R369). -/
def execPatchImm0 (d : DecodedRecord) (value : Word64) (width : Nat) (s : State) : Result :=
  s.patch d.imm0Loc d.length value width

end Sys2Proof.Machine
end

