-- ==== Sys2Proof/Machine/Builder.lean ====
section
/-! DEFINITION. Unit U5, the high-level operand builder BUILD and one turn of its loop for each descriptor
(spec/45_operand_builder.md; log 4). -/

namespace Sys2Proof.Machine

/-- Pushing an operand name (R341): ORDER at NORDER, NORDER one more. NORDER at MAX_OPERANDS leaves no place. -/
def pushOperand (max : Nat) (n : OperandName) (rq : Request) : Check Request :=
  if rq.norder < max then .ok { rq with order := orderSet rq.order rq.norder n, norder := rq.norder + 1 }
  else refuse .operandIndex

/-- A change of the request, then a push. -/
def State.setAndPush (s : State) (f : Request → Request) (n : OperandName) : Check State :=
  match pushOperand s.params.maxOperands n (f s.rq) with
  | .ok rq => .ok { s with rq := rq }
  | .error stop => .error stop

/-- REG (R342): the next register slot. INVALID is accepted and stored like a register (DESIGN CHOICE, unsafe: log 47). -/
def buildReg (r : RegOrInvalid) (s : State) : Check State :=
  if 8 < s.regcnt then refuse .registerOperandCount
  else
    match s.setAndPush (fun rq => { rq with regs := slotSet rq.regs s.regcnt r }) (regName s.regcnt) with
    | .ok t => .ok { t with regcnt := s.regcnt + 1 }
    | .error stop => .error stop

/-- BRDISP (R346); the widths of spec/30_encoding.md R101. -/
def buildBrdisp (value : BitVec 32) (width : Nat) (s : State) : Check State :=
  if width = 8 ∨ width = 16 ∨ width = 32 then
    s.setAndPush (fun rq => { rq with brdisp := value.signExtend 64, brdispWidth := width, relbr := true }) .relbr
  else refuse .branchDisplacementWidth

/-- PTR (R347). -/
def buildPtr (value : BitVec 32) (width : Nat) (s : State) : Check State :=
  if width = 16 ∨ width = 32 then
    s.setAndPush (fun rq => { rq with brdisp := value.signExtend 64, brdispWidth := width, ptr := true }) .ptr
  else refuse .branchDisplacementWidth

/-- UIMM0 (R348). -/
def buildUimm0 (value : Word64) (width : Nat) (s : State) : Check State := s.setAndPush (putUimm0 value width) .imm0

/-- SIMM0 (R349). -/
def buildSimm0 (value : BitVec 32) (width : Nat) (s : State) : Check State := s.setAndPush (putSimm0 value width) .imm0

/-- IMM1 (R350). -/
def buildImm1 (value : Byte) (s : State) : Check State := s.setAndPush (putUimm1 value) .imm1

/-- Address-width inference (R344): the base, or the index if there is no base; a register of another class infers
nothing, and neither does a member of class IP that is none of RIP, EIP, IP (DESIGN CHOICE, unsafe: log 49). -/
def inferEasz (g : RegSpace) (base index : RegOrInvalid) (easz : Nat) : Nat :=
  let r := match base with | some b => some b | none => index
  match r with
  | none => easz
  | some r =>
    match r.cls with
    | .gpr16 => 16
    | .gpr32 => 32
    | .gpr64 => 64
    | .ip => if r = g.regRIP then 64 else if r = g.regEIP then 32 else if r = g.regIP then 16 else easz
    | _ => easz

/-- MEM, the first memory operand (R343, R344). -/
def buildMem0 (m : MemDesc) (s : State) : Check State :=
  let set (rq : Request) : Request :=
    { rq with
      base0 := m.base
      index := m.index
      scale := m.scale
      seg0 := m.seg
      disp := m.dispValue
      dispWidth := m.dispWidth
      mem0 := true
      easz := inferEasz s.params.registers m.base m.index rq.easz }
  match s.setAndPush set .mem0 with
  | .ok t => .ok { t with memcnt := 1 }
  | .error stop => .error stop

/-- MEM, the second memory operand (R345): base and segment only. -/
def buildMem1 (m : MemDesc) (s : State) : Check State :=
  if m.index ≠ none ∨ (m.scale ≠ 0 ∧ m.scale ≠ 1) ∨ m.dispWidth ≠ 0 then refuse .secondMemoryFields
  else
    match s.setAndPush (fun rq => { rq with base1 := m.base, seg1 := m.seg, mem1 := true }) .mem1 with
    | .ok t => .ok { t with memcnt := 2 }
    | .error stop => .error stop

/-- MEM (R343 to R345); the displacement widths of spec/30_encoding.md R101. -/
def buildMem (m : MemDesc) (s : State) : Check State :=
  if isDispWidth m.dispWidth then
    match s.memcnt with
    | 0 => buildMem0 m s
    | 1 => buildMem1 m s
    | _ => refuse .thirdMemoryOperand
  else refuse .displacementWidth

/-- OTHER (R352): nothing is pushed. -/
def buildOther (f : FieldAssign) (s : State) : Check State :=
  match assignField s.params f s.rq with
  | .ok rq => .ok { s with rq := rq }
  | .error stop => .error stop

/-- One turn of BUILD's loop (R340); none: an unrecognized tag (R351). -/
def buildOne (d : Descriptor) (s : State) : Option (Check State) :=
  match d with
  | .reg r => some (buildReg r s)
  | .brdisp v w => some (buildBrdisp v w s)
  | .ptr v w => some (buildPtr v w s)
  | .uimm0 v w => some (buildUimm0 v w s)
  | .simm0 v w => some (buildSimm0 v w s)
  | .imm1 v => some (buildImm1 v s)
  | .mem m => some (buildMem m s)
  | .other f => some (buildOther f s)
  | .unrecognized _ => none

/-- The loop index moves on (spec/10_state.md R36). -/
def State.advanceLoop (s : State) : State := { s with loopIndex := s.loopIndex + 1 }

/-- BUILD's loop (R340, R351): the state and what BUILD returns. -/
def buildAll : List Descriptor → State → Check (State × Bool)
  | [], s => .ok (s, true)
  | d :: rest, s =>
    match buildOne d s with
    | none => .ok (s, false)
    | some (.ok t) => buildAll rest t.advanceLoop
    | some (.error stop) => .error stop

/-- The optional SET_EOSZ and SET_EASZ of BUILD (R340): 0 is "not supplied". -/
def buildWidths (eosz easz : Nat) (rq : Request) : Check Request := do
  let rq ← if eosz = 0 then .ok rq else putEosz eosz rq
  if easz = 0 then .ok rq else putEasz easz rq

/-- BUILD up to its loop (R340); the scratch is 0 (spec/10_state.md R36, `State.startRequest`). -/
def buildHead (mode smode iclass eosz easz : Nat) (p : Rep) (h : Hint) (s : State) : Check State := do
  let s ← initRequest mode smode s
  let rq ← buildWidths eosz easz { s.rq with iclass := iclass }
  .ok { s with rq := { rq with rep := p, hint := h, norder := 0 } }

/-- BUILD (R340). `n` above MAX_OPERANDS is refused after the mode (log 26). -/
def execBuild (mode smode iclass eosz easz : Nat) (p : Rep) (h : Hint) (ds : List Descriptor) (s : State) : Result :=
  s.issue fun s =>
    if !(isMode mode && isMode smode) then .refused .modeValue
    else if s.params.maxOperands < ds.length then .refused .operandCount
    else
      match buildHead mode smode iclass eosz easz p h s with
      | .error stop => s.stopped stop
      | .ok t =>
        match buildAll ds t with
        | .error stop => s.stopped stop
        | .ok (u, ok) => u.finish (.flag ok)

/-- One turn of BUILD's loop as an instruction (log 4); a turn that completes returns true. -/
def State.buildTurn (s : State) (work : State → Check State) : Result :=
  s.issue fun s =>
    s.perform (.flag true) fun s =>
      match work s with
      | .ok t => .ok t.advanceLoop
      | .error stop => .error stop

def execDescReg (r : RegOrInvalid) (s : State) : Result := s.buildTurn (buildReg r)
def execDescBrdisp (value : BitVec 32) (width : Nat) (s : State) : Result := s.buildTurn (buildBrdisp value width)
def execDescPtr (value : BitVec 32) (width : Nat) (s : State) : Result := s.buildTurn (buildPtr value width)
def execDescUimm0 (value : Word64) (width : Nat) (s : State) : Result := s.buildTurn (buildUimm0 value width)
def execDescSimm0 (value : BitVec 32) (width : Nat) (s : State) : Result := s.buildTurn (buildSimm0 value width)
def execDescImm1 (value : Byte) (s : State) : Result := s.buildTurn (buildImm1 value)
def execDescMem (m : MemDesc) (s : State) : Result := s.buildTurn (buildMem m)
def execDescOther (f : FieldAssign) (s : State) : Result := s.buildTurn (buildOther f)

end Sys2Proof.Machine
end

