-- ==== Sys2Proof/Machine/Flags.lean ====
section
/-! DEFINITION. The computed flags of an encode: effective widths (spec/43_encode_dispatch.md R251), the Precondition
phase (R252, R253), the prefix decisions and the mode checks (spec/41_field_encoders.md R180, R181, R197 to R201). -/

namespace Sys2Proof.Machine

/-- The effective operand width (R251). -/
def effectiveEosz (rq : Request) : Nat := if rq.eosz ≠ 0 then rq.eosz else if rq.mode = 16 then 16 else 32

/-- The effective address width (R251). -/
def effectiveEasz (rq : Request) : Nat := if rq.easz ≠ 0 then rq.easz else rq.mode

/-- RIP normalisation (R252): the width becomes 32; a displacement that was not supplied is 0. -/
def normaliseRip (g : RegSpace) (rq : Request) : Request :=
  if rq.base0 = some g.regRIP then
    { rq with dispWidth := 32, disp := if rq.dispWidth = 0 then 0 else rq.disp }
  else rq

/-- The length a register asks for: YMM 1, ZMM 2, any other and INVALID 0 (R253). -/
def regLength : RegOrInvalid → Nat
  | none => 0
  | some r => match r.cls with
    | .ymm => 1
    | .zmm => 2
    | _ => 0

/-- The registers the inference scans: REG0 to REG8 and INDEX (R253). -/
def scannedRegs (rq : Request) : List RegOrInvalid :=
  [rq.regs.r0, rq.regs.r1, rq.regs.r2, rq.regs.r3, rq.regs.r4, rq.regs.r5, rq.regs.r6, rq.regs.r7, rq.regs.r8, rq.index]

/-- The widest length the registers ask for. -/
def widest : List RegOrInvalid → Nat
  | [] => 0
  | r :: rest => max (regLength r) (widest rest)

/-- Vector-length inference (R253): only a length left unset is inferred. -/
def inferLength (rq : Request) : Request := if rq.vl = 0 then { rq with vl := widest (scannedRegs rq) } else rq

/-- The Precondition phase (R252, R253). -/
def precondition (g : RegSpace) (rq : Request) : Request := inferLength (normaliseRip g rq)

/-- REX_NEEDED (R197). -/
def rexNeeded (d : Derived) : Bool := d.rexw || d.rexr || d.rexx || d.rexb || d.needrex

/-- The default segment of a base (R200): SS for the SP and BP family, else DS. -/
def defaultSegment (g : RegSpace) : RegOrInvalid → Reg
  | none => g.segDS
  | some b =>
    if b.cls.isGpr = true ∧ (low3 b.off = 4 ∨ low3 b.off = 5) ∧ bit3 b.off = false then g.segSS else g.segDS

/-- The prefix byte of a segment register (R200, spec/30_encoding.md R103). A register that is none has no byte:
GENERAL_ERROR (log 27). -/
def segmentByte (g : RegSpace) (r : Reg) : Check Byte :=
  if r = g.segES then .ok 0x26
  else if r = g.segCS then .ok 0x2E
  else if r = g.segSS then .ok 0x36
  else if r = g.segDS then .ok 0x3E
  else if r = g.segFS then .ok 0x64
  else if r = g.segGS then .ok 0x65
  else generalError

/-- The branch-hint byte, 0 for none (R200, R103). -/
def hintByte : Hint → Byte
  | .none => 0
  | .taken => 0x3E
  | .notTaken => 0x2E

/-- The byte SEGPFX takes (R200). -/
def segmentPrefix (g : RegSpace) (rq : Request) : Check Byte :=
  if rq.mem0 || rq.agen then
    match rq.seg0 with
    | none => .ok 0
    | some r => if r ≠ defaultSegment g rq.base0 then segmentByte g r else .ok 0
  else
    match rq.mem1, rq.seg1 with
    | true, some r => if r ≠ g.segDS then segmentByte g r else .ok (hintByte rq.hint)
    | _, _ => .ok (hintByte rq.hint)

/-- OSZ (R201). -/
def operandSizeBit (oszsens : Bool) (mode eosz : Nat) : Bool :=
  oszsens && decide ((mode = 16 ∧ eosz = 32) ∨ ((mode = 32 ∨ mode = 64) ∧ eosz = 16))

/-- ASZ (R201). -/
def addressSizeBit (rq : Request) (easz : Nat) : Bool :=
  (rq.mem0 || rq.agen)
    && decide ((rq.mode = 16 ∧ easz = 32) ∨ (rq.mode = 32 ∧ easz = 16) ∨ (rq.mode = 64 ∧ easz = 32))

/-- SIZE_PREFIXES (R201): the two bits, then the address widths the mode does not have. -/
def sizePrefixes (oszsens : Bool) (eosz easz : Nat) (rq : Request) : Check Request :=
  if (rq.mode = 64 ∧ easz = 16) ∨ (rq.mode ≠ 64 ∧ easz = 64) then generalError
  else
    .ok { rq with
      derived := { rq.derived with
        osz := operandSizeBit oszsens rq.mode eosz
        asz := addressSizeBit rq easz } }

/-- SEG_PREFIX (R200). -/
def segPrefix (g : RegSpace) (rq : Request) : Check Request :=
  match segmentPrefix g rq with
  | .ok b => .ok { rq with derived := { rq.derived with segpfx := b } }
  | .error stop => .error stop

/-- Outside 64-bit mode no extension bit may be set (R181). -/
def extensionInLegacyMode (space : Space) (rq : Request) : Bool :=
  decide (rq.mode ≠ 64)
    && (rq.derived.rexr || rq.derived.rexx || rq.derived.rexb || rq.derived.rexrr || rq.derived.vexdest4
      || rq.derived.needrex || (rq.derived.rexw && decide (space = .legacy)))

/-- AH, CH, DH or BH together with a REX byte (R180). -/
def rexConflict (space : Space) (rq : Request) : Bool :=
  decide (space = .legacy) && rexNeeded rq.derived && rq.derived.norex

/-- A check of the finished request, which is an error where `bad` holds. -/
def checkNot (bad : Bool) (rq : Request) : Check Request := if bad then generalError else .ok rq

end Sys2Proof.Machine
end

