-- ==== Sys2Proof/Machine/Lookup.lean ====
section
/-! DEFINITION. Unit U3, the ISA table lookup service (spec/42_table_lookup.md R220 to R233): matching, expressions, the bind
functions and the field-binding patterns of a table. -/

namespace Sys2Proof.Machine

/-! ## Matching (R229, R233) -/

/-- The GPR class of `GPRv` at an effective operand width (R233). -/
def gprvClass : Nat → Option RegClass
  | 16 => some .gpr16
  | 32 => some .gpr32
  | 64 => some .gpr64
  | _ => none

/-- The VL a vector class goes with (R229): XMM 0, YMM 1, ZMM 2; any other class goes with every VL. -/
def classLength : RegClass → Option Nat
  | .xmm => some 0
  | .ymm => some 1
  | .zmm => some 2
  | _ => none

/-- The VL of the request agrees with a register operand's class (R229; log 36). -/
def lengthAgrees (vl : Nat) (c : RegClass) : Bool :=
  match classLength c with
  | none => true
  | some l => l == vl

/-- In legacy and VEX space a register pattern matches offsets 0 to 15 only (R229). -/
def offsetAllowed (space : Space) (r : Reg) : Bool := decide (space = .evex) || decide (r.off < 16)

/-- A register operand of a class a pattern takes: a register in its slot, VL and offset fitting. -/
def regMatches (space : Space) (rq : Request) (n : OperandName) (takes : RegClass → Bool) : Bool :=
  match slotOf rq n with
  | none => false
  | some r => takes r.cls && lengthAgrees rq.vl r.cls && offsetAllowed space r

/-- The class `REG(same)` stands for: the class of the first register operand of the order array (log 36). -/
def sameClass (rq : Request) : List OperandName → Option RegClass
  | [] => none
  | n :: rest =>
    match slotOf rq n with
    | some r => some r.cls
    | none => sameClass rq rest

/-- One order-array entry against one operand pattern (R229). A `REG(classes)` pattern takes a register of a listed class at
every effective operand width, GPR8 at 32 bits too; the width of R233 is asked of `REG(GPRv)` only (DESIGN CHOICE, unsafe: log
44). -/
def patternMatches (space : Space) (eosz : Nat) (rq : Request) (n : OperandName) : OperandPattern → Bool
  | .reg classes => regMatches space rq n classes.contains
  | .regv => regMatches space rq n (fun c => gprvClass eosz == some c)
  | .same => regMatches space rq n (fun c => sameClass rq rq.order == some c)
  | .mem => n == .mem0 || n == .agen
  | .mem1 => n == .mem1
  | .imm widths => n == .imm0 && widths.contains rq.immWidth
  | .immv => n == .imm0 && rq.immWidth == eosz
  | .immz => n == .imm0 && rq.immWidth == (if eosz = 16 then 16 else 32)
  | .imm1 => n == .imm1
  | .relbr widths => n == .relbr && widths.contains rq.brdispWidth
  | .ptr => n == .ptr

/-- Every entry of the order array from position `k` on against its pattern. -/
def shapeMatches (space : Space) (eosz : Nat) (rq : Request) : Nat → List (OperandPattern × Role) → Bool
  | _, [] => true
  | k, p :: rest => patternMatches space eosz rq (orderGet rq.order k) p.1 && shapeMatches space eosz rq (k + 1) rest

/-- MUST_USE_EVEX admits EVEX-space iforms only (R229, spec/43_encode_dispatch.md R254). -/
def spaceAllowed (rq : Request) (i : IformSpec) : Bool := !rq.mustUseEvex || decide (i.space = .evex)

/-- An IformSpec matches a request (R229). MUST_USE_EVEX shuts iforms out and changes no shape: VADDPS with it and without a
mask operand matches no row of T0 (DESIGN CHOICE, unsafe: log 45). -/
def iformMatches (rq : Request) (i : IformSpec) : Bool :=
  rq.iclass == i.iclass && i.modeSet.contains rq.mode && i.eoszSet.contains (effectiveEosz rq)
    && rq.norder == i.operands.length && spaceAllowed rq i && shapeMatches i.space (effectiveEosz rq) rq 0 i.operands

/-! ## The bound iform -/

/-- What a bind leads to (R220 (b), R221): the iform index, the Iform Entry, the two patterns its indices name, and the
field-value table from `fvStart` on. -/
structure Bound where
  index : Nat
  spec : IformSpec
  binding : List BindingLine
  emission : List EmitLine
  values : List Nat
  deriving DecidableEq, Repr, Inhabited

/-- An iform with the reference patterns (R231, R232). -/
def referenceBound (n : Nat) (i : IformSpec) : Bound := ⟨n, i, referenceBinding, referenceEmission, []⟩

/-- `T.iform(n)` (R220 (b)); an index outside its table breaks the contract on T. -/
def boundOf (t : IsaTable) (n : Nat) : Check Bound :=
  match t.iforms[n]? with
  | none => refuse .tableIllFormed
  | some i =>
    match t.bindings[i.fbIndex]?, t.emissions[i.emitIndex]? with
    | some binding, some emission => .ok ⟨n, i, binding, emission, t.fieldValues.drop i.fvStart⟩
    | _, _ => refuse .tableIllFormed

/-! ## Expressions (log 42) -/

/-- A numeric field of the request; a flag is 0 or 1, VL the length (0, 1, 2), REP and HINT count from 0 in the order of spec/10_state.md R25. -/
def numField (rq : Request) : NumField → Nat
  | .mode => rq.mode
  | .smode => rq.smode
  | .iclass => rq.iclass
  | .eosz => rq.eosz
  | .easz => rq.easz
  | .scale => rq.scale
  | .mem0 => rq.mem0.toNat
  | .mem1 => rq.mem1.toNat
  | .agen => rq.agen.toNat
  | .disp => rq.disp.toNat
  | .dispWidth => rq.dispWidth
  | .brdisp => rq.brdisp.toNat
  | .brdispWidth => rq.brdispWidth
  | .relbr => rq.relbr.toNat
  | .ptr => rq.ptr.toNat
  | .imm0 => rq.imm0.toNat
  | .imm0Signed => rq.imm0Signed.toNat
  | .immWidth => rq.immWidth
  | .imm1 => rq.imm1.toNat
  | .imm1Present => rq.imm1Present.toNat
  | .rep => match rq.rep with | .none => 0 | .rep => 1 | .repne => 2
  | .hint => match rq.hint with | .none => 0 | .taken => 1 | .notTaken => 2
  | .vl => rq.vl
  | .mustUseEvex => rq.mustUseEvex.toNat
  | .roundc => rq.roundc
  | .zeroing => rq.zeroing.toNat
  | .sae => rq.sae.toNat
  | .bcast => rq.bcast.toNat
  | .norder => rq.norder

/-- A derived bit field as a number. -/
def derivedField (d : Derived) : DerivedField → Nat
  | .hasModrm => d.hasModrm.toNat
  | .mod => d.mod.toNat
  | .reg => d.reg.toNat
  | .rm => d.rm.toNat
  | .hasSib => d.hasSib.toNat
  | .sibscale => d.sibscale.toNat
  | .sibindex => d.sibindex.toNat
  | .sibbase => d.sibbase.toNat
  | .rexw => d.rexw.toNat
  | .rexr => d.rexr.toNat
  | .rexx => d.rexx.toNat
  | .rexb => d.rexb.toNat
  | .rexrr => d.rexrr.toNat
  | .vvvv => d.vvvv.toNat
  | .vexdest4 => d.vexdest4.toNat
  | .aaa => d.aaa.toNat
  | .needrex => d.needrex.toNat
  | .norex => d.norex.toNat
  | .osz => d.osz.toNat
  | .asz => d.asz.toNat
  | .segpfx => d.segpfx.toNat
  | .opcodeLow3 => d.opcodeLow3.toNat

/-- A derived bit field takes the low bits of a number. -/
def setDerived (d : Derived) (v : Nat) : DerivedField → Derived
  | .hasModrm => { d with hasModrm := v % 2 == 1 }
  | .mod => { d with mod := BitVec.ofNat 2 v }
  | .reg => { d with reg := BitVec.ofNat 3 v }
  | .rm => { d with rm := BitVec.ofNat 3 v }
  | .hasSib => { d with hasSib := v % 2 == 1 }
  | .sibscale => { d with sibscale := BitVec.ofNat 2 v }
  | .sibindex => { d with sibindex := BitVec.ofNat 3 v }
  | .sibbase => { d with sibbase := BitVec.ofNat 3 v }
  | .rexw => { d with rexw := v % 2 == 1 }
  | .rexr => { d with rexr := v % 2 == 1 }
  | .rexx => { d with rexx := v % 2 == 1 }
  | .rexb => { d with rexb := v % 2 == 1 }
  | .rexrr => { d with rexrr := v % 2 == 1 }
  | .vvvv => { d with vvvv := BitVec.ofNat 4 v }
  | .vexdest4 => { d with vexdest4 := v % 2 == 1 }
  | .aaa => { d with aaa := BitVec.ofNat 3 v }
  | .needrex => { d with needrex := v % 2 == 1 }
  | .norex => { d with norex := v % 2 == 1 }
  | .osz => { d with osz := v % 2 == 1 }
  | .asz => { d with asz := v % 2 == 1 }
  | .segpfx => { d with segpfx := BitVec.ofNat 8 v }
  | .opcodeLow3 => { d with opcodeLow3 := BitVec.ofNat 3 v }

/-- A register of the request. -/
def regField (rq : Request) : RegField → RegOrInvalid
  | .slot k => slotGet rq.regs k
  | .base0 => rq.base0
  | .index => rq.index
  | .seg0 => rq.seg0
  | .base1 => rq.base1
  | .seg1 => rq.seg1
  | .operand k => slotOf rq (orderGet rq.order k)

/-- An operation on two numbers; a division by 0 breaks the contract on T. -/
def applyBinary : BinaryOp → Nat → Nat → Check Nat
  | .add, a, b => .ok (a + b)
  | .sub, a, b => .ok (a - b)
  | .mul, a, b => .ok (a * b)
  | .div, a, b => if b = 0 then refuse .tableIllFormed else .ok (a / b)
  | .mod, a, b => if b = 0 then refuse .tableIllFormed else .ok (a % b)
  | .eq, a, b => .ok (decide (a = b)).toNat
  | .lt, a, b => .ok (decide (a < b)).toNat

/-- The value of an expression. A field value outside the table, or the offset of INVALID, breaks the contract on T. -/
def evalExpr (b : Bound) (rq : Request) : Expr → Check Nat
  | .const n => .ok n
  | .field f => .ok (numField rq f)
  | .derived d => .ok (derivedField rq.derived d)
  | .named i => .ok (getNamed rq.named i)
  | .effectiveEosz => .ok (effectiveEosz rq)
  | .effectiveEasz => .ok (effectiveEasz rq)
  | .opcode => .ok b.spec.opcode.toNat
  | .map => .ok b.spec.map
  | .fieldValue k => match b.values[k]? with | some v => .ok v | none => refuse .tableIllFormed
  | .isClass r c => .ok (match regField rq r with | some x => (decide (x.cls = c)).toNat | none => 0)
  | .isInvalid r => .ok (regField rq r).isNone.toNat
  | .offset r => match regField rq r with | some x => .ok x.off | none => refuse .tableIllFormed
  | .isOperand k n => .ok (decide (orderGet rq.order k = n)).toNat
  | .binary op x y => do applyBinary op (← evalExpr b rq x) (← evalExpr b rq y)
  | .choose c x y => do if (← evalExpr b rq c) ≠ 0 then evalExpr b rq x else evalExpr b rq y

/-! ## Group and bind (R222, R230, spec/43_encode_dispatch.md R254) -/

/-- The numeric fields a bind function reads (R222): ICLASS, MODE, EOSZ, EASZ, the order array with NORDER, the operand slots of
memory operands (spec/10_state.md R23; DEDUCED: log 42), the widths, VL, MUST_USE_EVEX. -/
def fieldInBind : NumField → Bool
  | .mode | .iclass | .eosz | .easz | .scale | .mem0 | .mem1 | .agen | .disp | .dispWidth | .brdispWidth | .immWidth | .vl
  | .mustUseEvex | .norder => true
  | .smode | .brdisp | .relbr | .ptr | .imm0 | .imm0Signed | .imm1 | .imm1Present | .rep | .hint | .roundc | .zeroing | .sae
  | .bcast => false

/-- The expression reads nothing but what R222 lists, and the table. -/
def readsInBind : Expr → Bool
  | .field f => fieldInBind f
  | .derived _ | .named _ => false
  | .binary _ a b => readsInBind a && readsInBind b
  | .choose c a b => readsInBind c && readsInBind a && readsInBind b
  | .const _ | .effectiveEosz | .effectiveEasz | .opcode | .map | .fieldValue _ | .isClass _ _ | .isInvalid _ | .offset _
  | .isOperand _ _ => true

/-- `T.group(iclass)`. -/
def groupIndex (iclass : Nat) : List (Nat × Nat) → Option Nat
  | [] => none
  | e :: rest => if e.1 = iclass then some e.2 else groupIndex iclass rest

/-- A bind rule takes its iform for the request: the iform's shape matches, if the rule asks for it, and the guard holds. -/
def ruleHolds (r : BindRule) (b : Bound) (rq : Request) : Check Bool :=
  if if r.byShape then iformMatches rq b.spec else spaceAllowed rq b.spec then do
    return (← evalExpr b rq r.guard) != 0
  else .ok false

/-- The iform of the first rule that holds (R230); none: GENERAL_ERROR. -/
def firstMatch (rq : Request) : List (BindRule × Bound) → Check Bound
  | [] => generalError
  | e :: rest => do if ← ruleHolds e.1 e.2 rq then .ok e.2 else firstMatch rq rest

/-- The iform of a rule; a guard that reads more than R222 lets a bind function read breaks the contract on T. -/
def ruleBound (t : IsaTable) (r : BindRule) : Check Bound :=
  if readsInBind r.guard then boundOf t r.iform else refuse .tableIllFormed

/-- The rules of a group with their iforms. -/
def groupRules (t : IsaTable) : List BindRule → Check (List (BindRule × Bound))
  | [] => .ok []
  | r :: rest => do return (r, ← ruleBound t r) :: (← groupRules t rest)

/-- Bind (R254): iclass to group to iform. -/
def bindTable (t : IsaTable) (rq : Request) : Check Bound :=
  if rq.iclass = 0 then generalError
  else
    match groupIndex rq.iclass t.groupOf with
    | none => generalError
    | some g =>
      match t.groups[g]? with
      | none => refuse .tableIllFormed
      | some rules => do firstMatch rq (← groupRules t rules)

/-! ## Field-binding patterns (R225, R231) -/

/-- A field encoder on the register of an operand; a role on an operand that is no register breaks the contract on T. -/
def placeReg (rq : Request) (n : OperandName) (enc : Reg → Derived → Check Derived) : Check Request :=
  match slotOf rq n with
  | none => refuse .tableIllFormed
  | some r =>
    match enc r rq.derived with
    | .ok d => .ok { rq with derived := d }
    | .error stop => .error stop

/-- What a role does at Bind (R231). -/
def applyRole (p : Params) (space : Space) (rq : Request) (n : OperandName) : Role → Check Request
  | .modrmReg => placeReg rq n (encRegModrmReg space)
  | .modrmRm => placeReg rq n (encRegModrmRm space)
  | .vvvv => placeReg rq n (encRegVvvv space)
  | .opcLow3 => placeReg rq n (encRegOpcode space)
  | .mask => placeReg rq n (encRegMask space)
  | .is4 => placeReg rq n (encRegIs4 space)
  | .mem => encMem p space (effectiveEasz rq) rq
  | .imm | .imm1 | .brdisp | .ptrw | .implicit => .ok rq

/-- The roles in order-array order, from position `k`. -/
def applyRoles (p : Params) (space : Space) : Nat → List (OperandPattern × Role) → Request → Check Request
  | _, [], rq => .ok rq
  | k, e :: rest, rq => do applyRoles p space (k + 1) rest (← applyRole p space rq (orderGet rq.order k) e.2)

/-- REXW of the iform (R228, R231). -/
def wBit (w : WAttr) (eosz : Nat) : Bool :=
  match w with
  | .w0 => false
  | .w1 => true
  | .weosz => eosz == 64

/-- HAS_MODRM and the fixed digit of the iform (R228, R231). -/
def modrmBits (m : ModrmAttr) (d : Derived) : Derived :=
  match m with
  | .none => { d with hasModrm := false }
  | .rr => { d with hasModrm := true }
  | .digit n => { d with hasModrm := true, reg := n }

/-- What one line of a field-binding pattern does. -/
def runBindingOp (p : Params) (b : Bound) (rq : Request) : BindingOp → Check Request
  | .clearDerived => .ok { rq with derived := {} }
  | .widthBit => .ok { rq with derived := { rq.derived with rexw := wBit b.spec.w (effectiveEosz rq) } }
  | .modrmAttribute => .ok { rq with derived := modrmBits b.spec.modrm rq.derived }
  | .roles => applyRoles p b.spec.space 0 b.spec.operands rq
  | .sizePrefixes => sizePrefixes b.spec.oszsens (effectiveEosz rq) (effectiveEasz rq) rq
  | .segmentPrefix => segPrefix p.registers rq
  | .modeCheck => checkNot (extensionInLegacyMode b.spec.space rq) rq
  | .rexCheck => checkNot (rexConflict b.spec.space rq) rq
  | .place role k => applyRole p b.spec.space rq (orderGet rq.order k) role
  | .set f e => do return { rq with derived := setDerived rq.derived (← evalExpr b rq e) f }
  | .raiseError => generalError

/-- The lines of a field-binding pattern one after another, each where its guard is not 0. -/
def runBinding (p : Params) (b : Bound) : List BindingLine → Request → Check Request
  | [], rq => .ok rq
  | l :: rest, rq => do
    if (← evalExpr b rq l.guard) ≠ 0 then runBinding p b rest (← runBindingOp p b rq l.op) else runBinding p b rest rq

end Sys2Proof.Machine
end

