-- ==== Sys2Proof/Machine/Emitter.lean ====
section
/-! DEFINITION. Unit U1, the bit emitter (spec/40_bit_emitter.md), the command EMIT_BITS, and sequences of EMIT calls. -/

namespace Sys2Proof.Machine

/-- What the emitter works on: the capacity in force in bytes, the cursor in bits, the buffer. Its only state is the
cursor (R160). -/
structure Emission where
  cap : Nat
  off : Nat
  buf : Mem
  deriving DecidableEq, Repr, Inhabited

/-- The general path's loop (R153, R154): the top `n` of the remaining `rem` bits go to the byte the position `p` is in.
The first argument bounds the turns; every turn moves at least one bit. -/
def emitChunks : Nat → Nat → Nat → Nat → Mem → Check Mem
  | 0, _, _, _, m => .ok m
  | fuel + 1, rem, p, v, m =>
    if rem = 0 then .ok m
    else
      let a := p / 8
      let k := p % 8
      let n := min rem (8 - k)
      let chunk := v / 2 ^ (rem - n) % 2 ^ n
      let bits := BitVec.ofNat 8 (chunk * 2 ^ (8 - k - n))
      if k = 0 then emitChunks fuel (rem - n) (p + n) v (m.write a bits)
      else
        match m.read a with
        | none => .error (.fault (.unspecifiedByte a))
        | some old => emitChunks fuel (rem - n) (p + n) v (m.write a (old ||| bits))

/-- The (cursor, width) pairs of the fast path (R152). -/
def fastPath (off w : Nat) : Bool := off % 8 == 0 && (w == 8 || w == 16 || w == 32 || w == 64)

/-- `EMIT(w, v)` (R150): width check, capacity check before any write (R151), truncation (R156), fast path (R152) or
general path (R153), cursor advance (R155). The bytes the cursor has entered are established (spec/10_state.md R40), whoever
wrote them last; a start in the middle of a byte that has no value is refused (R158, log 9). -/
def emit (w v : Nat) (e : Emission) : Check Emission :=
  if w = 0 ∨ 64 < w then refuse .emitWidth
  else if 8 * e.cap < e.off + w then .error (.raise .bufferTooShort)
  else if fastPath e.off w then
    .ok { e with buf := e.buf.writeLE (e.off / 8) (w / 8) (truncBits w v), off := e.off + w }
  else if e.off % 8 ≠ 0 ∧ e.buf.read (e.off / 8) = none then refuse .unestablishedByte
  else
    match emitChunks w w e.off (truncBits w v) e.buf with
    | .ok m => .ok { e with buf := m, off := e.off + w }
    | .error stop => .error stop

/-- One line of an emission: an EMIT; an EMIT that a table may make at a byte-aligned cursor only, as a whole value of 16,
32 or 64 bits (spec/42_table_lookup.md R226 (2)); or the end of the emission by a stop. -/
inductive EmitAction where
  | put (w v : Nat)
  | putWhole (w v : Nat)
  | halt (stop : Stop)
  deriving DecidableEq, Repr, Inhabited

/-- The lines one after another; the first stop ends the pattern at once (spec/43_encode_dispatch.md R257), and what the
earlier lines wrote stays written (spec/60_exceptions.md R397). -/
def runActions : List EmitAction → Emission → Emission × Option Stop
  | [], e => (e, none)
  | .halt stop :: _, e => (e, some stop)
  | .put w v :: rest, e =>
    match emit w v e with
    | .ok e' => runActions rest e'
    | .error stop => (e, some stop)
  | .putWhole w v :: rest, e =>
    if fastPath e.off w then
      match emit w v e with
      | .ok e' => runActions rest e'
      | .error stop => (e, some stop)
    else (e, some (.refuse .tableIllFormed))

/-- How many bits a pattern emits. -/
def actionBits : List EmitAction → Nat
  | [] => 0
  | .put w _ :: rest | .putWhole w _ :: rest => w + actionBits rest
  | .halt _ :: rest => actionBits rest

/-- The contract of an emission pattern (spec/42_table_lookup.md R226), from the cursor `off` on: no line stops it, every
width is 1 to 64, and a whole value is 16, 32 or 64 bits (or 8) at a byte-aligned cursor. -/
def meetsContract (off : Nat) : List EmitAction → Bool
  | [] => true
  | .put w _ :: rest => decide (1 ≤ w ∧ w ≤ 64) && meetsContract (off + w) rest
  | .putWhole w _ :: rest => fastPath off w && meetsContract (off + w) rest
  | .halt _ :: _ => false

/-- The encoder vars at the entry of ENCODE with capacity `cap` (spec/43_encode_dispatch.md R251); the capacity in
force is `min(cap, 15)` (spec/20_memory.md R71). -/
def entryVars (cap : Nat) : EncoderVars where
  iformIndex := none
  ilen := min cap Config.maxInstructionBytes
  olen := 0
  bitOffset := 0

/-- The context of a bare EMIT: the encoder vars as they stand, or those of an ENCODE entry with the capacity the host
last declared (log 8). -/
def State.attach (s : State) : State :=
  if s.evLive then s else { s with ev := entryVars s.capacity, evLive := true }

/-- What the emitter sees of the state. -/
def State.emission (s : State) : Emission where
  cap := s.ev.ilen
  off := s.ev.bitOffset
  buf := s.buf

/-- The state with what the emitter changed. -/
def State.withEmission (s : State) (e : Emission) : State :=
  { s with ev := { s.ev with bitOffset := e.off }, buf := e.buf }

/-- A sequence of bare EMITs as one command; it returns the new cursor (R150). -/
def State.emitAll (s : State) (acts : List EmitAction) : Result :=
  s.issue fun s =>
    let t := s.attach
    match runActions acts t.emission with
    | (e, none) => (t.withEmission e).finish (.cursor e.off)
    | (e, some stop) => (t.withEmission e).stopped stop

/-- EMIT_BITS (R150). -/
def execEmitBits (width : Nat) (value : Word64) (s : State) : Result := s.emitAll [.put width value.toNat]

end Sys2Proof.Machine
end

