-- ==== Sys2Proof/Machine/Wire.lean ====
section
/-! DEFINITION. The items of the wire format as sequences of EMITs (spec/30_encoding.md R102 to R114), and the meaning of
each item as an instruction: its emission at the cursor (log 5). ENCODE emits the same items (Machine/Encode.lean). -/

namespace Sys2Proof.Machine

/-- One byte. -/
def byteItem (b : Byte) : List EmitAction := [.put 8 b.toNat]

/-- REX (R104). -/
def rexItem (w r x b : BitVec 1) : List EmitAction :=
  [.put 4 4, .put 1 w.toNat, .put 1 r.toNat, .put 1 x.toNat, .put 1 b.toNat]

/-- The opcode-map escape bytes (R105). -/
def esc1Item : List EmitAction := [.put 8 0x0F]
def esc2Item : List EmitAction := [.put 8 0x0F, .put 8 0x38]
def esc3Item : List EmitAction := [.put 8 0x0F, .put 8 0x3A]

/-- The two-byte VEX prefix (R106). -/
def vex2Item (f : Vex2Fields) : List EmitAction :=
  [.put 8 0xC5, .put 1 f.r.toNat, .put 4 f.v.toNat, .put 1 f.l.toNat, .put 2 f.p.toNat]

/-- The three-byte VEX prefix (R107). -/
def vex3Item (f : Vex3Fields) : List EmitAction :=
  [.put 8 0xC4, .put 1 f.r.toNat, .put 1 f.x.toNat, .put 1 f.b.toNat, .put 5 f.m.toNat,
    .put 1 f.w.toNat, .put 4 f.v.toNat, .put 1 f.l.toNat, .put 2 f.p.toNat]

/-- The EVEX prefix (R108). -/
def evexItem (f : EvexFields) : List EmitAction :=
  [.put 8 0x62,
    .put 1 f.r.toNat, .put 1 f.x.toNat, .put 1 f.b.toNat, .put 1 f.rr.toNat, .put 1 0, .put 3 f.m.toNat,
    .put 1 f.w.toNat, .put 4 f.v.toNat, .put 1 1, .put 2 f.p.toNat,
    .put 1 f.z.toNat, .put 2 f.l.toNat, .put 1 f.bb.toNat, .put 1 f.vv.toNat, .put 3 f.a.toNat]

/-- ModRM (R110). -/
def modrmItem (mod : BitVec 2) (reg rm : BitVec 3) : List EmitAction :=
  [.put 2 mod.toNat, .put 3 reg.toNat, .put 3 rm.toNat]

/-- SIB (R111). -/
def sibItem (ss : BitVec 2) (index base : BitVec 3) : List EmitAction :=
  [.put 2 ss.toNat, .put 3 index.toNat, .put 3 base.toNat]

/-- A displacement or an immediate of `w` bits (R112, R113). -/
def valueItem (w : Nat) (v : Word64) : List EmitAction := [.put w v.toNat]

/-- The far pointer: offset of `w` bits, then the 16-bit selector (R114). -/
def farItem (w : Nat) (offset selector : Word64) : List EmitAction := [.put w offset.toNat, .put 16 selector.toNat]

/-- The immediate byte with a register number in its top four bits (R113, spec/41_field_encoders.md R178). -/
def is4Item (r i : Nat) : List EmitAction := [.put 4 r, .put 4 i]

/-! ## The items as instructions -/

def execPfxSegEs (s : State) : Result := s.emitAll (byteItem 0x26)
def execPfxSegCs (s : State) : Result := s.emitAll (byteItem 0x2E)
def execPfxSegSs (s : State) : Result := s.emitAll (byteItem 0x36)
def execPfxSegDs (s : State) : Result := s.emitAll (byteItem 0x3E)
def execPfxSegFs (s : State) : Result := s.emitAll (byteItem 0x64)
def execPfxSegGs (s : State) : Result := s.emitAll (byteItem 0x65)
def execPfxOsz (s : State) : Result := s.emitAll (byteItem 0x66)
def execPfxAsz (s : State) : Result := s.emitAll (byteItem 0x67)
def execPfxRepne (s : State) : Result := s.emitAll (byteItem 0xF2)
def execPfxRep (s : State) : Result := s.emitAll (byteItem 0xF3)
def execRex (w r x b : BitVec 1) (s : State) : Result := s.emitAll (rexItem w r x b)
def execEscMap1 (s : State) : Result := s.emitAll esc1Item
def execEscMap2 (s : State) : Result := s.emitAll esc2Item
def execEscMap3 (s : State) : Result := s.emitAll esc3Item
def execVex2 (f : Vex2Fields) (s : State) : Result := s.emitAll (vex2Item f)
def execVex3 (f : Vex3Fields) (s : State) : Result := s.emitAll (vex3Item f)
def execEvex (f : EvexFields) (s : State) : Result := s.emitAll (evexItem f)
def execOpcode (o : Byte) (s : State) : Result := s.emitAll (byteItem o)
def execModrm (mod : BitVec 2) (reg rm : BitVec 3) (s : State) : Result := s.emitAll (modrmItem mod reg rm)
def execSib (ss : BitVec 2) (index base : BitVec 3) (s : State) : Result := s.emitAll (sibItem ss index base)
def execDisp (w : DispWidth) (v : Word64) (s : State) : Result := s.emitAll (valueItem w.bits v)
def execBrdisp (w : DispWidth) (v : Word64) (s : State) : Result := s.emitAll (valueItem w.bits v)

def execFarptr (w : FarWidth) (offset : Word64) (selector : BitVec 16) (s : State) : Result :=
  s.emitAll (farItem w.bits offset (selector.zeroExtend 64))

def execImm0 (f : Imm0Item) (s : State) : Result :=
  match f with
  | .value w v => s.emitAll (valueItem w.bits v)
  | .is4 r i => s.emitAll (is4Item r.toNat i.toNat)

def execImm1 (v : Byte) (s : State) : Result := s.emitAll (byteItem v)

end Sys2Proof.Machine
end

