-- ==== Sys2Proof/Machine/Encode.lean ====
section
/-! DEFINITION. Unit U4, ENCODE (spec/43_encode_dispatch.md): entry, Precondition, Bind, Emit, Finalize, and what a
stop in a phase leaves. The fixture iforms (Machine/Iforms.lean) run the same phases with another bind. -/

namespace Sys2Proof.Machine

/-! ## The emission pattern (R257 to R273) -/

/-- A refusal or an error as a line of the pattern. -/
def stopLine (stop : Stop) : List EmitAction := [.halt stop]

/-- One value of an emission pattern: of at most 8 bits at any cursor; a wider one whole, at a byte-aligned cursor, or the
table breaks its contract (spec/42_table_lookup.md R226 (2), spec/20_memory.md R75). -/
def valueLine (w v : Nat) : EmitAction := if w ≤ 8 then .put w v else .putWhole w v

/-- Lines that are emitted when a condition holds. -/
def emitIf (b : Bool) (lines : List EmitAction) : List EmitAction := if b then lines else []

/-- A bit as it stands on the wire, and its ones' complement (spec/41_field_encoders.md R198). -/
def bitOf (b : Bool) : BitVec 1 := BitVec.ofBool b
def bitNot (b : Bool) : BitVec 1 := BitVec.ofBool (!b)

/-- `pp` (R263). -/
def ppBits : MandatoryPrefix → BitVec 2
  | .none => 0
  | .p66 => 1
  | .pf3 => 2
  | .pf2 => 3

/-- Step 1 (R258). -/
def segStep (d : Derived) : List EmitAction := emitIf (d.segpfx != 0) (byteItem d.segpfx)

/-- Step 2 (R259). -/
def repStep (i : IformSpec) (p : Rep) : List EmitAction :=
  if i.space = .legacy then
    if (i.pp = .pf2 ∨ i.pp = .pf3) ∧ p ≠ .none then stopLine (.refuse .repOnMandatoryPrefix)
    else if p = .repne ∨ i.pp = .pf2 then byteItem 0xF2
    else if p = .rep ∨ i.pp = .pf3 then byteItem 0xF3
    else []
  else if p ≠ .none then stopLine (.refuse .repOutsideLegacy)
  else []

/-- Step 3 (R260). -/
def oszStep (i : IformSpec) (d : Derived) : List EmitAction :=
  emitIf (decide (i.space = .legacy) && (d.osz || decide (i.pp = .p66))) (byteItem 0x66)

/-- Step 4 (R261). -/
def aszStep (d : Derived) : List EmitAction := emitIf d.asz (byteItem 0x67)

/-- Step 5a (R262). -/
def rexStep (d : Derived) : List EmitAction :=
  emitIf (rexNeeded d) (rexItem (bitOf d.rexw) (bitOf d.rexr) (bitOf d.rexx) (bitOf d.rexb))

/-- Step 5b (R263). A length of 512 bits does not exist in VEX; a map above 3 is in no table (R228). -/
def vexStep (i : IformSpec) (rq : Request) : List EmitAction :=
  let d := rq.derived
  let l : BitVec 1 := BitVec.ofNat 1 rq.vl
  if rq.vl = 2 then stopLine (.raise .generalError)
  else if 3 < i.map then stopLine (.refuse .tableIllFormed)
  else if d.rexx = false ∧ d.rexb = false ∧ d.rexw = false ∧ i.map = 1 then
    vex2Item ⟨bitNot d.rexr, ~~~d.vvvv, l, ppBits i.pp⟩
  else
    vex3Item ⟨bitNot d.rexr, bitNot d.rexx, bitNot d.rexb, BitVec.ofNat 5 i.map, bitOf d.rexw, ~~~d.vvvv, l,
      ppBits i.pp⟩

/-- `LL` (R264). -/
def evexLength (rq : Request) : BitVec 2 := BitVec.ofNat 2 (if rq.roundc ≠ 0 then rq.roundc - 1 else rq.vl)

/-- `b` (R264). -/
def evexB (rq : Request) : Bool := if rq.roundc ≠ 0 ∨ rq.sae = true then true else rq.bcast

/-- Step 5c (R264). -/
def evexStep (i : IformSpec) (rq : Request) : List EmitAction :=
  let d := rq.derived
  if 3 < i.map then stopLine (.refuse .tableIllFormed)
  else
    evexItem
      { r := bitNot d.rexr
        x := bitNot d.rexx
        b := bitNot d.rexb
        rr := bitNot d.rexrr
        m := BitVec.ofNat 3 i.map
        w := bitOf d.rexw
        v := ~~~d.vvvv
        p := ppBits i.pp
        z := bitOf rq.zeroing
        l := evexLength rq
        bb := bitOf (evexB rq)
        vv := bitNot d.vexdest4
        a := d.aaa }

/-- Step 6, in legacy space (R265). -/
def escStep (i : IformSpec) : List EmitAction :=
  if i.space = .legacy then
    match i.map with
    | 0 => []
    | 1 => esc1Item
    | 2 => esc2Item
    | 3 => esc3Item
    | _ => stopLine (.refuse .tableIllFormed)
  else []

/-- Step 5: the prefix of the encoding space (R262 to R264). -/
def extensionStep (i : IformSpec) (rq : Request) : List EmitAction :=
  match i.space with
  | .legacy => rexStep rq.derived
  | .vex => vexStep i rq
  | .evex => evexStep i rq

/-- Step 7 (R266). -/
def opcodeStep (i : IformSpec) (d : Derived) : List EmitAction := byteItem (i.opcode ||| d.opcodeLow3.zeroExtend 8)

/-- Step 8 (R267). -/
def modrmStep (d : Derived) : List EmitAction := emitIf d.hasModrm (modrmItem d.mod d.reg d.rm)

/-- Step 9 (R268). -/
def sibStep (d : Derived) : List EmitAction := emitIf d.hasSib (sibItem d.sibscale d.sibindex d.sibbase)

/-- Step 10 (R269). -/
def dispStep (rq : Request) : List EmitAction :=
  emitIf ((rq.mem0 || rq.agen) && rq.dispWidth != 0) [valueLine rq.dispWidth rq.disp.toNat]

/-- Step 11a (R270). -/
def relbrStep (rq : Request) : List EmitAction :=
  if rq.relbr then
    if rq.brdispWidth = 0 then stopLine (.refuse .relbrWithoutDisplacement) else [valueLine rq.brdispWidth rq.brdisp.toNat]
  else []

/-- Step 11b (R271). -/
def ptrStep (rq : Request) : List EmitAction :=
  emitIf rq.ptr [valueLine rq.brdispWidth rq.brdisp.toNat, valueLine 16 rq.imm0.toNat]

/-- The name of the operand with role IS4, if the iform has one (R272). -/
def is4Name (order : List OperandName) : Nat → List (OperandPattern × Role) → Option OperandName
  | _, [] => none
  | k, p :: rest => if p.2 = .is4 then some (orderGet order k) else is4Name order (k + 1) rest

/-- Step 12 (R272). -/
def imm0Step (i : IformSpec) (rq : Request) : List EmitAction :=
  if rq.immWidth ≠ 0 ∧ rq.ptr = false then
    match is4Name rq.order 0 i.operands with
    | some n =>
      match slotOf rq n with
      | some r => is4Item (is4Number r) rq.imm0.toNat
      | none => stopLine (.refuse .tableIllFormed)
    | none =>
      if rq.immWidth = 8 ∨ rq.immWidth = 16 ∨ rq.immWidth = 32 ∨ rq.immWidth = 64 then
        [valueLine rq.immWidth rq.imm0.toNat]
      else stopLine (.refuse .immediateWidth)
  else []

/-- Step 13 (R273). -/
def imm1Step (rq : Request) : List EmitAction := emitIf rq.imm1Present (byteItem rq.imm1)

/-- The fields a table's own step emits (R226). -/
def fieldActions (b : Bound) (rq : Request) : List (Expr × Expr) → List EmitAction
  | [] => []
  | f :: rest =>
    match evalExpr b rq f.1, evalExpr b rq f.2 with
    | .ok w, .ok v => valueLine w v :: fieldActions b rq rest
    | .error stop, _ | .ok _, .error stop => stopLine stop

/-- The EMITs of one step. -/
def stepActions (b : Bound) (rq : Request) : EmitOp → List EmitAction
  | .segment => segStep rq.derived
  | .rep => repStep b.spec rq.rep
  | .operandSize => oszStep b.spec rq.derived
  | .addressSize => aszStep rq.derived
  | .extension => extensionStep b.spec rq
  | .escape => escStep b.spec
  | .opcode => opcodeStep b.spec rq.derived
  | .modrm => modrmStep rq.derived
  | .sib => sibStep rq.derived
  | .displacement => dispStep rq
  | .branch => relbrStep rq ++ ptrStep rq
  | .immediate0 => imm0Step b.spec rq
  | .immediate1 => imm1Step rq
  | .fields l => fieldActions b rq l

/-- The EMITs of one line: those of its step where its guard is not 0. -/
def lineActions (b : Bound) (rq : Request) (l : EmitLine) : List EmitAction :=
  match evalExpr b rq l.guard with
  | .ok g => emitIf (g != 0) (stepActions b rq l.op)
  | .error stop => stopLine stop

/-- The EMITs of the emission pattern, in the order of its steps (R257). -/
def emissionPattern (b : Bound) (rq : Request) : List EmitAction := b.emission.flatMap (lineActions b rq)

/-! ## The phases -/

/-- How a request finds its iform. -/
abbrev Binder := Request → Check Bound

/-- The Bind phase on a request (R254, R255): the derived bits cleared (spec/10_state.md R28), the iform, its field-binding
pattern. -/
def bindRequest (bind : Binder) (p : Params) (rq : Request) : Check (Bound × Request) := do
  let rq := { rq with derived := {} }
  let b ← bind rq
  return (b, ← runBinding p b b.binding rq)

/-- The assignments at the entry (R251), and PRECONDITION. The effective widths are functions of the request
(`effectiveEosz`, `effectiveEasz`). -/
def State.enterEncode (s : State) (cap : Nat) : State :=
  { s with
    rq := { s.rq with error := .noError }
    capacity := cap
    ev := entryVars cap
    evLive := true
    phase := .precondition }

/-- The Precondition phase, then BIND. -/
def State.runPrecondition (s : State) : State := { s with rq := precondition s.params.registers s.rq, phase := .bind }

/-- The end of Bind: IFORM_INDEX, the bound request, EMIT at step 1 (R31). -/
def State.bound (s : State) (n : Nat) (rq : Request) : State :=
  { s with rq := rq, ev := { s.ev with iformIndex := some n }, phase := .emit, stepIndex := 1 }

/-- Finalize on an aligned cursor (R274): the length, IDLE, `(NONE, OLEN)`; the request is consumed. -/
def State.finalized (s : State) : State :=
  { ({ s with ev := { s.ev with olen := s.ev.bitOffset / 8 } } : State).consume with
    phase := .idle
    stepIndex := 0
    result := .encoded .noError (s.ev.bitOffset / 8) }

/-- ENCODE raised `c` (R275, spec/60_exceptions.md R396): the code recorded and returned with an unspecified length
(log 20); the request is consumed. -/
def State.encodeRaised (s : State) (c : ReturnCode) : State :=
  { (s.raised c).consume with result := .encoded c (Config.freeLength s.draws) }

/-- The end of an ENCODE that stopped. -/
def State.encodeStopped (s : State) : Stop → Result
  | .raise c => .next (s.encodeRaised c)
  | .fatal => .next s.toFatal
  | .refuse r => .refused r
  | .fault f => .fault f

/-- The buffer after a failure in the Emit phase: offsets 0 to ILEN - 1 hold any value (spec/20_memory.md R86). -/
def State.spoil (s : State) : State := { s with buf := s.buf.drawBytes s.draws s.ev.ilen }

/-- The steps of an emission pattern from number `k` on; STEP is the number of the step that runs next (R31, R276). The first
stop ends them. -/
def State.runSteps (s : State) (b : Bound) (k : Nat) : List EmitLine → State × Option Stop
  | [] => (s, none)
  | l :: rest =>
    let s := { s with stepIndex := k }
    match runActions (lineActions b s.rq l) s.emission with
    | (e, some stop) => (s.withEmission e, some stop)
    | (e, none) => (s.withEmission e).runSteps b (k + 1) rest

/-- The Emit phase and Finalize (R256 to R274). After a stop the bytes the steps wrote are among those that hold any value. -/
def State.runEmit (s : State) (b : Bound) : Result :=
  if s.rq.error ≠ .noError then s.encodeStopped (.raise s.rq.error)
  else
    match s.runSteps b 1 b.emission with
    | (_, some stop) => s.spoil.encodeStopped stop
    | (t, none) =>
      let t := { t with phase := .finalize }
      if t.ev.bitOffset % 8 ≠ 0 then .next t.toFatal else .next t.finalized

/-- The four phases (R250), with a bind of the iform. -/
def State.runEncode (s : State) (cap : Nat) (bind : Binder) : Result :=
  let t := (s.enterEncode cap).runPrecondition
  match bindRequest bind t.params t.rq with
  | .error stop => t.encodeStopped stop
  | .ok (b, rq) => (t.bound b.index rq).runEmit b

/-- The entry checks (R251), then the phases. -/
def State.startEncode (s : State) (cap : Nat) (bind : Binder) : Result :=
  s.issue fun s =>
    if s.rq.mode ≠ 16 ∧ s.rq.mode ≠ 32 ∧ s.rq.mode ≠ 64 then .refused .modeNotSet
    else if s.consumed then .refused .reusedRequest
    else s.runEncode cap bind

/-- ENCODE (R250); T must be loaded (spec/70_reset_and_hazards.md R423). -/
def execEncode (capacity : Nat) (s : State) : Result :=
  match s.params.table with
  | some t => s.startEncode capacity (bindTable t)
  | none => s.issue fun _ => .refused .tableNotLoaded

end Sys2Proof.Machine
end

