-- ==== Sys2Proof/Machine/Iforms.lean ====
section
/-! DEFINITION. The iforms of the fixture table T0 as instructions (spec/42_table_lookup.md R234; log 7): ENCODE of the
current request with that iform alone to bind, into the capacity the host last declared. -/

namespace Sys2Proof.Machine

/-- A bind among given rows of T0 (R230), each with its index in T0 and the reference patterns. -/
def bindRows (rows : List (Nat × IformSpec)) : Binder := fun rq =>
  firstMatch rq (rows.map fun r => (({ iform := r.1 } : BindRule), referenceBound r.1 r.2))

/-- ENCODE through given rows. -/
def State.encodeRows (s : State) (rows : List (Nat × IformSpec)) : Result := s.startEncode s.capacity (bindRows rows)

def execAddGprvMemv (s : State) : Result := s.encodeRows [(0, rowAddGprvMemv)]
def execAddGprvGprv01 (s : State) : Result := s.encodeRows [(1, rowAddGprvGprv01)]
def execAddMemvImmb (s : State) : Result := s.encodeRows [(2, rowAddMemvImmb)]
def execMovGpr8Gpr8 (s : State) : Result := s.encodeRows [(3, rowMovGpr8Gpr8)]
def execMovGprvImmv (s : State) : Result := s.encodeRows [(4, rowMovGprvImmv)]
def execJmpRelbrd (s : State) : Result := s.encodeRows [(5, rowJmpRelbrd)]
def execJzRelbrb (s : State) : Result := s.encodeRows [(6, rowJzRelbrb)]
def execMovzxGprvMemb (s : State) : Result := s.encodeRows [(7, rowMovzxGprvMemb)]
def execVaddpsVexRrr (s : State) : Result := s.encodeRows [(8, rowVaddpsVexRrr)]
def execVaddpsVexRrm (s : State) : Result := s.encodeRows [(9, rowVaddpsVexRrm)]
def execVaddpsEvexRkrr (s : State) : Result := s.encodeRows [(10, rowVaddpsEvexRkrr)]
def execEnterImmwImmb (s : State) : Result := s.encodeRows [(11, rowEnterImmwImmb)]

/-- Row 13 has two shapes (log 17). -/
def execMovsb (s : State) : Result := s.encodeRows [(12, rowMovsb), (13, rowMovsbMem)]

end Sys2Proof.Machine
end

