-- ==== Sys2Proof/Machine/Nop.lean ====
section
/-! DEFINITION. ENCODE_NOP (spec/47_encode_nop.md) and the rows of the NOP table as instructions (log 6). -/

namespace Sys2Proof.Machine

/-- `NOP_TABLE[length]` (spec/30_encoding.md R115); none for a length with no canonical form. -/
def nopBytes (t : NopTable) (length : Nat) : Option (List Byte) :=
  match length with
  | 1 => some (wordBytes 1 t.n1.toNat)
  | 2 => some (wordBytes 2 t.n2.toNat)
  | 3 => some (wordBytes 3 t.n3.toNat)
  | 4 => some (wordBytes 4 t.n4.toNat)
  | 5 => some (wordBytes 5 t.n5.toNat)
  | 6 => some (wordBytes 6 t.n6.toNat)
  | 7 => some (wordBytes 7 t.n7.toNat)
  | 8 => some (wordBytes 8 t.n8.toNat)
  | 9 => some (wordBytes 9 t.n9.toNat)
  | _ => none

/-- Literal bytes at offset 0; the code NONE (R380). -/
def State.storeLiteral (s : State) (bytes : List Byte) : Result :=
  { s with buf := s.buf.writeBytes 0 bytes }.finish (.code .noError)

/-- ENCODE_NOP (R380): a code that is returned and not stored (R382: the buffer is unchanged on failure). -/
def execEncodeNop (length : Nat) (s : State) : Result :=
  s.issue fun s =>
    match nopBytes s.params.nopTable length with
    | none => s.finish (.code .generalError)
    | some bytes => s.storeLiteral bytes

def execNop1 (s : State) : Result := s.issue fun s => s.storeLiteral (nopLiteral 1)
def execNop2 (s : State) : Result := s.issue fun s => s.storeLiteral (nopLiteral 2)
def execNop3 (s : State) : Result := s.issue fun s => s.storeLiteral (nopLiteral 3)
def execNop4 (s : State) : Result := s.issue fun s => s.storeLiteral (nopLiteral 4)
def execNop5 (s : State) : Result := s.issue fun s => s.storeLiteral (nopLiteral 5)
def execNop6 (s : State) : Result := s.issue fun s => s.storeLiteral (nopLiteral 6)
def execNop7 (s : State) : Result := s.issue fun s => s.storeLiteral (nopLiteral 7)
def execNop8 (s : State) : Result := s.issue fun s => s.storeLiteral (nopLiteral 8)
def execNop9 (s : State) : Result := s.issue fun s => s.storeLiteral (nopLiteral 9)

end Sys2Proof.Machine
end

