-- ==== Sys2Proof/Machine/Dispatch.lean ====
section
/-! DEFINITION. The dispatch: one arm per row of spec/opcode_table.json, in its order. -/

namespace Sys2Proof.Machine

/-- The meaning of an instruction. -/
def exec (i : Instr) (s : State) : Host.Outcome State Fault Refusal :=
  match i with
  | .reqInit mode smode => Sys2Proof.Machine.execReqInit mode smode s
  | .setIclass iclass => Sys2Proof.Machine.execSetIclass iclass s
  | .setEosz bits => Sys2Proof.Machine.execSetEosz bits s
  | .setEasz bits => Sys2Proof.Machine.execSetEasz bits s
  | .setRep => Sys2Proof.Machine.execSetRep s
  | .clearRep => Sys2Proof.Machine.execClearRep s
  | .setRepne => Sys2Proof.Machine.execSetRepne s
  | .clearRepne => Sys2Proof.Machine.execClearRepne s
  | .setHintTaken => Sys2Proof.Machine.execSetHintTaken s
  | .setHintNotTaken => Sys2Proof.Machine.execSetHintNotTaken s
  | .setReg slot r => Sys2Proof.Machine.execSetReg slot r s
  | .setDisp value widthBytes => Sys2Proof.Machine.execSetDisp value widthBytes s
  | .setDispBits value width => Sys2Proof.Machine.execSetDispBits value width s
  | .setBrdisp value width => Sys2Proof.Machine.execSetBrdisp value width s
  | .setUimm0 value width => Sys2Proof.Machine.execSetUimm0 value width s
  | .setSimm0 value width => Sys2Proof.Machine.execSetSimm0 value width s
  | .setUimm1 value => Sys2Proof.Machine.execSetUimm1 value s
  | .setBase0 r => Sys2Proof.Machine.execSetBase0 r s
  | .setBase1 r => Sys2Proof.Machine.execSetBase1 r s
  | .setIndex r => Sys2Proof.Machine.execSetIndex r s
  | .setScale scale => Sys2Proof.Machine.execSetScale scale s
  | .setSeg0 r => Sys2Proof.Machine.execSetSeg0 r s
  | .setSeg1 r => Sys2Proof.Machine.execSetSeg1 r s
  | .setRelbr => Sys2Proof.Machine.execSetRelbr s
  | .setPtr => Sys2Proof.Machine.execSetPtr s
  | .setAgen => Sys2Proof.Machine.execSetAgen s
  | .setMem0 => Sys2Proof.Machine.execSetMem0 s
  | .setMem1 => Sys2Proof.Machine.execSetMem1 s
  | .setOperandOrder position name => Sys2Proof.Machine.execSetOperandOrder position name s
  | .getOperandOrder position => Sys2Proof.Machine.execGetOperandOrder position s
  | .setField f => Sys2Proof.Machine.execSetField f s
  | .emitBits width value => Sys2Proof.Machine.execEmitBits width value s
  | .encode capacity => Sys2Proof.Machine.execEncode capacity s
  | .encodeNop length => Sys2Proof.Machine.execEncodeNop length s
  | .build mode smode iclass eosz easz p h ds => Sys2Proof.Machine.execBuild mode smode iclass eosz easz p h ds s
  | .initFromDecode d => Sys2Proof.Machine.execInitFromDecode d s
  | .patchDisp d value width => Sys2Proof.Machine.execPatchDisp d value width s
  | .patchRelbr d value width => Sys2Proof.Machine.execPatchRelbr d value width s
  | .patchImm0 d value width => Sys2Proof.Machine.execPatchImm0 d value width s
  | .descReg r => Sys2Proof.Machine.execDescReg r s
  | .descBrdisp value width => Sys2Proof.Machine.execDescBrdisp value width s
  | .descPtr value width => Sys2Proof.Machine.execDescPtr value width s
  | .descUimm0 value width => Sys2Proof.Machine.execDescUimm0 value width s
  | .descSimm0 value width => Sys2Proof.Machine.execDescSimm0 value width s
  | .descImm1 value => Sys2Proof.Machine.execDescImm1 value s
  | .descMem m => Sys2Proof.Machine.execDescMem m s
  | .descOther f => Sys2Proof.Machine.execDescOther f s
  | .pfxSegEs => Sys2Proof.Machine.execPfxSegEs s
  | .pfxSegCs => Sys2Proof.Machine.execPfxSegCs s
  | .pfxSegSs => Sys2Proof.Machine.execPfxSegSs s
  | .pfxSegDs => Sys2Proof.Machine.execPfxSegDs s
  | .pfxSegFs => Sys2Proof.Machine.execPfxSegFs s
  | .pfxSegGs => Sys2Proof.Machine.execPfxSegGs s
  | .pfxOsz => Sys2Proof.Machine.execPfxOsz s
  | .pfxAsz => Sys2Proof.Machine.execPfxAsz s
  | .pfxRepne => Sys2Proof.Machine.execPfxRepne s
  | .pfxRep => Sys2Proof.Machine.execPfxRep s
  | .rex w r x b => Sys2Proof.Machine.execRex w r x b s
  | .escMap1 => Sys2Proof.Machine.execEscMap1 s
  | .escMap2 => Sys2Proof.Machine.execEscMap2 s
  | .escMap3 => Sys2Proof.Machine.execEscMap3 s
  | .vex2 f => Sys2Proof.Machine.execVex2 f s
  | .vex3 f => Sys2Proof.Machine.execVex3 f s
  | .evex f => Sys2Proof.Machine.execEvex f s
  | .opcode o => Sys2Proof.Machine.execOpcode o s
  | .modrm mod reg rm => Sys2Proof.Machine.execModrm mod reg rm s
  | .sib ss index base => Sys2Proof.Machine.execSib ss index base s
  | .disp w v => Sys2Proof.Machine.execDisp w v s
  | .brdisp w v => Sys2Proof.Machine.execBrdisp w v s
  | .farptr w offset selector => Sys2Proof.Machine.execFarptr w offset selector s
  | .imm0 f => Sys2Proof.Machine.execImm0 f s
  | .imm1 v => Sys2Proof.Machine.execImm1 v s
  | .nop1 => Sys2Proof.Machine.execNop1 s
  | .nop2 => Sys2Proof.Machine.execNop2 s
  | .nop3 => Sys2Proof.Machine.execNop3 s
  | .nop4 => Sys2Proof.Machine.execNop4 s
  | .nop5 => Sys2Proof.Machine.execNop5 s
  | .nop6 => Sys2Proof.Machine.execNop6 s
  | .nop7 => Sys2Proof.Machine.execNop7 s
  | .nop8 => Sys2Proof.Machine.execNop8 s
  | .nop9 => Sys2Proof.Machine.execNop9 s
  | .addGprvMemv => Sys2Proof.Machine.execAddGprvMemv s
  | .addGprvGprv01 => Sys2Proof.Machine.execAddGprvGprv01 s
  | .addMemvImmb => Sys2Proof.Machine.execAddMemvImmb s
  | .movGpr8Gpr8 => Sys2Proof.Machine.execMovGpr8Gpr8 s
  | .movGprvImmv => Sys2Proof.Machine.execMovGprvImmv s
  | .jmpRelbrd => Sys2Proof.Machine.execJmpRelbrd s
  | .jzRelbrb => Sys2Proof.Machine.execJzRelbrb s
  | .movzxGprvMemb => Sys2Proof.Machine.execMovzxGprvMemb s
  | .vaddpsVexRrr => Sys2Proof.Machine.execVaddpsVexRrr s
  | .vaddpsVexRrm => Sys2Proof.Machine.execVaddpsVexRrm s
  | .vaddpsEvexRkrr => Sys2Proof.Machine.execVaddpsEvexRkrr s
  | .enterImmwImmb => Sys2Proof.Machine.execEnterImmwImmb s
  | .movsb => Sys2Proof.Machine.execMovsb s

end Sys2Proof.Machine
end

