-- ==== Sys2Proof/Machine/Step.lean ====
section
/-! DEFINITION. One step: the next command at the port, or block reset, or nothing (log 1). -/

namespace Sys2Proof.Machine

/-- One step. A pending block reset comes first (spec/70_reset_and_hazards.md R420); with no message the engine is idle
and keeps all state (spec/60_exceptions.md R410); otherwise the first message is one command, run to completion
(R397, spec/70_reset_and_hazards.md R430), or is no instruction (spec/30_encoding.md R118): so is one with a register that
is no member of the register space (spec/10_state.md R37). The codes and tags are those of parameter P20. -/
def step (s : State) : Host.Outcome State Fault Refusal :=
  if s.resetRequest then .next s.blockReset
  else
    match s.input with
    | [] => .next s
    | p :: rest =>
      match decodeAt s.params.port p with
      | .error e => .refused (.notAnInstruction e)
      | .ok i =>
        if i.inSpace s.params.registers then exec i { s with input := rest }
        else .refused (.notAnInstruction .unknownRegister)

/-- The state whose next step runs the instruction of a table word: its message stands at the port, alone, and no
reset is asked for. A word of no row stands there as a command message. -/
def State.withFetchWord (s : State) (nbits w : Nat) : State :=
  { s with
    input :=
      match tablePacket nbits w with
      | some p => [s.params.port.renumbered p]
      | none => [⟨.command, wordBytes (nbits / 8) w⟩]
    resetRequest := false }

end Sys2Proof.Machine
end

