-- ==== Sys2Proof/Safety.lean ====
section
/-! DEFINITION. The terms the claims are stated in: the invariant of the machine, the bit stream of the buffer, and what
the end of an emission, of a store and of a successful ENCODE look like. -/

namespace Sys2Proof.Machine

/-! ## The invariant -/

/-- The cursor stands in the buffer: at most `8 * ILEN` bits, ILEN at most 15 (spec/10_state.md R32); between commands
that left no cursor the encoder vars have no value (R30). -/
def State.cursorOk (s : State) : Prop :=
  if s.evLive then s.ev.bitOffset ≤ 8 * s.ev.ilen ∧ s.ev.ilen ≤ Config.maxInstructionBytes else s.ev = {}

/-- The byte the cursor stands inside has a value: the engine established it (R40). -/
def State.establishedOk (s : State) : Prop := s.ev.bitOffset % 8 ≠ 0 → (s.buf.read (s.ev.bitOffset / 8)).isSome = true

/-- The invariant: the buffer in canonical form, the sequencer between commands (R31), the cursor and the byte it stands in,
the builder's counts (R36), and every field of a request that was not encoded of its set (R21 to R29). -/
structure State.Inv (s : State) : Prop where
  buffer : s.buf.wf = true
  sequencer : s.phase = .idle ∨ s.phase = .fatal
  stepZero : s.stepIndex = 0
  cursor : s.cursorOk
  established : s.establishedOk
  registerCount : s.regcnt ≤ 9
  memoryCount : s.memcnt ≤ 2
  request : s.consumed = false → legalRequest s.params.maxOperands s.rq = true

/-! ## The bit stream (spec/00_scope.md R10) -/

/-- Stream position `p`: bit `7 - (p mod 8)` of the byte at offset `p div 8`; a byte with no value has no bits. -/
def Mem.streamBit (m : Mem) (p : Nat) : Option Bool :=
  match m.read (p / 8) with
  | none => none
  | some b => some (b.getLsbD (7 - p % 8))

/-! ## Ends of commands -/

/-- A setter completed: the request is `rq`, the code is NONE (log 32), nothing else changed. -/
def State.leaves (s : State) (rq : Request) : Result := .next { s with rq := rq, result := .code .noError }

/-- The buffer `m` holds `bytes` from offset `a` on and is `old` everywhere else. -/
def Mem.holds (m old : Mem) (a : Nat) (bytes : List Byte) : Prop :=
  ∀ b, m.read b = if a ≤ b ∧ b < a + bytes.length then bytes[b - a]? else old.read b

/-- A command may start: IDLE, and a live cursor on the byte `a` with `n` bytes of room. -/
def State.cursorAt (s : State) (a n : Nat) : Prop :=
  s.phase = .idle ∧ s.evLive = true ∧ s.ev.bitOffset = 8 * a ∧ a + n ≤ s.ev.ilen

/-- An emission of whole bytes from the byte `a` on: the bytes, the cursor behind them, nothing else. -/
def State.emitted (s : State) (a : Nat) (bytes : List Byte) (r : Result) : Prop :=
  ∃ m, m.holds s.buf a bytes ∧
    r = .next { s with
      ev := { s.ev with bitOffset := 8 * (a + bytes.length) }
      buf := m
      result := .cursor (8 * (a + bytes.length)) }

/-- A store of whole bytes from the byte `a` on that returns `v`: the bytes and nothing else. -/
def State.stored (s : State) (a : Nat) (bytes : List Byte) (v : CmdResult) (r : Result) : Prop :=
  ∃ m, m.holds s.buf a bytes ∧ r = .next { s with buf := m, result := v }

/-- ENCODE may start: IDLE, a machine mode, a request that was not encoded (spec/43_encode_dispatch.md R251). -/
def State.encodable (s : State) : Prop :=
  s.phase = .idle ∧ (s.rq.mode = 16 ∨ s.rq.mode = 32 ∨ s.rq.mode = 64) ∧ s.consumed = false

/-- A successful ENCODE with declared capacity `cap` (R274): the bytes from offset 0 on and nothing else in the buffer,
their number as the length, the request consumed (its content a free value but for ERROR, spec/10_state.md R41), the
encoder vars without value, IDLE. -/
def State.encoded (s : State) (cap : Nat) (bytes : List Byte) (r : Result) : Prop :=
  ∃ m, m.holds s.buf 0 bytes ∧
    r = .next { s with
      rq := { Config.freeRequest s.draws with error := .noError }
      consumed := true
      ev := {}
      evLive := false
      phase := .idle
      stepIndex := 0
      buf := m
      capacity := cap
      result := .encoded .noError bytes.length
      draws := s.draws + 1 }

/-- The code an ENCODE returned. -/
def CmdResult.encodeCode : CmdResult → Option ReturnCode
  | .encoded c _ => some c
  | .noResult | .code _ | .flag _ | .name _ | .cursor _ => none

/-- An ENCODE that failed before the Emit phase (spec/60_exceptions.md R396, R398): GENERAL_ERROR returned and recorded,
IDLE, the buffer as it was. -/
def State.failsUntouched (s : State) (r : Result) : Prop :=
  ∃ t, r = .next t ∧ t.result.encodeCode = some .generalError ∧ t.rq.error = .generalError ∧ t.phase = .idle
    ∧ t.buf = s.buf

/-- The request `q'` is `q` with the operand name `n` pushed (spec/45_operand_builder.md R341). -/
def pushed (q : Request) (n : OperandName) (q' : Request) : Prop :=
  q' = { q with order := q'.order, norder := q.norder + 1 }
    ∧ ∀ k, orderGet q'.order k = if k = q.norder then n else orderGet q.order k

/-- Instructions one after another, up to the first that answers no next state. -/
def runAll : List Instr → State → Result
  | [], s => .next s
  | i :: rest, s =>
    match exec i s with
    | .next t => runAll rest t
    | .fault f => .fault f
    | .refused r => .refused r

/-! ## Families of instructions -/

/-- ENCODE and the fixture iforms, which run its phases. -/
def isEncode : Instr → Bool
  | .encode _ | .addGprvMemv | .addGprvGprv01 | .addMemvImmb | .movGpr8Gpr8 | .movGprvImmv | .jmpRelbrd | .jzRelbrb
  | .movzxGprvMemb | .vaddpsVexRrr | .vaddpsVexRrm | .vaddpsEvexRkrr | .enterImmwImmb | .movsb => true
  | _ => false

/-- EMIT_BITS and the wire items. -/
def isEmission : Instr → Bool
  | .emitBits _ _ | .pfxSegEs | .pfxSegCs | .pfxSegSs | .pfxSegDs | .pfxSegFs | .pfxSegGs | .pfxOsz | .pfxAsz
  | .pfxRepne | .pfxRep | .rex _ _ _ _ | .escMap1 | .escMap2 | .escMap3 | .vex2 _ | .vex3 _ | .evex _ | .opcode _
  | .modrm _ _ _ | .sib _ _ _ | .disp _ _ | .brdisp _ _ | .farptr _ _ _ | .imm0 _ | .imm1 _ => true
  | _ => false

/-- The instruction that runs a descriptor's turn; an unrecognized tag has none. -/
def turnOf : Descriptor → Option Instr
  | .reg r => some (.descReg r)
  | .brdisp v w => some (.descBrdisp v w)
  | .ptr v w => some (.descPtr v w)
  | .uimm0 v w => some (.descUimm0 v w)
  | .simm0 v w => some (.descSimm0 v w)
  | .imm1 v => some (.descImm1 v)
  | .mem m => some (.descMem m)
  | .other f => some (.descOther f)
  | .unrecognized _ => none

/-! ## Memory operands -/

/-- A base or index class under 32- or 64-bit addressing (spec/41_field_encoders.md R183). -/
def addressedBy (easz : Nat) (c : RegClass) : Prop := (easz = 32 ∧ c = .gpr32) ∨ (easz = 64 ∧ c = .gpr64)

/-- What the displacement of the request becomes with a base of offset `n` (spec/41_field_encoders.md R191, R192): MOD `m`, the
value `v` and the width `w`. -/
def dispPlaced (n : Nat) (rq : Request) (m : BitVec 2) (v : Word64) (w : Nat) : Prop :=
  (rq.dispWidth = 0 ∧ n % 8 = 5 ∧ m = 1 ∧ v = 0 ∧ w = 8)
    ∨ (rq.dispWidth = 0 ∧ n % 8 ≠ 5 ∧ m = 0 ∧ v = rq.disp ∧ w = 0)
    ∨ (rq.dispWidth = 8 ∧ m = 1 ∧ v = rq.disp ∧ w = 8) ∨ (rq.dispWidth = 32 ∧ m = 2 ∧ v = rq.disp ∧ w = 32)

/-- A scale and its code (spec/41_field_encoders.md R185). -/
def scaleOf (scale : Nat) (code : BitVec 2) : Prop :=
  (scale = 1 ∧ code = 0) ∨ (scale = 2 ∧ code = 1) ∨ (scale = 4 ∧ code = 2) ∨ (scale = 8 ∧ code = 3)

/-! ## Bytes of the encodings the claims name -/

/-- A REX byte, or none if its four bits are 0 (spec/30_encoding.md R104, spec/41_field_encoders.md R197). -/
def rexBytes (w r x b : Nat) : List Byte :=
  if w = 0 ∧ r = 0 ∧ x = 0 ∧ b = 0 then [] else [BitVec.ofNat 8 (0x40 + 8 * w + 4 * r + 2 * x + b)]

/-- The operand-size byte of an operand-size sensitive iform (spec/41_field_encoders.md R201). -/
def oszBytes (mode eosz : Nat) : List Byte :=
  if (mode = 16 ∧ eosz = 32) ∨ (mode ≠ 16 ∧ eosz = 16) then [0x66] else []

/-- The address-size byte (spec/41_field_encoders.md R201). -/
def aszBytes (mode easz : Nat) : List Byte := if mode = easz then [] else [0x67]

/-- The override byte of the segment `seg` of a memory operand whose default segment is SS, if `stack`, else DS
(spec/41_field_encoders.md R200). -/
def overrideBytes (g : RegSpace) (stack : Prop) [Decidable stack] (seg : RegOrInvalid) (bytes : List Byte) : Prop :=
  (seg = none ∧ bytes = []) ∨ (seg = some g.segES ∧ bytes = [0x26]) ∨ (seg = some g.segCS ∧ bytes = [0x2E])
    ∨ (seg = some g.segSS ∧ bytes = if stack then [] else [0x36])
    ∨ (seg = some g.segDS ∧ bytes = if stack then [0x3E] else []) ∨ (seg = some g.segFS ∧ bytes = [0x64])
    ∨ (seg = some g.segGS ∧ bytes = [0x65])

/-- MOD of a base of offset `n` under 32- or 64-bit addressing (spec/41_field_encoders.md R191, R192). -/
def dispMod (n dw : Nat) : Nat := if dw = 0 then (if n % 8 = 5 then 1 else 0) else if dw = 8 then 1 else 2

/-- The displacement bytes of such a base. -/
def dispBytes (n dw : Nat) (v : Word64) : List Byte :=
  if dw = 0 then (if n % 8 = 5 then [0x00] else [])
  else if dw = 8 then [v.extractLsb' 0 8]
  else [v.extractLsb' 0 8, v.extractLsb' 8 8, v.extractLsb' 16 8, v.extractLsb' 24 8]

/-- ModRM, SIB where the base needs one, and displacement of a base of offset `n` without index and with a displacement of 0, 8
or 32 bits: `reg` in ModRM.reg; rm the low three bits of `n`, a SIB byte 24 if these are 4; mod 0, 1 or 2, and a zero byte
for low bits 5 without displacement (spec/41_field_encoders.md R187 to R192, spec/30_encoding.md R110 to R112). -/
def baseDispBytes (reg n dw : Nat) (v : Word64) : List Byte :=
  [BitVec.ofNat 8 (64 * dispMod n dw + 8 * (reg % 8) + n % 8)] ++ (if n % 8 = 4 then [0x24] else []) ++ dispBytes n dw v

/-- ModRM, SIB and displacement of base `n` and index `x` with a scale code: ModRM.rm 4; SIB scale, index, base
(spec/41_field_encoders.md R185, R187, R189, R191, R192, spec/30_encoding.md R110 to R112). -/
def indexedBytes (reg n x : Nat) (code : BitVec 2) (dw : Nat) (v : Word64) : List Byte :=
  [BitVec.ofNat 8 (64 * dispMod n dw + 8 * (reg % 8) + 4), BitVec.ofNat 8 (64 * code.toNat + 8 * (x % 8) + n % 8)]
    ++ dispBytes n dw v

/-- A byte register: AL to R15B with SPL, BPL, SIL, DIL, or AH, CH, DH, BH (spec/10_state.md R38). -/
def byteReg (r : Reg) : Prop := (r.cls = .gpr8 ∧ r.off < 16) ∨ (r.cls = .gpr8h ∧ r.off < 4)

/-- The byte register needs a REX byte (spec/41_field_encoders.md R172, R179). -/
def needsRex (r : Reg) : Prop := r.cls = .gpr8 ∧ 4 ≤ r.off

end Sys2Proof.Machine
end

