-- ==== Sys2Proof/Certificates/Slice0/Obligations.lean ====
section
/-! DEFINITION. The statements for the provers. Each cites the rules of spec/ it rests on; where it says something that is
the model's choice, it names the log entry. -/

open Sys2Proof Sys2Proof.Machine

/-! ## Encoding and the step -/

/-- spec/30_encoding.md R100, R101, R103 to R115; spec/00_scope.md R9 P20: whatever the codes of the commands and the tags of
the descriptors are. The operand bytes are log 2. -/
def Obligations.DecodeOfEncodeIsTheInstruction : Prop :=
  ∀ (c : PortCodes) (i : Instr), c.wf = true → i.wf = true → i.tagsFit c = true → decodeAt c (encodeAt c i) = .ok i

/-- Words written out from spec/30_encoding.md R100 (code 17), R103 (65), R104 (0100WRXB = 49), R106 (C5 EC), R107
(C4 41 6C), R108 (62 F1 6C 49), R110 (82), R111 (CC), R115 (the row of length 5), spec/42_table_lookup.md R234 (E9). How a word
reaches the decoder is the model's choice, log 3 (DESIGN CHOICE, DEDUCED): the message formats, the order in which
`decodeTableWord` tries them, and that a 40-bit row has its first byte on top. -/
def Obligations.SpecWordsDecode : Prop :=
  decodeTableWord 8 0x17 = some .setRelbr
    ∧ decodeTableWord 8 0x65 = some .pfxSegGs
    ∧ decode ⟨.wire, [0x49]⟩ = .ok (.rex 1 0 0 1)
    ∧ decode ⟨.wire, [0xC5, 0xEC]⟩ = .ok (.vex2 ⟨1, 13, 1, 0⟩)
    ∧ decode ⟨.wire, [0xC4, 0x41, 0x6C]⟩ = .ok (.vex3 ⟨0, 1, 0, 1, 0, 13, 1, 0⟩)
    ∧ decode ⟨.wire, [0x62, 0xF1, 0x6C, 0x49]⟩ = .ok (.evex ⟨1, 1, 1, 1, 1, 0, 13, 0, 0, 2, 0, 1, 1⟩)
    ∧ decode ⟨.modrmByte, [0x82]⟩ = .ok (.modrm 2 0 2)
    ∧ decode ⟨.sibByte, [0xCC]⟩ = .ok (.sib 3 1 4)
    ∧ decodeTableWord 40 0x0F1F440000 = some .nop5
    ∧ decodeTableWord 40 0xE900000000 = some .jmpRelbrd

/-- spec/00_scope.md R7, spec/70_reset_and_hazards.md R430 (one command is one step), spec/60_exceptions.md R410 (idle keeps
all state), spec/30_encoding.md R118 (an unknown command is refused), spec/10_state.md R37 (a register identifier is a member of
the register space); the codes are those of parameter P20; the port is log 1. -/
def Obligations.StepRunsTheDecodedInstruction : Prop :=
  ∀ s : State, s.resetRequest = false →
    (∀ p rest i, s.input = p :: rest → decodeAt s.params.port p = .ok i →
      (i.inSpace s.params.registers = true → step s = exec i { s with input := rest })
      ∧ (i.inSpace s.params.registers = false → step s = .refused (.notAnInstruction .unknownRegister)))
      ∧ (s.input = [] → step s = .next s)
      ∧ (∀ p rest e, s.input = p :: rest → decodeAt s.params.port p = .error e → step s = .refused (.notAnInstruction e))

/-- spec/10_state.md R42, the rows to which the spec gives a value. -/
def Obligations.ResetLeavesTheRequestEmpty : Prop :=
  State.reset.phase = .idle ∧ State.reset.stepIndex = 0
    ∧ (∀ k, slotGet State.reset.rq.regs k = none)
    ∧ State.reset.rq.base0 = none ∧ State.reset.rq.base1 = none ∧ State.reset.rq.index = none
    ∧ State.reset.rq.seg0 = none ∧ State.reset.rq.seg1 = none
    ∧ State.reset.rq.mode = 0 ∧ State.reset.rq.smode = 0 ∧ State.reset.rq.iclass = 0 ∧ State.reset.rq.eosz = 0
    ∧ State.reset.rq.easz = 0 ∧ State.reset.rq.scale = 0 ∧ State.reset.rq.disp = 0 ∧ State.reset.rq.dispWidth = 0
    ∧ State.reset.rq.brdisp = 0 ∧ State.reset.rq.brdispWidth = 0 ∧ State.reset.rq.imm0 = 0
    ∧ State.reset.rq.immWidth = 0 ∧ State.reset.rq.imm1 = 0 ∧ State.reset.rq.vl = 0 ∧ State.reset.rq.roundc = 0
    ∧ State.reset.rq.error = .noError ∧ State.reset.rq.rep = .none ∧ State.reset.rq.hint = .none
    ∧ State.reset.rq.mem0 = false ∧ State.reset.rq.mem1 = false ∧ State.reset.rq.agen = false
    ∧ State.reset.rq.relbr = false ∧ State.reset.rq.ptr = false ∧ State.reset.rq.imm0Signed = false
    ∧ State.reset.rq.imm1Present = false ∧ State.reset.rq.mustUseEvex = false ∧ State.reset.rq.zeroing = false
    ∧ State.reset.rq.sae = false ∧ State.reset.rq.bcast = false ∧ (∀ i, getNamed State.reset.rq.named i = 0)
    ∧ (∀ k, orderGet State.reset.rq.order k = .invalid) ∧ State.reset.rq.norder = 0
    ∧ State.reset.rq.derived = {
        hasModrm := false, mod := 0, reg := 0, rm := 0, hasSib := false, sibscale := 0, sibindex := 0, sibbase := 0,
        rexw := false, rexr := false, rexx := false, rexb := false, rexrr := false, vvvv := 0, vexdest4 := false,
        aaa := 0, needrex := false, norex := false, osz := false, asz := false, segpfx := 0, opcodeLow3 := 0 }

/-- spec/70_reset_and_hazards.md R420: the request at its reset values, IDLE, STEP 0, T not changed; what else the reset
keeps is log 22. -/
def Obligations.BlockResetLeavesFatal : Prop :=
  ∀ s : State, s.resetRequest = true →
    ∃ t, step s = .next t ∧ t.phase = .idle ∧ t.stepIndex = 0 ∧ t.rq = State.reset.rq ∧ t.consumed = false
      ∧ t.params = s.params ∧ t.capacity = s.capacity ∧ t.input = s.input ∧ t.resetRequest = false

/-! ## The request surface -/

/-- spec/44_request_surface.md R290, spec/10_state.md R42: the request, and no value for the encoder vars (none is live) and the
builder's scratch (0: log 40). -/
def Obligations.ReqInitMakesAFreshRequest : Prop :=
  ∀ (s : State) (m sm : Nat), s.phase = .idle →
    ((m = 16 ∨ m = 32 ∨ m = 64) ∧ (sm = 16 ∨ sm = 32 ∨ sm = 64) →
      exec (.reqInit m sm) s = .next { s with
        rq := { State.reset.rq with mode := m, smode := sm }
        consumed := false
        ev := {}
        evLive := false
        regcnt := 0
        memcnt := 0
        loopIndex := 0
        result := .code .noError })
    ∧ (¬ ((m = 16 ∨ m = 32 ∨ m = 64) ∧ (sm = 16 ∨ sm = 32 ∨ sm = 64)) → exec (.reqInit m sm) s = .refused .modeValue)

/-- spec/44_request_surface.md R291, R304 to R310: the field named and nothing else. The model's choices in it: that SET_SIMM0
takes every width, also one outside the 8, 16, 32 of R305, is log 25 (DEDUCED, unsafe), the result NONE log 32 (DEDUCED). -/
def Obligations.PlainSettersWriteTheirFields : Prop :=
  ∀ s : State, s.phase = .idle →
    (∀ n, exec (.setIclass n) s = s.leaves { s.rq with iclass := n })
    ∧ (∀ v w, exec (.setUimm0 v w) s = s.leaves { s.rq with imm0 := v, imm0Signed := false, immWidth := w })
    ∧ (∀ v w, exec (.setSimm0 v w) s = s.leaves { s.rq with imm0 := v.signExtend 64, imm0Signed := true, immWidth := w })
    ∧ (∀ v, exec (.setUimm1 v) s = s.leaves { s.rq with imm1 := v.extractLsb' 0 8, imm1Present := true })
    ∧ (∀ r, exec (.setBase0 r) s = s.leaves { s.rq with base0 := r })
    ∧ (∀ r, exec (.setBase1 r) s = s.leaves { s.rq with base1 := r })
    ∧ (∀ r, exec (.setIndex r) s = s.leaves { s.rq with index := r })
    ∧ (∀ n, exec (.setScale n) s = s.leaves { s.rq with scale := n })

/-- spec/44_request_surface.md R294 to R299: the last writer wins; each clear clears its own value only. The returned code NONE is
the model's, log 32 (DEDUCED). -/
def Obligations.PrefixSettersWriteRepAndHint : Prop :=
  decode ⟨.command, [0x05]⟩ = .ok .clearRep ∧ decode ⟨.command, [0x07]⟩ = .ok .clearRepne ∧
  ∀ s : State, s.phase = .idle →
    exec .setRep s = s.leaves { s.rq with rep := .rep }
    ∧ exec .setRepne s = s.leaves { s.rq with rep := .repne }
    ∧ exec .clearRep s = s.leaves { s.rq with rep := if s.rq.rep = .rep then .none else s.rq.rep }
    ∧ exec .clearRepne s = s.leaves { s.rq with rep := if s.rq.rep = .repne then .none else s.rq.rep }
    ∧ exec .setHintTaken s = s.leaves { s.rq with hint := .taken }
    ∧ exec .setHintNotTaken s = s.leaves { s.rq with hint := .notTaken }

/-- spec/44_request_surface.md R313 to R317. The returned code NONE is the model's, log 32 (DEDUCED). -/
def Obligations.FlagSettersSetTheirFlag : Prop :=
  decode ⟨.command, [0x17]⟩ = .ok .setRelbr ∧ decode ⟨.command, [0x18]⟩ = .ok .setPtr ∧
  ∀ s : State, s.phase = .idle →
    exec .setRelbr s = s.leaves { s.rq with relbr := true }
    ∧ exec .setPtr s = s.leaves { s.rq with ptr := true }
    ∧ exec .setAgen s = s.leaves { s.rq with agen := true }
    ∧ exec .setMem0 s = s.leaves { s.rq with mem0 := true }
    ∧ exec .setMem1 s = s.leaves { s.rq with mem1 := true }

/-- spec/44_request_surface.md R292, R293; spec/60_exceptions.md R394: a bad width is fatal. -/
def Obligations.WidthSettersWriteOrAreFatal : Prop :=
  ∀ (s : State) (b : Nat), s.phase = .idle →
    (b = 8 ∨ b = 16 ∨ b = 32 ∨ b = 64 → exec (.setEosz b) s = s.leaves { s.rq with eosz := b })
    ∧ (b = 16 ∨ b = 32 ∨ b = 64 → exec (.setEasz b) s = s.leaves { s.rq with easz := b })
    ∧ (¬ (b = 8 ∨ b = 16 ∨ b = 32 ∨ b = 64) →
      ∃ t, exec (.setEosz b) s = .next t ∧ t.phase = .fatal ∧ t.result = .noResult ∧ t.params = s.params)
    ∧ (¬ (b = 16 ∨ b = 32 ∨ b = 64) →
      ∃ t, exec (.setEasz b) s = .next t ∧ t.phase = .fatal ∧ t.result = .noResult ∧ t.params = s.params)

/-- spec/44_request_surface.md R300: one slot changes, the order array does not; a slot above 8 is refused. -/
def Obligations.SetRegWritesOneSlot : Prop :=
  ∀ (s : State) (k : Nat) (r : RegOrInvalid), s.phase = .idle →
    (k ≤ 8 → ∃ f : RegFile, (∀ j, slotGet f j = if j = k then r else slotGet s.rq.regs j)
      ∧ exec (.setReg k r) s = s.leaves { s.rq with regs := f })
    ∧ (8 < k → exec (.setReg k r) s = .refused .registerSlot)

/-- spec/44_request_surface.md R301 to R303. -/
def Obligations.DisplacementSettersWriteValueAndWidth : Prop :=
  ∀ (s : State) (v : Word64) (w : Nat), s.phase = .idle →
    (w = 0 ∨ w = 1 ∨ w = 2 ∨ w = 4 → exec (.setDisp v w) s = s.leaves { s.rq with disp := v, dispWidth := 8 * w })
    ∧ (¬ (w = 0 ∨ w = 1 ∨ w = 2 ∨ w = 4) → exec (.setDisp v w) s = .refused .displacementWidth)
    ∧ (w = 0 ∨ w = 8 ∨ w = 16 ∨ w = 32 → exec (.setDispBits v w) s = s.leaves { s.rq with disp := v, dispWidth := w })
    ∧ (¬ (w = 0 ∨ w = 8 ∨ w = 16 ∨ w = 32) → exec (.setDispBits v w) s = .refused .displacementWidth)
    ∧ (w = 8 ∨ w = 16 ∨ w = 32 → exec (.setBrdisp v w) s = s.leaves { s.rq with brdisp := v, brdispWidth := w })
    ∧ (¬ (w = 8 ∨ w = 16 ∨ w = 32) → exec (.setBrdisp v w) s = .refused .branchDisplacementWidth)

/-- spec/44_request_surface.md R311, R312. -/
def Obligations.SegmentSettersTakeSegmentsOnly : Prop :=
  ∀ (s : State) (r : RegOrInvalid), s.phase = .idle →
    ((∀ g, r = some g → g.cls = .seg) →
      exec (.setSeg0 r) s = s.leaves { s.rq with seg0 := r }
      ∧ exec (.setSeg1 r) s = s.leaves { s.rq with seg1 := r })
    ∧ (∀ g, r = some g → g.cls ≠ .seg →
      exec (.setSeg0 r) s = .refused .segmentClass ∧ exec (.setSeg1 r) s = .refused .segmentClass)

/-- spec/44_request_surface.md R318, R319. -/
def Obligations.OrderCommandsWriteAndReadOneEntry : Prop :=
  ∀ (s : State) (k : Nat) (n : OperandName), s.phase = .idle →
    (k < s.params.maxOperands →
      (∃ o, (∀ j, orderGet o j = if j = k then n else orderGet s.rq.order j)
        ∧ exec (.setOperandOrder k n) s = s.leaves { s.rq with order := o, norder := max s.rq.norder (k + 1) })
      ∧ exec (.getOperandOrder k) s = .next { s with result := .name (orderGet s.rq.order k) })
    ∧ (s.params.maxOperands ≤ k →
      exec (.setOperandOrder k n) s = .refused .operandIndex ∧ exec (.getOperandOrder k) s = .refused .operandIndex)

/-- spec/44_request_surface.md R320: every field of spec/10_state.md R21 to R27 and R29 takes the value and nothing else changes; a
field another setter writes is left as that setter leaves it; a further named field is one the table needs (R26); an unknown
name and ERROR are refused. The value sets are those of R21, R23, R26 and R29, the values of VL parameter P19; the returned
code NONE is log 32. -/
def Obligations.SetFieldWritesTheNamedField : Prop :=
  ∀ s : State, s.phase = .idle →
    (∀ m, (m = 16 ∨ m = 32 ∨ m = 64) →
      exec (.setField (.mode m)) s = s.leaves { s.rq with mode := m }
      ∧ exec (.setField (.smode m)) s = s.leaves { s.rq with smode := m }
      ∧ exec (.setField (.easz m)) s = s.leaves { s.rq with easz := m }
      ∧ exec (.setField (.easz m)) s = exec (.setEasz m) s)
    ∧ (∀ b, (b = 8 ∨ b = 16 ∨ b = 32 ∨ b = 64) →
      exec (.setField (.eosz b)) s = s.leaves { s.rq with eosz := b }
      ∧ exec (.setField (.eosz b)) s = exec (.setEosz b) s)
    ∧ exec (.setField (.eosz 0)) s = s.leaves { s.rq with eosz := 0 }
    ∧ exec (.setField (.easz 0)) s = s.leaves { s.rq with easz := 0 }
    ∧ (∀ n, exec (.setField (.iclass n)) s = s.leaves { s.rq with iclass := n }
      ∧ exec (.setField (.iclass n)) s = exec (.setIclass n) s)
    ∧ (∀ (k : Fin 9) r, exec (.setField (.reg k r)) s = exec (.setReg k.val r) s
      ∧ ∃ f, (∀ j, slotGet f j = if j = k.val then r else slotGet s.rq.regs j)
        ∧ exec (.setField (.reg k r)) s = s.leaves { s.rq with regs := f })
    ∧ (∀ r, exec (.setField (.base0 r)) s = exec (.setBase0 r) s
      ∧ exec (.setField (.base0 r)) s = s.leaves { s.rq with base0 := r }
      ∧ exec (.setField (.base1 r)) s = exec (.setBase1 r) s
      ∧ exec (.setField (.base1 r)) s = s.leaves { s.rq with base1 := r }
      ∧ exec (.setField (.index r)) s = exec (.setIndex r) s
      ∧ exec (.setField (.index r)) s = s.leaves { s.rq with index := r })
    ∧ (∀ n, exec (.setField (.scale n)) s = exec (.setScale n) s
      ∧ exec (.setField (.scale n)) s = s.leaves { s.rq with scale := n })
    ∧ (∀ r, (∀ g, r = some g → g.cls = .seg) →
      exec (.setField (.seg0 r)) s = exec (.setSeg0 r) s
      ∧ exec (.setField (.seg0 r)) s = s.leaves { s.rq with seg0 := r }
      ∧ exec (.setField (.seg1 r)) s = exec (.setSeg1 r) s
      ∧ exec (.setField (.seg1 r)) s = s.leaves { s.rq with seg1 := r })
    ∧ (∀ v, exec (.setField (.disp v)) s = s.leaves { s.rq with disp := v })
    ∧ (∀ v, exec (.setField (.brdisp v)) s = s.leaves { s.rq with brdisp := v })
    ∧ (∀ w, (w = 0 ∨ w = 8 ∨ w = 16 ∨ w = 32) →
      exec (.setField (.dispWidth w)) s = s.leaves { s.rq with dispWidth := w }
      ∧ exec (.setField (.brdispWidth w)) s = s.leaves { s.rq with brdispWidth := w })
    ∧ (∀ v, exec (.setField (.imm0 v)) s = s.leaves { s.rq with imm0 := v })
    ∧ (∀ w, exec (.setField (.immWidth w)) s = s.leaves { s.rq with immWidth := w })
    ∧ (∀ v, exec (.setField (.imm1 v)) s = s.leaves { s.rq with imm1 := v })
    ∧ (∀ b, exec (.setField (.mem0 b)) s = s.leaves { s.rq with mem0 := b })
    ∧ (∀ b, exec (.setField (.mem1 b)) s = s.leaves { s.rq with mem1 := b })
    ∧ (∀ b, exec (.setField (.agen b)) s = s.leaves { s.rq with agen := b })
    ∧ (∀ b, exec (.setField (.relbr b)) s = s.leaves { s.rq with relbr := b })
    ∧ (∀ b, exec (.setField (.ptr b)) s = s.leaves { s.rq with ptr := b })
    ∧ (∀ b, exec (.setField (.imm0Signed b)) s = s.leaves { s.rq with imm0Signed := b })
    ∧ (∀ b, exec (.setField (.imm1Present b)) s = s.leaves { s.rq with imm1Present := b })
    ∧ (∀ b, exec (.setField (.mustUseEvex b)) s = s.leaves { s.rq with mustUseEvex := b })
    ∧ (∀ b, exec (.setField (.zeroing b)) s = s.leaves { s.rq with zeroing := b })
    ∧ (∀ b, exec (.setField (.sae b)) s = s.leaves { s.rq with sae := b })
    ∧ (∀ b, exec (.setField (.bcast b)) s = s.leaves { s.rq with bcast := b })
    ∧ exec (.setField (.relbr true)) s = exec .setRelbr s ∧ exec (.setField (.ptr true)) s = exec .setPtr s
    ∧ exec (.setField (.agen true)) s = exec .setAgen s ∧ exec (.setField (.mem0 true)) s = exec .setMem0 s
    ∧ exec (.setField (.mem1 true)) s = exec .setMem1 s
    ∧ (∀ p, exec (.setField (.rep p)) s = s.leaves { s.rq with rep := p })
    ∧ exec (.setField (.rep .rep)) s = exec .setRep s ∧ exec (.setField (.rep .repne)) s = exec .setRepne s
    ∧ (∀ h, exec (.setField (.hint h)) s = s.leaves { s.rq with hint := h })
    ∧ exec (.setField (.hint .taken)) s = exec .setHintTaken s
    ∧ exec (.setField (.hint .notTaken)) s = exec .setHintNotTaken s
    ∧ exec (.setField (.vl 0)) s = s.leaves { s.rq with vl := 0 }
    ∧ (s.params.lengths.distinct = true →
      exec (.setField (.vl s.params.lengths.bits256)) s = s.leaves { s.rq with vl := 1 }
      ∧ exec (.setField (.vl s.params.lengths.bits512)) s = s.leaves { s.rq with vl := 2 })
    ∧ (∀ v, v ≤ 4 → exec (.setField (.roundc v)) s = s.leaves { s.rq with roundc := v })
    ∧ (∀ v, exec (.setField (.hasModrm v)) s = s.leaves { s.rq with derived := { s.rq.derived with hasModrm := v } })
    ∧ (∀ v, exec (.setField (.mod v)) s = s.leaves { s.rq with derived := { s.rq.derived with mod := v } })
    ∧ (∀ v, exec (.setField (.modrmReg v)) s = s.leaves { s.rq with derived := { s.rq.derived with reg := v } })
    ∧ (∀ v, exec (.setField (.rm v)) s = s.leaves { s.rq with derived := { s.rq.derived with rm := v } })
    ∧ (∀ v, exec (.setField (.hasSib v)) s = s.leaves { s.rq with derived := { s.rq.derived with hasSib := v } })
    ∧ (∀ v, exec (.setField (.sibscale v)) s = s.leaves { s.rq with derived := { s.rq.derived with sibscale := v } })
    ∧ (∀ v, exec (.setField (.sibindex v)) s = s.leaves { s.rq with derived := { s.rq.derived with sibindex := v } })
    ∧ (∀ v, exec (.setField (.sibbase v)) s = s.leaves { s.rq with derived := { s.rq.derived with sibbase := v } })
    ∧ (∀ v, exec (.setField (.rexw v)) s = s.leaves { s.rq with derived := { s.rq.derived with rexw := v } })
    ∧ (∀ v, exec (.setField (.rexr v)) s = s.leaves { s.rq with derived := { s.rq.derived with rexr := v } })
    ∧ (∀ v, exec (.setField (.rexx v)) s = s.leaves { s.rq with derived := { s.rq.derived with rexx := v } })
    ∧ (∀ v, exec (.setField (.rexb v)) s = s.leaves { s.rq with derived := { s.rq.derived with rexb := v } })
    ∧ (∀ v, exec (.setField (.rexrr v)) s = s.leaves { s.rq with derived := { s.rq.derived with rexrr := v } })
    ∧ (∀ v, exec (.setField (.vvvv v)) s = s.leaves { s.rq with derived := { s.rq.derived with vvvv := v } })
    ∧ (∀ v, exec (.setField (.vexdest4 v)) s = s.leaves { s.rq with derived := { s.rq.derived with vexdest4 := v } })
    ∧ (∀ v, exec (.setField (.aaa v)) s = s.leaves { s.rq with derived := { s.rq.derived with aaa := v } })
    ∧ (∀ v, exec (.setField (.needrex v)) s = s.leaves { s.rq with derived := { s.rq.derived with needrex := v } })
    ∧ (∀ v, exec (.setField (.norex v)) s = s.leaves { s.rq with derived := { s.rq.derived with norex := v } })
    ∧ (∀ v, exec (.setField (.osz v)) s = s.leaves { s.rq with derived := { s.rq.derived with osz := v } })
    ∧ (∀ v, exec (.setField (.asz v)) s = s.leaves { s.rq with derived := { s.rq.derived with asz := v } })
    ∧ (∀ v, exec (.setField (.segpfx v)) s = s.leaves { s.rq with derived := { s.rq.derived with segpfx := v } })
    ∧ (∀ v, exec (.setField (.opcodeLow3 v)) s = s.leaves { s.rq with derived := { s.rq.derived with opcodeLow3 := v } })
    ∧ (∀ k n, k < s.params.maxOperands → ∃ o, (∀ j, orderGet o j = if j = k then n else orderGet s.rq.order j)
      ∧ exec (.setField (.orderEntry k n)) s = s.leaves { s.rq with order := o })
    ∧ (∀ k n, s.params.maxOperands ≤ k → exec (.setField (.orderEntry k n)) s = .refused .operandIndex)
    ∧ (∀ n, n ≤ s.params.maxOperands → exec (.setField (.norder n)) s = s.leaves { s.rq with norder := n })
    ∧ (∀ i v, i ∈ s.params.namedFields → namedWf s.rq.named = true →
      ∃ l, (∀ j, getNamed l j = if j = i then v else getNamed s.rq.named j)
        ∧ exec (.setField (.named i v)) s = s.leaves { s.rq with named := l })
    ∧ (∀ i v, i ∉ s.params.namedFields → exec (.setField (.named i v)) s = .refused .unknownField)
    ∧ (∀ c, exec (.setField (.error c)) s = .refused .errorField)

/-! ## The bit emitter -/

/-- spec/40_bit_emitter.md R150, R152, R155: the fast path. The first clause is the model's choice of log 8: without a live
cursor an emission starts at bit 0 in the capacity the host last declared. -/
def Obligations.AlignedEmitStoresLittleEndian : Prop :=
  (∀ (i : Instr) (s : State), isEmission i = true → s.evLive = false →
    exec i s = exec i { s with
      ev := { iformIndex := none, ilen := min s.capacity 15, olen := 0, bitOffset := 0 }
      evLive := true })
  ∧ ∀ (s : State) (w : Nat) (v : Word64), s.phase = .idle → s.evLive = true → s.ev.bitOffset % 8 = 0 →
    (w = 8 ∨ w = 16 ∨ w = 32 ∨ w = 64) → s.ev.bitOffset + w ≤ 8 * s.ev.ilen →
    ∃ m, (∀ k, k < w / 8 → m.read (s.ev.bitOffset / 8 + k) = some (v.extractLsb' (8 * k) 8))
      ∧ (∀ b, b < s.ev.bitOffset / 8 ∨ s.ev.bitOffset / 8 + w / 8 ≤ b → m.read b = s.buf.read b)
      ∧ exec (.emitBits w v) s = .next { s with
          ev := { s.ev with bitOffset := s.ev.bitOffset + w }
          buf := m
          result := .cursor (s.ev.bitOffset + w) }

/-- spec/40_bit_emitter.md R150, R153 to R156; spec/20_memory.md R74, R78: the general path, from a byte-aligned cursor or
inside a byte that has a value, which the engine established (spec/10_state.md R40). Every position of the bytes the value
touches: the value from the cursor on, top bit first; OR-ed with it, the old bits of a byte the cursor stands inside; 0
elsewhere. -/
def Obligations.GeneralEmitLaysTheBitsMostSignificantFirst : Prop :=
  ∀ (s : State) (w : Nat) (v : Word64) (old : Byte), s.phase = .idle → s.evLive = true → 1 ≤ w → w ≤ 64 →
    ¬ (s.ev.bitOffset % 8 = 0 ∧ (w = 8 ∨ w = 16 ∨ w = 32 ∨ w = 64)) → s.ev.bitOffset + w ≤ 8 * s.ev.ilen →
    (s.ev.bitOffset % 8 ≠ 0 → s.buf.read (s.ev.bitOffset / 8) = some old) →
    ∃ m, (∀ p, s.ev.bitOffset / 8 ≤ p / 8 → p < 8 * ((s.ev.bitOffset + w + 7) / 8) →
        m.streamBit p = some
          ((decide (s.ev.bitOffset ≤ p ∧ p < s.ev.bitOffset + w) && v.getLsbD (s.ev.bitOffset + w - 1 - p))
            || (decide (s.ev.bitOffset % 8 ≠ 0 ∧ p / 8 = s.ev.bitOffset / 8) && old.getLsbD (7 - p % 8))))
      ∧ (∀ b, b < s.ev.bitOffset / 8 ∨ (s.ev.bitOffset + w + 7) / 8 ≤ b → m.read b = s.buf.read b)
      ∧ exec (.emitBits w v) s = .next { s with
          ev := { s.ev with bitOffset := s.ev.bitOffset + w }
          buf := m
          result := .cursor (s.ev.bitOffset + w) }

/-- spec/40_bit_emitter.md R150, R151, R158: what an EMIT_BITS does not write. A byte that the cursor stands inside and that has no
value is one the engine has not established (log 9). -/
def Obligations.EmitBitsStopsBeforeWriting : Prop :=
  ∀ (s : State) (w : Nat) (v : Word64), s.phase = .idle → s.evLive = true →
    ((w = 0 ∨ 64 < w) → exec (.emitBits w v) s = .refused .emitWidth)
    ∧ (1 ≤ w → w ≤ 64 → 8 * s.ev.ilen < s.ev.bitOffset + w →
      exec (.emitBits w v) s = .next { s with
        rq := { s.rq with error := .bufferTooShort }
        stepIndex := 0
        result := .code .bufferTooShort })
    ∧ (1 ≤ w → w ≤ 64 → s.ev.bitOffset + w ≤ 8 * s.ev.ilen → s.ev.bitOffset % 8 ≠ 0 →
      s.buf.read (s.ev.bitOffset / 8) = none → exec (.emitBits w v) s = .refused .unestablishedByte)

/-- spec/40_bit_emitter.md R159, the concatenation law: fields of at most 8 bits that sum to 8, from a byte-aligned cursor
with room for the byte, leave in that byte the fields one after another, the first in the top bits, and the cursor 8
higher. -/
def Obligations.FieldsOfOneByteConcatenate : Prop :=
  ∀ (fields : List (Nat × Nat)) (e : Emission),
    (∀ f ∈ fields, 1 ≤ f.1 ∧ f.1 ≤ 8) → (fields.map Prod.fst).sum = 8 → e.off % 8 = 0 → e.off + 8 ≤ 8 * e.cap →
    ∃ e', runActions (fields.map fun f => .put f.1 f.2) e = (e', none)
      ∧ e'.off = e.off + 8 ∧ e'.cap = e.cap
      ∧ e'.buf.read (e.off / 8) =
          some (BitVec.ofNat 8 (fields.foldl (fun acc f => acc * 2 ^ f.1 + f.2 % 2 ^ f.1) 0))
      ∧ ∀ b, b ≠ e.off / 8 → e'.buf.read b = e.buf.read b

/-! ## The wire items -/

/-- spec/30_encoding.md R103, R105; as instructions log 5. -/
def Obligations.FixedWireBytesAreEmitted : Prop :=
  ∀ (s : State) (a : Nat),
    (s.cursorAt a 1 →
      s.emitted a [0x26] (exec .pfxSegEs s) ∧ s.emitted a [0x2E] (exec .pfxSegCs s)
      ∧ s.emitted a [0x36] (exec .pfxSegSs s) ∧ s.emitted a [0x3E] (exec .pfxSegDs s)
      ∧ s.emitted a [0x64] (exec .pfxSegFs s) ∧ s.emitted a [0x65] (exec .pfxSegGs s)
      ∧ s.emitted a [0x66] (exec .pfxOsz s) ∧ s.emitted a [0x67] (exec .pfxAsz s)
      ∧ s.emitted a [0xF2] (exec .pfxRepne s) ∧ s.emitted a [0xF3] (exec .pfxRep s)
      ∧ s.emitted a [0x0F] (exec .escMap1 s))
    ∧ (s.cursorAt a 2 → s.emitted a [0x0F, 0x38] (exec .escMap2 s) ∧ s.emitted a [0x0F, 0x3A] (exec .escMap3 s))

/-- spec/30_encoding.md R104, R106 to R108; as instructions log 5. -/
def Obligations.PrefixFieldsAreEmittedInTheirLayout : Prop :=
  ∀ (s : State) (a : Nat),
    (s.cursorAt a 1 → ∀ w r x b : BitVec 1, s.emitted a [0x4#4 ++ w ++ r ++ x ++ b] (exec (.rex w r x b) s))
    ∧ (s.cursorAt a 2 → ∀ f : Vex2Fields, s.emitted a [0xC5, f.r ++ f.v ++ f.l ++ f.p] (exec (.vex2 f) s))
    ∧ (s.cursorAt a 3 → ∀ f : Vex3Fields,
        s.emitted a [0xC4, f.r ++ f.x ++ f.b ++ f.m, f.w ++ f.v ++ f.l ++ f.p] (exec (.vex3 f) s))
    ∧ (s.cursorAt a 4 → ∀ f : EvexFields,
        s.emitted a [0x62, f.r ++ f.x ++ f.b ++ f.rr ++ 0#1 ++ f.m, f.w ++ f.v ++ 1#1 ++ f.p,
          f.z ++ f.l ++ f.bb ++ f.vv ++ f.a] (exec (.evex f) s))

/-- spec/30_encoding.md R109 to R111; as instructions log 5. -/
def Obligations.OpcodeModrmAndSibAreEmitted : Prop :=
  ∀ (s : State) (a : Nat), s.cursorAt a 1 →
    (∀ o : Byte, s.emitted a [o] (exec (.opcode o) s))
    ∧ (∀ (m : BitVec 2) (r b : BitVec 3), s.emitted a [m ++ r ++ b] (exec (.modrm m r b) s))
    ∧ (∀ (ss : BitVec 2) (i b : BitVec 3), s.emitted a [ss ++ i ++ b] (exec (.sib ss i b) s))

/-- spec/30_encoding.md R112 to R114, spec/20_memory.md R73: values little-endian; as instructions log 5. -/
def Obligations.ValuesAreEmittedLittleEndian : Prop :=
  ∀ (s : State) (a : Nat) (v : Word64),
    (s.cursorAt a 1 →
      s.emitted a [v.extractLsb' 0 8] (exec (.disp .w8 v) s) ∧ s.emitted a [v.extractLsb' 0 8] (exec (.brdisp .w8 v) s)
      ∧ s.emitted a [v.extractLsb' 0 8] (exec (.imm0 (.value .w8 v)) s)
      ∧ (∀ r i : BitVec 4, s.emitted a [r ++ i] (exec (.imm0 (.is4 r i)) s))
      ∧ (∀ b : Byte, s.emitted a [b] (exec (.imm1 b) s)))
    ∧ (s.cursorAt a 2 →
      s.emitted a [v.extractLsb' 0 8, v.extractLsb' 8 8] (exec (.disp .w16 v) s)
      ∧ s.emitted a [v.extractLsb' 0 8, v.extractLsb' 8 8] (exec (.brdisp .w16 v) s)
      ∧ s.emitted a [v.extractLsb' 0 8, v.extractLsb' 8 8] (exec (.imm0 (.value .w16 v)) s))
    ∧ (s.cursorAt a 4 →
      s.emitted a [v.extractLsb' 0 8, v.extractLsb' 8 8, v.extractLsb' 16 8, v.extractLsb' 24 8] (exec (.disp .w32 v) s)
      ∧ s.emitted a [v.extractLsb' 0 8, v.extractLsb' 8 8, v.extractLsb' 16 8, v.extractLsb' 24 8]
          (exec (.brdisp .w32 v) s)
      ∧ s.emitted a [v.extractLsb' 0 8, v.extractLsb' 8 8, v.extractLsb' 16 8, v.extractLsb' 24 8]
          (exec (.imm0 (.value .w32 v)) s)
      ∧ (∀ g : BitVec 16, s.emitted a [v.extractLsb' 0 8, v.extractLsb' 8 8, g.extractLsb' 0 8, g.extractLsb' 8 8]
          (exec (.farptr .w16 v g) s)))
    ∧ (s.cursorAt a 6 → ∀ g : BitVec 16,
      s.emitted a [v.extractLsb' 0 8, v.extractLsb' 8 8, v.extractLsb' 16 8, v.extractLsb' 24 8, g.extractLsb' 0 8,
        g.extractLsb' 8 8] (exec (.farptr .w32 v g) s))
    ∧ (s.cursorAt a 8 →
      s.emitted a [v.extractLsb' 0 8, v.extractLsb' 8 8, v.extractLsb' 16 8, v.extractLsb' 24 8, v.extractLsb' 32 8,
        v.extractLsb' 40 8, v.extractLsb' 48 8, v.extractLsb' 56 8] (exec (.imm0 (.value .w64 v)) s))

/-! ## NOPs -/

/-- spec/47_encode_nop.md R380, spec/30_encoding.md R115: with the default rows, ENCODE_NOP writes the row of its length
and each row as an instruction writes itself (log 6). -/
def Obligations.NopRowsAreStored : Prop :=
  ∀ s : State, s.phase = .idle →
    (s.params.nopTable = defaultNopTable →
      s.stored 0 [0x90] (.code .noError) (exec (.encodeNop 1) s)
      ∧ s.stored 0 [0x66, 0x90] (.code .noError) (exec (.encodeNop 2) s)
      ∧ s.stored 0 [0x0F, 0x1F, 0x00] (.code .noError) (exec (.encodeNop 3) s)
      ∧ s.stored 0 [0x0F, 0x1F, 0x40, 0x00] (.code .noError) (exec (.encodeNop 4) s)
      ∧ s.stored 0 [0x0F, 0x1F, 0x44, 0x00, 0x00] (.code .noError) (exec (.encodeNop 5) s)
      ∧ s.stored 0 [0x66, 0x0F, 0x1F, 0x44, 0x00, 0x00] (.code .noError) (exec (.encodeNop 6) s)
      ∧ s.stored 0 [0x0F, 0x1F, 0x80, 0x00, 0x00, 0x00, 0x00] (.code .noError) (exec (.encodeNop 7) s)
      ∧ s.stored 0 [0x0F, 0x1F, 0x84, 0x00, 0x00, 0x00, 0x00, 0x00] (.code .noError) (exec (.encodeNop 8) s)
      ∧ s.stored 0 [0x66, 0x0F, 0x1F, 0x84, 0x00, 0x00, 0x00, 0x00, 0x00] (.code .noError) (exec (.encodeNop 9) s))
    ∧ s.stored 0 [0x90] (.code .noError) (exec .nop1 s)
    ∧ s.stored 0 [0x66, 0x90] (.code .noError) (exec .nop2 s)
    ∧ s.stored 0 [0x0F, 0x1F, 0x00] (.code .noError) (exec .nop3 s)
    ∧ s.stored 0 [0x0F, 0x1F, 0x40, 0x00] (.code .noError) (exec .nop4 s)
    ∧ s.stored 0 [0x0F, 0x1F, 0x44, 0x00, 0x00] (.code .noError) (exec .nop5 s)
    ∧ s.stored 0 [0x66, 0x0F, 0x1F, 0x44, 0x00, 0x00] (.code .noError) (exec .nop6 s)
    ∧ s.stored 0 [0x0F, 0x1F, 0x80, 0x00, 0x00, 0x00, 0x00] (.code .noError) (exec .nop7 s)
    ∧ s.stored 0 [0x0F, 0x1F, 0x84, 0x00, 0x00, 0x00, 0x00, 0x00] (.code .noError) (exec .nop8 s)
    ∧ s.stored 0 [0x66, 0x0F, 0x1F, 0x84, 0x00, 0x00, 0x00, 0x00, 0x00] (.code .noError) (exec .nop9 s)

/-- spec/47_encode_nop.md R382 (and the failing line of R380): the code returned, nothing stored anywhere; to the host the code
is its number under parameter P13 (spec/60_exceptions.md R391). -/
def Obligations.NopOfAnotherLengthLeavesTheBuffer : Prop :=
  ∀ (s : State) (n : Nat), s.phase = .idle → (n = 0 ∨ 9 < n) →
    exec (.encodeNop n) s = .next { s with result := .code .generalError }
      ∧ ({ s with result := .code .generalError } : State).codeNumber = some s.params.codes.generalError

/-! ## The builder -/

/-- spec/45_operand_builder.md R340 with no descriptor; R394 for a bad width; the refusals of R340 and R290; the scratch at 0 by
spec/10_state.md R36. -/
def Obligations.BuildWithoutOperands : Prop :=
  ∀ (s : State) (m sm ic eo ea : Nat) (p : Rep) (h : Hint), s.phase = .idle →
    ((m = 16 ∨ m = 32 ∨ m = 64) → (sm = 16 ∨ sm = 32 ∨ sm = 64) →
      ((eo = 0 ∨ eo = 8 ∨ eo = 16 ∨ eo = 32 ∨ eo = 64) → (ea = 0 ∨ ea = 16 ∨ ea = 32 ∨ ea = 64) →
        exec (.build m sm ic eo ea p h []) s = .next { s with
          rq := { State.reset.rq with
            mode := m
            smode := sm
            iclass := ic
            eosz := eo
            easz := ea
            rep := p
            hint := h }
          consumed := false
          ev := {}
          evLive := false
          regcnt := 0
          memcnt := 0
          loopIndex := 0
          result := .flag true })
      ∧ (¬ ((eo = 0 ∨ eo = 8 ∨ eo = 16 ∨ eo = 32 ∨ eo = 64) ∧ (ea = 0 ∨ ea = 16 ∨ ea = 32 ∨ ea = 64)) →
        ∃ t, exec (.build m sm ic eo ea p h []) s = .next t ∧ t.phase = .fatal ∧ t.result = .noResult)
      ∧ (∀ ds : List Descriptor, s.params.maxOperands < ds.length →
        exec (.build m sm ic eo ea p h ds) s = .refused .operandCount))
    ∧ (¬ ((m = 16 ∨ m = 32 ∨ m = 64) ∧ (sm = 16 ∨ sm = 32 ∨ sm = 64)) →
      ∀ ds, exec (.build m sm ic eo ea p h ds) s = .refused .modeValue)

/-- spec/45_operand_builder.md R340, R341 (descriptors in order), R351, and log 4: after a BUILD that returned true, one more
descriptor is one more turn, and an unrecognized tag stops BUILD with the earlier writes kept. -/
def Obligations.BuildIsItsTurns : Prop :=
  ∀ (s t : State) (m sm ic eo ea : Nat) (p : Rep) (h : Hint) (ds : List Descriptor),
    exec (.build m sm ic eo ea p h ds) s = .next t → t.result = .flag true →
    (∀ d i, turnOf d = some i → ds.length < s.params.maxOperands →
      exec (.build m sm ic eo ea p h (ds ++ [d])) s = exec i t)
    ∧ (∀ n rest, (ds ++ .unrecognized n :: rest).length ≤ s.params.maxOperands →
      exec (.build m sm ic eo ea p h (ds ++ .unrecognized n :: rest)) s = .next { t with result := .flag false })

/-- spec/45_operand_builder.md R342, R346 to R350 (the widths of spec/30_encoding.md R101 for BRDISP and PTR): what each
turn writes and pushes; the loop index moves on (spec/10_state.md R36). The model's choices: the turns as instructions that
return true are log 4 (DESIGN CHOICE); that SIMM0 takes every width, also one outside 8, 16, 32, is log 25 (DEDUCED, unsafe);
that REG takes INVALID is log 47 (DESIGN CHOICE). -/
def Obligations.OperandTurnsWriteAndPush : Prop :=
  ∀ s : State, s.phase = .idle → s.rq.norder < s.params.maxOperands →
    (∀ r, s.regcnt ≤ 8 → ∃ f q, (∀ j, slotGet f j = if j = s.regcnt then r else slotGet s.rq.regs j)
      ∧ pushed { s.rq with regs := f } (regName s.regcnt) q
      ∧ exec (.descReg r) s = .next { s with rq := q, regcnt := s.regcnt + 1, loopIndex := s.loopIndex + 1, result := .flag true })
    ∧ (∀ r, 8 < s.regcnt → exec (.descReg r) s = .refused .registerOperandCount)
    ∧ (∀ v w, (w = 8 ∨ w = 16 ∨ w = 32) → ∃ q,
        pushed { s.rq with brdisp := v.signExtend 64, brdispWidth := w, relbr := true } .relbr q
        ∧ exec (.descBrdisp v w) s = .next { s with rq := q, loopIndex := s.loopIndex + 1, result := .flag true })
    ∧ (∀ v w, (w = 16 ∨ w = 32) → ∃ q,
        pushed { s.rq with brdisp := v.signExtend 64, brdispWidth := w, ptr := true } .ptr q
        ∧ exec (.descPtr v w) s = .next { s with rq := q, loopIndex := s.loopIndex + 1, result := .flag true })
    ∧ (∀ v w, ∃ q, pushed { s.rq with imm0 := v, imm0Signed := false, immWidth := w } .imm0 q
        ∧ exec (.descUimm0 v w) s = .next { s with rq := q, loopIndex := s.loopIndex + 1, result := .flag true })
    ∧ (∀ v w, ∃ q, pushed { s.rq with imm0 := v.signExtend 64, imm0Signed := true, immWidth := w } .imm0 q
        ∧ exec (.descSimm0 v w) s = .next { s with rq := q, loopIndex := s.loopIndex + 1, result := .flag true })
    ∧ (∀ v, ∃ q, pushed { s.rq with imm1 := v, imm1Present := true } .imm1 q
        ∧ exec (.descImm1 v) s = .next { s with rq := q, loopIndex := s.loopIndex + 1, result := .flag true })

/-- spec/45_operand_builder.md R343 to R345: the first memory operand, whose base, or index where there is no base, gives
the address width; the second, base and segment only; no third; the loop index moves on (spec/10_state.md R36). The turn as an
instruction that returns true is log 4 (DESIGN CHOICE). -/
def Obligations.MemoryTurnsWriteAndPush : Prop :=
  ∀ (s : State) (m : MemDesc), s.phase = .idle → s.rq.norder < s.params.maxOperands →
    (m.dispWidth = 0 ∨ m.dispWidth = 8 ∨ m.dispWidth = 16 ∨ m.dispWidth = 32) →
    (s.memcnt = 0 → ∃ q ea,
      pushed { s.rq with
        base0 := m.base
        index := m.index
        scale := m.scale
        seg0 := m.seg
        disp := m.dispValue
        dispWidth := m.dispWidth
        mem0 := true
        easz := ea } .mem0 q
      ∧ (∀ r, (m.base = some r ∨ (m.base = none ∧ m.index = some r)) →
          (r.cls = .gpr16 → ea = 16) ∧ (r.cls = .gpr32 → ea = 32) ∧ (r.cls = .gpr64 → ea = 64)
          ∧ (s.params.registers.namesDistinct = true → (r = s.params.registers.regRIP → ea = 64)
            ∧ (r = s.params.registers.regEIP → ea = 32) ∧ (r = s.params.registers.regIP → ea = 16))
          ∧ (r.cls ≠ .gpr16 → r.cls ≠ .gpr32 → r.cls ≠ .gpr64 → r.cls ≠ .ip → ea = s.rq.easz))
      ∧ (m.base = none → m.index = none → ea = s.rq.easz)
      ∧ exec (.descMem m) s = .next { s with rq := q, memcnt := 1, loopIndex := s.loopIndex + 1, result := .flag true })
    ∧ (s.memcnt = 1 → m.index = none → m.scale ≤ 1 → m.dispWidth = 0 → ∃ q,
      pushed { s.rq with base1 := m.base, seg1 := m.seg, mem1 := true } .mem1 q
      ∧ exec (.descMem m) s = .next { s with rq := q, memcnt := 2, loopIndex := s.loopIndex + 1, result := .flag true })
    ∧ (s.memcnt = 1 → (m.index ≠ none ∨ 1 < m.scale ∨ m.dispWidth ≠ 0) →
      exec (.descMem m) s = .refused .secondMemoryFields)
    ∧ (2 ≤ s.memcnt → exec (.descMem m) s = .refused .thirdMemoryOperand)

/-- spec/45_operand_builder.md R352: OTHER is SET_FIELD, nothing is pushed and no counter moves; the loop index moves on
(spec/10_state.md R36). The turn as an instruction that returns true is log 4 (DESIGN CHOICE). -/
def Obligations.OtherTurnIsSetField : Prop :=
  ∀ (s : State) (f : FieldAssign), s.phase = .idle →
    (∀ t, exec (.setField f) s = .next t →
      exec (.descOther f) s = .next { t with loopIndex := s.loopIndex + 1, result := .flag true }
      ∧ t.regcnt = s.regcnt ∧ t.memcnt = s.memcnt)
    ∧ (∀ r, exec (.setField f) s = .refused r → exec (.descOther f) s = .refused r)
    ∧ (∀ b, exec (.descOther (.zeroing b)) s =
        .next { s with rq := { s.rq with zeroing := b }, loopIndex := s.loopIndex + 1, result := .flag true })

/-- spec/45_operand_builder.md R354, turn by turn: the request after a turn is the one the setters and one
SET_OPERAND_ORDER leave; a MEM turn is stated for a segment that SET_SEG0 and SET_SEG1 take, and sets EASZ where it infers one.
The turns as instructions are log 4 (DESIGN CHOICE). -/
def Obligations.TurnsAgreeWithTheSetters : Prop :=
  ∀ (s t : State),
    (∀ r, exec (.descReg r) s = .next t →
      ∃ u, runAll [.setReg s.regcnt r, .setOperandOrder s.rq.norder (regName s.regcnt)] s = .next u ∧ u.rq = t.rq)
    ∧ (∀ v w, exec (.descBrdisp v w) s = .next t →
      ∃ u, runAll [.setBrdisp (v.signExtend 64) w, .setRelbr, .setOperandOrder s.rq.norder .relbr] s = .next u
        ∧ u.rq = t.rq)
    ∧ (∀ v w, exec (.descPtr v w) s = .next t →
      ∃ u, runAll [.setBrdisp (v.signExtend 64) w, .setPtr, .setOperandOrder s.rq.norder .ptr] s = .next u ∧ u.rq = t.rq)
    ∧ (∀ v w, exec (.descUimm0 v w) s = .next t →
      ∃ u, runAll [.setUimm0 v w, .setOperandOrder s.rq.norder .imm0] s = .next u ∧ u.rq = t.rq)
    ∧ (∀ v w, exec (.descSimm0 v w) s = .next t →
      ∃ u, runAll [.setSimm0 v w, .setOperandOrder s.rq.norder .imm0] s = .next u ∧ u.rq = t.rq)
    ∧ (∀ v : Byte, exec (.descImm1 v) s = .next t →
      ∃ u, runAll [.setUimm1 (v.zeroExtend 64), .setOperandOrder s.rq.norder .imm1] s = .next u ∧ u.rq = t.rq)
    ∧ (∀ m : MemDesc, (∀ g, m.seg = some g → g.cls = .seg) → exec (.descMem m) s = .next t →
      (s.memcnt = 0 → ∃ u,
        runAll ([.setBase0 m.base, .setIndex m.index, .setScale m.scale, .setSeg0 m.seg,
            .setDispBits m.dispValue m.dispWidth, .setMem0]
          ++ (if t.rq.easz = s.rq.easz then [] else [.setEasz t.rq.easz]) ++ [.setOperandOrder s.rq.norder .mem0]) s =
          .next u ∧ u.rq = t.rq)
      ∧ (s.memcnt ≠ 0 → ∃ u,
        runAll [.setBase1 m.base, .setSeg1 m.seg, .setMem1, .setOperandOrder s.rq.norder .mem1] s = .next u
          ∧ u.rq = t.rq))
    ∧ (∀ f, exec (.descOther f) s = .next t → ∃ u, runAll [.setField f] s = .next u ∧ u.rq = t.rq)

/-! ## The bridge and the patch commands -/

/-- spec/46_bridge_patch.md R360 to R363; the derived bits that R362 leaves open are D's (log 29); of the further named fields
(spec/10_state.md R26) those that the table needs; VL the length its value stands for (parameter P19); the encoder vars and the
scratch as after REQ_INIT (R42, log 40). A record whose fields are outside their sets is log 43. -/
def Obligations.InitFromDecodeCopiesTheRecord : Prop :=
  ∀ (s : State) (d : DecodedRecord) (vl : Nat), s.phase = .idle → s.params.lengths.lengthOf d.fields.vl = some vl →
    legalRequest s.params.maxOperands { d.fields with vl := vl, order := [], norder := 0, named := [] } = true →
    ((d.operands.filter fun o => !o.suppressed).length ≤ s.params.maxOperands →
      ∃ l, (namedWf d.fields.named = true →
          ∀ i, getNamed l i = if i ∈ s.params.namedFields then getNamed d.fields.named i else 0)
        ∧ namedWf l = true
        ∧ exec (.initFromDecode d) s = .next { s with
          rq := { d.fields with
            error := .noError
            iclass := d.iclass
            vl := vl
            named := l
            order := (d.operands.filter fun o => !o.suppressed).map (·.name)
            norder := (d.operands.filter fun o => !o.suppressed).length
            mustUseEvex := d.fields.mustUseEvex
              || ((d.fields.mem0 || d.fields.agen) && d.fields.dispWidth == 8 && d.evexMaskFeatures && !d.disp8Guarantee)
            derived := { d.fields.derived with
              rexw := false
              rexr := false
              rexx := false
              rexb := false
              rexrr := false
              needrex := false
              norex := false
              osz := false } }
          consumed := false
          ev := {}
          evLive := false
          regcnt := 0
          memcnt := 0
          loopIndex := 0
          result := .code .noError })
    ∧ (s.params.maxOperands < (d.operands.filter fun o => !o.suppressed).length →
      exec (.initFromDecode d) s = .refused .recordOperandCount)

/-- spec/46_bridge_patch.md R364, R366 to R369: the bytes at the recorded location, little-endian, and true. -/
def Obligations.PatchOverwritesTheRecordedBytes : Prop :=
  ∀ (s : State) (d : DecodedRecord) (v : Word64) (pos w : Nat) (bytes : List Byte), s.phase = .idle →
    pos + w / 8 ≤ d.length →
    ((w = 8 ∧ bytes = [v.extractLsb' 0 8]) ∨ (w = 16 ∧ bytes = [v.extractLsb' 0 8, v.extractLsb' 8 8])
      ∨ (w = 32 ∧ bytes = [v.extractLsb' 0 8, v.extractLsb' 8 8, v.extractLsb' 16 8, v.extractLsb' 24 8])
      ∨ (w = 64 ∧ bytes = [v.extractLsb' 0 8, v.extractLsb' 8 8, v.extractLsb' 16 8, v.extractLsb' 24 8,
          v.extractLsb' 32 8, v.extractLsb' 40 8, v.extractLsb' 48 8, v.extractLsb' 56 8])) →
    (d.dispLoc = some ⟨pos, w⟩ → s.stored pos bytes (.flag true) (exec (.patchDisp d v w) s))
    ∧ (d.brdispLoc = some ⟨pos, w⟩ → s.stored pos bytes (.flag true) (exec (.patchRelbr d v w) s))
    ∧ (d.imm0Loc = some ⟨pos, w⟩ → s.stored pos bytes (.flag true) (exec (.patchImm0 d v w) s))

/-- spec/46_bridge_patch.md R365: absent, or of another width: false, and nothing is written. -/
def Obligations.PatchFailsWithoutWriting : Prop :=
  ∀ (s : State) (d : DecodedRecord) (v : Word64) (w : Nat), s.phase = .idle →
    ((∀ l, d.dispLoc = some l → l.width ≠ w) → exec (.patchDisp d v w) s = .next { s with result := .flag false })
    ∧ ((∀ l, d.brdispLoc = some l → l.width ≠ w) → exec (.patchRelbr d v w) s = .next { s with result := .flag false })
    ∧ ((∀ l, d.imm0Loc = some l → l.width ≠ w) → exec (.patchImm0 d v w) s = .next { s with result := .flag false })

/-! ## The phases of ENCODE -/

/-- spec/43_encode_dispatch.md R253: a supplied length stays; one left unset is the widest register's. -/
def Obligations.VectorLengthInference : Prop :=
  ∀ rq : Request,
    (rq.vl ≠ 0 → inferLength rq = rq)
    ∧ (rq.vl = 0 → ∃ l, inferLength rq = { rq with vl := l }
      ∧ (l = 2 ↔ (∃ k r, k ≤ 8 ∧ slotGet rq.regs k = some r ∧ r.cls = .zmm) ∨ ∃ r, rq.index = some r ∧ r.cls = .zmm)
      ∧ (l = 0 ↔ (∀ k r, k ≤ 8 → slotGet rq.regs k = some r → r.cls ≠ .zmm ∧ r.cls ≠ .ymm)
          ∧ ∀ r, rq.index = some r → r.cls ≠ .zmm ∧ r.cls ≠ .ymm)
      ∧ l ≤ 2)

/-- spec/42_table_lookup.md R222, R224, R230, spec/43_encode_dispatch.md R254: bind gives the iform of the first rule of the
class's group that holds, and where some rule holds it answers; INVALID iclass, no group and no rule that holds are
GENERAL_ERROR with the buffer untouched; a rule of the reference bind holds exactly where its iform matches. A group's rules are
log 42, an index outside the table log 30. `ruleBound` is the rule's iform; it refuses a rule that reads more than R222
lists. -/
def Obligations.BindPicksTheFirstMatch : Prop :=
  ∀ (t : IsaTable) (rq : Request),
    (∀ b, bindTable t rq = .ok b →
      ∃ g rules before r after, rq.iclass ≠ 0 ∧ groupIndex rq.iclass t.groupOf = some g ∧ t.groups[g]? = some rules
        ∧ rules = before ++ r :: after ∧ ruleBound t r = .ok b ∧ ruleHolds r b rq = .ok true
        ∧ ∀ k ∈ before, ∃ c, ruleBound t k = .ok c ∧ ruleHolds k c rq = .ok false)
    ∧ (rq.iclass = 0 → bindTable t rq = generalError)
    ∧ (groupIndex rq.iclass t.groupOf = none → bindTable t rq = generalError)
    ∧ (∀ g rules, rq.iclass ≠ 0 → groupIndex rq.iclass t.groupOf = some g → t.groups[g]? = some rules →
      (∀ r ∈ rules, ∃ b v, ruleBound t r = .ok b ∧ ruleHolds r b rq = .ok v) →
      ((∃ r ∈ rules, ∃ b, ruleBound t r = .ok b ∧ ruleHolds r b rq = .ok true) → ∃ b, bindTable t rq = .ok b)
      ∧ ((∀ r ∈ rules, ∃ b, ruleBound t r = .ok b ∧ ruleHolds r b rq = .ok false) →
        bindTable t rq = generalError))
    ∧ (∀ n b, ruleHolds { iform := n } b rq = .ok (iformMatches rq b.spec))
    ∧ ∀ (s : State) (c : Nat), s.encodable → s.params.table = some t →
      rq = { precondition s.params.registers { s.rq with error := .noError } with derived := {} } →
      bindTable t rq = generalError → s.failsUntouched (exec (.encode c) s)

/-- spec/41_field_encoders.md R193, R194: 16-bit addressing has the nine pairs and no other; for each, the bits placed and
the forced displacement of a lone BP. R183, R184 and spec/93_implementation_defined.md U6: a base or index of a class that 16-bit
addressing does not have is refused; that the class comes first, and that RIP or a vector index is a pair outside the table, is
log 23. The names are those of a register space in which they are different registers. -/
def Obligations.SixteenBitAddressing : Prop :=
  ∀ (p : Params) (space : Space) (g : RegSpace) (rq : Request), p.registers = g → g.namesDistinct = true →
    (∀ rm, (rq.base0, rq.index, rm) ∈
        [(some g.regBX, some g.regSI, 0), (some g.regBX, some g.regDI, 1), (some g.regBP, some g.regSI, 2),
          (some g.regBP, some g.regDI, 3), (some g.regSI, none, 4), (some g.regDI, none, 5), (some g.regBP, none, 6),
          (none, none, 6), (some g.regBX, none, (7 : BitVec 3))] →
      (1 < rq.scale → encMem p space 16 rq = refuse .scaleUnder16Bit)
      ∧ (rq.scale ≤ 1 → ∀ placed : BitVec 2 → Derived,
        (∀ m, placed m =
          { rq.derived with hasModrm := true, mod := m, rm := rm, hasSib := false, rexb := false, rexx := false }) →
        (rq.base0 = none → rq.index = none →
          (rq.dispWidth = 16 → encMem p space 16 rq = .ok { rq with derived := placed 0 })
          ∧ (rq.dispWidth ≠ 16 → encMem p space 16 rq = refuse .noBaseDisplacementWidth))
        ∧ (rq.base0 ≠ none →
          (rq.dispWidth = 0 → rq.base0 = some g.regBP → rq.index = none →
            encMem p space 16 rq = .ok { rq with dispWidth := 8, disp := 0, derived := placed 1 })
          ∧ (rq.dispWidth = 0 → ¬ (rq.base0 = some g.regBP ∧ rq.index = none) →
            encMem p space 16 rq = .ok { rq with derived := placed 0 })
          ∧ (rq.dispWidth = 8 → encMem p space 16 rq = .ok { rq with derived := placed 1 })
          ∧ (rq.dispWidth = 16 → encMem p space 16 rq = .ok { rq with derived := placed 2 })
          ∧ (¬ (rq.dispWidth = 0 ∨ rq.dispWidth = 8 ∨ rq.dispWidth = 16) →
            encMem p space 16 rq = refuse .displacementWidthForAddressSize))))
    ∧ (rq.scale ≤ 1 →
        (∀ b, rq.base0 = some b → b.cls = .gpr16 ∨ b = g.regRIP) →
        (∀ x, rq.index = some x → x.cls = .gpr16 ∨ x.cls.isVector = true) →
        (rq.base0, rq.index) ∉
          [(some g.regBX, some g.regSI), (some g.regBX, some g.regDI), (some g.regBP, some g.regSI),
            (some g.regBP, some g.regDI), (some g.regSI, none), (some g.regDI, none), (some g.regBP, none), (none, none),
            (some g.regBX, none)] →
        encMem p space 16 rq = generalError)
    ∧ (∀ b, rq.base0 = some b → b ≠ g.regRIP →
        (b.cls = .ip → encMem p space 16 rq = refuse .instructionPointerBase)
        ∧ (b.cls ≠ .ip → b.cls ≠ .gpr16 → encMem p space 16 rq = refuse .addressClassMismatch))
    ∧ (∀ x, rq.index = some x → x.cls ≠ .gpr16 → x.cls.isVector = false →
        (∀ b, rq.base0 = some b → b.cls = .gpr16 ∨ b = g.regRIP) →
        encMem p space 16 rq = refuse .addressClassMismatch)

/-- spec/41_field_encoders.md R183 to R192, R195, spec/43_encode_dispatch.md R252: a memory operand under 32- and 64-bit addressing
with a base, with base and index, with an index alone, with neither, RIP-relative, and with a vector index, with a base and
alone. Each gives its bits, its displacement, and no other change. That a register of another class, EIP or IP is refused (R183,
R184, spec/93_implementation_defined.md U6) are the last clauses. -/
def Obligations.MemoryOperandBits : Prop :=
  ∀ (p : Params) (space : Space) (easz : Nat) (cls : RegClass) (rq : Request), addressedBy easz cls →
    (∀ n, n < 16 → rq.base0 = some ⟨cls, n⟩ → rq.index = none → rq.scale ≤ 1 →
      (rq.dispWidth = 0 ∨ rq.dispWidth = 8 ∨ rq.dispWidth = 32) →
      ∃ m v w, dispPlaced n rq m v w
        ∧ (n % 8 ≠ 4 → encMem p space easz rq = .ok { rq with
          disp := v
          dispWidth := w
          derived := { rq.derived with
            hasModrm := true, mod := m, rm := BitVec.ofNat 3 n, hasSib := false, sibscale := 0, rexb := decide (8 ≤ n),
            rexx := false } })
        ∧ (n % 8 = 4 → encMem p space easz rq = .ok { rq with
          disp := v
          dispWidth := w
          derived := { rq.derived with
            hasModrm := true, mod := m, rm := 4, hasSib := true, sibscale := 0, sibindex := 4, sibbase := 4,
            rexb := decide (8 ≤ n), rexx := false } }))
    ∧ (∀ n x c, n < 16 → x < 16 → x ∉ p.indexIllegal → scaleOf rq.scale c →
      rq.base0 = some ⟨cls, n⟩ → rq.index = some ⟨cls, x⟩ →
      (rq.dispWidth = 0 ∨ rq.dispWidth = 8 ∨ rq.dispWidth = 32) →
      ∃ m v w, dispPlaced n rq m v w
        ∧ encMem p space easz rq = .ok { rq with
          disp := v
          dispWidth := w
          derived := { rq.derived with
            hasModrm := true, mod := m, rm := 4, hasSib := true, sibscale := c, sibindex := BitVec.ofNat 3 x,
            sibbase := BitVec.ofNat 3 n, rexb := decide (8 ≤ n), rexx := decide (8 ≤ x) } })
    ∧ (rq.base0 = none → rq.index = none → rq.scale ≤ 1 → rq.dispWidth = 32 →
      encMem p space easz rq = .ok { rq with
        derived := { rq.derived with
          hasModrm := true, mod := 0, rm := 4, hasSib := true, sibscale := 0, sibindex := 4, sibbase := 5, rexb := false,
          rexx := false } })
    ∧ (∀ x c, x < 16 → x ∉ p.indexIllegal → scaleOf rq.scale c → rq.base0 = none → rq.index = some ⟨cls, x⟩ →
      rq.dispWidth = 32 →
      encMem p space easz rq = .ok { rq with
        derived := { rq.derived with
          hasModrm := true, mod := 0, rm := 4, hasSib := true, sibscale := c, sibindex := BitVec.ofNat 3 x, sibbase := 5,
          rexb := false, rexx := decide (8 ≤ x) } })
    ∧ (rq.base0 = some p.registers.regRIP →
      (normaliseRip p.registers rq = { rq with dispWidth := 32, disp := if rq.dispWidth = 0 then 0 else rq.disp })
      ∧ (rq.mode = 64 → rq.index = none → rq.dispWidth = 32 →
        encMem p space easz rq = .ok { rq with
          derived := { rq.derived with
            hasModrm := true, mod := 0, rm := 5, hasSib := false, rexb := false, rexx := false } }))
    ∧ (∀ n x c vec, n < 16 → x < 32 → (space = .evex ∨ x < 16) → vec.isVector = true → scaleOf rq.scale c →
      rq.base0 = some ⟨cls, n⟩ → rq.index = some ⟨vec, x⟩ →
      (rq.dispWidth = 0 ∨ rq.dispWidth = 8 ∨ rq.dispWidth = 32) →
      ∃ m v w, dispPlaced n rq m v w
        ∧ encMem p space easz rq = .ok { rq with
          disp := v
          dispWidth := w
          derived := { rq.derived with
            hasModrm := true, mod := m, rm := 4, hasSib := true, sibscale := c, sibindex := BitVec.ofNat 3 x,
            sibbase := BitVec.ofNat 3 n, rexb := decide (8 ≤ n), rexx := decide (x / 8 % 2 = 1),
            vexdest4 := if space = .evex then decide (16 ≤ x) else rq.derived.vexdest4 } })
    ∧ (∀ x c vec, x < 32 → (space = .evex ∨ x < 16) → vec.isVector = true → scaleOf rq.scale c → rq.base0 = none →
      rq.index = some ⟨vec, x⟩ → rq.dispWidth = 32 →
      encMem p space easz rq = .ok { rq with
        derived := { rq.derived with
          hasModrm := true, mod := 0, rm := 4, hasSib := true, sibscale := c, sibindex := BitVec.ofNat 3 x, sibbase := 5,
          rexb := false, rexx := decide (x / 8 % 2 = 1),
          vexdest4 := if space = .evex then decide (16 ≤ x) else rq.derived.vexdest4 } })
    ∧ (∀ b, rq.base0 = some b → b ≠ p.registers.regRIP →
      (b.cls = .ip → encMem p space easz rq = refuse .instructionPointerBase)
      ∧ (b.cls ≠ .ip → b.cls ≠ cls → encMem p space easz rq = refuse .addressClassMismatch))
    ∧ (∀ x, rq.index = some x → x.cls ≠ cls → x.cls.isVector = false →
      (∀ b, rq.base0 = some b → b.cls = cls ∨ b = p.registers.regRIP) →
      encMem p space easz rq = refuse .addressClassMismatch)

/-- spec/41_field_encoders.md R184 to R186, R201 and spec/43_encode_dispatch.md R252, through ADD_GPRv_MEMv: requests that have no
encoding fail with the buffer untouched. The row as an instruction is log 7 (DESIGN CHOICE). -/
def Obligations.UnencodableMemoryOperandsFail : Prop :=
  ∀ (s : State) (q : Request), s.phase = .idle → s.consumed = false →
    q = { State.reset.rq with
      iclass := iclassADD
      eosz := 32
      regs := { State.reset.rq.regs with r0 := some ⟨.gpr32, 0⟩ }
      mem0 := true
      order := [.reg0, .mem0]
      norder := 2 } →
    (∀ b x k, b < 16 → x < 16 → ¬ (k = 1 ∨ k = 2 ∨ k = 4 ∨ k = 8) →
      s.rq = { q with mode := 64, base0 := some ⟨.gpr64, b⟩, index := some ⟨.gpr64, x⟩, scale := k } →
      s.failsUntouched (exec .addGprvMemv s))
    ∧ (∀ b x k, b < 16 → x < 16 → x ∈ s.params.indexIllegal →
      s.rq = { q with mode := 64, base0 := some ⟨.gpr64, b⟩, index := some ⟨.gpr64, x⟩, scale := k } →
      s.failsUntouched (exec .addGprvMemv s))
    ∧ (∀ x, x < 16 →
      s.rq = { q with mode := 64, base0 := some s.params.registers.regRIP, index := some ⟨.gpr64, x⟩, scale := 1 } →
      s.failsUntouched (exec .addGprvMemv s))
    ∧ (s.rq = { q with mode := 32, base0 := some s.params.registers.regRIP } → s.failsUntouched (exec .addGprvMemv s))
    ∧ (∀ m b, b < 16 → m = 16 ∨ m = 32 → s.rq = { q with mode := m, easz := 64, base0 := some ⟨.gpr64, b⟩ } →
      s.failsUntouched (exec .addGprvMemv s))
    ∧ (s.rq = { q with mode := 64, easz := 16, base0 := some s.params.registers.regBX } →
      s.failsUntouched (exec .addGprvMemv s))

/-- spec/10_state.md R28: derived bits the host set do not reach the output. -/
def Obligations.DerivedBitsAreRecomputed : Prop :=
  ∀ (s : State) (d : Derived) (i : Instr), isEncode i = true →
    exec i { s with rq := { s.rq with derived := d } } = exec i s

/-! ## ENCODE through the fixture iforms -/

/-- spec/42_table_lookup.md R234 rows 6 and 7, spec/43_encode_dispatch.md R266, R270; spec/41_field_encoders.md R200 for the
hint byte (log 7, log 15). -/
def Obligations.BranchIformsEncode : Prop :=
  ∀ (s : State) (m sm : Nat) (v : Word64), s.encodable → (m = 16 ∨ m = 32 ∨ m = 64) →
    (5 ≤ s.capacity →
      s.rq = { State.reset.rq with
        mode := m, smode := sm, iclass := iclassJMP, brdisp := v, brdispWidth := 32, relbr := true,
        order := [.relbr], norder := 1 } →
      s.encoded s.capacity
        [0xE9, v.extractLsb' 0 8, v.extractLsb' 8 8, v.extractLsb' 16 8, v.extractLsb' 24 8] (exec .jmpRelbrd s))
    ∧ (3 ≤ s.capacity → ∀ h,
      s.rq = { State.reset.rq with
        mode := m, smode := sm, iclass := iclassJZ, brdisp := v, brdispWidth := 8, relbr := true, hint := h,
        order := [.relbr], norder := 1 } →
      s.encoded s.capacity
        ((match h with | .none => [] | .taken => [0x3E] | .notTaken => [0x2E]) ++ [0x74, v.extractLsb' 0 8])
        (exec .jzRelbrb s))

/-- spec/42_table_lookup.md R234 rows 5 and 12; spec/43_encode_dispatch.md R262, R266, R272, R273. -/
def Obligations.ImmediateIformsEncode : Prop :=
  ∀ (s : State) (sm : Nat) (v : Word64) (b : Byte), s.encodable →
    (4 ≤ s.capacity → ∀ m, (m = 16 ∨ m = 32 ∨ m = 64) →
      s.rq = { State.reset.rq with
        mode := m, smode := sm, iclass := iclassENTER, imm0 := v, immWidth := 16, imm1 := b, imm1Present := true,
        order := [.imm0, .imm1], norder := 2 } →
      s.encoded s.capacity [0xC8, v.extractLsb' 0 8, v.extractLsb' 8 8, b] (exec .enterImmwImmb s))
    ∧ (10 ≤ s.capacity → ∀ r, r < 16 →
      s.rq = { State.reset.rq with
        mode := 64, smode := sm, iclass := iclassMOV, eosz := 64, regs := { State.reset.rq.regs with r0 := some ⟨.gpr64, r⟩ },
        imm0 := v, immWidth := 64, order := [.reg0, .imm0], norder := 2 } →
      s.encoded s.capacity
        [BitVec.ofNat 8 (0x48 + r / 8), BitVec.ofNat 8 (0xB8 + r % 8), v.extractLsb' 0 8, v.extractLsb' 8 8,
          v.extractLsb' 16 8, v.extractLsb' 24 8, v.extractLsb' 32 8, v.extractLsb' 40 8, v.extractLsb' 48 8,
          v.extractLsb' 56 8] (exec .movGprvImmv s))

/-- spec/42_table_lookup.md R234 row 13 in its two shapes (log 17), spec/43_encode_dispatch.md R259. -/
def Obligations.StringIformEncodes : Prop :=
  ∀ (s : State) (m sm : Nat) (p : Rep), s.encodable → (m = 16 ∨ m = 32 ∨ m = 64) → 2 ≤ s.capacity →
    (s.rq = { State.reset.rq with mode := m, smode := sm, iclass := iclassMOVSB, rep := p } →
      s.encoded s.capacity ((match p with | .none => ([] : List Byte) | .rep => [0xF3] | .repne => [0xF2]) ++ [0xA4]) (exec .movsb s))
    ∧ (s.rq = { State.reset.rq with
        mode := 64, smode := sm, iclass := iclassMOVSB, rep := p, base0 := some ⟨.gpr64, 7⟩, base1 := some ⟨.gpr64, 6⟩,
        mem0 := true, mem1 := true, order := [.mem0, .mem1], norder := 2 } →
      s.encoded s.capacity ((match p with | .none => ([] : List Byte) | .rep => [0xF3] | .repne => [0xF2]) ++ [0xA4]) (exec .movsb s))

/-- spec/42_table_lookup.md R234 rows 2 and 4; spec/41_field_encoders.md R173, R174, R179 to R181, R197, R201: ADD of two registers
of 16, 32 or 64 bits in every mode, MOV of two byte registers; registers that need an extension bit outside 64-bit mode, and AH,
CH, DH, BH together with a REX byte, have no encoding. The rows as instructions are log 7; a byte register at every operand
width is log 44. -/
def Obligations.RegisterIformsEncode : Prop :=
  ∀ (s : State) (m sm : Nat), s.encodable → (m = 16 ∨ m = 32 ∨ m = 64) →
    (∀ (a b e : Nat) (cls : RegClass), a < 16 → b < 16 →
      (e = 16 ∧ cls = .gpr16) ∨ (e = 32 ∧ cls = .gpr32) ∨ (e = 64 ∧ cls = .gpr64) →
      s.rq = { State.reset.rq with
        mode := m, smode := sm, iclass := iclassADD, eosz := e,
        regs := { State.reset.rq.regs with r0 := some ⟨cls, a⟩, r1 := some ⟨cls, b⟩ },
        order := [.reg0, .reg1], norder := 2 } →
      (m = 64 ∨ (a < 8 ∧ b < 8 ∧ e ≠ 64) → (if m = 64 ∧ e = 16 then 4 else 3) ≤ s.capacity →
        s.encoded s.capacity
          (oszBytes m e ++ (rexBytes (if e = 64 then 1 else 0) (b / 8) 0 (a / 8)
            ++ [0x01, BitVec.ofNat 8 (0xC0 + 8 * (b % 8) + a % 8)])) (exec .addGprvGprv01 s))
      ∧ (m ≠ 64 → 8 ≤ a ∨ 8 ≤ b ∨ e = 64 → s.failsUntouched (exec .addGprvGprv01 s)))
    ∧ (∀ r0 r1 : Reg, byteReg r0 → byteReg r1 →
      s.rq = { State.reset.rq with
        mode := m, smode := sm, iclass := iclassMOV,
        regs := { State.reset.rq.regs with r0 := some r0, r1 := some r1 },
        order := [.reg0, .reg1], norder := 2 } →
      (¬ needsRex r0 → ¬ needsRex r1 → 2 ≤ s.capacity →
        s.encoded s.capacity [0x88, BitVec.ofNat 8 (0xC0 + 8 * fieldOff r1 + fieldOff r0)] (exec .movGpr8Gpr8 s))
      ∧ (needsRex r0 ∨ needsRex r1 → m = 64 → r0.cls = .gpr8 → r1.cls = .gpr8 → 3 ≤ s.capacity →
        s.encoded s.capacity
          [BitVec.ofNat 8 (0x40 + 4 * (r1.off / 8) + r0.off / 8), 0x88,
            BitVec.ofNat 8 (0xC0 + 8 * (r1.off % 8) + r0.off % 8)] (exec .movGpr8Gpr8 s))
      ∧ (needsRex r0 ∨ needsRex r1 → m ≠ 64 ∨ r0.cls = .gpr8h ∨ r1.cls = .gpr8h →
        s.failsUntouched (exec .movGpr8Gpr8 s)))

/-- spec/42_table_lookup.md R234 rows 1, 3 and 8; spec/41_field_encoders.md R187 to R194, R200, R201; spec/43_encode_dispatch.md
R252, R258, R260 to R262, R265 to R269, R272: a base of 32 or 64 bits in every mode that has it, every segment register, every
operand width, a displacement of 0, 8 or 32 bits; BX + SI under 16-bit addressing; base and scaled index; RIP in 64-bit mode with
every supplied displacement width (R184). The rows as instructions are log 7. -/
def Obligations.MemoryIformsEncode : Prop :=
  ∀ (s : State) (sm : Nat) (g : RegSpace), s.encodable → s.params.registers = g → g.namesDistinct = true →
    (∀ (m ea e r n dw : Nat) (ac rc : RegClass) (seg : RegOrInvalid) (pfx : List Byte) (v i : Word64) (q : Request),
      12 ≤ s.capacity → (m = 64 ∧ ea = 64) ∨ ((m = 16 ∨ m = 32 ∨ m = 64) ∧ ea = 32) → addressedBy ea ac →
      (e = 16 ∧ rc = .gpr16) ∨ (e = 32 ∧ rc = .gpr32) ∨ (e = 64 ∧ rc = .gpr64) → r < 16 → n < 16 →
      (m ≠ 64 → r < 8 ∧ n < 8 ∧ e ≠ 64) → dw = 0 ∨ dw = 8 ∨ dw = 32 → overrideBytes g (n = 4 ∨ n = 5) seg pfx →
      q = { State.reset.rq with
        mode := m, smode := sm, eosz := e, easz := ea, base0 := some ⟨ac, n⟩, seg0 := seg, disp := v, dispWidth := dw,
        mem0 := true, norder := 2 } →
      (s.rq = { q with
          iclass := iclassADD, regs := { State.reset.rq.regs with r0 := some ⟨rc, r⟩ }, order := [.reg0, .mem0] } →
        s.encoded s.capacity
          (pfx ++ (oszBytes m e ++ (aszBytes m ea ++ (rexBytes (if e = 64 then 1 else 0) (r / 8) 0 (n / 8)
            ++ ([0x03] ++ baseDispBytes r n dw v))))) (exec .addGprvMemv s))
      ∧ (s.rq = { q with
          iclass := iclassMOVZX, regs := { State.reset.rq.regs with r0 := some ⟨rc, r⟩ }, order := [.reg0, .mem0] } →
        s.encoded s.capacity
          (pfx ++ (oszBytes m e ++ (aszBytes m ea ++ (rexBytes (if e = 64 then 1 else 0) (r / 8) 0 (n / 8)
            ++ ([0x0F, 0xB6] ++ baseDispBytes r n dw v))))) (exec .movzxGprvMemb s))
      ∧ (s.rq = { q with iclass := iclassADD, imm0 := i, immWidth := 8, order := [.mem0, .imm0] } →
        s.encoded s.capacity
          (pfx ++ (oszBytes m e ++ (aszBytes m ea ++ (rexBytes (if e = 64 then 1 else 0) 0 0 (n / 8)
            ++ ([0x83] ++ (baseDispBytes 0 n dw v ++ [i.extractLsb' 0 8])))))) (exec .addMemvImmb s)))
    ∧ (∀ (m r dw : Nat) (v : Word64), 5 ≤ s.capacity → m = 16 ∨ m = 32 → r < 8 → dw = 0 ∨ dw = 8 ∨ dw = 16 →
      s.rq = { State.reset.rq with
        mode := m, smode := sm, iclass := iclassADD, eosz := m, easz := 16,
        regs := { State.reset.rq.regs with r0 := some ⟨if m = 16 then .gpr16 else .gpr32, r⟩ },
        base0 := some g.regBX, index := some g.regSI, scale := 1, disp := v, dispWidth := dw, mem0 := true,
        order := [.reg0, .mem0], norder := 2 } →
      s.encoded s.capacity
        (aszBytes m 16 ++ ([0x03, BitVec.ofNat 8 (64 * (dw / 8) + 8 * r)]
          ++ (if dw = 0 then [] else if dw = 8 then [v.extractLsb' 0 8] else [v.extractLsb' 0 8, v.extractLsb' 8 8])))
        (exec .addGprvMemv s))
    ∧ (∀ (m ea e r n x sc dw : Nat) (code : BitVec 2) (ac rc : RegClass) (v : Word64),
      11 ≤ s.capacity → (m = 64 ∧ ea = 64) ∨ ((m = 16 ∨ m = 32 ∨ m = 64) ∧ ea = 32) → addressedBy ea ac →
      (e = 16 ∧ rc = .gpr16) ∨ (e = 32 ∧ rc = .gpr32) ∨ (e = 64 ∧ rc = .gpr64) → r < 16 → n < 16 → x < 16 →
      (m ≠ 64 → r < 8 ∧ n < 8 ∧ x < 8 ∧ e ≠ 64) → x ∉ s.params.indexIllegal → scaleOf sc code →
      dw = 0 ∨ dw = 8 ∨ dw = 32 →
      s.rq = { State.reset.rq with
        mode := m, smode := sm, iclass := iclassADD, eosz := e, easz := ea,
        regs := { State.reset.rq.regs with r0 := some ⟨rc, r⟩ }, base0 := some ⟨ac, n⟩, index := some ⟨ac, x⟩, scale := sc,
        disp := v, dispWidth := dw, mem0 := true, order := [.reg0, .mem0], norder := 2 } →
      s.encoded s.capacity
        (oszBytes m e ++ (aszBytes m ea ++ (rexBytes (if e = 64 then 1 else 0) (r / 8) (x / 8) (n / 8)
          ++ ([0x03] ++ indexedBytes r n x code dw v)))) (exec .addGprvMemv s))
    ∧ (∀ (e r dw : Nat) (rc : RegClass) (v : Word64),
      8 ≤ s.capacity → (e = 16 ∧ rc = .gpr16) ∨ (e = 32 ∧ rc = .gpr32) ∨ (e = 64 ∧ rc = .gpr64) → r < 16 →
      dw = 0 ∨ dw = 8 ∨ dw = 16 ∨ dw = 32 →
      s.rq = { State.reset.rq with
        mode := 64, smode := sm, iclass := iclassADD, eosz := e, easz := 64,
        regs := { State.reset.rq.regs with r0 := some ⟨rc, r⟩ }, base0 := some g.regRIP, disp := v, dispWidth := dw,
        mem0 := true, order := [.reg0, .mem0], norder := 2 } →
      s.encoded s.capacity
        (oszBytes 64 e ++ (rexBytes (if e = 64 then 1 else 0) (r / 8) 0 0
          ++ ([0x03, BitVec.ofNat 8 (8 * (r % 8) + 5)]
            ++ (if dw = 0 then [0, 0, 0, 0]
              else [v.extractLsb' 0 8, v.extractLsb' 8 8, v.extractLsb' 16 8, v.extractLsb' 24 8]))))
        (exec .addGprvMemv s))

/-- spec/42_table_lookup.md R234 rows 9 and 10; spec/43_encode_dispatch.md R253, R263; spec/41_field_encoders.md R198: 128 bits
with XMM (`l = 0`), 256 bits with YMM (`l = 1`). -/
def Obligations.VexIformsEncode : Prop :=
  ∀ (s : State) (sm a b c l : Nat) (cls : RegClass) (v : Word64), s.encodable → a < 16 → b < 16 → c < 16 →
    (l = 0 ∧ cls = .xmm) ∨ (l = 1 ∧ cls = .ymm) → 10 ≤ s.capacity →
    (s.rq = { State.reset.rq with
        mode := 64, smode := sm, iclass := iclassVADDPS,
        regs := { State.reset.rq.regs with r0 := some ⟨cls, a⟩, r1 := some ⟨cls, b⟩, r2 := some ⟨cls, c⟩ },
        order := [.reg0, .reg1, .reg2], norder := 3 } →
      s.encoded s.capacity
        ((if c < 8 then [0xC5, BitVec.ofNat 8 (128 * (1 - a / 8) + 8 * (15 - b) + 4 * l)]
          else [0xC4, BitVec.ofNat 8 (128 * (1 - a / 8) + 64 + 1), BitVec.ofNat 8 (8 * (15 - b) + 4 * l)])
          ++ [0x58, BitVec.ofNat 8 (0xC0 + 8 * (a % 8) + c % 8)]) (exec .vaddpsVexRrr s))
    ∧ (s.rq = { State.reset.rq with
        mode := 64, smode := sm, iclass := iclassVADDPS,
        regs := { State.reset.rq.regs with r0 := some ⟨cls, a⟩, r1 := some ⟨cls, b⟩ },
        base0 := some ⟨.gpr64, c⟩, disp := v, dispWidth := 32, mem0 := true, order := [.reg0, .reg1, .mem0], norder := 3 } →
      s.encoded s.capacity
        ((if c < 8 then [0xC5, BitVec.ofNat 8 (128 * (1 - a / 8) + 8 * (15 - b) + 4 * l)]
          else [0xC4, BitVec.ofNat 8 (128 * (1 - a / 8) + 64 + 1), BitVec.ofNat 8 (8 * (15 - b) + 4 * l)])
          ++ ([0x58] ++ baseDispBytes a c 32 v)) (exec .vaddpsVexRrm s))

/-- spec/42_table_lookup.md R234 row 11; spec/43_encode_dispatch.md R253, R264; spec/41_field_encoders.md R172 to R175, R177,
R198: three ZMM registers, a mask, zeroing. -/
def Obligations.EvexIformEncodes : Prop :=
  ∀ (s : State) (sm a b c k : Nat) (z : Bool), s.encodable → a < 32 → b < 32 → c < 32 → k < 8 → 6 ≤ s.capacity →
    s.rq = { State.reset.rq with
      mode := 64, smode := sm, iclass := iclassVADDPS,
      regs := { State.reset.rq.regs with
        r0 := some ⟨.zmm, a⟩, r1 := some ⟨.mask, k⟩, r2 := some ⟨.zmm, b⟩, r3 := some ⟨.zmm, c⟩ },
      zeroing := z, order := [.reg0, .reg1, .reg2, .reg3], norder := 4 } →
    s.encoded s.capacity
      [0x62,
        BitVec.ofNat 8 (128 * (1 - a / 8 % 2) + 64 * (1 - c / 16) + 32 * (1 - c / 8 % 2) + 16 * (1 - a / 16) + 1),
        BitVec.ofNat 8 (8 * (15 - b % 16) + 4),
        BitVec.ofNat 8 (128 * z.toNat + 64 + 8 * (1 - b / 16) + k),
        0x58, BitVec.ofNat 8 (0xC0 + 8 * (a % 8) + c % 8)] (exec .vaddpsEvexRkrr s)

/-- spec/43_encode_dispatch.md R250 and its example, spec/45_operand_builder.md R355 for the request: ADD EAX,
[EDX + disp32] in 32-bit mode through T0, for every displacement and every capacity of at least 6. -/
def Obligations.EncodeOfTheLiteralScenario : Prop :=
  ∀ (s : State) (sm c : Nat) (v : Word64), s.encodable → s.params.table = some fixtureT0 → 6 ≤ c →
    s.rq = { State.reset.rq with
      mode := 32, smode := sm, iclass := iclassADD, eosz := 32, easz := 32,
      regs := { State.reset.rq.regs with r0 := some ⟨.gpr32, 0⟩ }, base0 := some ⟨.gpr32, 2⟩, disp := v, dispWidth := 32,
      mem0 := true, order := [.reg0, .mem0], norder := 2 } →
    s.encoded c [0x03, 0x82, v.extractLsb' 0 8, v.extractLsb' 8 8, v.extractLsb' 16 8, v.extractLsb' 24 8]
      (exec (.encode c) s)

/-- spec/43_encode_dispatch.md R279, for every table, request and iform: with the natural length `n` (the bits of the bound
iform's pattern, a whole number of bytes), every capacity of at least `n` succeeds with length `n`, every smaller one, and
every one if `n` exceeds 15, is BUFFER_TOO_SHORT. The contract of spec/42_table_lookup.md R226 is the premise on the pattern. -/
def Obligations.CapacityBoundary : Prop :=
  ∀ (s : State) (t : IsaTable) (b : Bound) (rq : Request) (n c : Nat),
    s.encodable → s.params.table = some t →
    bindRequest (bindTable t) s.params (precondition s.params.registers { s.rq with error := .noError }) = .ok (b, rq) →
    meetsContract 0 (emissionPattern b rq) = true → actionBits (emissionPattern b rq) = 8 * n →
    (n ≤ c → n ≤ 15 → ∃ u, exec (.encode c) s = .next u ∧ u.result = .encoded .noError n ∧ u.phase = .idle
      ∧ u.rq.error = .noError ∧ ∀ a, n ≤ a → u.buf.read a = s.buf.read a)
    ∧ (c < n ∨ 15 < n → ∃ u, exec (.encode c) s = .next u ∧ u.result.encodeCode = some .bufferTooShort
      ∧ u.phase = .idle ∧ u.rq.error = .bufferTooShort ∧ ∀ a, min c 15 ≤ a → u.buf.read a = s.buf.read a)

/-- spec/43_encode_dispatch.md R280: ENCODE is a function of the request, the table and the capacity (and of the parameters the
field encoders read). -/
def Obligations.EncodeDependsOnTheRequestAlone : Prop :=
  ∀ (s s' t : State) (c : Nat), s.phase = .idle → s'.phase = .idle → s.consumed = s'.consumed → s.rq = s'.rq →
    s.params.table = s'.params.table → s.params.indexIllegal = s'.params.indexIllegal →
    s.params.registers = s'.params.registers → exec (.encode c) s = .next t →
    ∃ t', exec (.encode c) s' = .next t' ∧ t'.phase = t.phase ∧ t'.result.encodeCode = t.result.encodeCode
      ∧ ∀ n, t.result = .encoded .noError n →
        t'.result = .encoded .noError n ∧ ∀ a, a < n → t'.buf.read a = t.buf.read a

/-- spec/60_exceptions.md R398, spec/20_memory.md R86, spec/43_encode_dispatch.md R263: a GENERAL_ERROR comes before the first
byte, unless the bound iform is of VEX space and VL is 2. -/
def Obligations.GeneralErrorWritesNothing : Prop :=
  ∀ (s t : State) (table : IsaTable) (c : Nat), s.params.table = some table → exec (.encode c) s = .next t →
    t.result.encodeCode = some .generalError →
    (∀ b q,
      bindRequest (bindTable table) s.params (precondition s.params.registers { s.rq with error := .noError }) = .ok (b, q) →
      ¬ (b.spec.space = .vex ∧ q.vl = 2)) →
    t.buf = s.buf

/-- spec/20_memory.md R72, R86, spec/70_reset_and_hazards.md R434, spec/10_state.md R41, R43: what ENCODE leaves alone, with
any code, while the engine is not in FATAL. For a fixture row as an instruction the capacity is the one last declared: log 7
(DESIGN CHOICE). -/
def Obligations.EncodeFrame : Prop :=
  ∀ (s t : State) (i : Instr) (cap : Nat), isEncode i = true →
    (∀ c, i = .encode c → cap = c) → ((∀ c, i ≠ .encode c) → cap = s.capacity) →
    exec i s = .next t → t.phase = .idle →
    (∀ a, min cap 15 ≤ a → t.buf.read a = s.buf.read a) ∧ t.capacity = cap ∧ t.consumed = true
      ∧ t.evLive = false ∧ t.regcnt = s.regcnt ∧ t.memcnt = s.memcnt ∧ t.loopIndex = s.loopIndex ∧ t.params = s.params ∧ t.input = s.input
      ∧ t.resetRequest = s.resetRequest
      ∧ ∃ code n, t.result = .encoded code n ∧ t.rq.error = code ∧ (code = .noError → n ≤ min cap 15)

/-- spec/43_encode_dispatch.md R251, spec/10_state.md R41, spec/70_reset_and_hazards.md R423: what ENCODE refuses at its entry. -/
def Obligations.EncodeEntryRefusals : Prop :=
  ∀ (s : State) (t : IsaTable) (c : Nat), s.phase = .idle → s.params.table = some t →
    ((¬ (s.rq.mode = 16 ∨ s.rq.mode = 32 ∨ s.rq.mode = 64)) → exec (.encode c) s = .refused .modeNotSet)
    ∧ ((s.rq.mode = 16 ∨ s.rq.mode = 32 ∨ s.rq.mode = 64) → s.consumed = true →
      exec (.encode c) s = .refused .reusedRequest)
    ∧ (∀ u : State, u.phase = .idle → u.params.table = none → exec (.encode c) u = .refused .tableNotLoaded)

/-! ## The machine as a whole -/

/-- spec/60_exceptions.md R394: in FATAL every command is refused. -/
def Obligations.FatalRefusesEveryInstruction : Prop :=
  ∀ (i : Instr) (s : State), s.phase = .fatal → exec i s = .refused .engineInFatal

/-- spec/43_encode_dispatch.md R276, spec/60_exceptions.md R394: only a width setter (BUILD's among them) with a bad width and
an ENCODE enter FATAL. -/
def Obligations.OnlyAssertionsEnterFatal : Prop :=
  ∀ (i : Instr) (s t : State), exec i s = .next t → t.phase = .fatal →
    (∃ b, i = .setEosz b ∧ ¬ (b = 8 ∨ b = 16 ∨ b = 32 ∨ b = 64))
    ∨ (∃ b, i = .setEasz b ∧ ¬ (b = 16 ∨ b = 32 ∨ b = 64))
    ∨ (∃ m sm ic eo ea p h ds, i = .build m sm ic eo ea p h ds
        ∧ ¬ ((eo = 0 ∨ eo = 8 ∨ eo = 16 ∨ eo = 32 ∨ eo = 64) ∧ (ea = 0 ∨ ea = 16 ∨ ea = 32 ∨ ea = 64)))
    ∨ isEncode i = true

/-- spec/60_exceptions.md R402: no command but ENCODE and EMIT_BITS puts a code into ERROR. -/
def Obligations.OnlyEncodeAndEmitRecordErrors : Prop :=
  ∀ (i : Instr) (s t : State), isEncode i = false → isEmission i = false → exec i s = .next t → t.phase = .idle →
    t.rq.error = s.rq.error ∨ t.rq.error = .noError

/-- spec/10_state.md R34, R43, spec/20_memory.md R83: no step changes the table or a parameter. -/
def Obligations.ParametersNeverChange : Prop := ∀ s t : State, step s = .next t → t.params = s.params

/-- spec/10_state.md R31, R32, R36, R40; log 12 for the encoder vars between commands, log 28 for the value
sets. -/
def Obligations.EveryStepKeepsTheInvariant : Prop := ∀ s t : State, s.Inv → step s = .next t → t.Inv

/-- The invariant holds after reset (spec/10_state.md R42). -/
def Obligations.ResetHasTheInvariant : Prop := State.reset.Inv

/-- spec/40_bit_emitter.md R158, spec/10_state.md R40: from a state with the invariant no step faults, and none starts an emission in
a byte the engine has not established. -/
def Obligations.NoStepFaults : Prop :=
  ∀ s : State, s.Inv → (∀ f, step s ≠ .fault f) ∧ step s ≠ .refused .unestablishedByte
end

