-- ==== Sys2Proof/Laws/Codec.lean ====
section
/-! SUPPORT. The codec of the command port: each primitive reader reads back what its writer wrote, and leaves the bytes
after it. -/

namespace Sys2Proof

/-- Reading one thing and going on. -/
theorem Dec.bind_ok {α β : Type} {p : Dec α} {f : α → Dec β} {bs rest : List Byte} {a : α}
    (h : p bs = .ok (a, rest)) : (p >>= f) bs = f a rest := by
  show StateT.bind p f bs = _
  simp only [StateT.bind, h]
  rfl

theorem Dec.map_ok {α β : Type} {p : Dec α} {f : α → β} {bs rest : List Byte} {a : α}
    (h : p bs = .ok (a, rest)) : (f <$> p) bs = .ok (f a, rest) := by
  show StateT.map f p bs = _
  simp only [StateT.map, h]
  rfl

theorem Dec.pure_ok {α : Type} (a : α) (bs : List Byte) : (pure a : Dec α) bs = .ok (a, bs) := rfl

theorem getByte_cons (b : Byte) (rest : List Byte) : getByte (b :: rest) = .ok (b, rest) := rfl

theorem getByte_putByte (b : Byte) (rest : List Byte) : getByte (putByte b ++ rest) = .ok (b, rest) := rfl

theorem getByte_putTag (n : Nat) (rest : List Byte) : getByte (putTag n ++ rest) = .ok (BitVec.ofNat 8 n, rest) := rfl

theorem tag_toNat (n : Nat) (h : n < 256) : (BitVec.ofNat 8 n).toNat = n := by
  rw [BitVec.toNat_ofNat]
  omega

theorem getLE_leBytes (n v : Nat) (rest : List Byte) (h : v < 256 ^ n) :
    getLE n (leBytes n v ++ rest) = .ok (v, rest) := by
  induction n generalizing v with
  | zero =>
    simp only [Nat.pow_zero] at h
    obtain rfl : v = 0 := by omega
    rfl
  | succ n ih =>
    simp only [leBytes, List.cons_append, getLE]
    rw [Dec.bind_ok (getByte_cons _ _),
      Dec.bind_ok (ih (v / 256) (by rw [Nat.pow_succ] at h; exact Nat.div_lt_of_lt_mul (by omega)))]
    show Except.ok ((BitVec.ofNat 8 v).toNat + 256 * (v / 256), rest) = _
    rw [BitVec.toNat_ofNat]
    congr 2
    omega

theorem getNat_putNat (n : Nat) (rest : List Byte) (h : natFits n = true) : getNat (putNat n ++ rest) = .ok (n, rest) :=
  getLE_leBytes 8 n rest (by simpa [natFits] using h)

theorem getWord64_putWord64 (v : Word64) (rest : List Byte) : getWord64 (putWord64 v ++ rest) = .ok (v, rest) := by
  rw [getWord64, putWord64, Dec.map_ok (getLE_leBytes 8 v.toNat rest (by have := v.isLt; omega))]
  simp

theorem getWord32_putWord32 (v : BitVec 32) (rest : List Byte) : getWord32 (putWord32 v ++ rest) = .ok (v, rest) := by
  rw [getWord32, putWord32, Dec.map_ok (getLE_leBytes 4 v.toNat rest (by have := v.isLt; omega))]
  simp

theorem getBits_putBits {w : Nat} (hw : w ≤ 8) (v : BitVec w) (rest : List Byte) :
    getBits w (putBits v ++ rest) = .ok (v, rest) := by
  have hlt : v.toNat < 2 ^ 8 := Nat.lt_of_lt_of_le v.isLt (Nat.pow_le_pow_right (by omega) hw)
  rw [getBits, putBits, Dec.bind_ok (getByte_putTag _ _), tag_toNat _ hlt, if_pos v.isLt]
  simp [Dec.pure_ok]

theorem getBool_putBool (b : Bool) (rest : List Byte) : getBool (putBool b ++ rest) = .ok (b, rest) := by
  cases b <;> rfl

theorem getName_putName (n : OperandName) (rest : List Byte) : getName (putName n ++ rest) = .ok (n, rest) := by
  cases n <;> rfl

theorem getRep_putRep (p : Rep) (rest : List Byte) : getRep (putRep p ++ rest) = .ok (p, rest) := by
  cases p <;> rfl

theorem getHint_putHint (h : Hint) (rest : List Byte) : getHint (putHint h ++ rest) = .ok (h, rest) := by
  cases h <;> rfl

theorem getCode_putCode (c : ReturnCode) (rest : List Byte) : getCode (putCode c ++ rest) = .ok (c, rest) := by
  cases c <;> rfl

theorem RegClass.ofCode_code (c : RegClass) : RegClass.ofCode c.code = some c := by
  cases c with
  | other id =>
    show RegClass.ofCode (16 + id) = _
    rw [Nat.add_comm]
    rfl
  | _ => rfl

theorem RegClass.code_pos (c : RegClass) : 0 < c.code := by
  cases c <;> simp [RegClass.code]

theorem getReg_putReg (r : RegOrInvalid) (rest : List Byte) (h : regFits r = true) :
    getReg (putReg r ++ rest) = .ok (r, rest) := by
  cases r with
  | none => rfl
  | some r =>
    obtain ⟨c, o⟩ := r
    simp only [regFits, Bool.and_eq_true, decide_eq_true_eq] at h
    obtain ⟨ho, hc⟩ := h
    have hlt : c.code < 256 := by
      cases c with
      | other id =>
        have : id < 240 := by simpa using hc
        simp only [RegClass.code]
        omega
      | _ => decide
    rw [getReg, putReg, List.append_assoc, Dec.bind_ok (getByte_putTag _ _), Dec.bind_ok (getByte_putTag _ _)]
    have hz : BitVec.ofNat 8 c.code ≠ 0 := fun h0 => by
      have := congrArg BitVec.toNat h0
      rw [tag_toNat _ hlt] at this
      have := c.code_pos
      simp_all
    rw [if_neg hz]
    simp only [tag_toNat _ hlt, RegClass.ofCode_code, tag_toNat o ho]
    rfl

theorem getSlot_putSlot (k : Fin 9) (rest : List Byte) : getSlot (putSlot k ++ rest) = .ok (k, rest) := by
  have h := k.isLt
  rw [getSlot, putSlot, Dec.bind_ok (getByte_putTag _ _), tag_toNat _ (by omega), dif_pos h]
  rfl

/-- A list of entries, each of which reads back. -/
theorem getMany_putMany {α : Type} (get : Dec α) (put : α → List Byte) (l : List α) (rest : List Byte)
    (h : ∀ a ∈ l, ∀ r, get (put a ++ r) = .ok (a, r)) : getMany get l.length (putMany put l ++ rest) = .ok (l, rest) := by
  induction l with
  | nil => rfl
  | cons a l ih =>
    simp only [List.length_cons, getMany, putMany, List.append_assoc]
    rw [Dec.bind_ok (h a (by simp) _), Dec.bind_ok (ih fun b hb => h b (by simp [hb]))]
    rfl

theorem getNamedFields_putNamedFields (l : List (Nat × Nat)) (rest : List Byte) (hl : l.length < 256)
    (h : ∀ e ∈ l, natFits e.1 = true ∧ natFits e.2 = true) :
    getNamedFields (putNamedFields l ++ rest) = .ok (l, rest) := by
  rw [getNamedFields, putNamedFields, List.append_assoc, Dec.bind_ok (getByte_putTag _ _), tag_toNat _ hl]
  refine getMany_putMany _ _ l rest fun e he r => ?_
  rw [getNamedField, putNamedField, List.append_assoc, Dec.bind_ok (getNat_putNat _ _ (h e he).1),
    Dec.bind_ok (getNat_putNat _ _ (h e he).2)]
  rfl

/-! ## The numbers of the commands and tags (parameter P20) -/

/-- A number in the first of two lists of one length has an entry in the second, and the entry leads back. -/
theorem renumber_renumber (n : Nat) (as bs : List Nat) (hl : as.length = bs.length) (hn : bs.Nodup) (hm : n ∈ as) :
    ∃ m ∈ bs, renumber n as bs = some m ∧ renumber m bs as = some n := by
  induction as generalizing bs with
  | nil => cases hm
  | cons a as ih =>
    cases bs with
    | nil => cases hl
    | cons b bs =>
      simp only [List.nodup_cons] at hn
      by_cases ha : a = n
      · exact ⟨b, by simp, by simp [renumber, ha], by simp [renumber, ha]⟩
      · have hm' : n ∈ as := by
          rcases List.mem_cons.1 hm with h | h
          · exact absurd h.symm ha
          · exact h
        obtain ⟨m, hmem, h1, h2⟩ := ih bs (by simpa using hl) hn.2 hm'
        have hb : b ≠ m := fun h => hn.1 (h ▸ hmem)
        exact ⟨m, by simp [hmem], by simp [renumber, ha, h1], by simp [renumber, hb, h2]⟩

/-- The code of a command is one byte and stands for the command. -/
theorem PortCodes.commandOf_commandAt (c : PortCodes) (n : Nat) (h : c.wf = true) (hn : n ∈ tableCommands) :
    c.commandAt n < 256 ∧ c.commandOf (c.commandAt n) = some n := by
  simp only [PortCodes.wf, Bool.and_eq_true, decide_eq_true_eq, List.all_eq_true] at h
  obtain ⟨m, hm, h1, h2⟩ := renumber_renumber n tableCommands c.commands h.1.1.1.symm h.1.1.2.2.1 hn
  have he : c.commandAt n = m := by simp [PortCodes.commandAt, h1]
  exact he ▸ ⟨h.1.2 m hm, h2⟩

/-- The tag of a descriptor is one byte and stands for the descriptor. -/
theorem PortCodes.tagOf_tagAt (c : PortCodes) (n : Nat) (h : c.wf = true) (hn : n ∈ tableTags) :
    c.tagAt n < 256 ∧ c.tagOf (c.tagAt n) = some n := by
  simp only [PortCodes.wf, Bool.and_eq_true, decide_eq_true_eq, List.all_eq_true] at h
  obtain ⟨m, hm, h1, h2⟩ := renumber_renumber n tableTags c.tags h.1.1.2.1.symm h.1.1.2.2.2 hn
  have he : c.tagAt n = m := by simp [PortCodes.tagAt, h1]
  exact he ▸ ⟨h.2 m hm, h2⟩

/-- A command message read back: its code names the command, whose operands are read next. -/
theorem getCommandMessage_command (c : PortCodes) (n : Nat) (operands : List Byte) (h : c.wf = true)
    (hn : n ∈ tableCommands) :
    getCommandMessage c (c.command n operands).bytes = getCommand c n operands := by
  obtain ⟨hlt, hof⟩ := c.commandOf_commandAt n h hn
  rw [getCommandMessage, PortCodes.command, Dec.bind_ok (getByte_putTag _ _), tag_toNat _ hlt, hof]

end Sys2Proof
end

