-- ==== Sys2Proof/Laws/Memory.lean ====
section
/-! SUPPORT. The laws of the output buffer: what a write leaves at every offset, and that every operation keeps the
canonical form. -/

namespace Sys2Proof.Machine

theorem Mem.read_write_same (m : Mem) (a : Nat) (v : Byte) : (m.write a v).read a = some v := by
  induction m with
  | nil => simp [Mem.write, Mem.read]
  | cons c rest ih =>
    simp only [Mem.write]
    split
    · simp [Mem.read]
    · split
      · simp [Mem.read]
      · rename_i h1 h2
        simp [Mem.read, ih, Ne.symm h2]

theorem Mem.read_write_other (m : Mem) (a b : Nat) (v : Byte) (h : b ≠ a) : (m.write a v).read b = m.read b := by
  induction m with
  | nil => simp [Mem.write, Mem.read, Ne.symm h]
  | cons c rest ih =>
    simp only [Mem.write]
    split
    · simp [Mem.read, Ne.symm h]
    · split
      · rename_i h1 h2
        subst h2
        simp [Mem.read, Ne.symm h]
      · simp [Mem.read, ih]

/-- What a write leaves at every offset. -/
theorem Mem.read_write (m : Mem) (a b : Nat) (v : Byte) :
    (m.write a v).read b = if b = a then some v else m.read b := by
  by_cases h : b = a
  · simp [h, Mem.read_write_same]
  · simp [h, Mem.read_write_other]

/-- What a run of bytes leaves at every offset. -/
theorem Mem.read_writeBytes (m : Mem) (a b : Nat) (bytes : List Byte) :
    (m.writeBytes a bytes).read b = if a ≤ b ∧ b < a + bytes.length then bytes[b - a]? else m.read b := by
  induction bytes generalizing m a with
  | nil =>
    rw [if_neg (by simp)]
    rfl
  | cons x rest ih =>
    rw [Mem.writeBytes, ih, Mem.read_write]
    by_cases hb : b = a
    · subst hb
      simp
    · by_cases h1 : a ≤ b
      · obtain ⟨k, rfl⟩ : ∃ k, b = a + 1 + k := ⟨b - a - 1, by omega⟩
        by_cases h2 : k < rest.length
        · rw [if_pos ⟨by omega, by omega⟩, if_pos ⟨by omega, by simp; omega⟩]
          rw [show a + 1 + k - a = k + 1 by omega, show a + 1 + k - (a + 1) = k by omega]
          simp
        · rw [if_neg (by omega), if_neg hb, if_neg (by simp; omega)]
      · rw [if_neg (by omega), if_neg hb, if_neg (by omega)]

theorem Mem.read_writeBytes_outside (m : Mem) (a b : Nat) (bytes : List Byte) (h : b < a ∨ a + bytes.length ≤ b) :
    (m.writeBytes a bytes).read b = m.read b := by
  rw [Mem.read_writeBytes, if_neg (by omega)]

theorem leBytes_length (n v : Nat) : (leBytes n v).length = n := by
  induction n generalizing v with
  | zero => rfl
  | succ n ih => simp [leBytes, ih]

/-- Every offset listed lies above `a`. -/
theorem Mem.all_above_write (m : Mem) (l a : Nat) (v : Byte) (hl : l < a)
    (h : m.all (fun d => decide (l < d.1)) = true) : (m.write a v).all (fun d => decide (l < d.1)) = true := by
  induction m with
  | nil => simp [Mem.write, hl]
  | cons c rest ih =>
    simp only [List.all_cons, Bool.and_eq_true, decide_eq_true_eq] at h
    simp only [Mem.write]
    split
    · simp [hl, h.1, h.2]
    · split
      · simp [hl, h.2]
      · simp [h.1, ih h.2]

theorem Mem.wf_write (m : Mem) (a : Nat) (v : Byte) (h : m.wf = true) : (m.write a v).wf = true := by
  induction m with
  | nil => simp [Mem.write, Mem.wf]
  | cons c rest ih =>
    simp only [Mem.wf, Bool.and_eq_true] at h
    simp only [Mem.write]
    split
    · rename_i hlt
      simp only [Mem.wf, List.all_cons, Bool.and_eq_true, decide_eq_true_eq]
      refine ⟨⟨hlt, ?_⟩, h.1, h.2⟩
      refine List.all_eq_true.2 fun d hd => ?_
      have := List.all_eq_true.1 h.1 d hd
      simp at this ⊢
      omega
    · split
      · rename_i _ heq
        subst heq
        simp only [Mem.wf, Bool.and_eq_true]
        exact ⟨h.1, h.2⟩
      · rename_i h1 h2
        simp only [Mem.wf, Bool.and_eq_true]
        exact ⟨Mem.all_above_write rest c.1 a v (by omega) h.1, ih h.2⟩

theorem Mem.wf_writeBytes (m : Mem) (a : Nat) (bytes : List Byte) (h : m.wf = true) :
    (m.writeBytes a bytes).wf = true := by
  induction bytes generalizing m a with
  | nil => exact h
  | cons x rest ih => exact ih _ _ (Mem.wf_write m a x h)

theorem Mem.wf_writeLE (m : Mem) (a n v : Nat) (h : m.wf = true) : (m.writeLE a n v).wf = true :=
  Mem.wf_writeBytes m a _ h

theorem Mem.wf_drawBytes (m : Mem) (k n : Nat) (h : m.wf = true) : (m.drawBytes k n).wf = true := by
  induction n with
  | zero => exact h
  | succ n ih => exact Mem.wf_write _ _ _ ih

/-- A draw leaves every offset from `n` on as it was, and gives each lower one the drawn value. -/
theorem Mem.read_drawBytes (m : Mem) (k n b : Nat) :
    (m.drawBytes k n).read b = if b < n then some (Config.freeBufferByte k b) else m.read b := by
  induction n with
  | zero => simp [Mem.drawBytes]
  | succ n ih =>
    rw [Mem.drawBytes, Mem.read_write, ih]
    by_cases hb : b = n
    · subst hb
      simp
    · by_cases h : b < n
      · rw [if_neg hb, if_pos h, if_pos (by omega)]
      · rw [if_neg hb, if_neg h, if_neg (by omega)]

end Sys2Proof.Machine
end

