-- ==== Sys2Proof/Laws/Emitter.lean ====
section
/-! SUPPORT. What the bit emitter can do: the general path, one EMIT, a sequence of them. -/

namespace Sys2Proof.Machine

/-- The byte a position inside a byte stands in has a value (spec/10_state.md R40). -/
def Mem.startsAt (m : Mem) (p : Nat) : Prop := p % 8 ≠ 0 → (m.read (p / 8)).isSome = true

/-- The general path on success: the canonical form; the bytes before the cursor's and past the last bit's; the byte the
cursor ends in has a value. -/
theorem emitChunks_ok (fuel rem p v : Nat) (m m' : Mem) (hf : rem ≤ fuel) (h : emitChunks fuel rem p v m = .ok m') :
    (m.wf = true → m'.wf = true) ∧ (∀ b, b < p / 8 ∨ (p + rem + 7) / 8 ≤ b → m'.read b = m.read b)
      ∧ (m.startsAt p → m'.startsAt (p + rem)) := by
  induction fuel generalizing rem p m with
  | zero =>
    obtain rfl : rem = 0 := by omega
    simp only [emitChunks, Except.ok.injEq] at h
    subst h
    exact ⟨id, fun _ _ => rfl, id⟩
  | succ fuel ih =>
    simp only [emitChunks] at h
    split at h
    · rename_i h0
      subst h0
      simp only [Except.ok.injEq] at h
      subst h
      exact ⟨id, fun _ _ => rfl, id⟩
    · rename_i h0
      have key : ∀ x : Byte,
          emitChunks fuel (rem - min rem (8 - p % 8)) (p + min rem (8 - p % 8)) v (m.write (p / 8) x) = .ok m' →
          (m.wf = true → m'.wf = true) ∧ (∀ b, b < p / 8 ∨ (p + rem + 7) / 8 ≤ b → m'.read b = m.read b)
            ∧ (m.startsAt p → m'.startsAt (p + rem)) := by
        intro x hx
        obtain ⟨h1, h2, h3⟩ := ih _ _ _ (by omega) hx
        refine ⟨fun hw => h1 (Mem.wf_write _ _ _ hw), fun b hb => ?_, fun _ => ?_⟩
        · rw [h2 b (by omega), Mem.read_write, if_neg (by omega)]
        · rw [show p + rem = p + min rem (8 - p % 8) + (rem - min rem (8 - p % 8)) by omega]
          refine h3 fun hk => ?_
          rw [Mem.read_write, if_pos (by omega)]
          rfl
      split at h
      · exact key _ h
      · split at h
        · cases h
        · exact key _ h

/-- The general path from a byte-aligned cursor, or from a byte that has a value, does not stop. -/
theorem emitChunks_total (fuel rem p v : Nat) (m : Mem) (hm : m.startsAt p) :
    ∃ m', emitChunks fuel rem p v m = .ok m' := by
  induction fuel generalizing rem p m with
  | zero => exact ⟨m, rfl⟩
  | succ fuel ih =>
    simp only [emitChunks]
    split
    · exact ⟨m, rfl⟩
    · rename_i h0
      have next : ∀ x : Byte, ∃ m', emitChunks fuel (rem - min rem (8 - p % 8)) (p + min rem (8 - p % 8)) v
          (m.write (p / 8) x) = .ok m' := by
        intro x
        by_cases hr : rem ≤ 8 - p % 8
        · rw [show rem - min rem (8 - p % 8) = 0 by omega]
          cases fuel with
          | zero => exact ⟨_, rfl⟩
          | succ n => exact ⟨m.write (p / 8) x, by simp [emitChunks]⟩
        · exact ih _ _ _ fun hk => absurd hk (by omega)
      split
      · exact next _
      · split
        · rename_i hk _ hn
          have := hm hk
          rw [hn] at this
          cases this
        · exact next _

/-- The work area is sound: the cursor in the buffer, the byte it stands inside with a value, the buffer in canonical
form. -/
structure Emission.Sound (e : Emission) : Prop where
  inside : e.off ≤ 8 * e.cap
  value : e.buf.startsAt e.off
  canonical : e.buf.wf = true

/-- Everything a successful EMIT does: a legal width, the capacity check passed, the cursor exactly `w` further, nothing
outside the bytes the bits stand in, soundness kept. -/
theorem emit_ok {w v : Nat} {e e' : Emission} (h : emit w v e = .ok e') :
    1 ≤ w ∧ w ≤ 64 ∧ e.off + w ≤ 8 * e.cap ∧ e'.cap = e.cap ∧ e'.off = e.off + w
      ∧ (∀ b, b < e.off / 8 ∨ (e.off + w + 7) / 8 ≤ b → e'.buf.read b = e.buf.read b)
      ∧ (e.buf.wf = true → e'.buf.wf = true) ∧ e.buf.startsAt e.off ∧ e'.buf.startsAt e'.off := by
  simp only [emit] at h
  split at h
  · cases h
  · split at h
    · cases h
    · rename_i hw hc
      split at h
      · rename_i hfast
        obtain ⟨h8, hws⟩ : e.off % 8 = 0 ∧ w % 8 = 0 := by
          simp only [fastPath, Bool.and_eq_true, Bool.or_eq_true, beq_iff_eq] at hfast
          omega
        simp only [Except.ok.injEq] at h
        subst h
        refine ⟨by omega, by omega, by omega, rfl, rfl, fun b hb => ?_, Mem.wf_writeLE _ _ _ _, fun hne => absurd h8 hne,
          fun hne => ?_⟩
        · exact Mem.read_writeBytes_outside _ _ _ _ (by rw [leBytes_length]; omega)
        · simp only at hne
          omega
      · split at h
        · cases h
        · rename_i hu
          split at h
          · rename_i m hm
            simp only [Except.ok.injEq] at h
            subst h
            have hs : e.buf.startsAt e.off := fun hne => by
              cases hr : e.buf.read (e.off / 8) with
              | none => exact absurd ⟨hne, hr⟩ hu
              | some b => rfl
            obtain ⟨h1, h2, h3⟩ := emitChunks_ok w w e.off _ _ _ (Nat.le_refl _) hm
            exact ⟨by omega, by omega, by omega, rfl, rfl, h2, h1, hs, h3 hs⟩
          · cases h

/-- Every way an EMIT stops. -/
theorem emit_error {w v : Nat} {e : Emission} {stop : Stop} (h : emit w v e = .error stop) :
    (stop = .refuse .emitWidth ∧ (w = 0 ∨ 64 < w)) ∨ (stop = .raise .bufferTooShort ∧ 8 * e.cap < e.off + w)
      ∨ (stop = .refuse .unestablishedByte ∧ ¬ e.buf.startsAt e.off) := by
  simp only [emit] at h
  split at h
  · rename_i hw
    simp only [refuse, Except.error.injEq] at h
    exact .inl ⟨h.symm, hw⟩
  · split at h
    · rename_i hc
      simp only [Except.error.injEq] at h
      exact .inr (.inl ⟨h.symm, hc⟩)
    · split at h
      · cases h
      · split at h
        · rename_i hu
          simp only [refuse, Except.error.injEq] at h
          refine .inr (.inr ⟨h.symm, fun hs => ?_⟩)
          have := hs hu.1
          rw [hu.2] at this
          cases this
        · rename_i hu
          obtain ⟨m', hm'⟩ := emitChunks_total w w e.off (truncBits w v) e.buf fun hne => by
            cases hr : e.buf.read (e.off / 8) with
            | none => exact absurd ⟨hne, hr⟩ hu
            | some b => rfl
          rw [hm'] at h
          cases h

/-- A sound work area stays sound. -/
theorem emit_sound {w v : Nat} {e e' : Emission} (h : emit w v e = .ok e') (hs : e.Sound) : e'.Sound := by
  obtain ⟨-, -, hc, hcap, hoff, -, hw, -, hv⟩ := emit_ok h
  exact ⟨by rw [hcap, hoff]; omega, hv, hw hs.canonical⟩

/-- The stops of a sequence of EMITs: a stop among its lines, or one of the stops of an EMIT. -/
def emissionStop (acts : List EmitAction) (st : Stop) : Prop :=
  .halt st ∈ acts ∨ st = .refuse .emitWidth ∨ st = .raise .bufferTooShort ∨ st = .refuse .unestablishedByte
    ∨ st = .refuse .tableIllFormed

/-- Everything a sequence of EMITs leaves, whether it ends or stops, and how it stops; from a sound work area it never starts
in a byte without a value. -/
theorem runActions_frame (acts : List EmitAction) (e e' : Emission) (st : Option Stop)
    (h : runActions acts e = (e', st)) :
    e'.cap = e.cap ∧ e.off ≤ e'.off ∧ (e.Sound → e'.Sound)
      ∧ (∀ b, b < e.off / 8 ∨ e.cap ≤ b → e'.buf.read b = e.buf.read b)
      ∧ (∀ x, st = some x → emissionStop acts x)
      ∧ (e.Sound → .halt (.refuse .unestablishedByte) ∉ acts → st ≠ some (.refuse .unestablishedByte)) := by
  induction acts generalizing e with
  | nil =>
    simp only [runActions, Prod.mk.injEq] at h
    obtain ⟨rfl, rfl⟩ := h
    simp
  | cons a rest ih =>
    have one : ∀ w v, (match emit w v e with
        | .ok e1 => runActions rest e1
        | .error stop => (e, some stop)) = (e', st) →
        e'.cap = e.cap ∧ e.off ≤ e'.off ∧ (e.Sound → e'.Sound)
          ∧ (∀ b, b < e.off / 8 ∨ e.cap ≤ b → e'.buf.read b = e.buf.read b)
          ∧ (∀ x, st = some x → emissionStop (a :: rest) x)
          ∧ (e.Sound → .halt (.refuse .unestablishedByte) ∉ a :: rest → st ≠ some (.refuse .unestablishedByte)) := by
      intro w v h
      split at h
      · rename_i e1 he
        obtain ⟨-, -, hc, hcap, hoff, hfr, -, -, -⟩ := emit_ok he
        obtain ⟨h1, h2, h3, h4, h5, h6⟩ := ih e1 h
        refine ⟨by rw [h1, hcap], by omega, fun hs => h3 (emit_sound he hs), fun b hb => ?_, fun x hx => ?_, fun hs hn => ?_⟩
        · rw [h4 b (by rw [hcap]; omega), hfr b (by omega)]
        · rcases h5 x hx with hm | h'
          · exact .inl (List.mem_cons_of_mem _ hm)
          · exact .inr h'
        · exact h6 (emit_sound he hs) fun hm => hn (List.mem_cons_of_mem _ hm)
      · rename_i stop he
        simp only [Prod.mk.injEq] at h
        obtain ⟨rfl, rfl⟩ := h
        refine ⟨rfl, Nat.le_refl _, id, fun _ _ => rfl, fun x hx => ?_, fun hs _ => ?_⟩
        · cases hx
          rcases emit_error he with ⟨rfl, -⟩ | ⟨rfl, -⟩ | ⟨rfl, -⟩ <;> simp [emissionStop]
        · rcases emit_error he with ⟨rfl, -⟩ | ⟨rfl, -⟩ | ⟨rfl, hu⟩
          · simp
          · simp
          · exact absurd hs.value hu
    cases a with
    | halt s =>
      simp only [runActions, Prod.mk.injEq] at h
      obtain ⟨rfl, rfl⟩ := h
      refine ⟨rfl, Nat.le_refl _, id, fun _ _ => rfl, fun x hx => ?_, fun _ hn hx => ?_⟩
      · cases hx
        exact .inl List.mem_cons_self
      · cases hx
        exact hn List.mem_cons_self
    | put w v => exact one w v h
    | putWhole w v =>
      simp only [runActions] at h
      split at h
      · exact one w v h
      · simp only [Prod.mk.injEq] at h
        obtain ⟨rfl, rfl⟩ := h
        simp [emissionStop]

/-- Two sequences one after the other. -/
theorem runActions_append (a b : List EmitAction) (e : Emission) :
    runActions (a ++ b) e = match runActions a e with
      | (e', none) => runActions b e'
      | (e', some stop) => (e', some stop) := by
  induction a generalizing e with
  | nil => rfl
  | cons x rest ih =>
    cases x with
    | halt s => rfl
    | put w v =>
      simp only [List.cons_append, runActions]
      split
      · exact ih _
      · rfl
    | putWhole w v =>
      simp only [List.cons_append, runActions]
      split
      · split
        · exact ih _
        · rfl
      · rfl

end Sys2Proof.Machine
end

