-- ==== Sys2Proof/Laws/State.lean ====
section
/-! SUPPORT. One lemma per field per update of the state, all by definition. -/

namespace Sys2Proof.Machine

/-! `State.raised` -/

@[simp] theorem State.raised_rq (s : State) (c : ReturnCode) : (s.raised c).rq = { s.rq with error := c } := rfl
@[simp] theorem State.raised_consumed (s : State) (c : ReturnCode) : (s.raised c).consumed = s.consumed := rfl
@[simp] theorem State.raised_ev (s : State) (c : ReturnCode) : (s.raised c).ev = s.ev := rfl
@[simp] theorem State.raised_evLive (s : State) (c : ReturnCode) : (s.raised c).evLive = s.evLive := rfl
@[simp] theorem State.raised_phase (s : State) (c : ReturnCode) : (s.raised c).phase = .idle := rfl
@[simp] theorem State.raised_stepIndex (s : State) (c : ReturnCode) : (s.raised c).stepIndex = 0 := rfl
@[simp] theorem State.raised_buf (s : State) (c : ReturnCode) : (s.raised c).buf = s.buf := rfl
@[simp] theorem State.raised_capacity (s : State) (c : ReturnCode) : (s.raised c).capacity = s.capacity := rfl
@[simp] theorem State.raised_regcnt (s : State) (c : ReturnCode) : (s.raised c).regcnt = s.regcnt := rfl
@[simp] theorem State.raised_memcnt (s : State) (c : ReturnCode) : (s.raised c).memcnt = s.memcnt := rfl
@[simp] theorem State.raised_loopIndex (s : State) (c : ReturnCode) : (s.raised c).loopIndex = s.loopIndex := rfl
@[simp] theorem State.raised_params (s : State) (c : ReturnCode) : (s.raised c).params = s.params := rfl
@[simp] theorem State.raised_result (s : State) (c : ReturnCode) : (s.raised c).result = .code c := rfl
@[simp] theorem State.raised_input (s : State) (c : ReturnCode) : (s.raised c).input = s.input := rfl
@[simp] theorem State.raised_resetRequest (s : State) (c : ReturnCode) : (s.raised c).resetRequest = s.resetRequest := rfl
@[simp] theorem State.raised_draws (s : State) (c : ReturnCode) : (s.raised c).draws = s.draws := rfl

/-! `State.toFatal` -/

@[simp] theorem State.toFatal_rq (s : State) : (s.toFatal).rq = Config.freeRequest s.draws := rfl
@[simp] theorem State.toFatal_consumed (s : State) : (s.toFatal).consumed = true := rfl
@[simp] theorem State.toFatal_ev (s : State) : (s.toFatal).ev = {} := rfl
@[simp] theorem State.toFatal_evLive (s : State) : (s.toFatal).evLive = false := rfl
@[simp] theorem State.toFatal_phase (s : State) : (s.toFatal).phase = .fatal := rfl
@[simp] theorem State.toFatal_stepIndex (s : State) : (s.toFatal).stepIndex = 0 := rfl
@[simp] theorem State.toFatal_buf (s : State) : (s.toFatal).buf = [] := rfl
@[simp] theorem State.toFatal_capacity (s : State) : (s.toFatal).capacity = s.capacity := rfl
@[simp] theorem State.toFatal_regcnt (s : State) : (s.toFatal).regcnt = s.regcnt := rfl
@[simp] theorem State.toFatal_memcnt (s : State) : (s.toFatal).memcnt = s.memcnt := rfl
@[simp] theorem State.toFatal_loopIndex (s : State) : (s.toFatal).loopIndex = s.loopIndex := rfl
@[simp] theorem State.toFatal_params (s : State) : (s.toFatal).params = s.params := rfl
@[simp] theorem State.toFatal_result (s : State) : (s.toFatal).result = .noResult := rfl
@[simp] theorem State.toFatal_input (s : State) : (s.toFatal).input = s.input := rfl
@[simp] theorem State.toFatal_resetRequest (s : State) : (s.toFatal).resetRequest = s.resetRequest := rfl
@[simp] theorem State.toFatal_draws (s : State) : (s.toFatal).draws = s.draws + 1 := rfl

/-! `State.consume` -/

@[simp] theorem State.consume_rq (s : State) : (s.consume).rq = { Config.freeRequest s.draws with error := s.rq.error } := rfl
@[simp] theorem State.consume_consumed (s : State) : (s.consume).consumed = true := rfl
@[simp] theorem State.consume_ev (s : State) : (s.consume).ev = {} := rfl
@[simp] theorem State.consume_evLive (s : State) : (s.consume).evLive = false := rfl
@[simp] theorem State.consume_phase (s : State) : (s.consume).phase = s.phase := rfl
@[simp] theorem State.consume_stepIndex (s : State) : (s.consume).stepIndex = s.stepIndex := rfl
@[simp] theorem State.consume_buf (s : State) : (s.consume).buf = s.buf := rfl
@[simp] theorem State.consume_capacity (s : State) : (s.consume).capacity = s.capacity := rfl
@[simp] theorem State.consume_regcnt (s : State) : (s.consume).regcnt = s.regcnt := rfl
@[simp] theorem State.consume_memcnt (s : State) : (s.consume).memcnt = s.memcnt := rfl
@[simp] theorem State.consume_loopIndex (s : State) : (s.consume).loopIndex = s.loopIndex := rfl
@[simp] theorem State.consume_params (s : State) : (s.consume).params = s.params := rfl
@[simp] theorem State.consume_result (s : State) : (s.consume).result = s.result := rfl
@[simp] theorem State.consume_input (s : State) : (s.consume).input = s.input := rfl
@[simp] theorem State.consume_resetRequest (s : State) : (s.consume).resetRequest = s.resetRequest := rfl
@[simp] theorem State.consume_draws (s : State) : (s.consume).draws = s.draws + 1 := rfl

/-! `State.blockReset` -/

@[simp] theorem State.blockReset_rq (s : State) : (s.blockReset).rq = {} := rfl
@[simp] theorem State.blockReset_consumed (s : State) : (s.blockReset).consumed = false := rfl
@[simp] theorem State.blockReset_ev (s : State) : (s.blockReset).ev = {} := rfl
@[simp] theorem State.blockReset_evLive (s : State) : (s.blockReset).evLive = false := rfl
@[simp] theorem State.blockReset_phase (s : State) : (s.blockReset).phase = .idle := rfl
@[simp] theorem State.blockReset_stepIndex (s : State) : (s.blockReset).stepIndex = 0 := rfl
@[simp] theorem State.blockReset_buf (s : State) : (s.blockReset).buf = [] := rfl
@[simp] theorem State.blockReset_capacity (s : State) : (s.blockReset).capacity = s.capacity := rfl
@[simp] theorem State.blockReset_regcnt (s : State) : (s.blockReset).regcnt = 0 := rfl
@[simp] theorem State.blockReset_memcnt (s : State) : (s.blockReset).memcnt = 0 := rfl
@[simp] theorem State.blockReset_loopIndex (s : State) : (s.blockReset).loopIndex = 0 := rfl
@[simp] theorem State.blockReset_params (s : State) : (s.blockReset).params = s.params := rfl
@[simp] theorem State.blockReset_result (s : State) : (s.blockReset).result = .noResult := rfl
@[simp] theorem State.blockReset_input (s : State) : (s.blockReset).input = s.input := rfl
@[simp] theorem State.blockReset_resetRequest (s : State) : (s.blockReset).resetRequest = false := rfl
@[simp] theorem State.blockReset_draws (s : State) : (s.blockReset).draws = s.draws := rfl

/-! `State.withEmission` -/

@[simp] theorem State.withEmission_rq (s : State) (e : Emission) : (s.withEmission e).rq = s.rq := rfl
@[simp] theorem State.withEmission_consumed (s : State) (e : Emission) : (s.withEmission e).consumed = s.consumed := rfl
@[simp] theorem State.withEmission_ev (s : State) (e : Emission) : (s.withEmission e).ev = { s.ev with bitOffset := e.off } := rfl
@[simp] theorem State.withEmission_evLive (s : State) (e : Emission) : (s.withEmission e).evLive = s.evLive := rfl
@[simp] theorem State.withEmission_phase (s : State) (e : Emission) : (s.withEmission e).phase = s.phase := rfl
@[simp] theorem State.withEmission_stepIndex (s : State) (e : Emission) : (s.withEmission e).stepIndex = s.stepIndex := rfl
@[simp] theorem State.withEmission_buf (s : State) (e : Emission) : (s.withEmission e).buf = e.buf := rfl
@[simp] theorem State.withEmission_capacity (s : State) (e : Emission) : (s.withEmission e).capacity = s.capacity := rfl
@[simp] theorem State.withEmission_regcnt (s : State) (e : Emission) : (s.withEmission e).regcnt = s.regcnt := rfl
@[simp] theorem State.withEmission_memcnt (s : State) (e : Emission) : (s.withEmission e).memcnt = s.memcnt := rfl
@[simp] theorem State.withEmission_loopIndex (s : State) (e : Emission) : (s.withEmission e).loopIndex = s.loopIndex := rfl
@[simp] theorem State.withEmission_params (s : State) (e : Emission) : (s.withEmission e).params = s.params := rfl
@[simp] theorem State.withEmission_result (s : State) (e : Emission) : (s.withEmission e).result = s.result := rfl
@[simp] theorem State.withEmission_input (s : State) (e : Emission) : (s.withEmission e).input = s.input := rfl
@[simp] theorem State.withEmission_resetRequest (s : State) (e : Emission) : (s.withEmission e).resetRequest = s.resetRequest := rfl
@[simp] theorem State.withEmission_draws (s : State) (e : Emission) : (s.withEmission e).draws = s.draws := rfl

/-! `State.enterEncode` -/

@[simp] theorem State.enterEncode_rq (s : State) (cap : Nat) : (s.enterEncode cap).rq = { s.rq with error := .noError } := rfl
@[simp] theorem State.enterEncode_consumed (s : State) (cap : Nat) : (s.enterEncode cap).consumed = s.consumed := rfl
@[simp] theorem State.enterEncode_ev (s : State) (cap : Nat) : (s.enterEncode cap).ev = entryVars cap := rfl
@[simp] theorem State.enterEncode_evLive (s : State) (cap : Nat) : (s.enterEncode cap).evLive = true := rfl
@[simp] theorem State.enterEncode_phase (s : State) (cap : Nat) : (s.enterEncode cap).phase = .precondition := rfl
@[simp] theorem State.enterEncode_stepIndex (s : State) (cap : Nat) : (s.enterEncode cap).stepIndex = s.stepIndex := rfl
@[simp] theorem State.enterEncode_buf (s : State) (cap : Nat) : (s.enterEncode cap).buf = s.buf := rfl
@[simp] theorem State.enterEncode_capacity (s : State) (cap : Nat) : (s.enterEncode cap).capacity = cap := rfl
@[simp] theorem State.enterEncode_regcnt (s : State) (cap : Nat) : (s.enterEncode cap).regcnt = s.regcnt := rfl
@[simp] theorem State.enterEncode_memcnt (s : State) (cap : Nat) : (s.enterEncode cap).memcnt = s.memcnt := rfl
@[simp] theorem State.enterEncode_loopIndex (s : State) (cap : Nat) : (s.enterEncode cap).loopIndex = s.loopIndex := rfl
@[simp] theorem State.enterEncode_params (s : State) (cap : Nat) : (s.enterEncode cap).params = s.params := rfl
@[simp] theorem State.enterEncode_result (s : State) (cap : Nat) : (s.enterEncode cap).result = s.result := rfl
@[simp] theorem State.enterEncode_input (s : State) (cap : Nat) : (s.enterEncode cap).input = s.input := rfl
@[simp] theorem State.enterEncode_resetRequest (s : State) (cap : Nat) : (s.enterEncode cap).resetRequest = s.resetRequest := rfl
@[simp] theorem State.enterEncode_draws (s : State) (cap : Nat) : (s.enterEncode cap).draws = s.draws := rfl

/-! `State.runPrecondition` -/

@[simp] theorem State.runPrecondition_rq (s : State) : (s.runPrecondition).rq = precondition s.params.registers s.rq := rfl
@[simp] theorem State.runPrecondition_consumed (s : State) : (s.runPrecondition).consumed = s.consumed := rfl
@[simp] theorem State.runPrecondition_ev (s : State) : (s.runPrecondition).ev = s.ev := rfl
@[simp] theorem State.runPrecondition_evLive (s : State) : (s.runPrecondition).evLive = s.evLive := rfl
@[simp] theorem State.runPrecondition_phase (s : State) : (s.runPrecondition).phase = .bind := rfl
@[simp] theorem State.runPrecondition_stepIndex (s : State) : (s.runPrecondition).stepIndex = s.stepIndex := rfl
@[simp] theorem State.runPrecondition_buf (s : State) : (s.runPrecondition).buf = s.buf := rfl
@[simp] theorem State.runPrecondition_capacity (s : State) : (s.runPrecondition).capacity = s.capacity := rfl
@[simp] theorem State.runPrecondition_regcnt (s : State) : (s.runPrecondition).regcnt = s.regcnt := rfl
@[simp] theorem State.runPrecondition_memcnt (s : State) : (s.runPrecondition).memcnt = s.memcnt := rfl
@[simp] theorem State.runPrecondition_loopIndex (s : State) : (s.runPrecondition).loopIndex = s.loopIndex := rfl
@[simp] theorem State.runPrecondition_params (s : State) : (s.runPrecondition).params = s.params := rfl
@[simp] theorem State.runPrecondition_result (s : State) : (s.runPrecondition).result = s.result := rfl
@[simp] theorem State.runPrecondition_input (s : State) : (s.runPrecondition).input = s.input := rfl
@[simp] theorem State.runPrecondition_resetRequest (s : State) : (s.runPrecondition).resetRequest = s.resetRequest := rfl
@[simp] theorem State.runPrecondition_draws (s : State) : (s.runPrecondition).draws = s.draws := rfl

/-! `State.bound` -/

@[simp] theorem State.bound_rq (s : State) (n : Nat) (q : Request) : (s.bound n q).rq = q := rfl
@[simp] theorem State.bound_consumed (s : State) (n : Nat) (q : Request) : (s.bound n q).consumed = s.consumed := rfl
@[simp] theorem State.bound_ev (s : State) (n : Nat) (q : Request) : (s.bound n q).ev = { s.ev with iformIndex := some n } := rfl
@[simp] theorem State.bound_evLive (s : State) (n : Nat) (q : Request) : (s.bound n q).evLive = s.evLive := rfl
@[simp] theorem State.bound_phase (s : State) (n : Nat) (q : Request) : (s.bound n q).phase = .emit := rfl
@[simp] theorem State.bound_stepIndex (s : State) (n : Nat) (q : Request) : (s.bound n q).stepIndex = 1 := rfl
@[simp] theorem State.bound_buf (s : State) (n : Nat) (q : Request) : (s.bound n q).buf = s.buf := rfl
@[simp] theorem State.bound_capacity (s : State) (n : Nat) (q : Request) : (s.bound n q).capacity = s.capacity := rfl
@[simp] theorem State.bound_regcnt (s : State) (n : Nat) (q : Request) : (s.bound n q).regcnt = s.regcnt := rfl
@[simp] theorem State.bound_memcnt (s : State) (n : Nat) (q : Request) : (s.bound n q).memcnt = s.memcnt := rfl
@[simp] theorem State.bound_loopIndex (s : State) (n : Nat) (q : Request) : (s.bound n q).loopIndex = s.loopIndex := rfl
@[simp] theorem State.bound_params (s : State) (n : Nat) (q : Request) : (s.bound n q).params = s.params := rfl
@[simp] theorem State.bound_result (s : State) (n : Nat) (q : Request) : (s.bound n q).result = s.result := rfl
@[simp] theorem State.bound_input (s : State) (n : Nat) (q : Request) : (s.bound n q).input = s.input := rfl
@[simp] theorem State.bound_resetRequest (s : State) (n : Nat) (q : Request) : (s.bound n q).resetRequest = s.resetRequest := rfl
@[simp] theorem State.bound_draws (s : State) (n : Nat) (q : Request) : (s.bound n q).draws = s.draws := rfl

/-! `State.spoil` -/

@[simp] theorem State.spoil_rq (s : State) : (s.spoil).rq = s.rq := rfl
@[simp] theorem State.spoil_consumed (s : State) : (s.spoil).consumed = s.consumed := rfl
@[simp] theorem State.spoil_ev (s : State) : (s.spoil).ev = s.ev := rfl
@[simp] theorem State.spoil_evLive (s : State) : (s.spoil).evLive = s.evLive := rfl
@[simp] theorem State.spoil_phase (s : State) : (s.spoil).phase = s.phase := rfl
@[simp] theorem State.spoil_stepIndex (s : State) : (s.spoil).stepIndex = s.stepIndex := rfl
@[simp] theorem State.spoil_buf (s : State) : (s.spoil).buf = s.buf.drawBytes s.draws s.ev.ilen := rfl
@[simp] theorem State.spoil_capacity (s : State) : (s.spoil).capacity = s.capacity := rfl
@[simp] theorem State.spoil_regcnt (s : State) : (s.spoil).regcnt = s.regcnt := rfl
@[simp] theorem State.spoil_memcnt (s : State) : (s.spoil).memcnt = s.memcnt := rfl
@[simp] theorem State.spoil_loopIndex (s : State) : (s.spoil).loopIndex = s.loopIndex := rfl
@[simp] theorem State.spoil_params (s : State) : (s.spoil).params = s.params := rfl
@[simp] theorem State.spoil_result (s : State) : (s.spoil).result = s.result := rfl
@[simp] theorem State.spoil_input (s : State) : (s.spoil).input = s.input := rfl
@[simp] theorem State.spoil_resetRequest (s : State) : (s.spoil).resetRequest = s.resetRequest := rfl
@[simp] theorem State.spoil_draws (s : State) : (s.spoil).draws = s.draws := rfl

/-! `State.finalized` -/

@[simp] theorem State.finalized_rq (s : State) : (s.finalized).rq = { Config.freeRequest s.draws with error := s.rq.error } := rfl
@[simp] theorem State.finalized_consumed (s : State) : (s.finalized).consumed = true := rfl
@[simp] theorem State.finalized_ev (s : State) : (s.finalized).ev = {} := rfl
@[simp] theorem State.finalized_evLive (s : State) : (s.finalized).evLive = false := rfl
@[simp] theorem State.finalized_phase (s : State) : (s.finalized).phase = .idle := rfl
@[simp] theorem State.finalized_stepIndex (s : State) : (s.finalized).stepIndex = 0 := rfl
@[simp] theorem State.finalized_buf (s : State) : (s.finalized).buf = s.buf := rfl
@[simp] theorem State.finalized_capacity (s : State) : (s.finalized).capacity = s.capacity := rfl
@[simp] theorem State.finalized_regcnt (s : State) : (s.finalized).regcnt = s.regcnt := rfl
@[simp] theorem State.finalized_memcnt (s : State) : (s.finalized).memcnt = s.memcnt := rfl
@[simp] theorem State.finalized_loopIndex (s : State) : (s.finalized).loopIndex = s.loopIndex := rfl
@[simp] theorem State.finalized_params (s : State) : (s.finalized).params = s.params := rfl
@[simp] theorem State.finalized_result (s : State) : (s.finalized).result = .encoded .noError (s.ev.bitOffset / 8) := rfl
@[simp] theorem State.finalized_input (s : State) : (s.finalized).input = s.input := rfl
@[simp] theorem State.finalized_resetRequest (s : State) : (s.finalized).resetRequest = s.resetRequest := rfl
@[simp] theorem State.finalized_draws (s : State) : (s.finalized).draws = s.draws + 1 := rfl

/-! `State.encodeRaised` -/

@[simp] theorem State.encodeRaised_rq (s : State) (c : ReturnCode) : (s.encodeRaised c).rq = { Config.freeRequest s.draws with error := c } := rfl
@[simp] theorem State.encodeRaised_consumed (s : State) (c : ReturnCode) : (s.encodeRaised c).consumed = true := rfl
@[simp] theorem State.encodeRaised_ev (s : State) (c : ReturnCode) : (s.encodeRaised c).ev = {} := rfl
@[simp] theorem State.encodeRaised_evLive (s : State) (c : ReturnCode) : (s.encodeRaised c).evLive = false := rfl
@[simp] theorem State.encodeRaised_phase (s : State) (c : ReturnCode) : (s.encodeRaised c).phase = .idle := rfl
@[simp] theorem State.encodeRaised_stepIndex (s : State) (c : ReturnCode) : (s.encodeRaised c).stepIndex = 0 := rfl
@[simp] theorem State.encodeRaised_buf (s : State) (c : ReturnCode) : (s.encodeRaised c).buf = s.buf := rfl
@[simp] theorem State.encodeRaised_capacity (s : State) (c : ReturnCode) : (s.encodeRaised c).capacity = s.capacity := rfl
@[simp] theorem State.encodeRaised_regcnt (s : State) (c : ReturnCode) : (s.encodeRaised c).regcnt = s.regcnt := rfl
@[simp] theorem State.encodeRaised_memcnt (s : State) (c : ReturnCode) : (s.encodeRaised c).memcnt = s.memcnt := rfl
@[simp] theorem State.encodeRaised_loopIndex (s : State) (c : ReturnCode) : (s.encodeRaised c).loopIndex = s.loopIndex := rfl
@[simp] theorem State.encodeRaised_params (s : State) (c : ReturnCode) : (s.encodeRaised c).params = s.params := rfl
@[simp] theorem State.encodeRaised_result (s : State) (c : ReturnCode) : (s.encodeRaised c).result = .encoded c (Config.freeLength s.draws) := rfl
@[simp] theorem State.encodeRaised_input (s : State) (c : ReturnCode) : (s.encodeRaised c).input = s.input := rfl
@[simp] theorem State.encodeRaised_resetRequest (s : State) (c : ReturnCode) : (s.encodeRaised c).resetRequest = s.resetRequest := rfl
@[simp] theorem State.encodeRaised_draws (s : State) (c : ReturnCode) : (s.encodeRaised c).draws = s.draws + 1 := rfl

/-! `State.startRequest` -/

@[simp] theorem State.startRequest_rq (s : State) (q : Request) : (s.startRequest q).rq = q := rfl
@[simp] theorem State.startRequest_consumed (s : State) (q : Request) : (s.startRequest q).consumed = false := rfl
@[simp] theorem State.startRequest_ev (s : State) (q : Request) : (s.startRequest q).ev = {} := rfl
@[simp] theorem State.startRequest_evLive (s : State) (q : Request) : (s.startRequest q).evLive = false := rfl
@[simp] theorem State.startRequest_phase (s : State) (q : Request) : (s.startRequest q).phase = s.phase := rfl
@[simp] theorem State.startRequest_stepIndex (s : State) (q : Request) : (s.startRequest q).stepIndex = s.stepIndex := rfl
@[simp] theorem State.startRequest_buf (s : State) (q : Request) : (s.startRequest q).buf = s.buf := rfl
@[simp] theorem State.startRequest_capacity (s : State) (q : Request) : (s.startRequest q).capacity = s.capacity := rfl
@[simp] theorem State.startRequest_regcnt (s : State) (q : Request) : (s.startRequest q).regcnt = 0 := rfl
@[simp] theorem State.startRequest_memcnt (s : State) (q : Request) : (s.startRequest q).memcnt = 0 := rfl
@[simp] theorem State.startRequest_loopIndex (s : State) (q : Request) : (s.startRequest q).loopIndex = 0 := rfl
@[simp] theorem State.startRequest_params (s : State) (q : Request) : (s.startRequest q).params = s.params := rfl
@[simp] theorem State.startRequest_result (s : State) (q : Request) : (s.startRequest q).result = s.result := rfl
@[simp] theorem State.startRequest_input (s : State) (q : Request) : (s.startRequest q).input = s.input := rfl
@[simp] theorem State.startRequest_resetRequest (s : State) (q : Request) : (s.startRequest q).resetRequest = s.resetRequest := rfl
@[simp] theorem State.startRequest_draws (s : State) (q : Request) : (s.startRequest q).draws = s.draws := rfl

/-! `State.advanceLoop` -/

@[simp] theorem State.advanceLoop_rq (s : State) : (s.advanceLoop).rq = s.rq := rfl
@[simp] theorem State.advanceLoop_consumed (s : State) : (s.advanceLoop).consumed = s.consumed := rfl
@[simp] theorem State.advanceLoop_ev (s : State) : (s.advanceLoop).ev = s.ev := rfl
@[simp] theorem State.advanceLoop_evLive (s : State) : (s.advanceLoop).evLive = s.evLive := rfl
@[simp] theorem State.advanceLoop_phase (s : State) : (s.advanceLoop).phase = s.phase := rfl
@[simp] theorem State.advanceLoop_stepIndex (s : State) : (s.advanceLoop).stepIndex = s.stepIndex := rfl
@[simp] theorem State.advanceLoop_buf (s : State) : (s.advanceLoop).buf = s.buf := rfl
@[simp] theorem State.advanceLoop_capacity (s : State) : (s.advanceLoop).capacity = s.capacity := rfl
@[simp] theorem State.advanceLoop_regcnt (s : State) : (s.advanceLoop).regcnt = s.regcnt := rfl
@[simp] theorem State.advanceLoop_memcnt (s : State) : (s.advanceLoop).memcnt = s.memcnt := rfl
@[simp] theorem State.advanceLoop_loopIndex (s : State) : (s.advanceLoop).loopIndex = s.loopIndex + 1 := rfl
@[simp] theorem State.advanceLoop_params (s : State) : (s.advanceLoop).params = s.params := rfl
@[simp] theorem State.advanceLoop_result (s : State) : (s.advanceLoop).result = s.result := rfl
@[simp] theorem State.advanceLoop_input (s : State) : (s.advanceLoop).input = s.input := rfl
@[simp] theorem State.advanceLoop_resetRequest (s : State) : (s.advanceLoop).resetRequest = s.resetRequest := rfl
@[simp] theorem State.advanceLoop_draws (s : State) : (s.advanceLoop).draws = s.draws := rfl

end Sys2Proof.Machine
end

