-- ==== Sys2Proof/Laws/Commands.lean ====
section
/-! SUPPORT. What each shared operation can do: admission, setters, the builder's turns, the bridge, a patch, a literal
store, and ENCODE. -/

namespace Sys2Proof.Machine

/-! ## Admission -/

theorem issue_idle (s : State) (k : State → Result) (h : s.phase = .idle) : s.issue k = k s := by
  simp [State.issue, h]

theorem issue_fatal (s : State) (k : State → Result) (h : s.phase = .fatal) : s.issue k = .refused .engineInFatal := by
  simp [State.issue, h]

/-- A command answers a next state only from IDLE. -/
theorem issue_next {s t : State} {k : State → Result} (h : s.issue k = .next t) : s.phase = .idle ∧ k s = .next t := by
  cases hp : s.phase <;> simp [State.issue, hp] at h
  exact ⟨rfl, h⟩

theorem issue_fault {s : State} {k : State → Result} {f : Fault} (h : s.issue k = .fault f) :
    s.phase = .idle ∧ k s = .fault f := by
  cases hp : s.phase <;> simp [State.issue, hp] at h
  exact ⟨rfl, h⟩

/-- A command whose work succeeds returns its value; one that raises or is fatal has that end. -/
theorem perform_next {s t : State} {v : CmdResult} {work : State → Check State} (h : s.perform v work = .next t) :
    (∃ u, work s = .ok u ∧ t = { u with result := v })
      ∨ (∃ c, work s = .error (.raise c) ∧ t = s.raised c) ∨ (work s = .error .fatal ∧ t = s.toFatal) := by
  simp only [State.perform] at h
  split at h
  · rename_i u hu
    simp only [State.finish, Host.Outcome.next.injEq] at h
    exact .inl ⟨u, hu, h.symm⟩
  · rename_i stop hs
    cases stop with
    | raise c =>
      simp only [State.stopped, Host.Outcome.next.injEq] at h
      exact .inr (.inl ⟨c, hs, h.symm⟩)
    | fatal =>
      simp only [State.stopped, Host.Outcome.next.injEq] at h
      exact .inr (.inr ⟨hs, h.symm⟩)
    | refuse r => cases h
    | fault f => cases h

/-! ## Setters -/

theorem setRequest_idle (s : State) (f : Request → Request) (h : s.phase = .idle) :
    s.setRequest f = .next { s with rq := f s.rq, result := .code .noError } := by
  simp [State.setRequest, issue_idle s _ h, State.finish]

/-- A setter that always completes answers a next state in which the request is `f` of the old one. -/
theorem setRequest_next {s t : State} {f : Request → Request} (h : s.setRequest f = .next t) :
    s.phase = .idle ∧ t = { s with rq := f s.rq, result := .code .noError } := by
  obtain ⟨hi, -⟩ := issue_next h
  rw [setRequest_idle s f hi] at h
  cases h
  exact ⟨hi, rfl⟩

/-- A setter that may stop writes the request, or raises, or is fatal. -/
theorem trySet_next {s t : State} {f : State → Check Request} (h : s.trySet f = .next t) :
    s.phase = .idle
      ∧ ((∃ rq, f s = .ok rq ∧ t = { s with rq := rq, result := .code .noError })
        ∨ (∃ c, f s = .error (.raise c) ∧ t = s.raised c) ∨ (f s = .error .fatal ∧ t = s.toFatal)) := by
  obtain ⟨hi, h⟩ := issue_next h
  refine ⟨hi, ?_⟩
  rcases perform_next h with ⟨u, hu, rfl⟩ | ⟨c, hc, rfl⟩ | ⟨hf, rfl⟩
  · revert hu
    cases hf : f s with
    | ok rq =>
      intro hu
      cases hu
      exact .inl ⟨rq, rfl, rfl⟩
    | error stop =>
      intro hu
      cases hu
  · revert hc
    cases hf : f s with
    | ok rq =>
      intro hc
      cases hc
    | error stop =>
      intro hc
      cases hc
      exact .inr (.inl ⟨c, rfl, rfl⟩)
  · revert hf
    cases hg : f s with
    | ok rq =>
      intro hf
      cases hf
    | error stop =>
      intro hf
      cases hf
      exact .inr (.inr ⟨rfl, rfl⟩)

/-! ## The builder -/

/-- A push writes ORDER at NORDER and advances it. -/
theorem setAndPush_ok {s t : State} {f : Request → Request} {n : OperandName} (h : s.setAndPush f n = .ok t) :
    (f s.rq).norder < s.params.maxOperands
      ∧ t = { s with rq := { f s.rq with
          order := orderSet (f s.rq).order (f s.rq).norder n
          norder := (f s.rq).norder + 1 } } := by
  simp only [State.setAndPush, pushOperand] at h
  split at h
  · rename_i rq hq
    split at hq
    · rename_i hlt
      cases hq
      cases h
      exact ⟨hlt, rfl⟩
    · cases hq
  · cases h

/-- A turn of the builder writes the request and the two counters, nothing else. -/
theorem buildOne_ok {s t : State} {d : Descriptor} (h : buildOne d s = some (.ok t)) :
    ∃ rq rc mc, t = { s with rq := rq, regcnt := rc, memcnt := mc } := by
  have push : ∀ (f : Request → Request) (n : OperandName) (u : State), s.setAndPush f n = .ok u →
      ∃ rq, u = { s with rq := rq } := fun f n u hu => ⟨_, (setAndPush_ok hu).2⟩
  cases d with
  | reg r =>
    simp only [buildOne, Option.some.injEq, buildReg] at h
    split at h
    · cases h
    · split at h
      · rename_i u hu
        cases h
        obtain ⟨rq, rfl⟩ := push _ _ _ hu
        exact ⟨rq, s.regcnt + 1, s.memcnt, rfl⟩
      · cases h
  | brdisp v w =>
    simp only [buildOne, Option.some.injEq, buildBrdisp] at h
    split at h
    · obtain ⟨rq, rfl⟩ := push _ _ _ h
      exact ⟨rq, s.regcnt, s.memcnt, rfl⟩
    · cases h
  | ptr v w =>
    simp only [buildOne, Option.some.injEq, buildPtr] at h
    split at h
    · obtain ⟨rq, rfl⟩ := push _ _ _ h
      exact ⟨rq, s.regcnt, s.memcnt, rfl⟩
    · cases h
  | uimm0 v w =>
    simp only [buildOne, Option.some.injEq, buildUimm0] at h
    obtain ⟨rq, rfl⟩ := push _ _ _ h
    exact ⟨rq, s.regcnt, s.memcnt, rfl⟩
  | simm0 v w =>
    simp only [buildOne, Option.some.injEq, buildSimm0] at h
    obtain ⟨rq, rfl⟩ := push _ _ _ h
    exact ⟨rq, s.regcnt, s.memcnt, rfl⟩
  | imm1 v =>
    simp only [buildOne, Option.some.injEq, buildImm1] at h
    obtain ⟨rq, rfl⟩ := push _ _ _ h
    exact ⟨rq, s.regcnt, s.memcnt, rfl⟩
  | mem m =>
    simp only [buildOne, Option.some.injEq, buildMem] at h
    split at h
    · split at h
      · simp only [buildMem0] at h
        split at h
        · rename_i u hu
          cases h
          obtain ⟨rq, rfl⟩ := push _ _ _ hu
          exact ⟨rq, s.regcnt, 1, rfl⟩
        · cases h
      · simp only [buildMem1] at h
        split at h
        · cases h
        · split at h
          · rename_i u hu
            cases h
            obtain ⟨rq, rfl⟩ := push _ _ _ hu
            exact ⟨rq, s.regcnt, 2, rfl⟩
          · cases h
      · cases h
    · cases h
  | other f =>
    simp only [buildOne, Option.some.injEq, buildOther] at h
    split at h
    · rename_i rq _
      cases h
      exact ⟨rq, s.regcnt, s.memcnt, rfl⟩
    · cases h
  | unrecognized n => cases h

/-! ## Emissions outside ENCODE -/

/-- A sequence of bare EMITs answers with what the emitter left: the new cursor, or the raise of BUFFER_TOO_SHORT. -/
theorem emitAll_next {s t : State} {acts : List EmitAction} (h : s.emitAll acts = .next t) :
    s.phase = .idle ∧ ∃ e st, runActions acts s.attach.emission = (e, st)
      ∧ ((st = none ∧ t = { s.attach.withEmission e with result := .cursor e.off })
        ∨ (∃ c, st = some (.raise c) ∧ t = (s.attach.withEmission e).raised c)
        ∨ (st = some .fatal ∧ t = (s.attach.withEmission e).toFatal)) := by
  obtain ⟨hi, h⟩ := issue_next h
  refine ⟨hi, ?_⟩
  dsimp only at h
  split at h
  · rename_i e he
    cases h
    exact ⟨e, none, he, .inl ⟨rfl, rfl⟩⟩
  · rename_i e stop he
    cases stop with
    | raise c =>
      cases h
      exact ⟨e, _, he, .inr (.inl ⟨c, rfl, rfl⟩)⟩
    | fatal =>
      cases h
      exact ⟨e, _, he, .inr (.inr ⟨rfl, rfl⟩)⟩
    | refuse r => cases h
    | fault f => cases h

/-! ## Further named fields -/

theorem setNamed_all {l : List (Nat × Nat)} {i v : Nat} {q : Nat × Nat → Bool} (hl : l.all q = true)
    (hq : v ≠ 0 → q (i, v) = true) : (setNamed l i v).all q = true := by
  induction l with
  | nil => by_cases hv : v = 0 <;> simp [setNamed, hv, hq]
  | cons e rest ih =>
    simp only [List.all_cons, Bool.and_eq_true] at hl
    by_cases hv : v = 0 <;> by_cases h1 : i < e.1 <;> by_cases h2 : i = e.1 <;>
      simp [setNamed, hv, h1, h2, hl.1, hl.2] <;> simp_all

/-- Writing a further named field keeps the canonical form. -/
theorem namedWf_setNamed {l : List (Nat × Nat)} (i v : Nat) (h : namedWf l = true) : namedWf (setNamed l i v) = true := by
  induction l with
  | nil => by_cases hv : v = 0 <;> simp [setNamed, namedWf, hv]
  | cons e rest ih =>
    simp only [namedWf, Bool.and_eq_true, decide_eq_true_eq] at h
    obtain ⟨⟨h0, hr⟩, hw⟩ := h
    have hwf : namedWf (e :: rest) = true := by simp [namedWf, h0, hr, hw]
    simp only [setNamed]
    split
    · rename_i hlt
      split
      · exact hwf
      · rename_i hv
        simp only [namedWf, Bool.and_eq_true, decide_eq_true_eq, List.all_cons]
        refine ⟨⟨hv, hlt, List.all_eq_true.2 fun d hd => ?_⟩, ⟨h0, hr⟩, hw⟩
        have := List.all_eq_true.1 hr d hd
        simp at this ⊢
        omega
    · split
      · rename_i heq
        subst heq
        split
        · exact hw
        · rename_i hv
          simp only [namedWf, Bool.and_eq_true, decide_eq_true_eq]
          exact ⟨⟨hv, hr⟩, hw⟩
      · rename_i h1 h2
        simp only [namedWf, Bool.and_eq_true, decide_eq_true_eq]
        exact ⟨⟨h0, setNamed_all hr fun _ => by simp; omega⟩, ih hw⟩

theorem namedWf_keepNamed (needed : List Nat) (l : List (Nat × Nat)) : namedWf (keepNamed needed l) = true := by
  induction l with
  | nil => rfl
  | cons e rest ih =>
    simp only [keepNamed]
    split
    · exact namedWf_setNamed _ _ ih
    · exact ih

/-- What reading a further named field gives after a write. -/
theorem getNamed_setNamed {l : List (Nat × Nat)} (i v j : Nat) (h : namedWf l = true) :
    getNamed (setNamed l i v) j = if j = i then v else getNamed l j := by
  have absent : ∀ (m : List (Nat × Nat)) (k : Nat), m.all (fun d => decide (k < d.1)) = true → getNamed m k = 0 := by
    intro m k hm
    induction m with
    | nil => rfl
    | cons d m ih =>
      simp only [List.all_cons, Bool.and_eq_true, decide_eq_true_eq] at hm
      rw [getNamed, if_neg (by omega), ih hm.2]
  induction l with
  | nil => by_cases hv : v = 0 <;> by_cases hj : j = i <;> simp [setNamed, getNamed, hv, hj, Ne.symm]
  | cons e rest ih =>
    simp only [namedWf, Bool.and_eq_true, decide_eq_true_eq] at h
    obtain ⟨⟨h0, hr⟩, hw⟩ := h
    simp only [setNamed]
    split
    · rename_i hlt
      have ha : getNamed (e :: rest) i = 0 := absent _ _ (by
        simp only [List.all_cons, Bool.and_eq_true, decide_eq_true_eq]
        refine ⟨hlt, List.all_eq_true.2 fun d hd => ?_⟩
        have := List.all_eq_true.1 hr d hd
        simp at this ⊢
        omega)
      split
      · rename_i hv
        by_cases hj : j = i
        · rw [if_pos hj, hj, ha, hv]
        · rw [if_neg hj]
      · by_cases hj : j = i
        · simp [getNamed, hj]
        · rw [if_neg hj, getNamed, if_neg (by simpa using Ne.symm hj)]
    · split
      · rename_i heq
        subst heq
        have ha : getNamed rest e.1 = 0 := absent _ _ hr
        split
        · rename_i hv
          by_cases hj : j = e.1
          · rw [if_pos hj, hj, ha, hv]
          · rw [if_neg hj, getNamed, if_neg (Ne.symm hj)]
        · by_cases hj : j = e.1
          · simp [getNamed, hj]
          · rw [if_neg hj, getNamed, getNamed, if_neg (by simpa using Ne.symm hj), if_neg (Ne.symm hj)]
      · rename_i h1 h2
        by_cases hj : e.1 = j
        · subst hj
          simp [getNamed, Ne.symm h2]
        · rw [getNamed, if_neg hj, ih hw, getNamed, if_neg hj]

end Sys2Proof.Machine
end

