-- ==== Sys2Proof/Laws/Encode.lean ====
section
/-! SUPPORT. What the phases of ENCODE can do: a computation that may stop, Bind, the steps of Emit, ENCODE as a whole. -/

namespace Sys2Proof.Machine

/-! ## Computations that may stop -/

theorem Check.bind_ok {α β : Type} {x : Check α} {f : α → Check β} {r : β} (h : x >>= f = .ok r) :
    ∃ a, x = .ok a ∧ f a = .ok r := by
  cases x with
  | error e => cases h
  | ok a => exact ⟨a, rfl, h⟩

theorem Check.bind_error {α β : Type} {x : Check α} {f : α → Check β} {e : Stop} (h : x >>= f = .error e) :
    x = .error e ∨ ∃ a, x = .ok a ∧ f a = .error e := by
  cases x with
  | error e' =>
    cases h
    exact .inl rfl
  | ok a => exact .inr ⟨a, rfl, h⟩

/-! ## Bind -/

/-- Bind on success: the iform is bound with the derived bits cleared, then its pattern runs. -/
theorem bindRequest_ok {bind : Binder} {p : Params} {rq q : Request} {b : Bound}
    (h : bindRequest bind p rq = .ok (b, q)) :
    bind { rq with derived := {} } = .ok b ∧ runBinding p b b.binding { rq with derived := {} } = .ok q := by
  obtain ⟨b', hb, h⟩ := Check.bind_ok h
  obtain ⟨q', hq, h⟩ := Check.bind_ok h
  cases h
  exact ⟨hb, hq⟩

/-- A field encoder or a line of a field-binding pattern changes derived bits, and the displacement it may force
(spec/42_table_lookup.md R223). -/
def encodersOnly (q q' : Request) : Prop :=
  ∃ d v w, q' = { q with derived := d, disp := v, dispWidth := w }

theorem encodersOnly.refl (q : Request) : encodersOnly q q := ⟨_, _, _, rfl⟩

theorem encodersOnly.derived (q : Request) (d : Derived) : encodersOnly q { q with derived := d } := ⟨_, _, _, rfl⟩

theorem encodersOnly.trans {a b c : Request} (h1 : encodersOnly a b) (h2 : encodersOnly b c) : encodersOnly a c := by
  obtain ⟨d, v, w, rfl⟩ := h1
  obtain ⟨d', v', w', rfl⟩ := h2
  exact ⟨d', v', w', rfl⟩

theorem modDisp_ok {base : RegOrInvalid} {q q' : Request} (h : modDisp base q = .ok q') : encodersOnly q q' := by
  unfold modDisp at h
  split at h
  · split at h <;> cases h
    exact .derived _ _
  · split at h
    · split at h <;> cases h <;> exact ⟨_, _, _, rfl⟩
    · cases h
      exact .derived _ _
    · cases h
      exact .derived _ _
    · cases h

theorem modDisp16_ok {g : RegSpace} {base index : RegOrInvalid} {q q' : Request} (h : modDisp16 g base index q = .ok q') :
    encodersOnly q q' := by
  unfold modDisp16 at h
  split at h
  · split at h <;> cases h
    exact .derived _ _
  · split at h
    · split at h <;> cases h <;> exact ⟨_, _, _, rfl⟩
    · cases h
      exact .derived _ _
    · cases h
      exact .derived _ _
    · cases h

theorem encMem_ok {p : Params} {space : Space} {easz : Nat} {q q' : Request} (h : encMem p space easz q = .ok q') :
    encodersOnly q q' := by
  obtain ⟨-, -, h⟩ := Check.bind_ok h
  obtain ⟨-, -, h⟩ := Check.bind_ok h
  dsimp only at h
  split at h
  · obtain ⟨rm, -, h⟩ := Check.bind_ok h
    split at h
    · cases h
    · exact (encodersOnly.derived q _).trans (modDisp16_ok h)
  · unfold encMem32 at h
    split at h
    · unfold encMemRip at h
      split at h
      · cases h
      · split at h
        · cases h
        · split at h <;> cases h
          exact .derived _ _
    · obtain ⟨-, -, h⟩ := Check.bind_ok h
      obtain ⟨code, -, h⟩ := Check.bind_ok h
      obtain ⟨-, -, h⟩ := Check.bind_ok h
      obtain ⟨-, -, h⟩ := Check.bind_ok h
      exact (encodersOnly.derived q _).trans (modDisp_ok h)

theorem placeReg_ok {q q' : Request} {n : OperandName} {enc : Reg → Derived → Check Derived}
    (h : placeReg q n enc = .ok q') : encodersOnly q q' := by
  unfold placeReg at h
  split at h
  · cases h
  · split at h <;> cases h
    exact .derived _ _

theorem applyRole_ok {p : Params} {space : Space} {q q' : Request} {n : OperandName} {role : Role}
    (h : applyRole p space q n role = .ok q') : encodersOnly q q' := by
  cases role with
  | mem => exact encMem_ok h
  | modrmReg | modrmRm | vvvv | opcLow3 | mask | is4 => exact placeReg_ok h
  | imm | imm1 | brdisp | ptrw | implicit =>
    cases h
    exact .refl _

theorem applyRoles_ok {p : Params} {space : Space} {k : Nat} {l : List (OperandPattern × Role)} {q q' : Request}
    (h : applyRoles p space k l q = .ok q') : encodersOnly q q' := by
  induction l generalizing k q with
  | nil =>
    cases h
    exact .refl _
  | cons e rest ih =>
    obtain ⟨q1, h1, h⟩ := Check.bind_ok h
    exact (applyRole_ok h1).trans (ih h)

theorem runBindingOp_ok {p : Params} {b : Bound} {op : BindingOp} {q q' : Request}
    (h : runBindingOp p b q op = .ok q') : encodersOnly q q' := by
  cases op with
  | clearDerived | widthBit | modrmAttribute =>
    cases h
    exact .derived _ _
  | roles => exact applyRoles_ok h
  | place role k => exact applyRole_ok h
  | sizePrefixes =>
    simp only [runBindingOp, sizePrefixes] at h
    split at h <;> cases h
    exact .derived _ _
  | segmentPrefix =>
    simp only [runBindingOp, segPrefix] at h
    split at h <;> cases h
    exact .derived _ _
  | modeCheck | rexCheck =>
    simp only [runBindingOp, checkNot] at h
    split at h <;> cases h
    exact .refl _
  | set f e =>
    obtain ⟨v, -, h⟩ := Check.bind_ok h
    cases h
    exact .derived _ _
  | raiseError => cases h

/-- A field-binding pattern changes derived bits, and the displacement it may force (spec/42_table_lookup.md R223). -/
theorem runBinding_ok {p : Params} {b : Bound} {l : List BindingLine} {q q' : Request}
    (h : runBinding p b l q = .ok q') : encodersOnly q q' := by
  induction l generalizing q with
  | nil =>
    cases h
    exact .refl _
  | cons line rest ih =>
    obtain ⟨g, -, h⟩ := Check.bind_ok h
    split at h
    · obtain ⟨q1, h1, h⟩ := Check.bind_ok h
      exact (runBindingOp_ok h1).trans (ih h)
    · exact ih h

/-! ## How Bind and the lines of an emission pattern stop -/

/-- GENERAL_ERROR, or a refusal that is not the bit emitter's. -/
def encodeStop (st : Stop) : Prop := st = .raise .generalError ∨ ∃ r, st = .refuse r ∧ r ≠ .unestablishedByte

theorem generalError_stop {α : Type} {st : Stop} (h : (generalError : Check α) = .error st) : encodeStop st := by
  cases h
  exact .inl rfl

theorem refuse_stop {α : Type} {r : Refusal} {st : Stop} (h : (refuse r : Check α) = .error st)
    (hr : r ≠ .unestablishedByte) : encodeStop st := by
  cases h
  exact .inr ⟨r, rfl, hr⟩

/-- An expression stops only where the table breaks its contract. -/
theorem evalExpr_error {b : Bound} {rq : Request} {e : Expr} {st : Stop} (h : evalExpr b rq e = .error st) :
    st = .refuse .tableIllFormed := by
  induction e with
  | fieldValue k | offset r =>
    simp only [evalExpr] at h
    split at h <;> cases h
    rfl
  | binary op x y ihx ihy =>
    simp only [evalExpr] at h
    rcases Check.bind_error h with h | ⟨a, -, h⟩
    · exact ihx h
    · rcases Check.bind_error h with h | ⟨c, -, h⟩
      · exact ihy h
      · cases op with
        | div | mod =>
          simp only [applyBinary] at h
          split at h <;> cases h
          rfl
        | add | sub | mul | eq | lt => cases h
  | choose c x y ihc ihx ihy =>
    simp only [evalExpr] at h
    rcases Check.bind_error h with h | ⟨a, -, h⟩
    · exact ihc h
    · split at h
      · exact ihx h
      · exact ihy h
  | _ => cases h

theorem evalExpr_stop {b : Bound} {rq : Request} {e : Expr} {st : Stop} (h : evalExpr b rq e = .error st) :
    encodeStop st := .inr ⟨_, evalExpr_error h, by decide⟩

theorem firstMatch_error {rq : Request} {l : List (BindRule × Bound)} {st : Stop} (h : firstMatch rq l = .error st) :
    encodeStop st := by
  induction l with
  | nil => exact generalError_stop h
  | cons e rest ih =>
    rcases Check.bind_error h with h | ⟨a, -, h⟩
    · unfold ruleHolds at h
      generalize (if e.1.byShape = true then iformMatches rq e.2.spec else spaceAllowed rq e.2.spec) = taken at h
      cases taken with
      | false => cases h
      | true =>
        rcases Check.bind_error h with h | ⟨g, -, h⟩
        · exact evalExpr_stop h
        · cases h
    · split at h
      · cases h
      · exact ih h

theorem ruleBound_error {t : IsaTable} {r : BindRule} {st : Stop} (h : ruleBound t r = .error st) : encodeStop st := by
  simp only [ruleBound, boundOf] at h
  repeat' split at h
  all_goals first | (cases h; done) | exact refuse_stop h (by decide)

theorem groupRules_error {t : IsaTable} {l : List BindRule} {st : Stop} (h : groupRules t l = .error st) :
    encodeStop st := by
  induction l with
  | nil => cases h
  | cons r rest ih =>
    rcases Check.bind_error h with h | ⟨b, -, h⟩
    · exact ruleBound_error h
    · rcases Check.bind_error h with h | ⟨more, -, h⟩
      · exact ih h
      · cases h

/-- Every way Bind fails to find an iform. -/
theorem bindTable_error {t : IsaTable} {rq : Request} {st : Stop} (h : bindTable t rq = .error st) : encodeStop st := by
  simp only [bindTable] at h
  split at h
  · exact generalError_stop h
  · split at h
    · exact generalError_stop h
    · split at h
      · exact refuse_stop h (by decide)
      · rcases Check.bind_error h with h | ⟨rules, -, h⟩
        · exact groupRules_error h
        · exact firstMatch_error h

theorem modDisp_error {base : RegOrInvalid} {q : Request} {st : Stop} (h : modDisp base q = .error st) : encodeStop st := by
  unfold modDisp at h
  split at h
  · split at h
    · cases h
    · exact refuse_stop h (by decide)
  · split at h
    · split at h <;> cases h
    · cases h
    · cases h
    · exact refuse_stop h (by decide)

theorem modDisp16_error {g : RegSpace} {base index : RegOrInvalid} {q : Request} {st : Stop}
    (h : modDisp16 g base index q = .error st) : encodeStop st := by
  unfold modDisp16 at h
  split at h
  · split at h
    · cases h
    · exact refuse_stop h (by decide)
  · split at h
    · split at h <;> cases h
    · cases h
    · cases h
    · exact refuse_stop h (by decide)

theorem table16_error {g : RegSpace} {base index : RegOrInvalid} {st : Stop} (h : table16 g base index = .error st) :
    encodeStop st := by
  unfold table16 at h
  repeat' split at h
  all_goals first | (cases h; done) | exact generalError_stop h

theorem scaleCode_error {index : RegOrInvalid} {n : Nat} {st : Stop} (h : scaleCode index n = .error st) :
    encodeStop st := by
  unfold scaleCode at h
  repeat' split at h
  all_goals first | (cases h; done) | exact generalError_stop h | exact refuse_stop h (by decide)

theorem encMem_error {p : Params} {space : Space} {easz : Nat} {q : Request} {st : Stop}
    (h : encMem p space easz q = .error st) : encodeStop st := by
  have base : ∀ g e r, checkBaseClass g e r = .error st → encodeStop st := by
    intro g e r h
    unfold checkBaseClass at h
    repeat' split at h
    all_goals first | (cases h; done) | exact refuse_stop h (by decide)
  have index : ∀ e r, checkIndexClass e r = .error st → encodeStop st := by
    intro e r h
    unfold checkIndexClass at h
    repeat' split at h
    all_goals first | (cases h; done) | exact refuse_stop h (by decide)
  have illegal : ∀ l r, checkIndex l r = .error st → encodeStop st := by
    intro l r h
    unfold checkIndex at h
    repeat' split at h
    all_goals first | (cases h; done) | exact generalError_stop h
  have place : ∀ r, checkPlace space r = .error st → encodeStop st := by
    intro r h
    unfold checkPlace at h
    repeat' split at h
    all_goals first | (cases h; done) | exact generalError_stop h
  rcases Check.bind_error h with h | ⟨-, -, h⟩
  · exact base _ _ _ h
  rcases Check.bind_error h with h | ⟨-, -, h⟩
  · exact index _ _ h
  dsimp only at h
  split at h
  · rcases Check.bind_error h with h | ⟨rm, -, h⟩
    · exact table16_error h
    · split at h
      · exact refuse_stop h (by decide)
      · exact modDisp16_error h
  · unfold encMem32 at h
    split at h
    · unfold encMemRip at h
      split at h
      · exact generalError_stop h
      · split at h
        · exact generalError_stop h
        · split at h
          · exact refuse_stop h (by decide)
          · cases h
    · rcases Check.bind_error h with h | ⟨-, -, h⟩
      · exact illegal _ _ h
      rcases Check.bind_error h with h | ⟨code, -, h⟩
      · exact scaleCode_error h
      rcases Check.bind_error h with h | ⟨-, -, h⟩
      · exact place _ h
      rcases Check.bind_error h with h | ⟨-, -, h⟩
      · exact place _ h
      · exact modDisp_error h

theorem applyRole_error {p : Params} {space : Space} {q : Request} {n : OperandName} {role : Role} {st : Stop}
    (h : applyRole p space q n role = .error st) : encodeStop st := by
  have reg : ∀ enc : Reg → Derived → Check Derived, (∀ r d, enc r d = .error st → encodeStop st) →
      placeReg q n enc = .error st → encodeStop st := by
    intro enc henc h
    unfold placeReg at h
    split at h
    · exact refuse_stop h (by decide)
    · split at h
      · cases h
      · rename_i he
        cases h
        exact henc _ _ he
  cases role with
  | mem => exact encMem_error h
  | modrmReg | modrmRm | vvvv | opcLow3 | is4 =>
    refine reg _ (fun r d hr => ?_) h
    simp only [encRegModrmReg, encRegModrmRm, encRegVvvv, encRegOpcode, encRegIs4] at hr
    split at hr
    · cases hr
    · exact generalError_stop hr
  | mask =>
    refine reg _ (fun r d hr => ?_) h
    simp only [encRegMask] at hr
    split at hr
    · exact refuse_stop hr (by decide)
    · split at hr
      · cases hr
      · exact generalError_stop hr
  | imm | imm1 | brdisp | ptrw | implicit => cases h

theorem applyRoles_error {p : Params} {space : Space} {k : Nat} {l : List (OperandPattern × Role)} {q : Request}
    {st : Stop} (h : applyRoles p space k l q = .error st) : encodeStop st := by
  induction l generalizing k q with
  | nil => cases h
  | cons e rest ih =>
    rcases Check.bind_error h with h | ⟨q1, -, h⟩
    · exact applyRole_error h
    · exact ih h

theorem runBindingOp_error {p : Params} {b : Bound} {op : BindingOp} {q : Request} {st : Stop}
    (h : runBindingOp p b q op = .error st) : encodeStop st := by
  cases op with
  | clearDerived | widthBit | modrmAttribute => cases h
  | roles => exact applyRoles_error h
  | place role k => exact applyRole_error h
  | sizePrefixes =>
    simp only [runBindingOp, sizePrefixes] at h
    split at h
    · exact generalError_stop h
    · cases h
  | segmentPrefix =>
    simp only [runBindingOp, segPrefix] at h
    split at h
    · cases h
    · rename_i hs
      cases h
      simp only [segmentPrefix, segmentByte] at hs
      repeat' split at hs
      all_goals first | (cases hs; done) | exact generalError_stop hs
  | modeCheck | rexCheck =>
    simp only [runBindingOp, checkNot] at h
    split at h
    · exact generalError_stop h
    · cases h
  | set f e =>
    rcases Check.bind_error h with h | ⟨v, -, h⟩
    · exact evalExpr_stop h
    · cases h
  | raiseError => exact generalError_stop h

theorem runBinding_error {p : Params} {b : Bound} {l : List BindingLine} {q : Request} {st : Stop}
    (h : runBinding p b l q = .error st) : encodeStop st := by
  induction l generalizing q with
  | nil => cases h
  | cons line rest ih =>
    rcases Check.bind_error h with h | ⟨g, -, h⟩
    · exact evalExpr_stop h
    · split at h
      · rcases Check.bind_error h with h | ⟨q1, -, h⟩
        · exact runBindingOp_error h
        · exact ih h
      · exact ih h

/-- Every way the Bind phase stops, if the bind stops so. -/
theorem bindRequest_error {bind : Binder} {p : Params} {rq : Request} {st : Stop}
    (hb : ∀ q, bind q = .error st → encodeStop st) (h : bindRequest bind p rq = .error st) : encodeStop st := by
  rcases Check.bind_error h with h | ⟨b, -, h⟩
  · exact hb _ h
  · rcases Check.bind_error h with h | ⟨q, -, h⟩
    · exact runBinding_error h
    · cases h

/-- A value of a pattern is no stop of the pattern's own. -/
theorem valueLine_ne_halt (w v : Nat) (st : Stop) : valueLine w v ≠ .halt st := by
  unfold valueLine
  split <;> exact fun h => by cases h

theorem fieldActions_halt {b : Bound} {rq : Request} {l : List (Expr × Expr)} {st : Stop}
    (h : .halt st ∈ fieldActions b rq l) : st = .refuse .tableIllFormed := by
  induction l with
  | nil => cases h
  | cons f rest ih =>
    simp only [fieldActions] at h
    split at h
    · rcases List.mem_cons.1 h with h | h
      · exact absurd h.symm (valueLine_ne_halt _ _ _)
      · exact ih h
    · rename_i he
      cases List.mem_singleton.1 h
      exact evalExpr_error he
    · rename_i he
      cases List.mem_singleton.1 h
      exact evalExpr_error he

/-- Every way a line of an emission pattern stops by itself: GENERAL_ERROR only for a 512-bit length in VEX space
(spec/43_encode_dispatch.md R263). -/
theorem lineActions_halt {b : Bound} {rq : Request} {l : EmitLine} {st : Stop} (h : .halt st ∈ lineActions b rq l) :
    (st = .raise .generalError ∧ b.spec.space = .vex ∧ rq.vl = 2) ∨ ∃ r, st = .refuse r ∧ r ≠ .unestablishedByte := by
  have refused : ∀ r : Refusal, EmitAction.halt st ∈ stopLine (.refuse r) → r ≠ .unestablishedByte →
      (st = .raise .generalError ∧ b.spec.space = .vex ∧ rq.vl = 2) ∨ ∃ r, st = .refuse r ∧ r ≠ .unestablishedByte := by
    intro r h hr
    cases List.mem_singleton.1 h
    exact .inr ⟨r, rfl, hr⟩
  simp only [lineActions] at h
  split at h
  · simp only [emitIf] at h
    split at h
    · cases hop : l.op <;> rw [hop] at h
      case rep =>
        simp only [stepActions, repStep] at h
        repeat' split at h
        all_goals first
          | exact refused _ h (by decide)
          | simp [byteItem] at h
      case extension =>
        simp only [stepActions, extensionStep] at h
        split at h
        · simp only [rexStep, emitIf, rexItem] at h
          split at h <;> simp at h
        · rename_i hsp
          simp only [vexStep] at h
          split at h
          · rename_i hv
            cases List.mem_singleton.1 h
            exact .inl ⟨rfl, hsp, hv⟩
          · split at h
            · exact refused _ h (by decide)
            · split at h <;> simp [vex2Item, vex3Item] at h
        · simp only [evexStep] at h
          split at h
          · exact refused _ h (by decide)
          · simp [evexItem] at h
      case escape =>
        simp only [stepActions, escStep] at h
        repeat' split at h
        all_goals first
          | exact refused _ h (by decide)
          | simp [esc1Item, esc2Item, esc3Item] at h
      case branch =>
        simp only [stepActions, relbrStep, ptrStep, emitIf, List.mem_append] at h
        rcases h with h | h
        · repeat' split at h
          all_goals first
            | exact refused _ h (by decide)
            | simp [(valueLine_ne_halt _ _ _).symm] at h
        · split at h <;> simp [(valueLine_ne_halt _ _ _).symm] at h
      case immediate0 =>
        simp only [stepActions, imm0Step] at h
        repeat' split at h
        all_goals first
          | exact refused _ h (by decide)
          | simp [is4Item, (valueLine_ne_halt _ _ _).symm] at h
      case fields l =>
        exact .inr ⟨_, fieldActions_halt h, by decide⟩
      all_goals
        simp only [stepActions, segStep, oszStep, aszStep, opcodeStep, modrmStep, sibStep, dispStep, imm1Step, emitIf,
          byteItem, modrmItem, sibItem] at h
        repeat' split at h
        all_goals simp [(valueLine_ne_halt _ _ _).symm] at h
    · cases h
  · rename_i he
    cases List.mem_singleton.1 h
    exact .inr ⟨_, evalExpr_error he, by decide⟩

/-! ## Emit -/

/-- The steps of an emission pattern are its EMITs one after another; of the rest of the state they move STEP only. -/
theorem runSteps_eq (s : State) (b : Bound) (k : Nat) (lines : List EmitLine) :
    ∃ n, s.runSteps b k lines =
      ({ s.withEmission (runActions (lines.flatMap (lineActions b s.rq)) s.emission).1 with stepIndex := n },
        (runActions (lines.flatMap (lineActions b s.rq)) s.emission).2) := by
  induction lines generalizing s k with
  | nil => exact ⟨s.stepIndex, rfl⟩
  | cons l rest ih =>
    simp only [State.runSteps, List.flatMap_cons, runActions_append]
    have he : ({ s with stepIndex := k } : State).emission = s.emission := rfl
    rw [he]
    rcases hr : runActions (lineActions b s.rq l) s.emission with ⟨e, _ | stop⟩
    · obtain ⟨n, hn⟩ := ih (({ s with stepIndex := k } : State).withEmission e) (k + 1)
      have hcap := (runActions_frame _ _ _ _ hr).1
      have hem : (({ s with stepIndex := k } : State).withEmission e).emission = e := by
        cases e
        simp only [State.emission] at hcap
        simp [State.emission, State.withEmission, hcap]
      rw [hem] at hn
      exact ⟨n, hn⟩
    · exact ⟨k, rfl⟩

/-- Every next state the Emit phase answers. -/
theorem runEmit_next {s t : State} {b : Bound} (hn : s.rq.error = .noError) (h : s.runEmit b = .next t) :
    ∃ e st, runActions (b.emission.flatMap (lineActions b s.rq)) s.emission = (e, st)
      ∧ ((st = none ∧ e.off % 8 ≠ 0 ∧ t = ({ s.withEmission e with phase := .finalize } : State).toFatal)
        ∨ (st = none ∧ e.off % 8 = 0 ∧ t = ({ s.withEmission e with phase := .finalize } : State).finalized)
        ∨ ∃ stop, st = some stop ∧ s.spoil.encodeStopped stop = .next t) := by
  obtain ⟨n, hs⟩ := runSteps_eq s b 1 b.emission
  simp only [State.runEmit, hn, ne_eq, not_true_eq_false, if_false, hs] at h
  rcases hr : runActions (b.emission.flatMap (lineActions b s.rq)) s.emission with ⟨e, _ | stop⟩
  · refine ⟨e, none, rfl, ?_⟩
    simp only [hr] at h
    split at h
    · rename_i ho
      cases h
      exact .inl ⟨rfl, ho, rfl⟩
    · rename_i ho
      cases h
      exact .inr (.inl ⟨rfl, by simpa using ho, rfl⟩)
  · simp only [hr] at h
    exact ⟨e, some stop, rfl, .inr (.inr ⟨stop, rfl, h⟩)⟩

/-! ## ENCODE -/

/-- Every next state an ENCODE answers: from an admissible state, through a stop of Bind, or through the Emit phase of the bound
request. -/
theorem startEncode_next {s t : State} {cap : Nat} {bind : Binder} (h : s.startEncode cap bind = .next t) :
    s.encodable
      ∧ ((∃ stop,
            bindRequest bind s.params (precondition s.params.registers { s.rq with error := .noError }) = .error stop
            ∧ (s.enterEncode cap).runPrecondition.encodeStopped stop = .next t)
        ∨ ∃ b rq,
            bindRequest bind s.params (precondition s.params.registers { s.rq with error := .noError }) = .ok (b, rq)
            ∧ (((s.enterEncode cap).runPrecondition).bound b.index rq).runEmit b = .next t) := by
  obtain ⟨hi, h⟩ := issue_next h
  split at h
  · cases h
  · rename_i hm
    split at h
    · cases h
    · rename_i hc
      refine ⟨⟨hi, by omega, by simpa using hc⟩, ?_⟩
      simp only [State.runEncode, State.runPrecondition_params, State.enterEncode_params, State.runPrecondition_rq,
        State.enterEncode_rq] at h
      split at h
      · rename_i stop hs
        exact .inl ⟨stop, hs, h⟩
      · rename_i b rq hs
        exact .inr ⟨b, rq, hs, h⟩

end Sys2Proof.Machine
end

