-- ==== Sys2Proof/Laws/PerInstr.lean ====
section
/-! SUPPORT. One lemma per instruction: its message is not empty, so that every instruction has a first byte at the port
(a command its code, spec/30_encoding.md R100). -/

namespace Sys2Proof.Laws.MessageHasBytes

/-- The message of the instruction is not empty. -/
def Statement (i : Instr) : Prop := (Sys2Proof.encode i).bytes ≠ []

theorem reqInit (mode smode : Nat) : Statement (.reqInit mode smode) := List.cons_ne_nil _ _
theorem setIclass (iclass : Nat) : Statement (.setIclass iclass) := List.cons_ne_nil _ _
theorem setEosz (bits : Nat) : Statement (.setEosz bits) := List.cons_ne_nil _ _
theorem setEasz (bits : Nat) : Statement (.setEasz bits) := List.cons_ne_nil _ _
theorem setRep : Statement .setRep := List.cons_ne_nil _ _
theorem clearRep : Statement .clearRep := List.cons_ne_nil _ _
theorem setRepne : Statement .setRepne := List.cons_ne_nil _ _
theorem clearRepne : Statement .clearRepne := List.cons_ne_nil _ _
theorem setHintTaken : Statement .setHintTaken := List.cons_ne_nil _ _
theorem setHintNotTaken : Statement .setHintNotTaken := List.cons_ne_nil _ _
theorem setReg (slot : Nat) (r : RegOrInvalid) : Statement (.setReg slot r) := List.cons_ne_nil _ _
theorem setDisp (value : Word64) (widthBytes : Nat) : Statement (.setDisp value widthBytes) := List.cons_ne_nil _ _
theorem setDispBits (value : Word64) (width : Nat) : Statement (.setDispBits value width) := List.cons_ne_nil _ _
theorem setBrdisp (value : Word64) (width : Nat) : Statement (.setBrdisp value width) := List.cons_ne_nil _ _
theorem setUimm0 (value : Word64) (width : Nat) : Statement (.setUimm0 value width) := List.cons_ne_nil _ _
theorem setSimm0 (value : BitVec 32) (width : Nat) : Statement (.setSimm0 value width) := List.cons_ne_nil _ _
theorem setUimm1 (value : Word64) : Statement (.setUimm1 value) := List.cons_ne_nil _ _
theorem setBase0 (r : RegOrInvalid) : Statement (.setBase0 r) := List.cons_ne_nil _ _
theorem setBase1 (r : RegOrInvalid) : Statement (.setBase1 r) := List.cons_ne_nil _ _
theorem setIndex (r : RegOrInvalid) : Statement (.setIndex r) := List.cons_ne_nil _ _
theorem setScale (scale : Nat) : Statement (.setScale scale) := List.cons_ne_nil _ _
theorem setSeg0 (r : RegOrInvalid) : Statement (.setSeg0 r) := List.cons_ne_nil _ _
theorem setSeg1 (r : RegOrInvalid) : Statement (.setSeg1 r) := List.cons_ne_nil _ _
theorem setRelbr : Statement .setRelbr := List.cons_ne_nil _ _
theorem setPtr : Statement .setPtr := List.cons_ne_nil _ _
theorem setAgen : Statement .setAgen := List.cons_ne_nil _ _
theorem setMem0 : Statement .setMem0 := List.cons_ne_nil _ _
theorem setMem1 : Statement .setMem1 := List.cons_ne_nil _ _
theorem setOperandOrder (position : Nat) (name : OperandName) : Statement (.setOperandOrder position name) := List.cons_ne_nil _ _
theorem getOperandOrder (position : Nat) : Statement (.getOperandOrder position) := List.cons_ne_nil _ _
theorem setField (f : FieldAssign) : Statement (.setField f) := List.cons_ne_nil _ _
theorem emitBits (width : Nat) (value : Word64) : Statement (.emitBits width value) := List.cons_ne_nil _ _
theorem encode (capacity : Nat) : Statement (.encode capacity) := List.cons_ne_nil _ _
theorem encodeNop (length : Nat) : Statement (.encodeNop length) := List.cons_ne_nil _ _
theorem build (mode smode iclass eosz easz : Nat) (p : Rep) (h : Hint) (ds : List Descriptor) : Statement (.build mode smode iclass eosz easz p h ds) := List.cons_ne_nil _ _
theorem initFromDecode (d : DecodedRecord) : Statement (.initFromDecode d) := List.cons_ne_nil _ _
theorem patchDisp (d : DecodedRecord) (value : Word64) (width : Nat) : Statement (.patchDisp d value width) := List.cons_ne_nil _ _
theorem patchRelbr (d : DecodedRecord) (value : Word64) (width : Nat) : Statement (.patchRelbr d value width) := List.cons_ne_nil _ _
theorem patchImm0 (d : DecodedRecord) (value : Word64) (width : Nat) : Statement (.patchImm0 d value width) := List.cons_ne_nil _ _
theorem descReg (r : RegOrInvalid) : Statement (.descReg r) := List.cons_ne_nil _ _
theorem descBrdisp (value : BitVec 32) (width : Nat) : Statement (.descBrdisp value width) := List.cons_ne_nil _ _
theorem descPtr (value : BitVec 32) (width : Nat) : Statement (.descPtr value width) := List.cons_ne_nil _ _
theorem descUimm0 (value : Word64) (width : Nat) : Statement (.descUimm0 value width) := List.cons_ne_nil _ _
theorem descSimm0 (value : BitVec 32) (width : Nat) : Statement (.descSimm0 value width) := List.cons_ne_nil _ _
theorem descImm1 (value : Byte) : Statement (.descImm1 value) := List.cons_ne_nil _ _
theorem descMem (m : MemDesc) : Statement (.descMem m) := List.cons_ne_nil _ _
theorem descOther (f : FieldAssign) : Statement (.descOther f) := List.cons_ne_nil _ _
theorem pfxSegEs : Statement .pfxSegEs := List.cons_ne_nil _ _
theorem pfxSegCs : Statement .pfxSegCs := List.cons_ne_nil _ _
theorem pfxSegSs : Statement .pfxSegSs := List.cons_ne_nil _ _
theorem pfxSegDs : Statement .pfxSegDs := List.cons_ne_nil _ _
theorem pfxSegFs : Statement .pfxSegFs := List.cons_ne_nil _ _
theorem pfxSegGs : Statement .pfxSegGs := List.cons_ne_nil _ _
theorem pfxOsz : Statement .pfxOsz := List.cons_ne_nil _ _
theorem pfxAsz : Statement .pfxAsz := List.cons_ne_nil _ _
theorem pfxRepne : Statement .pfxRepne := List.cons_ne_nil _ _
theorem pfxRep : Statement .pfxRep := List.cons_ne_nil _ _
theorem rex (w r x b : BitVec 1) : Statement (.rex w r x b) := List.cons_ne_nil _ _
theorem escMap1 : Statement .escMap1 := List.cons_ne_nil _ _
theorem escMap2 : Statement .escMap2 := List.cons_ne_nil _ _
theorem escMap3 : Statement .escMap3 := List.cons_ne_nil _ _
theorem vex2 (f : Vex2Fields) : Statement (.vex2 f) := List.cons_ne_nil _ _
theorem vex3 (f : Vex3Fields) : Statement (.vex3 f) := List.cons_ne_nil _ _
theorem evex (f : EvexFields) : Statement (.evex f) := List.cons_ne_nil _ _
theorem opcode (o : Byte) : Statement (.opcode o) := List.cons_ne_nil _ _
theorem modrm (mod : BitVec 2) (reg rm : BitVec 3) : Statement (.modrm mod reg rm) := List.cons_ne_nil _ _
theorem sib (ss : BitVec 2) (index base : BitVec 3) : Statement (.sib ss index base) := List.cons_ne_nil _ _
theorem disp (w : DispWidth) (v : Word64) : Statement (.disp w v) := List.cons_ne_nil _ _
theorem brdisp (w : DispWidth) (v : Word64) : Statement (.brdisp w v) := List.cons_ne_nil _ _
theorem farptr (w : FarWidth) (offset : Word64) (selector : BitVec 16) : Statement (.farptr w offset selector) := List.cons_ne_nil _ _
theorem imm0 (f : Imm0Item) : Statement (.imm0 f) := by cases f <;> exact List.cons_ne_nil _ _
theorem imm1 (v : Byte) : Statement (.imm1 v) := List.cons_ne_nil _ _
theorem nop1 : Statement .nop1 := List.cons_ne_nil _ _
theorem nop2 : Statement .nop2 := List.cons_ne_nil _ _
theorem nop3 : Statement .nop3 := List.cons_ne_nil _ _
theorem nop4 : Statement .nop4 := List.cons_ne_nil _ _
theorem nop5 : Statement .nop5 := List.cons_ne_nil _ _
theorem nop6 : Statement .nop6 := List.cons_ne_nil _ _
theorem nop7 : Statement .nop7 := List.cons_ne_nil _ _
theorem nop8 : Statement .nop8 := List.cons_ne_nil _ _
theorem nop9 : Statement .nop9 := List.cons_ne_nil _ _
theorem addGprvMemv : Statement .addGprvMemv := List.cons_ne_nil _ _
theorem addGprvGprv01 : Statement .addGprvGprv01 := List.cons_ne_nil _ _
theorem addMemvImmb : Statement .addMemvImmb := List.cons_ne_nil _ _
theorem movGpr8Gpr8 : Statement .movGpr8Gpr8 := List.cons_ne_nil _ _
theorem movGprvImmv : Statement .movGprvImmv := List.cons_ne_nil _ _
theorem jmpRelbrd : Statement .jmpRelbrd := List.cons_ne_nil _ _
theorem jzRelbrb : Statement .jzRelbrb := List.cons_ne_nil _ _
theorem movzxGprvMemb : Statement .movzxGprvMemb := List.cons_ne_nil _ _
theorem vaddpsVexRrr : Statement .vaddpsVexRrr := List.cons_ne_nil _ _
theorem vaddpsVexRrm : Statement .vaddpsVexRrm := List.cons_ne_nil _ _
theorem vaddpsEvexRkrr : Statement .vaddpsEvexRkrr := List.cons_ne_nil _ _
theorem enterImmwImmb : Statement .enterImmwImmb := List.cons_ne_nil _ _
theorem movsb : Statement .movsb := List.cons_ne_nil _ _

end Sys2Proof.Laws.MessageHasBytes
end

