-- ==== Sys2Proof/Tests/Slice0.lean ====
section
/-! SUPPORT. Tests: ill-formed terms, words written out from the spec, one-step vectors of spec/95_test_vectors.md and of the
rules' examples, and a witness for the hypotheses of every statement. -/

namespace Sys2Proof.Machine

/-! ## Helpers -/

/-- An idle engine with a request and a declared capacity. -/
def holding (rq : Request) (cap : Nat) : State := { State.reset with rq := rq, capacity := cap }

/-- An idle engine whose cursor stands at bit `off` of a buffer with `ilen` bytes in force. -/
def atBit (off ilen : Nat) (buf : Mem) : State :=
  { State.reset with ev := { ilen := ilen, bitOffset := off }, evLive := true, buf := buf }

/-- The first bytes of the buffer after a command. -/
def bytesAfter (n : Nat) : Result → List (Option Byte)
  | .next t => (List.range n).map t.buf.read
  | .fault _ | .refused _ => []

/-- What a command returned. -/
def returned : Result → CmdResult
  | .next t => t.result
  | .fault _ | .refused _ => .noResult

/-- The code and length ENCODE returned and the bytes it left. -/
def encodedAs (bytes : List Byte) (r : Result) : Bool :=
  returned r == .encoded .noError bytes.length && bytesAfter bytes.length r == bytes.map some

/-- The decoder reads these instructions from these messages. -/
def decodesAll (l : List (Packet × Instr)) : Bool := l.all fun p => (decode p.1).toOption == some p.2

/-- A message of a format. -/
def msg (f : Format) (bytes : List Byte) : Packet := ⟨f, bytes⟩

/-- Other numbers of the commands and descriptors (parameter P20): each code 80 more, the tags in reverse. -/
def otherPort : PortCodes := { commands := tableCommands.map (· + 0x80), tags := [8, 7, 6, 5, 4, 3, 2, 1] }

def eax : RegOrInvalid := some ⟨.gpr32, 0⟩
def edx : RegOrInvalid := some ⟨.gpr32, 2⟩

/-- The request of spec/45_operand_builder.md R355: ADD EAX, [EDX + 11223344] in 32-bit mode. -/
def literalRequest : Request :=
  { mode := 32, smode := 32, iclass := iclassADD, eosz := 32, easz := 32, regs := { r0 := eax }, base0 := edx,
    disp := 0x11223344, dispWidth := 32, mem0 := true, order := [.reg0, .mem0], norder := 2 }

/-- A 64-bit ADD of EAX and a memory operand. -/
def addRequest (base index : RegOrInvalid) (scale : Nat) : Request :=
  { mode := 64, iclass := iclassADD, eosz := 32, regs := { r0 := eax }, base0 := base, index := index, scale := scale,
    mem0 := true, order := [.reg0, .mem0], norder := 2 }

/-- A record with one recorded location, of an instruction of six bytes. -/
def recordAt (l : Option FieldLoc) : DecodedRecord := ⟨literalRequest, iclassADD, [], 6, l, l, l, false, false⟩

/-! ## Ill-formed terms are refused -/

theorem test_wf_numbers :
    [Instr.reqInit (2 ^ 64) 32, .reqInit 32 (2 ^ 64), .setIclass (2 ^ 64), .setEosz (2 ^ 64), .setEasz (2 ^ 64),
      .setScale (2 ^ 64), .getOperandOrder (2 ^ 64), .encode (2 ^ 64), .encodeNop (2 ^ 64), .setReg (2 ^ 64) none,
      .setDisp 0 (2 ^ 64), .setDispBits 0 (2 ^ 64), .setBrdisp 0 (2 ^ 64), .setUimm0 0 (2 ^ 64), .setSimm0 0 (2 ^ 64),
      .emitBits (2 ^ 64) 0, .setOperandOrder (2 ^ 64) .reg0].all (fun i => !i.wf) = true := by decide

theorem test_wf_registers :
    [Instr.setReg 0 (some ⟨.gpr64, 256⟩), .setBase0 (some ⟨.other 240, 0⟩), .setBase1 (some ⟨.seg, 256⟩),
      .setIndex (some ⟨.xmm, 256⟩), .setSeg0 (some ⟨.ip, 256⟩), .setSeg1 (some ⟨.mask, 256⟩),
      .descReg (some ⟨.x87, 256⟩)].all (fun i => !i.wf) = true := by decide

theorem test_wf_fields :
    [FieldAssign.mode (2 ^ 64), .reg 8 (some ⟨.mmx, 256⟩), .seg1 (some ⟨.seg, 256⟩), .orderEntry (2 ^ 64) .reg0,
      .named 58 0, .named 256 0, .named 59 (2 ^ 64)].all
      (fun f => !(Instr.setField f).wf && !(Instr.descOther f).wf) = true := by decide

theorem test_wf_descriptors :
    [Descriptor.reg (some ⟨.cr, 256⟩), .brdisp 0 (2 ^ 64), .ptr 0 (2 ^ 64), .uimm0 0 (2 ^ 64), .simm0 0 (2 ^ 64),
      .mem ⟨some ⟨.dr, 256⟩, none, none, 0, 0, 0, 0⟩, .mem ⟨none, some ⟨.ymm, 256⟩, none, 0, 0, 0, 0⟩,
      .mem ⟨none, none, some ⟨.seg, 256⟩, 0, 0, 0, 0⟩, .mem ⟨none, none, none, 2 ^ 64, 0, 0, 0⟩,
      .mem ⟨none, none, none, 0, 0, 2 ^ 64, 0⟩, .mem ⟨none, none, none, 0, 0, 0, 2 ^ 64⟩, .other (.norder (2 ^ 64)),
      .unrecognized 256].all
      (fun d => !(Instr.build 32 32 1 0 0 .none .none [d]).wf) = true := by decide

/-- An unrecognized tag is the tag of no descriptor under the codes in force. -/
theorem test_wf_tags :
    let build (t : Nat) := Instr.build 32 32 1 0 0 .none .none [.unrecognized t]
    (build 8).tagsFit defaultPort = false ∧ (build 9).tagsFit defaultPort = true
      ∧ (build 8).tagsFit { defaultPort with tags := [1, 2, 3, 4, 5, 6, 7, 9] } = true := by decide

/-- Codes and tags of one byte, each its own. -/
theorem test_wf_port :
    defaultPort.wf = true ∧ ({ defaultPort with tags := [1, 2, 3, 4, 5, 6, 7, 7] } : PortCodes).wf = false
      ∧ ({ defaultPort with tags := [1, 2, 3, 4, 5, 6, 7, 256] } : PortCodes).wf = false
      ∧ ({ defaultPort with commands := [1, 2] } : PortCodes).wf = false := by decide

theorem test_wf_descriptor_instructions :
    [Instr.descBrdisp 0 (2 ^ 64), .descPtr 0 (2 ^ 64), .descUimm0 0 (2 ^ 64), .descSimm0 0 (2 ^ 64),
      .descMem ⟨none, none, none, 2 ^ 64, 0, 0, 0⟩, .build (2 ^ 64) 32 1 0 0 .none .none [],
      .build 32 (2 ^ 64) 1 0 0 .none .none [], .build 32 32 (2 ^ 64) 0 0 .none .none [],
      .build 32 32 1 (2 ^ 64) 0 .none .none [], .build 32 32 1 0 (2 ^ 64) .none .none []].all (fun i => !i.wf) = true := by
  decide

theorem test_wf_list_lengths (ds : List Descriptor) (ops : List DecodedOperand) (hd : 256 ≤ ds.length)
    (ho : 256 ≤ ops.length) :
    (Instr.build 32 32 1 0 0 .none .none ds).wf = false
      ∧ (Instr.initFromDecode { recordAt none with fields := {}, operands := ops }).wf = false :=
  ⟨by simp [Instr.wf, show ¬ ds.length < 256 by omega],
    by simp [Instr.wf, DecodedRecord.wf, show ¬ ops.length < 256 by omega]⟩

theorem test_wf_records :
    [{ recordAt none with fields := { order := [.reg0] } }, { recordAt none with fields := { norder := 1 } },
      { recordAt none with fields := { mode := 2 ^ 64 } }, { recordAt none with fields := { named := [(59, 2 ^ 64)] } }, { recordAt none with fields := { roundc := 2 ^ 64 } },
      { recordAt none with fields := { regs := { r8 := some ⟨.gpr64, 256⟩ } } },
      { recordAt none with fields := { base1 := some ⟨.gpr64, 256⟩ } }, { recordAt none with fields := {}, iclass := 2 ^ 64 },
      { recordAt none with fields := {}, length := 2 ^ 64 }, { recordAt (some ⟨2 ^ 64, 8⟩) with fields := {} },
      { recordAt (some ⟨0, 2 ^ 64⟩) with fields := {} }].all
      (fun d => !(Instr.initFromDecode d).wf && !(Instr.patchDisp d 0 8).wf) = true
      ∧ (Instr.patchImm0 { recordAt none with fields := {} } 0 (2 ^ 64)).wf = false := by
  decide

theorem test_wf_wire_values :
    [Instr.disp .w8 0x100, .disp .w16 0x10000, .brdisp .w32 0x100000000, .farptr .w16 0x10000 0,
      .farptr .w32 0x100000000 0, .imm0 (.value .w8 0x100)].all (fun i => !i.wf) = true := by decide

/-! ## Words written out from the spec's encodings -/

/-- Command codes of spec/30_encoding.md R100, the code in binary; operand bytes as in log 2. -/
theorem test_decode_commands_without_operands :
    decodesAll
      [(msg .command [0b00000100], .setRep), (msg .command [0b00000101], .clearRep),
        (msg .command [0b00000110], .setRepne), (msg .command [0b00000111], .clearRepne),
        (msg .command [0b00001000], .setHintTaken), (msg .command [0b00001001], .setHintNotTaken),
        (msg .command [0b00010111], .setRelbr), (msg .command [0b00011000], .setPtr),
        (msg .command [0b00011001], .setAgen), (msg .command [0b00011010], .setMem0),
        (msg .command [0b00011011], .setMem1)] = true := by decide

theorem test_decode_number_commands :
    decodesAll
      [(msg .command [0x00, 32, 0, 0, 0, 0, 0, 0, 0, 64, 0, 0, 0, 0, 0, 0, 0], .reqInit 32 64),
        (msg .command [0x01, 0x34, 0x12, 0, 0, 0, 0, 0, 0], .setIclass 0x1234),
        (msg .command [0x02, 8, 0, 0, 0, 0, 0, 0, 0], .setEosz 8),
        (msg .command [0x03, 16, 0, 0, 0, 0, 0, 0, 0], .setEasz 16),
        (msg .command [0x14, 4, 0, 0, 0, 0, 0, 0, 0], .setScale 4),
        (msg .command [0x1D, 7, 0, 0, 0, 0, 0, 0, 0], .getOperandOrder 7),
        (msg .command [0x21, 15, 0, 0, 0, 0, 0, 0, 0], .encode 15),
        (msg .command [0x22, 5, 0, 0, 0, 0, 0, 0, 0], .encodeNop 5)] = true := by decide

theorem test_decode_register_commands :
    decodesAll
      [(msg .command [0x0A, 8, 0, 0, 0, 0, 0, 0, 0, 4, 2], .setReg 8 edx),
        (msg .command [0x11, 5, 15], .setBase0 (some ⟨.gpr64, 15⟩)), (msg .command [0x12, 0, 0], .setBase1 none),
        (msg .command [0x13, 7, 31], .setIndex (some ⟨.xmm, 31⟩)), (msg .command [0x15, 13, 4], .setSeg0 (some defaultSpace.segFS)),
        (msg .command [0x16, 13, 0], .setSeg1 (some defaultSpace.segES)),
        (msg .command [0x1C, 1, 0, 0, 0, 0, 0, 0, 0, 10], .setOperandOrder 1 .mem0),
        (msg .command [0x1E, 32, 1], .setField (.zeroing true))] = true := by decide

theorem test_decode_value_commands :
    decodesAll
      [(msg .command [0x0B, 0x44, 0x33, 0x22, 0x11, 0, 0, 0, 0, 4, 0, 0, 0, 0, 0, 0, 0], .setDisp 0x11223344 4),
        (msg .command [0x0C, 0x7F, 0, 0, 0, 0, 0, 0, 0, 8, 0, 0, 0, 0, 0, 0, 0], .setDispBits 0x7F 8),
        (msg .command [0x0D, 0xFB, 0xFF, 0xFF, 0xFF, 0xFF, 0xFF, 0xFF, 0xFF, 32, 0, 0, 0, 0, 0, 0, 0], .setBrdisp (-5) 32),
        (msg .command [0x0E, 0x88, 0x77, 0x66, 0x55, 0x44, 0x33, 0x22, 0x11, 64, 0, 0, 0, 0, 0, 0, 0],
          .setUimm0 0x1122334455667788 64),
        (msg .command [0x0F, 0xFF, 0xFF, 0xFF, 0xFF, 8, 0, 0, 0, 0, 0, 0, 0], .setSimm0 (-1) 8),
        (msg .command [0x10, 1, 0, 0, 0, 0, 0, 0, 0], .setUimm1 1),
        (msg .command [0x20, 4, 0, 0, 0, 0, 0, 0, 0, 0x0D, 0, 0, 0, 0, 0, 0, 0], .emitBits 4 13)] = true := by decide

/-- A record's bytes: 8 zero bytes for each width, 0 for each other field (log 2); 0 operands; length 6; one location. -/
def recordBytes (loc : Nat → List Byte) : List Byte :=
  List.replicate 41 0 ++ List.replicate 18 0 ++ List.replicate 4 0 ++ List.replicate 8 0 ++ List.replicate 6 0
    ++ List.replicate 3 0 ++ List.replicate 32 0 ++ List.replicate 2 0 ++ List.replicate 9 0 ++ List.replicate 8 0
    ++ List.replicate 4 0 ++ List.replicate 9 0 ++ List.replicate 8 0 ++ List.replicate 3 0 ++ [0] ++ List.replicate 22 0
    ++ [1, 0, 0, 0, 0, 0, 0, 0] ++ [0] ++ [6, 0, 0, 0, 0, 0, 0, 0] ++ loc 0 ++ loc 1 ++ loc 2 ++ [0, 1]

def recordOf (loc : Nat → Option FieldLoc) : DecodedRecord := ⟨{}, 1, [], 6, loc 0, loc 1, loc 2, false, true⟩

/-- The location (2, 32) in place `k` of the three. -/
def locBytes (k : Nat) (j : Nat) : List Byte :=
  if j = k then [1, 2, 0, 0, 0, 0, 0, 0, 0, 32, 0, 0, 0, 0, 0, 0, 0] else [0]

theorem test_decode_record_commands :
    decodesAll
      [(msg .command (0x40 :: recordBytes (locBytes 0)), .initFromDecode (recordOf fun j => if j = 0 then some ⟨2, 32⟩ else none)),
        (msg .command (0x41 :: (recordBytes (locBytes 0) ++ [1, 0, 0, 0, 0, 0, 0, 0, 32, 0, 0, 0, 0, 0, 0, 0])),
          .patchDisp (recordOf fun j => if j = 0 then some ⟨2, 32⟩ else none) 1 32),
        (msg .command (0x42 :: (recordBytes (locBytes 1) ++ [2, 0, 0, 0, 0, 0, 0, 0, 32, 0, 0, 0, 0, 0, 0, 0])),
          .patchRelbr (recordOf fun j => if j = 1 then some ⟨2, 32⟩ else none) 2 32),
        (msg .command (0x43 :: (recordBytes (locBytes 2) ++ [3, 0, 0, 0, 0, 0, 0, 0, 32, 0, 0, 0, 0, 0, 0, 0])),
          .patchImm0 (recordOf fun j => if j = 2 then some ⟨2, 32⟩ else none) 3 32)] = true := by decide

theorem test_decode_build :
    decodesAll
      [(msg .command ([0x30] ++ [32, 0, 0, 0, 0, 0, 0, 0] ++ [16, 0, 0, 0, 0, 0, 0, 0] ++ [1, 0, 0, 0, 0, 0, 0, 0]
          ++ [32, 0, 0, 0, 0, 0, 0, 0] ++ [0, 0, 0, 0, 0, 0, 0, 0] ++ [1, 2, 2] ++ [1, 4, 0] ++ [9]),
        .build 32 16 1 32 0 .rep .notTaken [.reg eax, .unrecognized 9])] = true := by decide

/-- Descriptor tags of R101. -/
theorem test_decode_descriptors :
    decodesAll
      [(msg .descriptor [1, 4, 2], .descReg edx),
        (msg .descriptor [2, 0xFB, 0xFF, 0xFF, 0xFF, 32, 0, 0, 0, 0, 0, 0, 0], .descBrdisp (-5) 32),
        (msg .descriptor [3, 4, 3, 2, 1, 16, 0, 0, 0, 0, 0, 0, 0], .descPtr 0x01020304 16),
        (msg .descriptor [4, 0, 1, 0, 0, 0, 0, 0, 0, 16, 0, 0, 0, 0, 0, 0, 0], .descUimm0 0x100 16),
        (msg .descriptor [5, 0xFF, 0xFF, 0xFF, 0xFF, 8, 0, 0, 0, 0, 0, 0, 0], .descSimm0 (-1) 8),
        (msg .descriptor [6, 0xAB], .descImm1 0xAB),
        (msg .descriptor ([7, 5, 5, 5, 1, 13, 4] ++ [8, 0, 0, 0, 0, 0, 0, 0] ++ [0x10, 0, 0, 0, 0, 0, 0, 0]
            ++ [8, 0, 0, 0, 0, 0, 0, 0] ++ [32, 0, 0, 0, 0, 0, 0, 0]),
          .descMem ⟨some ⟨.gpr64, 5⟩, some ⟨.gpr64, 1⟩, some defaultSpace.segFS, 8, 0x10, 8, 32⟩),
        (msg .descriptor [8, 31, 2, 0, 0, 0, 0, 0, 0, 0], .descOther (.roundc 2))] = true := by decide

/-- Bytes of R103 to R105, in binary as the table has them. -/
theorem test_decode_prefixes_and_escapes :
    decodesAll
      [(msg .wire [0b00100110], .pfxSegEs), (msg .wire [0b00101110], .pfxSegCs), (msg .wire [0b00110110], .pfxSegSs),
        (msg .wire [0b00111110], .pfxSegDs), (msg .wire [0b01100100], .pfxSegFs), (msg .wire [0b01100101], .pfxSegGs),
        (msg .wire [0b01100110], .pfxOsz), (msg .wire [0b01100111], .pfxAsz), (msg .wire [0b11110010], .pfxRepne),
        (msg .wire [0b11110011], .pfxRep), (msg .wire [0b01001001], .rex 1 0 0 1), (msg .wire [0b00001111], .escMap1),
        (msg .wire [0b00001111, 0b00111000], .escMap2), (msg .wire [0b00001111, 0b00111010], .escMap3)] = true := by
  decide

/-- Layouts of R106 to R114, one field at a time set. -/
theorem test_decode_wire_fields :
    decodesAll
      [(msg .wire [0b11000101, 0b01101110], .vex2 ⟨0, 13, 1, 2⟩),
        (msg .wire [0b11000100, 0b01000001, 0b11101100], .vex3 ⟨0, 1, 0, 1, 1, 13, 1, 0⟩),
        (msg .wire [0b01100010, 0b11110001, 0b01101100, 0b01001001], .evex ⟨1, 1, 1, 1, 1, 0, 13, 0, 0, 2, 0, 1, 1⟩),
        (msg .wire [0b01100010, 0b10100010, 0b11101101, 0b10110110], .evex ⟨1, 0, 1, 0, 2, 1, 13, 1, 1, 1, 1, 0, 6⟩),
        (msg .opcodeByte [0b10111010], .opcode 0xBA), (msg .modrmByte [0b10000010], .modrm 2 0 2),
        (msg .sibByte [0b11001100], .sib 3 1 4), (msg .dispField [4, 0x44, 0x33, 0x22, 0x11], .disp .w32 0x11223344),
        (msg .brdispField [2, 0x34, 0x12], .brdisp .w16 0x1234),
        (msg .farPointer [2, 0x34, 0x12, 0x78, 0x56], .farptr .w16 0x1234 0x5678),
        (msg .imm0Field [1, 0xFF], .imm0 (.value .w8 0xFF)), (msg .imm0Field [0, 0b10100101], .imm0 (.is4 10 5)),
        (msg .imm1Byte [1], .imm1 1)] = true := by decide

/-- The rows of R115. -/
theorem test_decode_nops :
    decodesAll
      [(msg .nopRow [0x90], .nop1), (msg .nopRow [0x66, 0x90], .nop2), (msg .nopRow [0x0F, 0x1F, 0x00], .nop3),
        (msg .nopRow [0x0F, 0x1F, 0x40, 0x00], .nop4), (msg .nopRow [0x0F, 0x1F, 0x44, 0x00, 0x00], .nop5),
        (msg .nopRow [0x66, 0x0F, 0x1F, 0x44, 0x00, 0x00], .nop6),
        (msg .nopRow [0x0F, 0x1F, 0x80, 0x00, 0x00, 0x00, 0x00], .nop7),
        (msg .nopRow [0x0F, 0x1F, 0x84, 0x00, 0x00, 0x00, 0x00, 0x00], .nop8),
        (msg .nopRow [0x66, 0x0F, 0x1F, 0x84, 0x00, 0x00, 0x00, 0x00, 0x00], .nop9)] = true := by decide

/-- The patterns of spec/42_table_lookup.md R234, with bytes of the rules' examples in the variable bits. -/
theorem test_decode_iforms :
    decodesAll
      [(msg .iformRow [0x03, 0x82], .addGprvMemv), (msg .iformRow [0x01, 0xD9], .addGprvGprv01),
        (msg .iformRow [0x83, 0x45, 0xFF], .addMemvImmb), (msg .iformRow [0x88, 0xC6], .movGpr8Gpr8),
        (msg .iformRow [0xBA], .movGprvImmv), (msg .iformRow [0xE9], .jmpRelbrd), (msg .iformRow [0x74], .jzRelbrb),
        (msg .iformRow [0x0F, 0xB6, 0x00], .movzxGprvMemb), (msg .iformRow [0xC5, 0xEC, 0x58, 0xCB], .vaddpsVexRrr),
        (msg .iformRow [0xC5, 0xEC, 0x58, 0x08], .vaddpsVexRrm),
        (msg .iformRow [0x62, 0xF1, 0x6C, 0x49, 0x58, 0xCB], .vaddpsEvexRkrr), (msg .iformRow [0xC8], .enterImmwImmb),
        (msg .iformRow [0xA4], .movsb)] = true := by decide

/-- Reserved encodings are refused by name: a code with no row (R118), bits that must be 0 or 1 in EVEX (R108), a ModRM that
is no register (R234), class 0 with an offset. -/
theorem test_decode_refuses :
    (decode (msg .command [0x1F]) = .error (.unknownCommand 0x1F)) ∧ decode (msg .command []) = .error .truncated
      ∧ decode (msg .wire [0x62, 0x09, 0x04, 0x00]) = .error .unknownRow
      ∧ decode (msg .iformRow [0x01, 0x00]) = .error .unknownRow ∧ decode (msg .descriptor [9]) = .error (.unknownTag 9)
      ∧ decode (msg .command [0x11, 0, 16]) = .error .unknownRegister := ⟨rfl, rfl, rfl, rfl, rfl, rfl⟩

/-! ## One step, against the spec's vectors -/

/-- spec/43_encode_dispatch.md R250: `03 82 44 33 22 11`. -/
theorem test_encode_literal :
    encodedAs [0x03, 0x82, 0x44, 0x33, 0x22, 0x11] (exec (.encode 15) (holding literalRequest 15)) = true := by decide

/-- spec/43_encode_dispatch.md R279: one byte short. -/
theorem test_encode_one_byte_short :
    (returned (exec (.encode 5) (holding literalRequest 15))).encodeCode = some .bufferTooShort := by decide

/-- spec/41_field_encoders.md R192: R13 without displacement takes a zero byte; R185: scale 3 fails. -/
theorem test_add_r13_forces_displacement :
    encodedAs [0x41, 0x03, 0x45, 0x00] (exec .addGprvMemv (holding (addRequest (some ⟨.gpr64, 13⟩) none 0) 15)) = true := by
  decide

theorem test_add_bad_scale :
    (returned (exec .addGprvMemv (holding (addRequest (some ⟨.gpr64, 0⟩) (some ⟨.gpr64, 1⟩) 3) 15))).encodeCode =
      some .generalError := by decide

/-- spec/43_encode_dispatch.md R263, R264 examples: `C5 EC`, `62 F1 6C 49`. -/
theorem test_vaddps_ymm :
    encodedAs [0xC5, 0xEC, 0x58, 0xCB] (exec .vaddpsVexRrr (holding
      { mode := 64, iclass := iclassVADDPS, order := [.reg0, .reg1, .reg2], norder := 3,
        regs := { r0 := some ⟨.ymm, 1⟩, r1 := some ⟨.ymm, 2⟩, r2 := some ⟨.ymm, 3⟩ } } 15)) = true := by decide

theorem test_vaddps_zmm :
    encodedAs [0x62, 0xF1, 0x6C, 0x49, 0x58, 0xCB] (exec .vaddpsEvexRkrr (holding
      { mode := 64, iclass := iclassVADDPS, order := [.reg0, .reg1, .reg2, .reg3], norder := 4,
        regs := { r0 := some ⟨.zmm, 1⟩, r1 := some ⟨.mask, 1⟩, r2 := some ⟨.zmm, 2⟩, r3 := some ⟨.zmm, 3⟩ } } 15)) =
      true := by decide

/-- spec/43_encode_dispatch.md R259: `F3 A4`. -/
theorem test_movsb_rep :
    encodedAs [0xF3, 0xA4] (exec .movsb (holding { mode := 64, iclass := iclassMOVSB, rep := .rep } 15)) = true := by decide

/-- spec/40_bit_emitter.md R150: with capacity 1 and an old byte EE, EMIT(2, 10b) gives 80 and cursor 2. -/
theorem test_emit_two_bits :
    bytesAfter 1 (exec (.emitBits 2 2) (atBit 0 1 [(0, 0xEE)])) = [some 0x80]
      ∧ returned (exec (.emitBits 2 2) (atBit 0 1 [(0, 0xEE)])) = .cursor 2 := by decide

/-- spec/20_memory.md R75: 24 bits on the general path keep their order, 16 on the fast path are swapped. -/
theorem test_emit_byte_orders :
    bytesAfter 3 (exec (.emitBits 24 0xABCDEF) (atBit 0 3 [])) = [some 0xAB, some 0xCD, some 0xEF]
      ∧ bytesAfter 2 (exec (.emitBits 16 0xBEEF) (atBit 0 2 [])) = [some 0xEF, some 0xBE] := by decide

/-- spec/47_encode_nop.md R380: `0F 1F 44 00 00`, and length 10 fails. -/
theorem test_nop_five :
    bytesAfter 6 (exec (.encodeNop 5) State.reset) = [some 0x0F, some 0x1F, some 0x44, some 0x00, some 0x00, none] := by
  decide

theorem test_nop_ten : returned (exec (.encodeNop 10) State.reset) = .code .generalError := by decide

/-- spec/46_bridge_patch.md R364: `03 82 44 33 22 11` becomes `03 82 78 56 34 12`. -/
theorem test_patch_disp :
    bytesAfter 6 (exec (.patchDisp (recordAt (some ⟨2, 32⟩)) 0x12345678 32)
      { State.reset with buf := [(0, 0x03), (1, 0x82), (2, 0x44), (3, 0x33), (4, 0x22), (5, 0x11)] }) =
      [some 0x03, some 0x82, some 0x78, some 0x56, some 0x34, some 0x12] := by decide

/-- spec/45_operand_builder.md R355. -/
theorem test_build_literal :
    exec (.build 32 32 iclassADD 32 0 .none .none [.reg eax, .mem ⟨edx, none, none, 0, 0x11223344, 32, 32⟩]) State.reset =
      .next { State.reset with rq := literalRequest, regcnt := 1, memcnt := 1, loopIndex := 2, result := .flag true } := rfl

/-- A step takes one message: SET_REP. -/
theorem test_step_set_rep :
    step { State.reset with input := [msg .command [4], msg .command [5]] } =
      .next { State.reset with
        rq := { rep := .rep }
        result := .code .noError
        input := [msg .command [5]] } := rfl

/-- The table word of NOP5 and of the GS prefix run as the next step. -/
theorem test_fetch_nop5 :
    bytesAfter 2 (step (State.reset.withFetchWord 40 0x0F1F440000)) = [some 0x0F, some 0x1F] := by decide

/-- spec/10_state.md R37, R38: R16D is no member of the default space; of a space with 17 members it is. -/
theorem test_step_asks_the_register_space :
    let s := { State.reset with input := [msg .command [0x11, 4, 16]] }
    step s = .refused (.notAnInstruction .unknownRegister)
      ∧ ∃ t, step { s with params := { defaultParams with registers := { defaultSpace with classes := [(.gpr32, 17)] } } } =
          .next t ∧ t.rq.base0 = some ⟨.gpr32, 16⟩ := ⟨rfl, _, rfl, rfl⟩

/-- A table with patterns of its own (spec/42_table_lookup.md R221, R225, R226): the field-binding pattern takes the ModRM.reg
digit from the field-value table, the second emission pattern puts a further named field into the second byte. -/
def ownTable : IsaTable where
  groupOf := [(7, 0)]
  groups := [[{ iform := 1, byShape := false, guard := .isClass (.slot 0) .mmx }, { iform := 0 }]]
  iforms := [{ baseRow 7 0x90 [] with fvStart := 9 }, { baseRow 7 0xF6 [] with fbIndex := 1, emitIndex := 1, fvStart := 1 }]
  bindings := [referenceBinding, [{ op := .set .reg (.fieldValue 1) }, { op := .place .modrmRm 0 }]]
  emissions := [referenceEmission,
    [{ op := .opcode }, { op := .fields [(.const 2, .derived .mod), (.const 3, .derived .reg), (.const 3, .derived .rm)] },
      { op := .fields [(.const 16, .named 60)] }]]
  fieldValues := [0, 1, 6]

def ownRequest : Request :=
  { mode := 32, iclass := 7, regs := { r0 := some ⟨.mmx, 3⟩ }, named := [(60, 0x1234)], order := [.reg0], norder := 1 }

theorem test_own_patterns :
    encodedAs [0xF6, 0xF3, 0x34, 0x12] (exec (.encode 4)
      { holding ownRequest 4 with params := { defaultParams with table := some ownTable, namedFields := [60] } }) = true := by
  decide

/-- spec/42_table_lookup.md R222, R226 (2): a guard that reads IMM0 breaks the contract on T, and so does a displacement at a
cursor that four bits of a table's own step left inside a byte. -/
theorem test_table_contract :
    let run (t : IsaTable) := exec (.encode 15) { holding literalRequest 15 with params := { defaultParams with table := some t } }
    let guarded (e : Expr) := run { fixtureT0 with groups := [[{ iform := 0, guard := e }]] }
    encodedAs [0x03, 0x82, 0x44, 0x33, 0x22, 0x11] (guarded (.field .mode)) = true
      ∧ guarded (.field .imm0) = .refused .tableIllFormed ∧ guarded (.field .smode) = .refused .tableIllFormed
      ∧ run { fixtureT0 with
          emissions := [[{ op := .opcode }, { op := .fields [(.const 4, .const 0)] }, { op := .displacement }]] } =
          .refused .tableIllFormed :=
  ⟨by decide, rfl, rfl, rfl⟩

/-- A pattern reads SMODE (spec/91_not_in_source.md N12, log 48). -/
theorem test_pattern_reads_smode :
    encodedAs [32] (exec (.encode 1) { holding literalRequest 1 with
      params := { defaultParams with table := some { fixtureT0 with emissions := [[{ op := .fields [(.const 8, .field .smode)] }]] } } }) =
      true := by decide

/-- spec/41_field_encoders.md R172, R178, R180: a mask register has no place from 16 on outside EVEX space, from 32 on nowhere; AH
in VEX.vvvv and as IS4 sets NOREX; IS4 of AH is its offset. -/
theorem test_mask_vvvv_and_is4 :
    encRegMask .vex ⟨.mask, 16⟩ {} = generalError ∧ encRegMask .evex ⟨.mask, 32⟩ {} = generalError
      ∧ encRegMask .evex ⟨.mask, 31⟩ {} = .ok { aaa := 7 }
      ∧ encRegVvvv .vex ⟨.gpr8h, 0⟩ {} = .ok { vvvv := 4, norex := true }
      ∧ encRegIs4 .vex ⟨.gpr8h, 0⟩ {} = .ok { norex := true } ∧ encRegIs4 .vex ⟨.xmm, 16⟩ {} = generalError
      ∧ is4Number ⟨.gpr8h, 0⟩ = 0 ∧ is4Number ⟨.xmm, 31⟩ = 15 := by decide

/-- spec/60_exceptions.md R391 (log 32): the code of commands that return another value. -/
theorem test_code_numbers :
    [CmdResult.cursor 2, .flag true, .name .mem0, .flag false, .code .generalError].map CmdResult.returnCode =
      [some .noError, some .noError, some .noError, none, some .generalError] := by decide

/-- Parameters P19 and P20 in use: 512 bits under the value 9, SET_REP under the code 84. -/
theorem test_interface_numbers :
    let s := { State.reset with
      params := { defaultParams with port := otherPort, lengths := { bits256 := 5, bits512 := 9 } }
      input := [msg .command [0x84]] }
    (∃ t, step s = .next t ∧ t.rq.rep = .rep)
      ∧ (∃ t, exec (.setField (.vl 9)) s = .next t ∧ t.rq.vl = 2) ∧ ∀ t, exec (.setField (.vl 1)) s ≠ .next t := by
  refine ⟨⟨_, rfl, rfl⟩, ⟨_, rfl, rfl⟩, fun t h => ?_⟩
  cases h

/-! ## Witnesses for the hypotheses of the statements, at the boundaries of their clauses -/

theorem test_meets_DecodeOfEncode :
    (otherPort.wf = true ∧ (Instr.setRep).wf = true ∧ (Instr.setRep).tagsFit otherPort = true)
      ∧ decodeAt otherPort (msg .command [0x84]) = .ok .setRep
      ∧ decodeAt otherPort (msg .command [0x04]) = .error (.unknownCommand 0x04)
      ∧ decodeAt otherPort (msg .descriptor [3, 0xAB]) = .ok (.descImm1 0xAB)
      ∧ (defaultPort.wf = true ∧ (Instr.reqInit (2 ^ 64 - 1) 0).wf = true ∧ (Instr.disp .w8 0xFF).wf = true) := by
  refine ⟨by decide, rfl, rfl, rfl, by decide⟩

theorem test_meets_StepRuns :
    (State.reset.resetRequest = false ∧ State.reset.input = [])
      ∧ decodeAt State.reset.params.port (msg .command [4]) = .ok .setRep
      ∧ decodeAt State.reset.params.port (msg .command [0x1F]) = .error (.unknownCommand 0x1F)
      ∧ (Instr.setBase0 (some ⟨.gpr32, 15⟩)).inSpace State.reset.params.registers = true
      ∧ decodeAt State.reset.params.port (msg .command [0x11, 4, 16]) = .ok (.setBase0 (some ⟨.gpr32, 16⟩))
      ∧ (Instr.setBase0 (some ⟨.gpr32, 16⟩)).inSpace State.reset.params.registers = false :=
  ⟨⟨rfl, rfl⟩, rfl, rfl, rfl, rfl, rfl⟩

theorem test_meets_BlockReset : ({ State.reset with resetRequest := true, phase := .fatal } : State).resetRequest = true := rfl

/-- The premise of every statement about an idle engine. -/
theorem test_meets_idle : State.reset.phase = .idle := rfl

/-- Both clauses of REQ_INIT, SET_EOSZ, SET_EASZ, SET_REG, SET_DISP, SET_DISP_BITS, SET_BRDISP at a boundary. -/
theorem test_meets_setter_ranges :
    returned (exec (.reqInit 16 64) State.reset) = .code .noError ∧ exec (.reqInit 8 64) State.reset = .refused .modeValue
      ∧ returned (exec (.setEosz 8) State.reset) = .code .noError ∧ returned (exec (.setEosz 0) State.reset) = .noResult
      ∧ returned (exec (.setEasz 64) State.reset) = .code .noError ∧ returned (exec (.setEasz 8) State.reset) = .noResult
      ∧ returned (exec (.setReg 8 eax) State.reset) = .code .noError ∧ exec (.setReg 9 eax) State.reset = .refused .registerSlot
      ∧ returned (exec (.setDisp 1 4) State.reset) = .code .noError
      ∧ exec (.setDisp 1 8) State.reset = .refused .displacementWidth
      ∧ returned (exec (.setDispBits 1 32) State.reset) = .code .noError
      ∧ exec (.setDispBits 1 64) State.reset = .refused .displacementWidth
      ∧ returned (exec (.setBrdisp 1 8) State.reset) = .code .noError
      ∧ exec (.setBrdisp 1 0) State.reset = .refused .branchDisplacementWidth :=
  ⟨rfl, rfl, rfl, rfl, rfl, rfl, rfl, rfl, rfl, rfl, rfl, rfl, rfl, rfl⟩

theorem test_meets_SegmentSetters :
    (∀ g, some defaultSpace.segGS = some g → g.cls = .seg) ∧ (⟨.gpr64, 0⟩ : Reg).cls ≠ .seg := by
  refine ⟨fun g h => ?_, by decide⟩
  cases h
  rfl

theorem test_meets_OrderCommands : (7 < State.reset.params.maxOperands) ∧ State.reset.params.maxOperands ≤ 8 := by decide

theorem test_meets_SetField :
    let s := { State.reset with params := { defaultParams with namedFields := [59] } }
    (s.params.lengths.distinct = true ∧ returned (exec (.setField (.vl 2)) s) = .code .noError
        ∧ returned (exec (.setField (.roundc 4)) s) = .code .noError)
      ∧ (returned (exec (.setField (.eosz 0)) s) = .code .noError ∧ returned (exec (.setField (.easz 0)) s) = .code .noError)
      ∧ (∀ g, (none : RegOrInvalid) = some g → g.cls = .seg)
      ∧ (returned (exec (.setField (.orderEntry 7 .mem0)) s) = .code .noError
        ∧ exec (.setField (.orderEntry 8 .mem0)) s = .refused .operandIndex)
      ∧ returned (exec (.setField (.norder 8)) s) = .code .noError
      ∧ (59 ∈ s.params.namedFields ∧ namedWf s.rq.named = true ∧ 60 ∉ s.params.namedFields)
      ∧ exec (.setField (.named 60 1)) s = .refused .unknownField :=
  ⟨⟨rfl, rfl, rfl⟩, ⟨rfl, rfl⟩, (by simp), ⟨rfl, rfl⟩, rfl, ⟨by decide, rfl, by decide⟩, rfl⟩

theorem test_meets_AlignedEmit :
    let s := atBit 8 9 []
    (isEmission .pfxRep = true ∧ State.reset.evLive = false)
      ∧ s.phase = .idle ∧ s.evLive = true ∧ s.ev.bitOffset % 8 = 0 ∧ s.ev.bitOffset + 64 ≤ 8 * s.ev.ilen := by decide

/-- Inside the byte 4F, at bit 4, with 12 bits that end at the capacity: the old low bits are OR-ed. -/
theorem test_meets_GeneralEmit :
    let s := atBit 4 2 [(0, 0x4F)]
    s.phase = .idle ∧ s.evLive = true ∧ ¬ (s.ev.bitOffset % 8 = 0 ∧ (12 = 8 ∨ 12 = 16 ∨ 12 = 32 ∨ 12 = 64))
      ∧ s.ev.bitOffset + 12 ≤ 8 * s.ev.ilen ∧ s.buf.read (s.ev.bitOffset / 8) = some 0x4F
      ∧ bytesAfter 2 (exec (.emitBits 12 0xABC) s) = [some 0x4F, some 0xBC] := by decide

theorem test_meets_EmitBitsStops :
    exec (.emitBits 0 1) (atBit 0 1 []) = .refused .emitWidth ∧ exec (.emitBits 65 1) (atBit 0 15 []) = .refused .emitWidth
      ∧ returned (exec (.emitBits 9 1) (atBit 0 1 [])) = .code .bufferTooShort
      ∧ exec (.emitBits 4 1) (atBit 4 1 []) = .refused .unestablishedByte := ⟨rfl, rfl, rfl, rfl⟩

theorem test_meets_Fields :
    let e : Emission := { cap := 1, off := 0, buf := [(0, 0xEE)] }
    let fields := [(2, 2), (3, 0), (3, 12)]
    (∀ f ∈ fields, 1 ≤ f.1 ∧ f.1 ≤ 8) ∧ (fields.map Prod.fst).sum = 8 ∧ e.off % 8 = 0 ∧ e.off + 8 ≤ 8 * e.cap := by decide

/-- The premise of the wire statements, with no byte to spare. -/
theorem test_meets_cursorAt :
    (atBit 112 15 []).cursorAt 14 1 ∧ (atBit 8 3 []).cursorAt 1 2 ∧ (atBit 0 3 []).cursorAt 0 3
      ∧ (atBit 0 4 []).cursorAt 0 4 ∧ (atBit 0 6 []).cursorAt 0 6 ∧ (atBit 0 8 []).cursorAt 0 8 :=
  ⟨⟨rfl, rfl, rfl, by decide⟩, ⟨rfl, rfl, rfl, by decide⟩, ⟨rfl, rfl, rfl, by decide⟩, ⟨rfl, rfl, rfl, by decide⟩,
    ⟨rfl, rfl, rfl, by decide⟩, ⟨rfl, rfl, rfl, by decide⟩⟩

theorem test_meets_NopRows : State.reset.params.nopTable = defaultNopTable := rfl

theorem test_meets_NopOfAnotherLength : returned (exec (.encodeNop 0) State.reset) = .code .generalError := rfl

theorem test_meets_BuildWithoutOperands :
    returned (exec (.build 16 64 1 8 0 .none .none []) State.reset) = .flag true
      ∧ returned (exec (.build 16 64 1 8 8 .none .none []) State.reset) = .noResult
      ∧ exec (.build 16 64 1 0 0 .none .none (List.replicate 9 (.imm1 0))) State.reset = .refused .operandCount
      ∧ exec (.build 0 64 1 0 0 .none .none []) State.reset = .refused .modeValue := ⟨rfl, rfl, rfl, rfl⟩

theorem test_meets_BuildIsItsTurns :
    (∃ t, exec (.build 32 32 1 0 0 .none .none (List.replicate 7 (.imm1 0))) State.reset = .next t ∧ t.result = .flag true)
      ∧ turnOf (.reg eax) = some (.descReg eax)
      ∧ (List.replicate 7 (Descriptor.imm1 0) ++ [Descriptor.unrecognized 9]).length ≤ State.reset.params.maxOperands :=
  ⟨⟨_, rfl, rfl⟩, rfl, by decide⟩

theorem test_meets_OperandTurns :
    State.reset.rq.norder < State.reset.params.maxOperands
      ∧ returned (exec (.descReg eax) { State.reset with regcnt := 8 }) = .flag true
      ∧ exec (.descReg eax) { State.reset with regcnt := 9 } = .refused .registerOperandCount
      ∧ returned (exec (.descBrdisp 1 8) State.reset) = .flag true ∧ returned (exec (.descPtr 1 32) State.reset) = .flag true :=
  ⟨by decide, rfl, rfl, rfl, rfl⟩

theorem test_meets_MemoryTurns :
    returned (exec (.descMem ⟨edx, none, none, 0, 0, 32, 0⟩) State.reset) = .flag true
      ∧ returned (exec (.descMem ⟨edx, none, none, 1, 0, 0, 0⟩) { State.reset with memcnt := 1 }) = .flag true
      ∧ exec (.descMem ⟨edx, none, none, 2, 0, 0, 0⟩) { State.reset with memcnt := 1 } = .refused .secondMemoryFields
      ∧ exec (.descMem ⟨edx, none, none, 0, 0, 0, 0⟩) { State.reset with memcnt := 2 } = .refused .thirdMemoryOperand
      ∧ State.reset.params.registers.namesDistinct = true :=
  ⟨rfl, rfl, rfl, rfl, by decide⟩

/-- The address width a first memory operand leaves. -/
def easzAfter : Result → Option Nat
  | .next t => some t.rq.easz
  | .fault _ | .refused _ => none

/-- Each class of R344, and the other classes: AH, K1, MM0, CR0, a vector index without base, a further member of class IP, no
register. -/
theorem test_meets_MemoryTurns_widths :
    let s := { State.reset with rq := { easz := 32 } }
    let width (base index : RegOrInvalid) := easzAfter (exec (.descMem ⟨base, index, none, 0, 0, 0, 0⟩) s)
    [width (some ⟨.gpr16, 0⟩) none, width (some ⟨.gpr64, 0⟩) none, width none (some ⟨.gpr64, 0⟩),
        width (some defaultSpace.regRIP) none, width (some defaultSpace.regIP) none] =
        [some 16, some 64, some 64, some 64, some 16]
      ∧ [width (some ⟨.gpr8h, 0⟩) none, width (some ⟨.mask, 1⟩) none, width (some ⟨.mmx, 0⟩) none,
        width (some ⟨.cr, 0⟩) (some ⟨.gpr64, 0⟩), width none (some ⟨.zmm, 1⟩), width (some ⟨.ip, 9⟩) none, width none none] =
        List.replicate 7 (some 32) := by decide

theorem test_meets_OtherTurn :
    (∃ t, exec (.setField (.zeroing true)) State.reset = .next t)
      ∧ exec (.setField (.named 59 1)) State.reset = .refused .unknownField := ⟨⟨_, rfl⟩, rfl⟩

theorem test_meets_TurnsAgree :
    (∃ t, exec (.descReg eax) { State.reset with regcnt := 8 } = .next t) ∧ (∃ t, exec (.descBrdisp 1 8) State.reset = .next t)
      ∧ (∃ t, exec (.descPtr 1 16) State.reset = .next t) ∧ (∃ t, exec (.descUimm0 1 7) State.reset = .next t)
      ∧ (∃ t, exec (.descSimm0 1 32) State.reset = .next t) ∧ (∃ t, exec (.descImm1 1) State.reset = .next t)
      ∧ (∃ t, exec (.descMem ⟨edx, none, none, 0, 1, 32, 0⟩) State.reset = .next t)
      ∧ (∃ t, exec (.descMem ⟨edx, none, some defaultSpace.segGS, 1, 0, 0, 0⟩) { State.reset with memcnt := 1 } = .next t)
      ∧ ∃ t, exec (.descOther (.zeroing true)) State.reset = .next t :=
  ⟨⟨_, rfl⟩, ⟨_, rfl⟩, ⟨_, rfl⟩, ⟨_, rfl⟩, ⟨_, rfl⟩, ⟨_, rfl⟩, ⟨_, rfl⟩, ⟨_, rfl⟩, ⟨_, rfl⟩⟩

theorem test_meets_InitFromDecode :
    State.reset.params.lengths.lengthOf literalRequest.vl = some 0
      ∧ legalRequest State.reset.params.maxOperands { literalRequest with vl := 0, order := [], norder := 0, named := [] } = true
      ∧ namedWf [(59, 1), (60, 2)] = true
      ∧ ((List.replicate 8 (⟨.reg0, false⟩ : DecodedOperand)).filter fun o => !o.suppressed).length
          ≤ State.reset.params.maxOperands
      ∧ State.reset.params.maxOperands
          < ((List.replicate 9 (⟨.reg0, false⟩ : DecodedOperand)).filter fun o => !o.suppressed).length := by decide

theorem test_meets_PatchOverwrites :
    (2 + 32 / 8 ≤ (recordAt (some ⟨2, 32⟩)).length) ∧ (recordAt (some ⟨2, 32⟩)).dispLoc = some ⟨2, 32⟩
      ∧ (recordAt (some ⟨2, 32⟩)).brdispLoc = some ⟨2, 32⟩ ∧ (recordAt (some ⟨5, 8⟩)).imm0Loc = some ⟨5, 8⟩ := by decide

theorem test_meets_PatchFails :
    (∀ l, (recordAt none).dispLoc = some l → l.width ≠ 32)
      ∧ (∀ l, (recordAt (some ⟨2, 32⟩)).imm0Loc = some l → l.width ≠ 8) := by
  refine ⟨fun l h => by simp [recordAt] at h, fun l h => ?_⟩
  simp only [recordAt, Option.some.injEq] at h
  subst h
  decide

theorem test_meets_VectorLength :
    (inferLength { vl := 1, regs := { r1 := some ⟨.zmm, 1⟩ } }).vl = 1
      ∧ (inferLength { regs := { r0 := some ⟨.xmm, 1⟩, r8 := some ⟨.zmm, 1⟩ } }).vl = 2
      ∧ (inferLength { regs := { r0 := some ⟨.xmm, 1⟩ }, index := some ⟨.ymm, 1⟩ }).vl = 1
      ∧ (inferLength { regs := { r0 := some ⟨.xmm, 1⟩ } }).vl = 0 := by decide

/-- A request that binds; a class that is INVALID, has no group, matches no row: GENERAL_ERROR. -/
theorem test_meets_Bind :
    (bindTable fixtureT0 literalRequest = .ok (referenceBound 0 rowAddGprvMemv)
        ∧ ruleBound fixtureT0 { iform := 0 } = .ok (referenceBound 0 rowAddGprvMemv)
        ∧ ruleHolds { iform := 0 } (referenceBound 0 rowAddGprvMemv) literalRequest = .ok true)
      ∧ bindTable fixtureT0 { literalRequest with iclass := 0 } = generalError
      ∧ (groupIndex 9 fixtureT0.groupOf = none ∧ bindTable fixtureT0 { literalRequest with iclass := 9 } = generalError)
      ∧ (groupIndex iclassJMP fixtureT0.groupOf = some 2 ∧ fixtureT0.groups[2]? = some [{ iform := 5 }]
        ∧ ruleBound fixtureT0 { iform := 5 } = .ok (referenceBound 5 rowJmpRelbrd)
        ∧ ruleHolds { iform := 5 } (referenceBound 5 rowJmpRelbrd) { literalRequest with iclass := iclassJMP } = .ok false
        ∧ bindTable fixtureT0 { literalRequest with iclass := iclassJMP } = generalError) :=
  ⟨⟨rfl, rfl, rfl⟩, rfl, ⟨rfl, rfl⟩, rfl, rfl, rfl, rfl, rfl⟩

/-- [BX+SI], [BP], [SI] with a 16-bit displacement, a bare 16-bit displacement; [SI+BX] is no pair; the stops. -/
theorem test_meets_SixteenBit :
    let g := defaultSpace
    let mem := encMem defaultParams .legacy 16
    defaultParams.registers = g ∧ g.namesDistinct = true
      ∧ (mem { base0 := some g.regBX, index := some g.regSI, scale := 1 }).toOption.map
          (fun q => (q.derived.mod, q.derived.rm)) = some (0, 0)
      ∧ (mem { base0 := some g.regBP }).toOption.map (fun q => (q.derived.mod, q.derived.rm, q.dispWidth)) = some (1, 6, 8)
      ∧ (mem { base0 := some g.regSI, dispWidth := 16 }).toOption.map (fun q => (q.derived.mod, q.derived.rm)) = some (2, 4)
      ∧ (mem { dispWidth := 16 }).toOption.map (fun q => (q.derived.mod, q.derived.rm)) = some (0, 6)
      ∧ mem { base0 := some g.regSI, index := some g.regBX } = generalError ∧ mem { base0 := some g.regRIP } = generalError
      ∧ mem { index := some ⟨.xmm, 1⟩ } = generalError ∧ mem { base0 := some g.regBX, scale := 2 } = refuse .scaleUnder16Bit
      ∧ mem { dispWidth := 8 } = refuse .noBaseDisplacementWidth
      ∧ mem { base0 := some g.regBX, dispWidth := 32 } = refuse .displacementWidthForAddressSize
      ∧ mem { base0 := eax } = refuse .addressClassMismatch ∧ mem { base0 := some g.regIP } = refuse .instructionPointerBase
      ∧ mem { base0 := some g.regBX, index := eax } = refuse .addressClassMismatch :=
  ⟨rfl, rfl, rfl, rfl, rfl, rfl, rfl, rfl, rfl, rfl, rfl, rfl, rfl, rfl, rfl⟩

/-- Every clause at a boundary: R15, R12; [R13 + R12*8]; no base; an index alone; RIP; XMM31 in EVEX space, with a base and
ZMM23 alone; the refusals. -/
theorem test_meets_MemoryOperandBits :
    let mem := encMem defaultParams .evex 64
    let sib (q : Request) := (q.derived.mod, q.derived.rm, q.derived.sibscale, q.derived.sibindex, q.derived.sibbase)
    let ext (q : Request) := (q.derived.rexb, q.derived.rexx, q.derived.vexdest4)
    addressedBy 64 .gpr64 ∧ addressedBy 32 .gpr32 ∧ scaleOf 8 3
      ∧ (mem { base0 := some ⟨.gpr64, 15⟩, dispWidth := 8 }).toOption.map (fun q => (q.derived.mod, q.derived.rm, ext q)) =
          some (1, 7, true, false, false)
      ∧ (mem { base0 := some ⟨.gpr64, 12⟩ }).toOption.map (fun q => (sib q, ext q)) =
          some ((0, 4, 0, 4, 4), true, false, false)
      ∧ (mem { base0 := some ⟨.gpr64, 13⟩, index := some ⟨.gpr64, 12⟩, scale := 8 }).toOption.map (fun q => (sib q, ext q)) =
          some ((1, 4, 3, 4, 5), true, true, false)
      ∧ (mem { dispWidth := 32 }).toOption.map (fun q => (sib q, ext q)) = some ((0, 4, 0, 4, 5), false, false, false)
      ∧ (mem { index := some ⟨.gpr64, 15⟩, scale := 1, dispWidth := 32 }).toOption.map (fun q => (sib q, ext q)) =
          some ((0, 4, 0, 7, 5), false, true, false)
      ∧ (mem { mode := 64, base0 := some defaultSpace.regRIP, dispWidth := 32 }).toOption.map
          (fun q => (q.derived.mod, q.derived.rm, q.derived.hasSib)) = some (0, 5, false)
      ∧ (mem { base0 := some ⟨.gpr64, 2⟩, index := some ⟨.xmm, 31⟩, scale := 4 }).toOption.map (fun q => (sib q, ext q)) =
          some ((0, 4, 2, 7, 2), false, true, true)
      ∧ (mem { index := some ⟨.zmm, 23⟩, scale := 2, dispWidth := 32 }).toOption.map (fun q => (sib q, ext q)) =
          some ((0, 4, 1, 7, 5), false, false, true)
      ∧ mem { base0 := some defaultSpace.regEIP } = refuse .instructionPointerBase
      ∧ mem { base0 := eax } = refuse .addressClassMismatch
      ∧ mem { base0 := some ⟨.gpr64, 0⟩, index := eax } = refuse .addressClassMismatch :=
  ⟨.inr ⟨rfl, rfl⟩, .inl ⟨rfl, rfl⟩, .inr (.inr (.inr ⟨rfl, rfl⟩)), rfl, rfl, rfl, rfl, rfl, rfl, rfl, rfl, rfl, rfl, rfl⟩

/-- Each clause: scale 3, index RSP, RIP with an index, RIP in 32-bit mode, 64-bit addresses in 32-bit mode,
16-bit addresses in 64-bit mode. -/
theorem test_meets_Unencodable :
    let code rq := (returned (exec .addGprvMemv (holding rq 15))).encodeCode
    code (addRequest (some ⟨.gpr64, 15⟩) (some ⟨.gpr64, 0⟩) 16) = some .generalError
      ∧ 4 ∈ State.reset.params.indexIllegal ∧ code (addRequest (some ⟨.gpr64, 0⟩) (some ⟨.gpr64, 4⟩) 1) = some .generalError
      ∧ code (addRequest (some defaultSpace.regRIP) (some ⟨.gpr64, 0⟩) 1) = some .generalError
      ∧ code { addRequest (some defaultSpace.regRIP) none 0 with mode := 32 } = some .generalError
      ∧ code { addRequest (some ⟨.gpr64, 0⟩) none 0 with mode := 32, easz := 64 } = some .generalError
      ∧ code { addRequest (some defaultSpace.regBX) none 0 with easz := 16 } = some .generalError := by decide

theorem test_meets_isEncode : isEncode (.encode 0) = true ∧ isEncode .movsb = true := by decide

theorem test_meets_encodable : (holding literalRequest 6).encodable := ⟨rfl, Or.inr (Or.inl rfl), rfl⟩

/-- The requests of the iform statements, each into the least capacity it is stated for. -/
theorem test_meets_BranchIforms :
    encodedAs [0xE9, 0xFB, 0xFF, 0xFF, 0xFF] (exec .jmpRelbrd (holding
      { mode := 16, iclass := iclassJMP, brdisp := -5, brdispWidth := 32, relbr := true, order := [.relbr], norder := 1 } 5)) =
      true
    ∧ encodedAs [0x3E, 0x74, 0x10] (exec .jzRelbrb (holding
      { mode := 64, iclass := iclassJZ, brdisp := 0x10, brdispWidth := 8, relbr := true, hint := .taken, order := [.relbr],
        norder := 1 } 3)) = true := by decide

theorem test_meets_ImmediateIforms :
    encodedAs [0xC8, 0x00, 0x01, 0x01] (exec .enterImmwImmb (holding
      { mode := 16, iclass := iclassENTER, imm0 := 0x100, immWidth := 16, imm1 := 1, imm1Present := true,
        order := [.imm0, .imm1], norder := 2 } 4)) = true
    ∧ encodedAs [0x49, 0xBA, 0x88, 0x77, 0x66, 0x55, 0x44, 0x33, 0x22, 0x11] (exec .movGprvImmv (holding
      { mode := 64, iclass := iclassMOV, eosz := 64, regs := { r0 := some ⟨.gpr64, 10⟩ }, imm0 := 0x1122334455667788,
        immWidth := 64, order := [.reg0, .imm0], norder := 2 } 10)) = true := by decide

theorem test_meets_StringIform :
    encodedAs [0xF2, 0xA4] (exec .movsb (holding
      { mode := 64, iclass := iclassMOVSB, rep := .repne, base0 := some ⟨.gpr64, 7⟩, base1 := some ⟨.gpr64, 6⟩, mem0 := true,
        mem1 := true, order := [.mem0, .mem1], norder := 2 } 2)) = true := by decide

/-- ADD R15D, R15D; ADD R9W, R15W; ADD RAX, RDI; ADD DI, AX in 32-bit and in 16-bit mode; R8D outside 64-bit mode. MOV SIL, AL;
MOV BH, DL; MOV AH, R8B and MOV SIL, AL in 32-bit mode, which have no encoding. -/
theorem test_meets_RegisterIforms :
    let add (m e a b : Nat) (c : RegClass) : Request :=
      { mode := m, iclass := iclassADD, eosz := e, regs := { r0 := some ⟨c, a⟩, r1 := some ⟨c, b⟩ },
        order := [.reg0, .reg1], norder := 2 }
    let mov (m : Nat) (r0 r1 : Reg) : Request :=
      { mode := m, iclass := iclassMOV, regs := { r0 := some r0, r1 := some r1 }, order := [.reg0, .reg1], norder := 2 }
    (encodedAs [0x45, 0x01, 0xFF] (exec .addGprvGprv01 (holding (add 64 32 15 15 .gpr32) 3))
        && encodedAs [0x66, 0x45, 0x01, 0xF9] (exec .addGprvGprv01 (holding (add 64 16 9 15 .gpr16) 4))
        && encodedAs [0x48, 0x01, 0xF8] (exec .addGprvGprv01 (holding (add 64 64 0 7 .gpr64) 3))
        && encodedAs [0x66, 0x01, 0xC7] (exec .addGprvGprv01 (holding (add 32 16 7 0 .gpr16) 3))
        && encodedAs [0x01, 0xC7] (exec .addGprvGprv01 (holding (add 16 16 7 0 .gpr16) 3))
        && encodedAs [0x40, 0x88, 0xC6] (exec .movGpr8Gpr8 (holding (mov 64 ⟨.gpr8, 6⟩ ⟨.gpr8, 0⟩) 3))
        && encodedAs [0x88, 0xD7] (exec .movGpr8Gpr8 (holding (mov 16 ⟨.gpr8h, 3⟩ ⟨.gpr8, 2⟩) 2))) = true
      ∧ (returned (exec .addGprvGprv01 (holding (add 32 32 8 0 .gpr32) 15))).encodeCode = some .generalError
      ∧ (returned (exec .movGpr8Gpr8 (holding (mov 64 ⟨.gpr8h, 0⟩ ⟨.gpr8, 8⟩) 15))).encodeCode = some .generalError
      ∧ (returned (exec .movGpr8Gpr8 (holding (mov 32 ⟨.gpr8, 6⟩ ⟨.gpr8, 0⟩) 15))).encodeCode = some .generalError := by
  decide

/-- 64-bit mode with a 32-bit base, FS, 16-bit operands; R13 without displacement and RBP with DS; 16-bit mode; BX + SI;
[R13 + R12*8] and [ECX + EBX*2 + 10]; RIP without displacement and with one of 16 bits. -/
theorem test_meets_MemoryIforms :
    let q (m e ea n dw : Nat) (ac : RegClass) (seg : RegOrInvalid) : Request :=
      { mode := m, eosz := e, easz := ea, base0 := some ⟨ac, n⟩, seg0 := seg, disp := 0x10, dispWidth := dw, mem0 := true,
        norder := 2 }
    (encodedAs [0x64, 0x66, 0x67, 0x45, 0x0F, 0xB6, 0xBC, 0x24, 0x10, 0x00, 0x00, 0x00] (exec .movzxGprvMemb (holding
        { q 64 16 32 12 32 .gpr32 (some defaultSpace.segFS) with
          iclass := iclassMOVZX, regs := { r0 := some ⟨.gpr16, 15⟩ }, order := [.reg0, .mem0] } 12))
      && encodedAs [0x41, 0x83, 0x45, 0x00, 0x7F] (exec .addMemvImmb (holding
        { q 64 32 64 13 0 .gpr64 none with iclass := iclassADD, imm0 := 0x7F, immWidth := 8, order := [.mem0, .imm0] } 12))
      && encodedAs [0x3E, 0x48, 0x03, 0x4D, 0x10] (exec .addGprvMemv (holding
        { q 64 64 64 5 8 .gpr64 (some defaultSpace.segDS) with
          iclass := iclassADD, regs := { r0 := some ⟨.gpr64, 1⟩ }, order := [.reg0, .mem0] } 12))
      && encodedAs [0x66, 0x67, 0x03, 0x38] (exec .addGprvMemv (holding
        { q 16 32 32 0 0 .gpr32 (some defaultSpace.segDS) with
          iclass := iclassADD, regs := { r0 := some ⟨.gpr32, 7⟩ }, order := [.reg0, .mem0] } 12))
      && encodedAs [0x67, 0x03, 0xB8, 0x10, 0x00] (exec .addGprvMemv (holding
        { q 32 32 16 3 16 .gpr16 none with
          iclass := iclassADD, index := some defaultSpace.regSI, scale := 1, regs := { r0 := some ⟨.gpr32, 7⟩ },
          order := [.reg0, .mem0] } 5))
      && encodedAs [0x4F, 0x03, 0x7C, 0xE5, 0x00] (exec .addGprvMemv (holding
        { q 64 64 64 13 0 .gpr64 none with
          iclass := iclassADD, index := some ⟨.gpr64, 12⟩, scale := 8, regs := { r0 := some ⟨.gpr64, 15⟩ },
          order := [.reg0, .mem0] } 11))
      && encodedAs [0x66, 0x03, 0x54, 0x59, 0x10] (exec .addGprvMemv (holding
        { q 32 16 32 1 8 .gpr32 none with
          iclass := iclassADD, index := some ⟨.gpr32, 3⟩, scale := 2, regs := { r0 := some ⟨.gpr16, 2⟩ },
          order := [.reg0, .mem0] } 11))
      && encodedAs [0x48, 0x03, 0x05, 0x00, 0x00, 0x00, 0x00] (exec .addGprvMemv (holding
        { q 64 64 64 0 0 .gpr64 none with
          iclass := iclassADD, base0 := some defaultSpace.regRIP, regs := { r0 := some ⟨.gpr64, 0⟩ },
          order := [.reg0, .mem0] } 8))
      && encodedAs [0x66, 0x44, 0x03, 0x3D, 0x10, 0x00, 0x00, 0x00] (exec .addGprvMemv (holding
        { q 64 16 64 0 16 .gpr64 none with
          iclass := iclassADD, base0 := some defaultSpace.regRIP, regs := { r0 := some ⟨.gpr16, 15⟩ },
          order := [.reg0, .mem0] } 8))) = true
      ∧ defaultSpace.namesDistinct = true ∧ 12 ∉ State.reset.params.indexIllegal ∧ scaleOf 8 3 :=
  ⟨by decide, by decide, by decide, .inr (.inr (.inr ⟨rfl, rfl⟩))⟩

theorem test_meets_VexIforms :
    encodedAs [0xC5, 0xEC, 0x58, 0x88, 0x10, 0x00, 0x00, 0x00] (exec .vaddpsVexRrm (holding
      { mode := 64, iclass := iclassVADDPS, regs := { r0 := some ⟨.ymm, 1⟩, r1 := some ⟨.ymm, 2⟩ },
        base0 := some ⟨.gpr64, 0⟩, disp := 0x10, dispWidth := 32, mem0 := true, order := [.reg0, .reg1, .mem0],
        norder := 3 } 10)) = true := by decide

theorem test_meets_EvexIform :
    encodedAs [0x62, 0xA1, 0x6C, 0xC2, 0x58, 0xCB] (exec .vaddpsEvexRkrr (holding
      { mode := 64, iclass := iclassVADDPS, order := [.reg0, .reg1, .reg2, .reg3], norder := 4, zeroing := true,
        regs := { r0 := some ⟨.zmm, 17⟩, r1 := some ⟨.mask, 2⟩, r2 := some ⟨.zmm, 18⟩, r3 := some ⟨.zmm, 19⟩ } } 6)) =
      true := by decide

theorem test_meets_Literal : State.reset.params.table = some fixtureT0 ∧ 6 ≤ 6 := ⟨rfl, by decide⟩

/-- What the premises of the capacity statement bind a request to. -/
def boundRequest (rq : Request) : Option (Bound × Request) :=
  (bindRequest (bindTable fixtureT0) defaultParams (precondition defaultSpace { rq with error := .noError })).toOption

/-- The natural length in bits of a request that binds and whose pattern meets its contract. -/
def naturalBits (rq : Request) : Option Nat :=
  match boundRequest rq with
  | none => none
  | some (b, q) => if meetsContract 0 (emissionPattern b q) then some (actionBits (emissionPattern b q)) else none

/-- Six bytes, and a request of sixteen. -/
theorem test_meets_CapacityBoundary :
    naturalBits literalRequest = some (8 * 6)
      ∧ naturalBits { literalRequest with seg0 := some defaultSpace.segFS, immWidth := 64, imm1Present := true } =
          some (8 * 16) := by decide

theorem test_meets_EncodeDepends :
    ∃ t, exec (.encode 6) (holding literalRequest 15) = .next t ∧ t.result = .encoded .noError 6 := ⟨_, rfl, rfl⟩

/-- A request that does not bind, and one of 512 bits that binds to no VEX iform. -/
theorem test_meets_GeneralError :
    (∃ t, exec (.encode 15) (holding { mode := 32 } 15) = .next t ∧ t.result.encodeCode = some .generalError)
      ∧ boundRequest { mode := 32 } = none
      ∧ (∃ t, exec (.encode 15) (holding { mode := 32, iclass := iclassVADDPS, vl := 2 } 15) = .next t
        ∧ t.result.encodeCode = some .generalError)
      ∧ boundRequest { mode := 32, iclass := iclassVADDPS, vl := 2 } = none :=
  ⟨⟨_, rfl, rfl⟩, rfl, ⟨_, rfl, rfl⟩, rfl⟩

theorem test_meets_EncodeFrame : ∃ t, exec (.encode 5) (holding literalRequest 15) = .next t ∧ t.phase = .idle :=
  ⟨_, rfl, rfl⟩

theorem test_meets_EncodeEntry :
    exec (.encode 15) State.reset = .refused .modeNotSet
      ∧ exec (.encode 15) { holding literalRequest 15 with consumed := true } = .refused .reusedRequest
      ∧ exec (.encode 15) { holding literalRequest 15 with params := { defaultParams with table := none } } =
          .refused .tableNotLoaded := ⟨rfl, rfl, rfl⟩

theorem test_meets_FatalRefuses : exec .setRep { State.reset with phase := .fatal } = .refused .engineInFatal := rfl

theorem test_meets_OnlyAssertions :
    (∃ t, exec (.setEosz 24) State.reset = .next t ∧ t.phase = .fatal)
      ∧ (∃ t, exec (.setEasz 8) State.reset = .next t ∧ t.phase = .fatal)
      ∧ ∃ t, exec (.build 32 32 1 24 0 .none .none []) State.reset = .next t ∧ t.phase = .fatal :=
  ⟨⟨_, rfl, rfl⟩, ⟨_, rfl, rfl⟩, ⟨_, rfl, rfl⟩⟩

theorem test_meets_OnlyEncodeAndEmit :
    isEncode .setRep = false ∧ isEmission .setRep = false ∧ ∃ t, exec .setRep State.reset = .next t ∧ t.phase = .idle :=
  ⟨rfl, rfl, _, rfl, rfl⟩

theorem test_meets_ParametersNeverChange : ∃ t, step State.reset = .next t := ⟨_, rfl⟩

/-- A state with the invariant in the middle of a byte, whose next step emits four more bits. -/
def midByte : State :=
  { atBit 4 2 [(0, 0x40)] with
    input := [msg .command [0x20, 4, 0, 0, 0, 0, 0, 0, 0, 13, 0, 0, 0, 0, 0, 0, 0]] }

theorem test_meets_Invariant : midByte.Inv ∧ bytesAfter 1 (step midByte) = [some 0x4D] := by
  refine ⟨⟨rfl, Or.inl rfl, rfl, ?_, ?_, ?_, ?_, fun _ => rfl⟩, by decide⟩
  · exact (by decide : midByte.ev.bitOffset ≤ 8 * midByte.ev.ilen ∧ midByte.ev.ilen ≤ Config.maxInstructionBytes)
  · exact fun _ => rfl
  · decide
  · decide

end Sys2Proof.Machine
end

section
/-! Decoding what the encoder wrote (spec/30_encoding.md R100 to R115; log 2). A message is a row of operands, one after
another, and its reader reads them in that order; `Dec.Reads` says of a reader and the bytes of one operand that the reader
takes them, whatever follows, and composes along the two sequences. -/

namespace Sys2Proof

/-! ## A reader that takes some bytes for a value -/

/-- The reader takes the bytes for the value and leaves what stands after them. -/
def Dec.Reads {α : Type} (p : Dec α) (bs : List Byte) (a : α) : Prop := ∀ rest, p (bs ++ rest) = .ok (a, rest)

namespace Dec.Reads

variable {α β : Type} {p : Dec α} {bs bs' : List Byte} {a : α} {b : β}

theorem pure (a : α) : (Pure.pure a : Dec α).Reads [] a := fun rest => Dec.pure_ok a rest

theorem bind {f : α → Dec β} (hp : p.Reads bs a) (hf : (f a).Reads bs' b) : (p >>= f).Reads (bs ++ bs') b :=
  fun rest => by rw [List.append_assoc, Dec.bind_ok (hp _), hf rest]

/-- The last operand: after it the reader answers. -/
theorem answer {f : α → Dec β} (hp : p.Reads bs a) (hf : f a = Pure.pure b) : (p >>= f).Reads bs b :=
  fun rest => by rw [Dec.bind_ok (hp rest), hf, Dec.pure_ok]

theorem last {f : α → β} (hp : p.Reads bs a) : (p >>= fun x => Pure.pure (f x)).Reads bs (f a) := hp.answer rfl

theorem map {f : α → β} (hp : p.Reads bs a) : (f <$> p).Reads bs (f a) := fun rest => Dec.map_ok (hp rest)

theorem map_eq {f : α → β} (hp : p.Reads bs a) (hf : f a = b) : (f <$> p).Reads bs b := hf ▸ hp.map

/-- A row's number, then the row's operands. -/
theorem tag {f : Byte → Dec β} {n : Nat} (hf : (f (BitVec.ofNat 8 n)).Reads bs b) :
    (getByte >>= f).Reads (putTag n ++ bs) b := bind (getByte_putTag n) hf

/-- A message that holds just these bytes. -/
theorem instr {p : Dec Instr} {i : Instr} (hp : p.Reads bs i) : p.instr bs = .ok i := by
  have h := hp []
  rw [List.append_nil] at h
  rw [Dec.instr, h]
  rfl

end Dec.Reads

/-! ## The operands -/

theorem getByte_reads (b : Byte) : getByte.Reads (putByte b) b := getByte_putByte b

theorem getNat_reads {n : Nat} (h : natFits n = true) : getNat.Reads (putNat n) n := fun rest => getNat_putNat n rest h

theorem getWord64_reads (v : Word64) : getWord64.Reads (putWord64 v) v := getWord64_putWord64 v

theorem getWord32_reads (v : BitVec 32) : getWord32.Reads (putWord32 v) v := getWord32_putWord32 v

theorem getBool_reads (b : Bool) : getBool.Reads (putBool b) b := getBool_putBool b

theorem getName_reads (n : OperandName) : getName.Reads (putName n) n := getName_putName n

theorem getRep_reads (p : Rep) : getRep.Reads (putRep p) p := getRep_putRep p

theorem getHint_reads (h : Hint) : getHint.Reads (putHint h) h := getHint_putHint h

theorem getCode_reads (c : ReturnCode) : getCode.Reads (putCode c) c := getCode_putCode c

theorem getSlot_reads (k : Fin 9) : getSlot.Reads (putSlot k) k := getSlot_putSlot k

theorem getReg_reads {r : RegOrInvalid} (h : regFits r = true) : getReg.Reads (putReg r) r :=
  fun rest => getReg_putReg r rest h

theorem getBits_reads {w : Nat} (v : BitVec w) (hw : w ≤ 8 := by decide) : (getBits w).Reads (putBits v) v :=
  getBits_putBits hw v

theorem getLE_reads {n v : Nat} (h : v < 256 ^ n) : (getLE n).Reads (leBytes n v) v := fun rest => getLE_leBytes n v rest h

/-- A list: how many entries, then each. -/
theorem getMany_reads {α : Type} {get : Dec α} {put : α → List Byte} {l : List α} (hl : l.length < 256)
    (h : ∀ a ∈ l, get.Reads (put a) a) : (getMany get (BitVec.ofNat 8 l.length).toNat).Reads (putMany put l) l :=
  fun rest => by rw [tag_toNat _ hl, getMany_putMany get put l rest h]

/-! ## The fields of a request and of a record -/

/-- The numbers below 59 are those of the fields of R21 to R29; any other is a further named field (R26). -/
theorem getField_named {i v : Nat} (hi : 59 ≤ i) (hb : i < 256) (hv : natFits v = true) :
    getField.Reads (putTag i ++ putNat v) (.named i v) := by
  obtain ⟨k, rfl⟩ := Nat.exists_eq_add_of_le' hi
  refine .tag ?_
  rw [tag_toNat _ hb]
  exact (getNat_reads hv).map

theorem getField_reads {f : FieldAssign} (h : f.wf = true) : getField.Reads (putField f) f := by
  cases f with
  | mode v | smode v | iclass v | eosz v | easz v | scale v | dispWidth v | brdispWidth v | immWidth v | vl v | roundc v
  | norder v => exact .tag (getNat_reads h).map
  | base0 v | index v | seg0 v | base1 v | seg1 v => exact .tag (getReg_reads h).map
  | mem0 v | mem1 v | agen v | relbr v | ptr v | imm0Signed v | imm1Present v | mustUseEvex v | zeroing v | sae v | bcast v
  | hasModrm v | hasSib v | rexw v | rexr v | rexx v | rexb v | rexrr v | vexdest4 v | needrex v | norex v | osz v
  | asz v => exact .tag (getBool_reads v).map
  | disp v | brdisp v | imm0 v => exact .tag (getWord64_reads v).map
  | imm1 v | segpfx v => exact .tag (getByte_reads v).map
  | mod v | modrmReg v | rm v | sibscale v | sibindex v | sibbase v | vvvv v | aaa v | opcodeLow3 v =>
    exact .tag (getBits_reads v).map
  | error v => exact .tag (getCode_reads v).map
  | rep v => exact .tag (getRep_reads v).map
  | hint v => exact .tag (getHint_reads v).map
  | reg k v => exact .tag ((getSlot_reads k).bind (getReg_reads h).last)
  | orderEntry k v => exact .tag ((getNat_reads h).bind (getName_reads v).last)
  | named i v =>
    simp only [FieldAssign.wf, Bool.and_eq_true, decide_eq_true_eq] at h
    obtain ⟨⟨hi, hb⟩, hv⟩ := h
    exact getField_named hi hb hv

theorem getRegFile_reads {f : RegFile} (h : f.wf = true) : getRegFile.Reads (putRegFile f) f := by
  simp only [RegFile.wf, Bool.and_eq_true, and_assoc] at h
  obtain ⟨h0, h1, h2, h3, h4, h5, h6, h7, h8⟩ := h
  exact (getReg_reads h0).bind <| (getReg_reads h1).bind <| (getReg_reads h2).bind <| (getReg_reads h3).bind <|
    (getReg_reads h4).bind <| (getReg_reads h5).bind <| (getReg_reads h6).bind <| (getReg_reads h7).bind <|
    (getReg_reads h8).last

theorem getDerived_reads (x : Derived) : getDerived.Reads (putDerived x) x :=
  (getBool_reads x.hasModrm).bind <| (getBits_reads x.mod).bind <| (getBits_reads x.reg).bind <|
  (getBits_reads x.rm).bind <| (getBool_reads x.hasSib).bind <| (getBits_reads x.sibscale).bind <|
  (getBits_reads x.sibindex).bind <| (getBits_reads x.sibbase).bind <| (getBool_reads x.rexw).bind <|
  (getBool_reads x.rexr).bind <| (getBool_reads x.rexx).bind <| (getBool_reads x.rexb).bind <|
  (getBool_reads x.rexrr).bind <| (getBits_reads x.vvvv).bind <| (getBool_reads x.vexdest4).bind <|
  (getBits_reads x.aaa).bind <| (getBool_reads x.needrex).bind <| (getBool_reads x.norex).bind <|
  (getBool_reads x.osz).bind <| (getBool_reads x.asz).bind <| (getByte_reads x.segpfx).bind <|
  (getBits_reads x.opcodeLow3).last

/-- A record carries no order array (R35: its fields are those of R21 to R27). -/
theorem Request.wf_without_order {q : Request} (h : q.wf = true) : { q with order := [], norder := 0 } = q := by
  simp only [Request.wf, Bool.and_eq_true, decide_eq_true_eq] at h
  obtain ⟨⟨-, horder⟩, hnorder⟩ := h
  rw [← horder, ← hnorder]

theorem getRequest_reads {q : Request} (h : q.wf = true) : getRequest.Reads (putRequest q) q := by
  have hq := Request.wf_without_order h
  simp only [Request.wf, Bool.and_eq_true, decide_eq_true_eq, List.all_eq_true, and_assoc] at h
  obtain ⟨hmode, hsmode, hiclass, heosz, heasz, hregs, hbase0, hindex, hscale, hseg0, hbase1, hseg1, hdispWidth,
    hbrdispWidth, himmWidth, hvl, hroundc, hlen, hnamed, -, -⟩ := h
  have hnamedFields : getNamedFields.Reads (putNamedFields q.named) q.named :=
    fun rest => getNamedFields_putNamedFields q.named rest hlen hnamed
  exact (getNat_reads hmode).bind <| (getNat_reads hsmode).bind <| (getNat_reads hiclass).bind <|
    (getNat_reads heosz).bind <| (getNat_reads heasz).bind <| (getCode_reads q.error).bind <|
    (getRegFile_reads hregs).bind <| (getReg_reads hbase0).bind <| (getReg_reads hindex).bind <|
    (getNat_reads hscale).bind <| (getReg_reads hseg0).bind <| (getReg_reads hbase1).bind <|
    (getReg_reads hseg1).bind <| (getBool_reads q.mem0).bind <| (getBool_reads q.mem1).bind <|
    (getBool_reads q.agen).bind <| (getWord64_reads q.disp).bind <| (getNat_reads hdispWidth).bind <|
    (getWord64_reads q.brdisp).bind <| (getNat_reads hbrdispWidth).bind <| (getBool_reads q.relbr).bind <|
    (getBool_reads q.ptr).bind <| (getWord64_reads q.imm0).bind <| (getBool_reads q.imm0Signed).bind <|
    (getNat_reads himmWidth).bind <| (getByte_reads q.imm1).bind <| (getBool_reads q.imm1Present).bind <|
    (getRep_reads q.rep).bind <| (getHint_reads q.hint).bind <| (getNat_reads hvl).bind <|
    (getBool_reads q.mustUseEvex).bind <| (getNat_reads hroundc).bind <| (getBool_reads q.zeroing).bind <|
    (getBool_reads q.sae).bind <| (getBool_reads q.bcast).bind <| hnamedFields.bind <|
    (getDerived_reads q.derived).answer (congrArg _ hq)

theorem getLoc_reads {l : Option FieldLoc} (h : locWf l = true) : getLoc.Reads (putLoc l) l := by
  cases l with
  | none => exact (getBool_reads false).answer rfl
  | some l =>
    obtain ⟨hpos, hwidth⟩ := Bool.and_eq_true_iff.1 h
    exact (getBool_reads true).bind ((getNat_reads hpos).bind (getNat_reads hwidth).last)

theorem getOperand_reads (o : DecodedOperand) : getOperand.Reads (putOperand o) o :=
  (getName_reads o.name).bind (getBool_reads o.suppressed).last

theorem getRecord_reads {d : DecodedRecord} (h : d.wf = true) : getRecord.Reads (putRecord d) d := by
  simp only [DecodedRecord.wf, Bool.and_eq_true, decide_eq_true_eq, and_assoc] at h
  obtain ⟨hfields, hiclass, hlen, hlength, hdisp, hbrdisp, himm0⟩ := h
  exact (getRequest_reads hfields).bind <| (getNat_reads hiclass).bind <| .tag <|
    (getMany_reads hlen fun o _ => getOperand_reads o).bind <| (getNat_reads hlength).bind <|
    (getLoc_reads hdisp).bind <| (getLoc_reads hbrdisp).bind <| (getLoc_reads himm0).bind <|
    (getBool_reads d.evexMaskFeatures).bind (getBool_reads d.disp8Guarantee).last

/-! ## Descriptors -/

theorem getMemDesc_reads {m : MemDesc} (h : m.wf = true) : getMemDesc.Reads (putMemDesc m) m := by
  simp only [MemDesc.wf, Bool.and_eq_true, and_assoc] at h
  obtain ⟨hbase, hindex, hseg, hscale, hdispWidth, hdataWidth⟩ := h
  exact (getReg_reads hbase).bind <| (getReg_reads hindex).bind <| (getReg_reads hseg).bind <|
    (getNat_reads hscale).bind <| (getWord64_reads m.dispValue).bind <| (getNat_reads hdispWidth).bind
    (getNat_reads hdataWidth).last

/-- The tag byte of a descriptor names it (R101). -/
theorem PortCodes.tagOf_tagByte {c : PortCodes} (hc : c.wf = true) {n : Nat} (hn : n ∈ tableTags) :
    c.tagOf (BitVec.ofNat 8 (c.tagAt n)).toNat = some n := by
  obtain ⟨hlt, hof⟩ := c.tagOf_tagAt n hc hn
  rw [tag_toNat _ hlt, hof]

theorem getDescriptor_reads {c : PortCodes} (hc : c.wf = true) {d : Descriptor} (h : d.wf = true)
    (ht : d.tagFits c = true) : (getDescriptor c).Reads (putDescriptor c d) d := by
  have htag : ∀ n ∈ tableTags, c.tagOf (BitVec.ofNat 8 (c.tagAt n)).toNat = some n := fun n => PortCodes.tagOf_tagByte hc
  cases d with
  | reg r => exact .tag (by rw [htag 1 (by decide)]; exact (getReg_reads h).map)
  | brdisp v w => exact .tag (by rw [htag 2 (by decide)]; exact (getWord32_reads v).bind (getNat_reads h).last)
  | ptr v w => exact .tag (by rw [htag 3 (by decide)]; exact (getWord32_reads v).bind (getNat_reads h).last)
  | uimm0 v w => exact .tag (by rw [htag 4 (by decide)]; exact (getWord64_reads v).bind (getNat_reads h).last)
  | simm0 v w => exact .tag (by rw [htag 5 (by decide)]; exact (getWord32_reads v).bind (getNat_reads h).last)
  | imm1 v => exact .tag (by rw [htag 6 (by decide)]; exact (getByte_reads v).map)
  | mem m => exact .tag (by rw [htag 7 (by decide)]; exact (getMemDesc_reads h).map)
  | other f => exact .tag (by rw [htag 8 (by decide)]; exact (getField_reads h).map)
  | unrecognized t =>
    have hlt : t < 256 := of_decide_eq_true h
    have hnone : c.tagOf t = none := Option.isNone_iff_eq_none.1 ht
    exact Dec.Reads.answer (getByte_putTag t) (by rw [tag_toNat _ hlt, hnone])

theorem getDescriptors_reads {c : PortCodes} (hc : c.wf = true) {ds : List Descriptor} (hlen : ds.length < 256)
    (h : ∀ d ∈ ds, d.wf = true) (ht : ∀ d ∈ ds, d.tagFits c = true) :
    (getDescriptors c).Reads (putDescriptors c ds) ds :=
  .tag (getMany_reads hlen fun d hd => getDescriptor_reads hc (h d hd) (ht d hd))

/-! ## Messages of commands and descriptors -/

theorem decodeAt_command {c : PortCodes} (hc : c.wf = true) {n : Nat} {operands : List Byte} {i : Instr}
    (h : (getCommand c n).Reads operands i) (hn : n ∈ tableCommands := by decide) :
    decodeAt c (c.command n operands) = .ok i := by
  show Except.map Prod.fst (getCommandMessage c (c.command n operands).bytes) = _
  rw [getCommandMessage_command c n operands hc hn]
  exact h.instr

theorem decodeAt_descriptor {c : PortCodes} {d : Descriptor} {i : Instr}
    (h : (getDescriptorMessage c).Reads (putDescriptor c d) i) :
    decodeAt c ⟨.descriptor, putDescriptor c d⟩ = .ok i := h.instr

theorem getCommand_build_reads {c : PortCodes} (hc : c.wf = true) {m sm ic eo ea : Nat} {p : Rep} {hint : Hint}
    {ds : List Descriptor} (h : (Instr.build m sm ic eo ea p hint ds).wf = true) (ht : ds.all (Descriptor.tagFits c) = true) :
    (getCommand c 0x30).Reads (putNat m ++ (putNat sm ++ (putNat ic ++ (putNat eo ++ (putNat ea ++ (putRep p ++
      (putHint hint ++ putDescriptors c ds))))))) (.build m sm ic eo ea p hint ds) := by
  simp only [Instr.wf, Bool.and_eq_true, decide_eq_true_eq, List.all_eq_true, and_assoc] at h
  obtain ⟨hm, hsm, hic, heo, hea, hlen, hds⟩ := h
  exact (getNat_reads hm).bind <| (getNat_reads hsm).bind <| (getNat_reads hic).bind <| (getNat_reads heo).bind <|
    (getNat_reads hea).bind <| (getRep_reads p).bind <| (getHint_reads hint).bind
    (getDescriptors_reads hc hlen hds (List.all_eq_true.1 ht)).last

/-! ## Wire items (R103 to R114)

The encoder writes a byte as the concatenation of its fields. A field read back lies in the last of them, or wholly in those
before it, and the two library lemmas on `extractLsb'` of a concatenation follow it to its own. The
first byte of VEX and EVEX settles the row, so the `show` of their proofs starts where the fields are read. -/

theorem extract_modrm (m : BitVec 2) (r b : BitVec 3) :
    (m ++ r ++ b).extractLsb' 6 2 = m ∧ (m ++ r ++ b).extractLsb' 3 3 = r ∧ (m ++ r ++ b).extractLsb' 0 3 = b := by
  simp (disch := decide) only [BitVec.extractLsb'_append_eq_of_le, BitVec.extractLsb'_append_eq_of_add_le,
    BitVec.extractLsb'_eq_self, Nat.reduceSub, and_self]

/-- ModRM and SIB have the same layout: two bits, then twice three. -/
theorem modrmFields_reads {f : BitVec 2 → BitVec 3 → BitVec 3 → Instr} {m : BitVec 2} {r b : BitVec 3} :
    Dec.Reads ((fun x => f (x.extractLsb' 6 2) (x.extractLsb' 3 3) (x.extractLsb' 0 3)) <$> getByte) [m ++ r ++ b]
      (f m r b) := by
  obtain ⟨hm, hr, hb⟩ := extract_modrm m r b
  exact (getByte_reads (m ++ r ++ b)).map_eq (by rw [hm, hr, hb])

theorem wireRow_rex (w r x b : BitVec 1) : wireRow [0x4#4 ++ w ++ r ++ x ++ b] = .ok (.rex w r x b) := by
  revert w r x b
  decide

theorem wireRow_vex2 (f : Vex2Fields) : wireRow (vex2Bytes f) = .ok (.vex2 f) := by
  show Except.ok (Instr.vex2 ⟨_, _, _, _⟩) = _
  simp (disch := decide) only [BitVec.extractLsb'_append_eq_of_le, BitVec.extractLsb'_append_eq_of_add_le,
    BitVec.extractLsb'_eq_self, Nat.reduceSub]

theorem wireRow_vex3 (f : Vex3Fields) : wireRow (vex3Bytes f) = .ok (.vex3 f) := by
  show Except.ok (Instr.vex3 ⟨_, _, _, _, _, _, _, _⟩) = _
  simp (disch := decide) only [BitVec.extractLsb'_append_eq_of_le, BitVec.extractLsb'_append_eq_of_add_le,
    BitVec.extractLsb'_eq_self, Nat.reduceSub]

theorem wireRow_evex (f : EvexFields) : wireRow (evexBytes f) = .ok (.evex f) := by
  show (if _ = 0#1 ∧ _ = 1#1 then Except.ok (Instr.evex ⟨_, _, _, _, _, _, _, _, _, _, _, _, _⟩) else _) = _
  simp (disch := decide) only [BitVec.extractLsb'_append_eq_of_le, BitVec.extractLsb'_append_eq_of_add_le,
    BitVec.extractLsb'_eq_self, Nat.reduceSub, and_self, if_true]

theorem getDispItem_reads {w : DispWidth} {v : Word64} (h : decide (v.toNat < 2 ^ w.bits) = true) :
    getDispItem.Reads (putDispItem w v) (w, v) := by
  have hv := of_decide_eq_true h
  cases w with
  | w8 | w16 | w32 => exact .tag ((getLE_reads hv).map_eq (by rw [BitVec.ofNat_toNat, BitVec.setWidth_eq]))

theorem getFarItem_reads {w : FarWidth} {o : Word64} (s : BitVec 16) (h : decide (o.toNat < 2 ^ w.bits) = true) :
    getFarItem.Reads (putTag (w.bits / 8) ++ (leBytes (w.bits / 8) o.toNat ++ leBytes 2 s.toNat)) (.farptr w o s) := by
  have ho := of_decide_eq_true h
  have hs : (getLE 2).Reads (leBytes 2 s.toNat) s.toNat := getLE_reads s.isLt
  cases w with
  | w16 | w32 => exact .tag ((getLE_reads ho).bind (hs.answer (by simp only [BitVec.ofNat_toNat, BitVec.setWidth_eq])))

theorem getImm0Item_reads {f : Imm0Item} (h : f.wf = true) : getImm0Item.Reads (putImm0Item f) f := by
  cases f with
  | value w v =>
    have hv := of_decide_eq_true h
    cases w with
    | w8 | w16 | w32 | w64 => exact .tag ((getLE_reads hv).map_eq (by rw [BitVec.ofNat_toNat, BitVec.setWidth_eq]))
  | is4 r i =>
    have hfields : (r ++ i).extractLsb' 4 4 = r ∧ (r ++ i).extractLsb' 0 4 = i := by
      simp (disch := decide) only [BitVec.extractLsb'_append_eq_of_le, BitVec.extractLsb'_append_eq_of_add_le,
        BitVec.extractLsb'_eq_self, Nat.reduceSub, and_self]
    exact .tag ((getByte_reads (r ++ i)).map_eq (by rw [hfields.1, hfields.2]))

/-! ## One step -/

namespace Machine

variable {s : State} {p : Packet} {rest : List Packet}

theorem step_of_no_message (hr : s.resetRequest = false) (hin : s.input = []) : step s = .next s := by
  simp [step, hr, hin]

theorem step_of_undecoded {e : DecodeError} (hr : s.resetRequest = false) (hin : s.input = p :: rest)
    (hd : decodeAt s.params.port p = .error e) : step s = .refused (.notAnInstruction e) := by
  simp [step, hr, hin, hd]

theorem step_of_decoded {i : Instr} (hr : s.resetRequest = false) (hin : s.input = p :: rest)
    (hd : decodeAt s.params.port p = .ok i) (hi : i.inSpace s.params.registers = true) :
    step s = exec i { s with input := rest } := by
  simp [step, hr, hin, hd, hi]

theorem step_of_unknown_register {i : Instr} (hr : s.resetRequest = false) (hin : s.input = p :: rest)
    (hd : decodeAt s.params.port p = .ok i) (hi : i.inSpace s.params.registers = false) :
    step s = .refused (.notAnInstruction .unknownRegister) := by
  simp [step, hr, hin, hd, hi]

end Machine

/-! ## The obligations of spec/00_scope.md -/

/-- Settles O1, by cases on the instruction: a message's reader takes the operands in the order in which the encoder put
them, and a row of fixed bytes is named by them. -/
theorem decodeOfEncodeIsTheInstruction : Obligations.DecodeOfEncodeIsTheInstruction := by
  intro c i hc h ht
  cases i with
  | setRep | clearRep | setRepne | clearRepne | setHintTaken | setHintNotTaken | setRelbr | setPtr | setAgen | setMem0
  | setMem1 => exact decodeAt_command hc (.pure _)
  | setIclass n | setEosz n | setEasz n | setScale n | getOperandOrder n | encode n | encodeNop n =>
    exact decodeAt_command hc (getNat_reads h).map
  | setBase0 r | setBase1 r | setIndex r | setSeg0 r | setSeg1 r => exact decodeAt_command hc (getReg_reads h).map
  | setDisp v w | setDispBits v w | setBrdisp v w | setUimm0 v w =>
    exact decodeAt_command hc ((getWord64_reads v).bind (getNat_reads h).last)
  | setSimm0 v w => exact decodeAt_command hc ((getWord32_reads v).bind (getNat_reads h).last)
  | setUimm1 v => exact decodeAt_command hc (getWord64_reads v).map
  | emitBits w v => exact decodeAt_command hc ((getNat_reads h).bind (getWord64_reads v).last)
  | setOperandOrder k n => exact decodeAt_command hc ((getNat_reads h).bind (getName_reads n).last)
  | setField f => exact decodeAt_command hc (getField_reads h).map
  | initFromDecode d => exact decodeAt_command hc (getRecord_reads h).map
  | reqInit m sm =>
    obtain ⟨hm, hsm⟩ := Bool.and_eq_true_iff.1 h
    exact decodeAt_command hc ((getNat_reads hm).bind (getNat_reads hsm).last)
  | setReg k r =>
    obtain ⟨hk, hr⟩ := Bool.and_eq_true_iff.1 h
    exact decodeAt_command hc ((getNat_reads hk).bind (getReg_reads hr).last)
  | patchDisp d v w | patchRelbr d v w | patchImm0 d v w =>
    obtain ⟨hd, hw⟩ := Bool.and_eq_true_iff.1 h
    exact decodeAt_command hc ((getRecord_reads hd).bind ((getWord64_reads v).bind (getNat_reads hw).last))
  | build m sm ic eo ea p hint ds => exact decodeAt_command hc (getCommand_build_reads hc h ht)
  | descReg _ | descBrdisp _ _ | descPtr _ _ | descUimm0 _ _ | descSimm0 _ _ | descImm1 _ | descMem _ | descOther _ =>
    exact decodeAt_descriptor (.answer (getDescriptor_reads hc h rfl) rfl)
  | rex w r x b => exact wireRow_rex w r x b
  | vex2 f => exact wireRow_vex2 f
  | vex3 f => exact wireRow_vex3 f
  | evex f => exact wireRow_evex f
  | opcode b | imm1 b => exact (getByte_reads b).map.instr
  | modrm m r b => exact modrmFields_reads.instr
  | sib m r b => exact modrmFields_reads.instr
  | disp w v | brdisp w v => exact (getDispItem_reads h).map.instr
  | farptr w o s => exact (getFarItem_reads s h).instr
  | imm0 f => exact (getImm0Item_reads h).map.instr
  | pfxSegEs | pfxSegCs | pfxSegSs | pfxSegDs | pfxSegFs | pfxSegGs | pfxOsz | pfxAsz | pfxRepne | pfxRep | escMap1
  | escMap2 | escMap3 => rfl
  | nop1 | nop2 | nop3 | nop4 | nop5 | nop6 | nop7 | nop8 | nop9 => rfl
  | addGprvMemv | addGprvGprv01 | addMemvImmb | movGpr8Gpr8 | movGprvImmv | jmpRelbrd | jzRelbrb | movzxGprvMemb
  | vaddpsVexRrr | vaddpsVexRrm | vaddpsEvexRkrr | enterImmwImmb | movsb => rfl

open Machine in
/-- Settles O3, by the four things that can stand at the port. -/
theorem stepRunsTheDecodedInstruction : Obligations.StepRunsTheDecodedInstruction := by
  intro s hr
  refine ⟨fun p rest i hin hd => ⟨?member, ?unknown⟩, ?idle, fun p rest e hin hd => ?undecoded⟩
  case member => exact step_of_decoded hr hin hd
  case unknown => exact step_of_unknown_register hr hin hd
  case idle => exact step_of_no_message hr
  case undecoded => exact step_of_undecoded hr hin hd

end Sys2Proof
end
section
/-! What a step of the machine can answer (spec/10_state.md R31, R32, R34, R36, R40, R43): the parameters are never written, the
invariant is kept, and no step ends in a fault or in an emission inside a byte that has no value. `State.Safe` says this of one
answer; each shared operation answers so, hence each instruction, hence each step. -/

namespace Sys2Proof.Machine

/-! ## Computations that may stop -/

/-- A stop that leaves the machine in order: a raise, a fatal assertion, or a refusal that is not the bit emitter's (R158). -/
def Stop.Orderly : Stop → Prop
  | .raise _ | .fatal => True
  | .refuse r => r ≠ .unestablishedByte
  | .fault _ => False

/-- The computation gives a value with `P`, or stops in an orderly way. -/
def Check.Ends {α : Type} (P : α → Prop) : Check α → Prop
  | .ok a => P a
  | .error stop => stop.Orderly

theorem Check.Ends.bind {α β : Type} {P : α → Prop} {Q : β → Prop} {x : Check α} {f : α → Check β} (hx : Check.Ends P x)
    (hf : ∀ a, P a → Check.Ends Q (f a)) : Check.Ends Q (x >>= f) := by
  cases x with
  | error stop => exact hx
  | ok a => exact hf a hx

theorem Check.Ends.mono {α : Type} {P Q : α → Prop} {x : Check α} (hx : Check.Ends P x) (h : ∀ a, P a → Q a) :
    Check.Ends Q x := by
  cases x with
  | error stop => exact hx
  | ok a => exact h a hx

/-- A computation that changes the value of another one by `g`. -/
theorem Check.Ends.map {α β : Type} {P : α → Prop} {Q : β → Prop} {x : Check α} {y : Check β} (hx : Check.Ends P x)
    (g : α → β) (hg : ∀ a, P a → Q (g a)) (hy : y = Except.map g x) : Check.Ends Q y := by
  subst hy
  cases x with
  | error stop => exact hx
  | ok a => exact hg a hx

theorem Check.ends_refuse {α : Type} {P : α → Prop} {r : Refusal} (h : r ≠ .unestablishedByte) :
    Check.Ends P (refuse r) := h

/-- A value behind a test whose failure is refused. -/
theorem Check.ends_guard {α : Type} {P : α → Prop} {c : Prop} [Decidable c] {x : Check α} {r : Refusal}
    (hr : r ≠ .unestablishedByte) (hx : c → Check.Ends P x) : Check.Ends P (if c then x else refuse r) := by
  split
  · exact hx ‹_›
  · exact hr

/-- A value behind a test whose success is refused. -/
theorem Check.ends_guard_not {α : Type} {P : α → Prop} {c : Prop} [Decidable c] {x : Check α} {r : Refusal}
    (hr : r ≠ .unestablishedByte) (hx : ¬c → Check.Ends P x) : Check.Ends P (if c then refuse r else x) := by
  split
  · exact hr
  · exact hx ‹_›

/-! ## Fields in their sets -/

/-- The clauses of `legalRequest`, by name. -/
structure LegalFields (max : Nat) (q : Request) : Prop where
  mode : (q.mode == 0 || isMode q.mode) = true
  smode : (q.smode == 0 || isMode q.smode) = true
  eosz : (q.eosz == 0 || q.eosz == 8 || isMode q.eosz) = true
  easz : (q.easz == 0 || isMode q.easz) = true
  dispWidth : isDispWidth q.dispWidth = true
  brdispWidth : isDispWidth q.brdispWidth = true
  vl : q.vl ≤ 2
  roundc : q.roundc ≤ 4
  named : namedWf q.named = true
  norder : q.norder ≤ max
  order : q.order.length ≤ max

theorem legalRequest_iff {max : Nat} {q : Request} : legalRequest max q = true ↔ LegalFields max q := by
  simp only [legalRequest, Bool.and_eq_true, decide_eq_true_eq]
  constructor
  · rintro ⟨⟨⟨⟨⟨⟨⟨⟨⟨⟨hmode, hsmode⟩, heosz⟩, heasz⟩, hdisp⟩, hbrdisp⟩, hvl⟩, hroundc⟩, hnamed⟩, hnorder⟩, horder⟩
    exact ⟨hmode, hsmode, heosz, heasz, hdisp, hbrdisp, hvl, hroundc, hnamed, hnorder, horder⟩
  · intro h
    exact ⟨⟨⟨⟨⟨⟨⟨⟨⟨⟨h.mode, h.smode⟩, h.eosz⟩, h.easz⟩, h.dispWidth⟩, h.brdispWidth⟩, h.vl⟩, h.roundc⟩, h.named⟩, h.norder⟩,
      h.order⟩

/-- A change of the request leaves fields of their sets in their sets. -/
def legalStays (max : Nat) (q q' : Request) : Prop := legalRequest max q = true → legalRequest max q' = true

theorem legalStays.of_fields {max : Nat} {q q' : Request} (h : LegalFields max q → LegalFields max q') :
    legalStays max q q' := fun hq => legalRequest_iff.2 (h (legalRequest_iff.1 hq))

theorem legalRequest_fresh {max mode smode : Nat} (hm : isMode mode = true) (hs : isMode smode = true) :
    legalRequest max (freshRequest mode smode) = true :=
  legalRequest_iff.2 ⟨by simp [freshRequest, hm], by simp [freshRequest, hs], rfl, rfl, rfl, rfl, Nat.zero_le _, Nat.zero_le _,
    rfl, Nat.zero_le _, Nat.zero_le _⟩

theorem length_orderSet_le {order : List OperandName} {k max : Nat} {n : OperandName} (ho : order.length ≤ max)
    (hk : k < max) : (orderSet order k n).length ≤ max := by
  induction order generalizing k max with
  | nil =>
    induction k generalizing max with
    | zero => exact hk
    | succ k ih =>
      obtain ⟨m, rfl⟩ : ∃ m, max = m + 1 := ⟨max - 1, by omega⟩
      exact Nat.succ_le_succ (ih (Nat.zero_le _) (by omega))
  | cons x rest ih =>
    obtain ⟨m, rfl⟩ : ∃ m, max = m + 1 := ⟨max - 1, by omega⟩
    cases k with
    | zero => exact ho
    | succ k => exact Nat.succ_le_succ (ih (Nat.le_of_succ_le_succ ho) (by omega))

theorem lengthOf_le {g : LengthNumbers} {v l : Nat} (h : g.lengthOf v = some l) : l ≤ 2 := by
  simp only [LengthNumbers.lengthOf] at h
  repeat' split at h
  all_goals cases h <;> decide

/-! ## The works of the setters -/

theorem ends_putNatField {P : Request → Prop} {legal : Bool} {q : Request} (h : legal = true → P q) :
    Check.Ends P (putNatField legal q) := Check.ends_guard (by decide) h

theorem ends_putEosz (max bits : Nat) (q : Request) : Check.Ends (legalStays max q) (putEosz bits q) := by
  unfold putEosz
  split
  · rename_i hb
    exact .of_fields fun h => { h with eosz := by rcases hb with rfl | rfl | rfl | rfl <;> rfl }
  · trivial

theorem ends_putEasz (max bits : Nat) (q : Request) : Check.Ends (legalStays max q) (putEasz bits q) := by
  unfold putEasz
  split
  · rename_i hb
    exact .of_fields fun h => { h with easz := by rcases hb with rfl | rfl | rfl <;> rfl }
  · trivial

/-- SET_FIELD keeps every field in its set; the fields not named here have no set (log 28). -/
theorem ends_assignField (p : Params) (f : FieldAssign) (q : Request) :
    Check.Ends (legalStays p.maxOperands q) (assignField p f q) := by
  cases f with
  | mode v => exact ends_putNatField fun hv => .of_fields fun h => { h with mode := hv }
  | smode v => exact ends_putNatField fun hv => .of_fields fun h => { h with smode := hv }
  | eosz v => exact ends_putNatField fun hv => .of_fields fun h => { h with eosz := hv }
  | easz v => exact ends_putNatField fun hv => .of_fields fun h => { h with easz := hv }
  | dispWidth v => exact ends_putNatField fun hv => .of_fields fun h => { h with dispWidth := hv }
  | brdispWidth v => exact ends_putNatField fun hv => .of_fields fun h => { h with brdispWidth := hv }
  | roundc v => exact ends_putNatField fun hv => .of_fields fun h => { h with roundc := of_decide_eq_true hv }
  | norder v => exact ends_putNatField fun hv => .of_fields fun h => { h with norder := of_decide_eq_true hv }
  | vl v =>
    simp only [assignField]
    split
    · rename_i l hl
      exact .of_fields fun h => { h with vl := lengthOf_le hl }
    · exact Check.ends_refuse (by decide)
  | orderEntry k v =>
    exact Check.ends_guard (by decide) fun hk => .of_fields fun h => { h with order := length_orderSet_le h.order hk }
  | named i v =>
    exact Check.ends_guard (by decide) fun _ => .of_fields fun h => { h with named := namedWf_setNamed i v h.named }
  | error v => exact Check.ends_refuse (by decide)
  | _ => exact id

/-! ## What a command may do to the state -/

/-- From `s` to `t` the parameters are kept, and so is the invariant. -/
structure State.Keeps (s t : State) : Prop where
  params : t.params = s.params
  inv : s.Inv → t.Inv

theorem State.Keeps.refl (s : State) : s.Keeps s := ⟨rfl, id⟩

theorem State.Keeps.trans {s t u : State} (h1 : s.Keeps t) (h2 : t.Keeps u) : s.Keeps u :=
  ⟨h2.params.trans h1.params, fun hs => h2.inv (h1.inv hs)⟩

/-- An answer of the machine in `s`: a next state that keeps parameters and invariant; from a state with the invariant no
fault, and no refusal of the bit emitter's. -/
def State.Safe (s : State) : Result → Prop
  | .next t => s.Keeps t
  | .refused r => s.Inv → r ≠ .unestablishedByte
  | .fault _ => ¬ s.Inv

theorem keeps_rq {s : State} {q : Request} (h : legalStays s.params.maxOperands s.rq q) : s.Keeps { s with rq := q } :=
  ⟨rfl, fun hs => { hs with request := fun hc => h (hs.request hc) }⟩

theorem keeps_result (s : State) (v : CmdResult) : s.Keeps { s with result := v } :=
  ⟨rfl, fun hs => { hs with }⟩

theorem keeps_advanceLoop (s : State) : s.Keeps s.advanceLoop :=
  ⟨rfl, fun hs => { hs with }⟩

theorem keeps_raised (s : State) (c : ReturnCode) : s.Keeps (s.raised c) :=
  ⟨rfl, fun hs => { hs with sequencer := .inl rfl, stepZero := rfl }⟩

theorem keeps_toFatal (s : State) : s.Keeps s.toFatal :=
  ⟨rfl, fun hs => ⟨rfl, .inr rfl, rfl, rfl, fun h => absurd rfl h, hs.registerCount, hs.memoryCount, nofun⟩⟩

/-- The state after a new request is started has no cursor and no counts (spec/10_state.md R42). -/
theorem keeps_startRequest {s : State} {q : Request} (h : legalRequest s.params.maxOperands q = true) :
    s.Keeps (s.startRequest q) :=
  ⟨rfl, fun hs => { hs with
    cursor := rfl
    established := fun h => absurd rfl h
    registerCount := Nat.zero_le _
    memoryCount := Nat.zero_le _
    request := fun _ => h }⟩

/-- A store of whole bytes takes no value away. -/
theorem keeps_writeBytes (s : State) (a : Nat) (bytes : List Byte) : s.Keeps { s with buf := s.buf.writeBytes a bytes } := by
  refine ⟨rfl, fun hs => { hs with buffer := Mem.wf_writeBytes _ _ _ hs.buffer, established := fun hne => ?_ }⟩
  change ((s.buf.writeBytes a bytes).read (s.ev.bitOffset / 8)).isSome = true
  rw [Mem.read_writeBytes]
  split
  · rename_i hb
    rw [List.getElem?_eq_getElem (by omega)]
    rfl
  · exact hs.established hne

/-! ## The ways a command ends -/

theorem safe_refused {s : State} {r : Refusal} (h : r ≠ .unestablishedByte) : s.Safe (.refused r) := fun _ => h

theorem safe_finish {s t : State} {v : CmdResult} (h : s.Keeps t) : s.Safe (t.finish v) := h.trans (keeps_result t v)

theorem safe_stopped {s t : State} {stop : Stop} (h : s.Keeps t) (hs : s.Inv → stop.Orderly) : s.Safe (t.stopped stop) := by
  cases stop with
  | raise c => exact h.trans (keeps_raised t c)
  | fatal => exact h.trans (keeps_toFatal t)
  | refuse r => exact hs
  | fault f => exact hs

theorem safe_issue {s : State} {k : State → Result} (h : s.Safe (k s)) : s.Safe (s.issue k) := by
  cases hp : s.phase <;> simp only [State.issue, hp]
  case idle => exact h
  case fatal | precondition | bind | emit | finalize => exact safe_refused (by decide)

theorem safe_perform {s : State} {v : CmdResult} {work : State → Check State} (h : Check.Ends s.Keeps (work s)) :
    s.Safe (s.perform v work) := by
  unfold State.perform
  cases hw : work s with
  | ok t =>
    rw [hw] at h
    exact safe_finish h
  | error stop =>
    rw [hw] at h
    exact safe_stopped (.refl s) fun _ => h

/-! ## The request surface -/

theorem safe_setRequest {s : State} {f : Request → Request} (h : legalStays s.params.maxOperands s.rq (f s.rq)) :
    s.Safe (s.setRequest f) := safe_issue (safe_finish (keeps_rq h))

theorem safe_trySet {s : State} {f : State → Check Request} (h : Check.Ends (legalStays s.params.maxOperands s.rq) (f s)) :
    s.Safe (s.trySet f) :=
  safe_issue (safe_perform (h.map (fun q => { s with rq := q }) (fun _ => keeps_rq) (by cases f s <;> rfl)))

theorem ends_initRequest (mode smode : Nat) (s : State) : Check.Ends s.Keeps (initRequest mode smode s) :=
  Check.ends_guard (by decide) fun h =>
    have ⟨hm, hs⟩ := Bool.and_eq_true_iff.1 h
    keeps_startRequest (legalRequest_fresh hm hs)

theorem safe_reqInit (mode smode : Nat) (s : State) : s.Safe (execReqInit mode smode s) :=
  safe_issue (safe_perform (ends_initRequest mode smode s))

/-! ## The bridge, the patch commands and the literal stores -/

theorem ends_bridgeRequest (d : DecodedRecord) (s : State) : Check.Ends s.Keeps (bridgeRequest d s) := by
  unfold bridgeRequest
  split
  · exact Check.ends_refuse (by decide)
  · rename_i l _
    refine Check.ends_guard_not (by decide) fun hlegal => Check.ends_guard_not (by decide) fun hcount => ?_
    have h : LegalFields s.params.maxOperands (recordFields l d) := legalRequest_iff.1 (by simpa using hlegal)
    exact keeps_startRequest (legalRequest_iff.2 { h with
      named := namedWf_keepNamed _ _
      norder := Nat.le_of_not_lt hcount
      order := Nat.le_of_not_lt hcount })

theorem safe_patch (s : State) (loc : Option FieldLoc) (length : Nat) (value : Word64) (width : Nat) :
    s.Safe (s.patch loc length value width) := by
  refine safe_issue ?_
  split
  · exact safe_finish (.refl s)
  · split
    · exact safe_finish (.refl s)
    · split
      · exact safe_refused (by decide)
      · exact safe_finish (keeps_writeBytes s _ _)

theorem safe_storeLiteral (s : State) (bytes : List Byte) : s.Safe (s.storeLiteral bytes) :=
  safe_finish (keeps_writeBytes s 0 bytes)

theorem safe_encodeNop (length : Nat) (s : State) : s.Safe (execEncodeNop length s) := by
  refine safe_issue ?_
  split
  · exact safe_finish (.refl s)
  · exact safe_storeLiteral s _

theorem safe_getOperandOrder (position : Nat) (s : State) : s.Safe (execGetOperandOrder position s) := by
  refine safe_issue ?_
  split
  · exact safe_finish (.refl s)
  · exact safe_refused (by decide)

/-! ## The builder -/

theorem keeps_of_setAndPush {s t : State} {f : Request → Request} {n : OperandName} (ht : s.setAndPush f n = .ok t)
    (h : legalStays s.params.maxOperands s.rq (f s.rq)) : s.Keeps t := by
  obtain ⟨hlt, rfl⟩ := setAndPush_ok ht
  refine keeps_rq fun hq => ?_
  have hf := legalRequest_iff.1 (h hq)
  exact legalRequest_iff.2 { hf with norder := hlt, order := length_orderSet_le hf.order hlt }

theorem orderly_of_setAndPush {s : State} {f : Request → Request} {n : OperandName} {stop : Stop}
    (h : s.setAndPush f n = .error stop) : stop.Orderly := by
  have hpush : Check.Ends (fun _ => True) (pushOperand s.params.maxOperands n (f s.rq)) :=
    Check.ends_guard (by decide) fun _ => trivial
  unfold State.setAndPush at h
  split at h
  · cases h
  · rename_i hp
    cases h
    rwa [hp] at hpush

theorem ends_setAndPush {s : State} {f : Request → Request} {n : OperandName}
    (h : legalStays s.params.maxOperands s.rq (f s.rq)) : Check.Ends s.Keeps (s.setAndPush f n) := by
  cases hx : s.setAndPush f n with
  | ok t => exact keeps_of_setAndPush hx h
  | error stop => exact orderly_of_setAndPush hx

theorem keeps_regcnt {s t : State} {n : Nat} (h : s.Keeps t) (hn : n ≤ 9) : s.Keeps { t with regcnt := n } :=
  h.trans ⟨rfl, fun ht => { ht with registerCount := hn }⟩

theorem keeps_memcnt {s t : State} {n : Nat} (h : s.Keeps t) (hn : n ≤ 2) : s.Keeps { t with memcnt := n } :=
  h.trans ⟨rfl, fun ht => { ht with memoryCount := hn }⟩

theorem ends_buildReg (r : RegOrInvalid) (s : State) : Check.Ends s.Keeps (buildReg r s) := by
  refine Check.ends_guard_not (by decide) fun hn => ?_
  split
  · rename_i t ht
    exact keeps_regcnt (keeps_of_setAndPush ht id) (by omega)
  · exact orderly_of_setAndPush ‹_›

theorem ends_buildBrdisp (v : BitVec 32) (w : Nat) (s : State) : Check.Ends s.Keeps (buildBrdisp v w s) :=
  Check.ends_guard (by decide) fun hw => ends_setAndPush (.of_fields fun h =>
    { h with brdispWidth := by rcases hw with rfl | rfl | rfl <;> rfl })

theorem ends_buildPtr (v : BitVec 32) (w : Nat) (s : State) : Check.Ends s.Keeps (buildPtr v w s) :=
  Check.ends_guard (by decide) fun hw => ends_setAndPush (.of_fields fun h =>
    { h with brdispWidth := by rcases hw with rfl | rfl <;> rfl })

theorem inferEasz_legal (g : RegSpace) (base index : RegOrInvalid) {easz : Nat} (h : (easz == 0 || isMode easz) = true) :
    (inferEasz g base index easz == 0 || isMode (inferEasz g base index easz)) = true := by
  unfold inferEasz
  dsimp only
  repeat' split
  all_goals first | exact h | rfl

theorem ends_buildMem0 {m : MemDesc} (hw : isDispWidth m.dispWidth = true) (s : State) :
    Check.Ends s.Keeps (buildMem0 m s) := by
  unfold buildMem0
  dsimp only
  split
  · rename_i t ht
    exact keeps_memcnt (keeps_of_setAndPush ht (.of_fields fun h =>
      { h with dispWidth := hw, easz := inferEasz_legal _ _ _ h.easz })) (by decide)
  · exact orderly_of_setAndPush ‹_›

theorem ends_buildMem1 (m : MemDesc) (s : State) : Check.Ends s.Keeps (buildMem1 m s) := by
  refine Check.ends_guard_not (by decide) fun _ => ?_
  split
  · rename_i t ht
    exact keeps_memcnt (keeps_of_setAndPush ht id) (by decide)
  · exact orderly_of_setAndPush ‹_›

theorem ends_buildMem (m : MemDesc) (s : State) : Check.Ends s.Keeps (buildMem m s) := by
  refine Check.ends_guard (by decide) fun hw => ?_
  split
  · exact ends_buildMem0 hw s
  · exact ends_buildMem1 m s
  · exact Check.ends_refuse (by decide)

theorem ends_buildOther (f : FieldAssign) (s : State) : Check.Ends s.Keeps (buildOther f s) :=
  (ends_assignField s.params f s.rq).map (fun q => { s with rq := q }) (fun _ => keeps_rq) (by
    unfold buildOther
    cases assignField s.params f s.rq <;> rfl)

/-- A turn of BUILD's loop, if the descriptor has one. -/
theorem ends_buildOne {d : Descriptor} {s : State} {x : Check State} (h : buildOne d s = some x) : Check.Ends s.Keeps x := by
  cases d <;> cases h
  case reg r => exact ends_buildReg r s
  case brdisp v w => exact ends_buildBrdisp v w s
  case ptr v w => exact ends_buildPtr v w s
  case uimm0 v w => exact ends_setAndPush id
  case simm0 v w => exact ends_setAndPush id
  case imm1 v => exact ends_setAndPush id
  case mem m => exact ends_buildMem m s
  case other f => exact ends_buildOther f s

theorem ends_buildAll (ds : List Descriptor) (s : State) : Check.Ends (fun r => s.Keeps r.1) (buildAll ds s) := by
  induction ds generalizing s with
  | nil => exact .refl s
  | cons d rest ih =>
    unfold buildAll
    split
    · exact .refl s
    · rename_i t ht
      have hturn : s.Keeps t.advanceLoop := (ends_buildOne ht).trans (keeps_advanceLoop t)
      exact (ih t.advanceLoop).mono fun _ => hturn.trans
    · rename_i stop hstop
      exact ends_buildOne hstop

theorem ends_buildWidths (max eosz easz : Nat) (q : Request) : Check.Ends (legalStays max q) (buildWidths eosz easz q) := by
  have heasz : ∀ q', legalStays max q q' → Check.Ends (legalStays max q) (if easz = 0 then .ok q' else putEasz easz q') := by
    intro q' hq'
    split
    · exact hq'
    · exact (ends_putEasz max easz q').mono fun _ h hq => h (hq' hq)
  unfold buildWidths
  dsimp only
  split
  · exact heasz q id
  · exact (ends_putEosz max eosz q).bind heasz

theorem ends_buildHead (mode smode iclass eosz easz : Nat) (p : Rep) (h : Hint) (s : State) :
    Check.Ends s.Keeps (buildHead mode smode iclass eosz easz p h s) := by
  refine (ends_initRequest mode smode s).bind fun t ht => ?_
  refine (ends_buildWidths t.params.maxOperands eosz easz { t.rq with iclass := iclass }).bind fun q hq => ?_
  exact ht.trans (keeps_rq fun ht => legalRequest_iff.2 { legalRequest_iff.1 (hq ht) with norder := Nat.zero_le _ })

theorem safe_build (mode smode iclass eosz easz : Nat) (p : Rep) (h : Hint) (ds : List Descriptor) (s : State) :
    s.Safe (execBuild mode smode iclass eosz easz p h ds s) := by
  refine safe_issue ?_
  have hhead := ends_buildHead mode smode iclass eosz easz p h s
  split
  · exact safe_refused (by decide)
  · split
    · exact safe_refused (by decide)
    · split
      · rename_i hstop
        rw [hstop] at hhead
        exact safe_stopped (.refl s) fun _ => hhead
      · rename_i t ht
        rw [ht] at hhead
        have hall := ends_buildAll ds t
        split
        · rename_i hstop
          rw [hstop] at hall
          exact safe_stopped (.refl s) fun _ => hall
        · rename_i hu
          rw [hu] at hall
          exact safe_finish (hhead.trans hall)

theorem safe_buildTurn {s : State} {work : State → Check State} (h : Check.Ends s.Keeps (work s)) :
    s.Safe (s.buildTurn work) :=
  safe_issue (safe_perform (h.map State.advanceLoop (fun t ht => ht.trans (keeps_advanceLoop t)) (by cases work s <;> rfl)))

/-! ## Emissions outside ENCODE -/

/-- An EMIT, and no line of a table's. -/
def EmitAction.isPut : EmitAction → Bool
  | .put _ _ => true
  | .putWhole _ _ | .halt _ => false

theorem halt_notMem {acts : List EmitAction} {st : Stop} (h : acts.all EmitAction.isPut = true) : .halt st ∉ acts :=
  fun hm => by cases List.all_eq_true.1 h _ hm

/-- The work area of a bare EMIT, from a state with the invariant. -/
theorem State.Inv.attach_sound {s : State} (hs : s.Inv) : s.attach.emission.Sound ∧ s.attach.ev.ilen ≤ 15 := by
  have hc := hs.cursor
  unfold State.cursorOk at hc
  unfold State.attach
  split
  · rename_i hlive
    rw [if_pos hlive] at hc
    exact ⟨⟨hc.1, hs.established, hs.buffer⟩, hc.2⟩
  · exact ⟨⟨Nat.zero_le _, fun h => absurd rfl h, hs.buffer⟩, Nat.min_le_right _ _⟩

theorem State.attach_eq (s : State) : s.attach = { s with ev := s.attach.ev, evLive := true } := by
  unfold State.attach
  split
  · rename_i h
    rw [← h]
  · rfl

/-- Whatever a sequence of EMITs does, from a sound work area, keeps the invariant. -/
theorem keeps_withEmission {s : State} {acts : List EmitAction} {e : Emission} {st : Option Stop}
    (h : runActions acts s.attach.emission = (e, st)) : s.Keeps (s.attach.withEmission e) := by
  obtain ⟨hcap, -, hsound, -, -, -⟩ := runActions_frame _ _ _ _ h
  rw [State.attach_eq]
  refine ⟨rfl, fun hs => ?_⟩
  obtain ⟨hattach, hlen⟩ := hs.attach_sound
  have he := hsound hattach
  have hin := he.inside
  rw [hcap] at hin
  exact { hs with buffer := he.canonical, cursor := ⟨hin, hlen⟩, established := he.value }

theorem orderly_of_emission {acts : List EmitAction} {e e' : Emission} {stop : Stop} (hp : acts.all EmitAction.isPut = true)
    (h : runActions acts e = (e', some stop)) (he : e.Sound) : stop.Orderly := by
  obtain ⟨-, -, -, -, hstop, hstart⟩ := runActions_frame _ _ _ _ h
  rcases hstop stop rfl with hm | rfl | rfl | rfl | rfl
  · exact absurd hm (halt_notMem hp)
  · exact nofun
  · trivial
  · exact absurd rfl (hstart he (halt_notMem hp))
  · exact nofun

theorem safe_emitAll {s : State} {acts : List EmitAction} (hp : acts.all EmitAction.isPut = true) :
    s.Safe (s.emitAll acts) := by
  refine safe_issue ?_
  dsimp only
  split
  · exact safe_finish (keeps_withEmission ‹_›)
  · rename_i h
    exact safe_stopped (keeps_withEmission h) fun hs => orderly_of_emission hp h hs.attach_sound.1

/-! ## ENCODE -/

/-- The state `t`, in or after an ENCODE that started in `s` with capacity `cap`: the fields ENCODE never writes, the capacity,
the buffer's canonical form, the bytes at and above the capacity in force (spec/20_memory.md R71, R72). -/
structure State.EncodeKeeps (s : State) (cap : Nat) (t : State) : Prop where
  params : t.params = s.params
  regcnt : t.regcnt = s.regcnt
  memcnt : t.memcnt = s.memcnt
  loopIndex : t.loopIndex = s.loopIndex
  input : t.input = s.input
  resetRequest : t.resetRequest = s.resetRequest
  capacity : t.capacity = cap
  canonical : s.buf.wf = true → t.buf.wf = true
  outside : ∀ a, min cap 15 ≤ a → t.buf.read a = s.buf.read a

/-- How an ENCODE that started in `s` with capacity `cap` ends: with `t.toFatal`, a raise, or Finalize of some state `t` it
keeps; or by a refusal, from a canonical buffer not the bit emitter's. -/
def State.EncodeEnds (s : State) (cap : Nat) : Result → Prop
  | .next t => ∃ u, s.EncodeKeeps cap u ∧
      (t = u.toFatal ∨ (∃ c, c ≠ .noError ∧ t = u.encodeRaised c)
        ∨ (u.rq.error = .noError ∧ u.ev.bitOffset ≤ 8 * min cap 15 ∧ t = u.finalized))
  | .refused r => s.buf.wf = true → r ≠ .unestablishedByte
  | .fault _ => False

theorem encodeEnds_refused {s : State} {cap : Nat} {r : Refusal} (h : r ≠ .unestablishedByte) :
    s.EncodeEnds cap (.refused r) := fun _ => h

theorem encodeEnds_issue {s : State} {cap : Nat} {k : State → Result} (h : s.EncodeEnds cap (k s)) :
    s.EncodeEnds cap (s.issue k) := by
  cases hp : s.phase <;> simp only [State.issue, hp]
  case idle => exact h
  case fatal | precondition | bind | emit | finalize => exact encodeEnds_refused (by decide)

/-- The stops inside an ENCODE: a raise of an error, or a refusal, from a canonical buffer not the bit emitter's. -/
def State.MayStopEncode (s : State) : Stop → Prop
  | .raise c => c ≠ .noError
  | .refuse r => s.buf.wf = true → r ≠ .unestablishedByte
  | .fatal | .fault _ => False

theorem encodeStopped_ends {s u : State} {cap : Nat} {stop : Stop} (hu : s.EncodeKeeps cap u) (hs : s.MayStopEncode stop) :
    s.EncodeEnds cap (u.encodeStopped stop) := by
  cases stop with
  | raise c => exact ⟨u, hu, .inr (.inl ⟨c, hs, rfl⟩)⟩
  | refuse r => exact hs
  | fatal | fault f => exact hs.elim

theorem mayStopEncode_of_encodeStop {s : State} {stop : Stop} (h : encodeStop stop) : s.MayStopEncode stop := by
  rcases h with rfl | ⟨r, rfl, hr⟩
  · exact nofun
  · exact fun _ => hr

/-- An emission pattern's stops. -/
theorem mayStopEncode_of_emission {s : State} {b : Bound} {q : Request} {lines : List EmitLine} {e e' : Emission} {stop : Stop}
    (h : runActions (lines.flatMap (lineActions b q)) e = (e', some stop)) (he : s.buf.wf = true → e.Sound) :
    s.MayStopEncode stop := by
  obtain ⟨-, -, -, -, hstop, hstart⟩ := runActions_frame _ _ _ _ h
  have hline : ∀ st, .halt st ∈ lines.flatMap (lineActions b q) → encodeStop st := by
    intro st hm
    obtain ⟨l, -, hl⟩ := List.mem_flatMap.1 hm
    exact (lineActions_halt hl).imp_left And.left
  rcases hstop stop rfl with hm | rfl | rfl | rfl | rfl
  · exact mayStopEncode_of_encodeStop (hline stop hm)
  · exact fun _ => nofun
  · exact nofun
  · refine fun hw _ => hstart (he hw) (fun hm => ?_) rfl
    rcases hline _ hm with h | ⟨r, h, hr⟩
    · cases h
    · cases h
      exact hr rfl
  · exact fun _ => nofun

theorem State.EncodeKeeps.withEmission {s u : State} {cap : Nat} {acts : List EmitAction} {e : Emission} {st : Option Stop}
    (hu : s.EncodeKeeps cap u) (he : u.emission = ⟨min cap 15, 0, s.buf⟩) (h : runActions acts u.emission = (e, st))
    (n : Nat) (p : Phase) : s.EncodeKeeps cap { u.withEmission e with stepIndex := n, phase := p } := by
  obtain ⟨-, -, hsound, hout, -, -⟩ := runActions_frame _ _ _ _ h
  rw [he] at hsound hout
  exact { hu with
    canonical := fun hw => (hsound ⟨Nat.zero_le _, fun h => absurd rfl h, hw⟩).canonical
    outside := fun a ha => hout a (.inr ha) }

theorem State.EncodeKeeps.spoil {s u : State} {cap : Nat} (hu : s.EncodeKeeps cap u) (hl : u.ev.ilen = min cap 15) :
    s.EncodeKeeps cap u.spoil :=
  { hu with
    canonical := fun hw => Mem.wf_drawBytes _ _ _ (hu.canonical hw)
    outside := fun a ha => by
      rw [State.spoil_buf, Mem.read_drawBytes, if_neg (by omega)]
      exact hu.outside a ha }

/-- The cursor of a sequence of EMITs stays in the capacity, whatever the buffer holds. -/
theorem runActions_inside {acts : List EmitAction} {e e' : Emission} {st : Option Stop}
    (h : runActions acts e = (e', st)) (hin : e.off ≤ 8 * e.cap) : e'.off ≤ 8 * e'.cap := by
  induction acts generalizing e with
  | nil =>
    cases h
    exact hin
  | cons a rest ih =>
    have one : ∀ w v, (match emit w v e with
        | .ok e1 => runActions rest e1
        | .error stop => (e, some stop)) = (e', st) → e'.off ≤ 8 * e'.cap := by
      intro w v h
      split at h
      · rename_i e1 he
        obtain ⟨-, -, hc, hcap, hoff, -⟩ := emit_ok he
        exact ih h (by omega)
      · cases h
        exact hin
    cases a with
    | halt s =>
      cases h
      exact hin
    | put w v => exact one w v h
    | putWhole w v =>
      simp only [runActions] at h
      split at h
      · exact one w v h
      · cases h
        exact hin

/-- The Emit phase from the state Bind leaves: the cursor at 0, the buffer as ENCODE found it. -/
theorem runEmit_ends {s u : State} {cap : Nat} {b : Bound} (hu : s.EncodeKeeps cap u)
    (he : u.emission = ⟨min cap 15, 0, s.buf⟩) (hn : u.rq.error = .noError) : s.EncodeEnds cap (u.runEmit b) := by
  obtain ⟨n, hsteps⟩ := runSteps_eq u b 1 b.emission
  have hsound : s.buf.wf = true → u.emission.Sound := fun hw => by
    rw [he]
    exact ⟨Nat.zero_le _, fun h => absurd rfl h, hw⟩
  simp only [State.runEmit, hn, ne_eq, not_true_eq_false, if_false, hsteps]
  rcases hr : runActions (b.emission.flatMap (lineActions b u.rq)) u.emission with ⟨e, _ | stop⟩
  · have hkeeps : s.EncodeKeeps cap { u.withEmission e with stepIndex := n, phase := .finalize } :=
      hu.withEmission he hr n .finalize
    have hin : e.off ≤ 8 * min cap 15 := by
      have hin := runActions_inside hr (he ▸ Nat.zero_le _)
      rwa [(runActions_frame _ _ _ _ hr).1, he] at hin
    dsimp only
    split
    · exact ⟨_, hkeeps, .inl rfl⟩
    · exact ⟨_, hkeeps, .inr (.inr ⟨hn, hin, rfl⟩)⟩
  · exact encodeStopped_ends (hu.spoil (congrArg Emission.cap he)) (mayStopEncode_of_emission hr hsound)

theorem inferLength_error (q : Request) : (inferLength q).error = q.error := by
  unfold inferLength
  split <;> rfl

theorem normaliseRip_error (g : RegSpace) (q : Request) : (normaliseRip g q).error = q.error := by
  unfold normaliseRip
  split <;> rfl

theorem precondition_error (g : RegSpace) (q : Request) : (precondition g q).error = q.error :=
  (inferLength_error _).trans (normaliseRip_error g q)

theorem bindRequest_error_field {bind : Binder} {p : Params} {q q' : Request} {b : Bound}
    (h : bindRequest bind p q = .ok (b, q')) : q'.error = q.error := by
  obtain ⟨d, v, w, rfl⟩ := runBinding_ok (bindRequest_ok h).2
  rfl

/-- A bind that finds an iform, or stops as Bind may (R254). -/
def Binder.Proper (bind : Binder) : Prop := ∀ q stop, bind q = .error stop → encodeStop stop

theorem bindTable_proper (t : IsaTable) : Binder.Proper (bindTable t) := fun _ _ => bindTable_error

theorem bindRows_proper (rows : List (Nat × IformSpec)) : Binder.Proper (bindRows rows) := fun _ _ => firstMatch_error

theorem startEncode_ends {bind : Binder} (hb : bind.Proper) (s : State) (cap : Nat) :
    s.EncodeEnds cap (s.startEncode cap bind) := by
  have hentry : s.EncodeKeeps cap (s.enterEncode cap).runPrecondition :=
    ⟨rfl, rfl, rfl, rfl, rfl, rfl, rfl, id, fun _ _ => rfl⟩
  refine encodeEnds_issue ?_
  split
  · exact encodeEnds_refused (by decide)
  · split
    · exact encodeEnds_refused (by decide)
    · unfold State.runEncode
      dsimp only
      split
      · rename_i stop hstop
        exact encodeStopped_ends hentry (mayStopEncode_of_encodeStop (bindRequest_error (fun q => hb q stop) hstop))
      · rename_i b q hq
        refine runEmit_ends ⟨rfl, rfl, rfl, rfl, rfl, rfl, rfl, id, fun _ _ => rfl⟩ rfl ?_
        exact (bindRequest_error_field hq).trans (precondition_error _ _)

theorem safe_of_encodeEnds {s : State} {cap : Nat} {r : Result} (h : s.EncodeEnds cap r) : s.Safe r := by
  cases r with
  | fault f => exact h.elim
  | refused r => exact fun hs => h hs.buffer
  | next t =>
    obtain ⟨u, hu, hend⟩ := h
    have hreg (hs : s.Inv) : u.regcnt ≤ 9 := hu.regcnt ▸ hs.registerCount
    have hmem (hs : s.Inv) : u.memcnt ≤ 2 := hu.memcnt ▸ hs.memoryCount
    obtain rfl | ⟨c, -, rfl⟩ | ⟨-, -, rfl⟩ := hend
    · exact ⟨hu.params, fun hs => ⟨rfl, .inr rfl, rfl, rfl, fun h => absurd rfl h, hreg hs, hmem hs, nofun⟩⟩
    all_goals exact ⟨hu.params, fun hs => ⟨hu.canonical hs.buffer, .inl rfl, rfl, rfl, fun h => absurd rfl h, hreg hs,
      hmem hs, nofun⟩⟩

theorem execEncode_ends (cap : Nat) (s : State) : s.EncodeEnds cap (execEncode cap s) := by
  unfold execEncode
  split
  · exact startEncode_ends (bindTable_proper _) s cap
  · exact encodeEnds_issue (encodeEnds_refused (by decide))

theorem encodeRows_ends (s : State) (rows : List (Nat × IformSpec)) : s.EncodeEnds s.capacity (s.encodeRows rows) :=
  startEncode_ends (bindRows_proper rows) s s.capacity

/-- The instructions that run the phases of ENCODE: ENCODE, and the fixture iforms, each with its rows (log 7). -/
theorem isEncode_cases {i : Instr} (hi : isEncode i = true) :
    (∃ c, i = .encode c) ∨ (∀ c, i ≠ .encode c) ∧ ∃ rows, ∀ s, exec i s = s.encodeRows rows := by
  cases i with
  | encode c => exact .inl ⟨c, rfl⟩
  | addGprvMemv | addGprvGprv01 | addMemvImmb | movGpr8Gpr8 | movGprvImmv | jmpRelbrd | jzRelbrb | movzxGprvMemb
  | vaddpsVexRrr | vaddpsVexRrm | vaddpsEvexRkrr | enterImmwImmb | movsb => exact .inr ⟨nofun, _, fun _ => rfl⟩
  | _ => cases hi

/-- What an ENCODE leaves that does not end in FATAL. -/
theorem encode_frame {s t : State} {cap : Nat} (h : s.EncodeEnds cap (.next t)) (hidle : t.phase = .idle) :
    (∀ a, min cap 15 ≤ a → t.buf.read a = s.buf.read a) ∧ t.capacity = cap ∧ t.consumed = true ∧ t.evLive = false
      ∧ t.regcnt = s.regcnt ∧ t.memcnt = s.memcnt ∧ t.loopIndex = s.loopIndex ∧ t.params = s.params ∧ t.input = s.input
      ∧ t.resetRequest = s.resetRequest
      ∧ ∃ code n, t.result = .encoded code n ∧ t.rq.error = code ∧ (code = .noError → n ≤ min cap 15) := by
  obtain ⟨u, hu, rfl | ⟨c, hc, rfl⟩ | ⟨herr, hoff, rfl⟩⟩ := h
  · cases hidle
  · exact ⟨hu.outside, hu.capacity, rfl, rfl, hu.regcnt, hu.memcnt, hu.loopIndex, hu.params, hu.input, hu.resetRequest,
      c, _, rfl, rfl, fun h => absurd h hc⟩
  · exact ⟨hu.outside, hu.capacity, rfl, rfl, hu.regcnt, hu.memcnt, hu.loopIndex, hu.params, hu.input, hu.resetRequest,
      .noError, _, rfl, herr, fun _ => by omega⟩

/-! ## The entry of ENCODE -/

theorem exec_encode_loaded {s : State} {t : IsaTable} {c : Nat} (h : s.params.table = some t) :
    exec (.encode c) s = s.startEncode c (bindTable t) := by
  change execEncode c s = _
  unfold execEncode
  rw [h]

theorem exec_encode_unloaded {s : State} {c : Nat} (h : s.params.table = none) :
    exec (.encode c) s = s.issue fun _ => .refused .tableNotLoaded := by
  change execEncode c s = _
  unfold execEncode
  rw [h]

theorem startEncode_idle {s : State} {cap : Nat} {bind : Binder} (h : s.phase = .idle) :
    s.startEncode cap bind =
      if s.rq.mode ≠ 16 ∧ s.rq.mode ≠ 32 ∧ s.rq.mode ≠ 64 then .refused .modeNotSet
      else if s.consumed then .refused .reusedRequest
      else s.runEncode cap bind := issue_idle s _ h

/-! ## The derived bits of the request (R28) -/

theorem precondition_derived (g : RegSpace) (q : Request) (d : Derived) :
    precondition g { q with derived := d } = { precondition g q with derived := d } := by
  have hrip : normaliseRip g { q with derived := d } = { normaliseRip g q with derived := d } := by
    unfold normaliseRip
    dsimp only
    split <;> rfl
  have hlen : ∀ q' : Request, inferLength { q' with derived := d } = { inferLength q' with derived := d } := by
    intro q'
    unfold inferLength
    dsimp only
    split <;> rfl
  rw [precondition, hrip, hlen]
  rfl

/-- What an ENCODE that stopped leaves of the request is the code alone. -/
theorem encodeStopped_rq (s : State) (q : Request) (stop : Stop) :
    ({ s with rq := q } : State).encodeStopped stop = s.encodeStopped stop := by
  cases stop <;> rfl

/-- The Bind phase clears the derived bits before anything reads them. -/
theorem runEncode_derived (s : State) (d : Derived) (cap : Nat) (bind : Binder) :
    ({ s with rq := { s.rq with derived := d } } : State).runEncode cap bind = s.runEncode cap bind := by
  have hentry : (({ s with rq := { s.rq with derived := d } } : State).enterEncode cap).runPrecondition =
      { (s.enterEncode cap).runPrecondition with
        rq := { (s.enterEncode cap).runPrecondition.rq with derived := d } } := by
    have hpre := precondition_derived s.params.registers { s.rq with error := .noError } d
    simp only [State.runPrecondition, State.enterEncode, ← hpre]
  unfold State.runEncode
  rw [hentry]
  generalize (s.enterEncode cap).runPrecondition = u
  have hbind : bindRequest bind u.params { u.rq with derived := d } = bindRequest bind u.params u.rq := rfl
  dsimp only
  rw [hbind]
  split
  · exact encodeStopped_rq u _ _
  · rfl

theorem startEncode_derived (s : State) (d : Derived) (cap : Nat) (bind : Binder) :
    ({ s with rq := { s.rq with derived := d } } : State).startEncode cap bind = s.startEncode cap bind := by
  simp only [State.startEncode, State.issue, runEncode_derived]

/-! ## Every instruction, every step -/

/-- No instruction leaves the machine out of order: cases on the instruction, by the shared operation it runs. -/
theorem safe_exec (i : Instr) (s : State) : s.Safe (exec i s) := by
  unfold exec
  cases i with
  | reqInit m sm => exact safe_reqInit m sm s
  | setIclass _ | setRep | setRepne | setHintTaken | setHintNotTaken | setUimm0 _ _ | setSimm0 _ _ | setUimm1 _ | setBase0 _
  | setBase1 _ | setIndex _ | setScale _ | setRelbr | setPtr | setAgen | setMem0 | setMem1 => exact safe_setRequest id
  | clearRep | clearRepne =>
    refine safe_setRequest ?_
    split <;> exact id
  | setEosz bits => exact safe_trySet (ends_putEosz _ bits s.rq)
  | setEasz bits => exact safe_trySet (ends_putEasz _ bits s.rq)
  | setReg _ _ | setSeg0 _ | setSeg1 _ => exact safe_trySet (Check.ends_guard (by decide) fun _ => id)
  | setDisp _ _ =>
    exact safe_trySet (Check.ends_guard (by decide) fun hw => .of_fields fun h =>
      { h with dispWidth := by rcases hw with rfl | rfl | rfl | rfl <;> rfl })
  | setDispBits _ _ =>
    exact safe_trySet (Check.ends_guard (by decide) fun hw => .of_fields fun h => { h with dispWidth := hw })
  | setBrdisp _ _ =>
    exact safe_trySet (Check.ends_guard (by decide) fun hw => .of_fields fun h =>
      { h with brdispWidth := by rcases hw with rfl | rfl | rfl <;> rfl })
  | setOperandOrder k _ =>
    exact safe_trySet (Check.ends_guard (by decide) fun hk => .of_fields fun h =>
      { h with
        norder := by
          dsimp only
          split
          · exact hk
          · exact h.norder
        order := length_orderSet_le h.order hk })
  | getOperandOrder k => exact safe_getOperandOrder k s
  | setField f => exact safe_trySet (ends_assignField s.params f s.rq)
  | encode c => exact safe_of_encodeEnds (execEncode_ends c s)
  | encodeNop n => exact safe_encodeNop n s
  | build m sm ic eo ea p h ds => exact safe_build m sm ic eo ea p h ds s
  | initFromDecode d => exact safe_issue (safe_perform (ends_bridgeRequest d s))
  | patchDisp _ _ _ | patchRelbr _ _ _ | patchImm0 _ _ _ => exact safe_patch s _ _ _ _
  | descReg r => exact safe_buildTurn (ends_buildReg r s)
  | descBrdisp v w => exact safe_buildTurn (ends_buildBrdisp v w s)
  | descPtr v w => exact safe_buildTurn (ends_buildPtr v w s)
  | descUimm0 _ _ | descSimm0 _ _ | descImm1 _ => exact safe_buildTurn (ends_setAndPush id)
  | descMem m => exact safe_buildTurn (ends_buildMem m s)
  | descOther f => exact safe_buildTurn (ends_buildOther f s)
  | emitBits _ _ | pfxSegEs | pfxSegCs | pfxSegSs | pfxSegDs | pfxSegFs | pfxSegGs | pfxOsz | pfxAsz | pfxRepne | pfxRep
  | rex _ _ _ _ | escMap1 | escMap2 | escMap3 | vex2 _ | vex3 _ | evex _ | opcode _ | modrm _ _ _ | sib _ _ _ | disp _ _
  | brdisp _ _ | farptr _ _ _ | imm1 _ => exact safe_emitAll rfl
  | imm0 f => cases f <;> exact safe_emitAll rfl
  | nop1 | nop2 | nop3 | nop4 | nop5 | nop6 | nop7 | nop8 | nop9 => exact safe_issue (safe_storeLiteral s _)
  | addGprvMemv | addGprvGprv01 | addMemvImmb | movGpr8Gpr8 | movGprvImmv | jmpRelbrd | jzRelbrb | movzxGprvMemb
  | vaddpsVexRrr | vaddpsVexRrm | vaddpsEvexRkrr | enterImmwImmb | movsb =>
    exact safe_of_encodeEnds (encodeRows_ends s _)

theorem State.Inv.blockReset (s : State) : s.blockReset.Inv :=
  ⟨rfl, .inl rfl, rfl, rfl, fun h => absurd rfl h, Nat.zero_le _, Nat.zero_le _,
    fun _ => legalRequest_iff.2 ⟨rfl, rfl, rfl, rfl, rfl, rfl, Nat.zero_le _, Nat.zero_le _, rfl, Nat.zero_le _, Nat.zero_le _⟩⟩

theorem keeps_input (s : State) (l : List Packet) : s.Keeps { s with input := l } :=
  ⟨rfl, fun hs => { hs with }⟩

theorem State.Safe.of_keeps {s t : State} {r : Result} (h : s.Keeps t) (hr : t.Safe r) : s.Safe r := by
  cases r with
  | next u => exact h.trans hr
  | refused r => exact fun hs => hr (h.inv hs)
  | fault f => exact fun hs => hr (h.inv hs)

/-- A step is block reset, nothing, an instruction with its message taken, or the refusal of a message. -/
theorem safe_step (s : State) : s.Safe (step s) := by
  unfold step
  split
  · exact ⟨rfl, fun _ => .blockReset s⟩
  · split
    · exact .refl s
    · split
      · exact safe_refused nofun
      · split
        · exact (safe_exec _ _).of_keeps (keeps_input s _)
        · exact safe_refused (by decide)

end Sys2Proof.Machine

namespace Sys2Proof

open Machine

/-! ## The obligations of spec/10_state.md -/

/-- Settles O58: what a step answers keeps the invariant. -/
theorem everyStepKeepsTheInvariant : Obligations.EveryStepKeepsTheInvariant := by
  intro s t hs ht
  have h := safe_step s
  rw [ht] at h
  exact h.inv hs

/-- Settles O57: the same answer keeps the parameters. -/
theorem parametersNeverChange : Obligations.ParametersNeverChange := by
  intro s t ht
  have h := safe_step s
  rw [ht] at h
  exact h.params

/-- Settles O60: from the invariant a fault or the bit emitter's refusal is no answer of a step. -/
theorem noStepFaults : Obligations.NoStepFaults := by
  intro s hs
  have h := safe_step s
  constructor
  · intro f hf
    rw [hf] at h
    exact h hs
  · intro hr
    rw [hr] at h
    exact h hs rfl

/-- Settles O59: the reset state is what block reset makes of itself. -/
theorem resetHasTheInvariant : Obligations.ResetHasTheInvariant := State.Inv.blockReset State.reset

/-- Settles O52, by the ways the phases of ENCODE end, for ENCODE and for a fixture iform. -/
theorem encodeFrame : Obligations.EncodeFrame := by
  intro s t i cap hi hcap hrow ht hidle
  refine encode_frame ?_ hidle
  rw [← ht]
  rcases isEncode_cases hi with ⟨c, rfl⟩ | ⟨hne, rows, hexec⟩
  · rw [hcap c rfl]
    exact execEncode_ends c s
  · rw [hrow hne, hexec]
    exact encodeRows_ends s rows

/-- Settles O40: Precondition hands the derived bits on unread, and Bind clears them. -/
theorem derivedBitsAreRecomputed : Obligations.DerivedBitsAreRecomputed := by
  intro s d i hi
  rcases isEncode_cases hi with ⟨c, rfl⟩ | ⟨-, rows, hexec⟩
  · cases ht : s.params.table with
    | some t =>
      refine (exec_encode_loaded ?_).trans ((startEncode_derived s d c (bindTable t)).trans (exec_encode_loaded ht).symm)
      exact ht
    | none =>
      refine (exec_encode_unloaded ?_).trans (exec_encode_unloaded ht).symm
      exact ht
  · rw [hexec, hexec]
    exact startEncode_derived s d s.capacity _

/-- Settles O53: the entry checks in their order. -/
theorem encodeEntryRefusals : Obligations.EncodeEntryRefusals := by
  intro s t c hidle ht
  refine ⟨fun hmode => ?_, fun hmode hc => ?_, fun u hu htable => ?_⟩
  · rw [exec_encode_loaded ht, startEncode_idle hidle, if_pos (by omega)]
  · rw [exec_encode_loaded ht, startEncode_idle hidle, if_neg (by omega), if_pos hc]
  · rw [exec_encode_unloaded htable, issue_idle u _ hu]

theorem slotGet_empty (k : Nat) : slotGet {} k = none := by
  unfold slotGet
  split <;> rfl

/-- Settles O4: every field of a fresh request has its default. -/
theorem resetLeavesTheRequestEmpty : Obligations.ResetLeavesTheRequestEmpty :=
  ⟨rfl, rfl, slotGet_empty, rfl, rfl, rfl, rfl, rfl, rfl, rfl, rfl, rfl, rfl, rfl, rfl, rfl, rfl, rfl, rfl, rfl,
    rfl, rfl, rfl, rfl, rfl, rfl, rfl, rfl, rfl, rfl, rfl, rfl, rfl, rfl, rfl, rfl, rfl, fun _ => rfl, fun _ => rfl, rfl, rfl⟩

end Sys2Proof
end

section
/-! What the wire items write (spec/30_encoding.md R102 to R115, spec/40_bit_emitter.md R152 to R159). `EmitsBytes` says of a
sequence of EMITs that from a byte-aligned cursor with room it writes just these bytes, and composes along the sequence. A byte
is written whole, as part of a little-endian value, or out of fields that fill it from the top. -/

namespace Sys2Proof.Machine

/-! ## Bytes in the buffer -/

theorem Mem.holds_writeBytes (m : Mem) (a : Nat) (bytes : List Byte) : (m.writeBytes a bytes).holds m a bytes :=
  fun b => m.read_writeBytes a b bytes

theorem Mem.holds_nil (m : Mem) (a : Nat) : m.holds m a [] := m.holds_writeBytes a []

theorem Mem.holds.append {m₁ m₂ old : Mem} {a : Nat} {xs ys : List Byte} (h₁ : m₁.holds old a xs)
    (h₂ : m₂.holds m₁ (a + xs.length) ys) : m₂.holds old a (xs ++ ys) := by
  intro b
  rw [h₂ b, h₁ b, List.length_append]
  by_cases hys : a + xs.length ≤ b
  · rw [List.getElem?_append_right (by omega), if_neg (show ¬(a ≤ b ∧ b < a + xs.length) by omega), Nat.sub_add_eq]
    exact if_congr (by omega) rfl rfl
  · rw [if_neg (fun h => hys h.1)]
    by_cases hxs : a ≤ b
    · rw [List.getElem?_append_left (by omega), if_pos ⟨hxs, by omega⟩, if_pos ⟨hxs, by omega⟩]
    · rw [if_neg (fun h => hxs h.1), if_neg (fun h => hxs h.1)]

theorem Mem.holds_singleton {m old : Mem} {a : Nat} {x : Byte} (hx : m.read a = some x)
    (h : ∀ b, b ≠ a → m.read b = old.read b) : m.holds old a [x] := by
  intro b
  by_cases hb : b = a
  · subst hb
    simpa using hx
  · rw [h b hb, if_neg (by simp; omega)]

/-! ## One EMIT -/

theorem emit_of_fastPath {w v cap off : Nat} {m : Mem} (hw : 1 ≤ w) (hw' : w ≤ 64) (hroom : off + w ≤ 8 * cap)
    (hfast : fastPath off w = true) :
    emit w v ⟨cap, off, m⟩ = .ok ⟨cap, off + w, m.writeLE (off / 8) (w / 8) (truncBits w v)⟩ := by
  rw [emit, if_neg (by omega), if_neg (Nat.not_lt.2 hroom), if_pos hfast]

theorem emit_of_general {w v cap off : Nat} {m m' : Mem} (hw : 1 ≤ w) (hw' : w ≤ 64) (hroom : off + w ≤ 8 * cap)
    (hslow : ¬fastPath off w = true) (hm : m.startsAt off) (hchunks : emitChunks w w off (truncBits w v) m = .ok m') :
    emit w v ⟨cap, off, m⟩ = .ok ⟨cap, off + w, m'⟩ := by
  have hestablished : ¬(off % 8 ≠ 0 ∧ m.read (off / 8) = none) := by
    rintro ⟨hne, hnone⟩
    have hsome := hm hne
    rw [hnone] at hsome
    cases hsome
  rw [emit, if_neg (by omega), if_neg (Nat.not_lt.2 hroom), if_neg hslow, if_neg hestablished]
  dsimp only
  rw [hchunks]

/-! ## A byte out of fields -/

/-- A byte with the `k` bits of `acc` on top, zeros below. -/
def leftByte (k acc : Nat) : Byte := BitVec.ofNat 8 (acc * 2 ^ (8 - k))

theorem leftByte_zero (k : Nat) : leftByte k 0 = 0#8 := by
  rw [leftByte, Nat.zero_mul]

theorem leftByte_full (acc : Nat) : leftByte 8 acc = BitVec.ofNat 8 acc := by
  rw [leftByte, Nat.sub_self, Nat.pow_zero, Nat.mul_one]

/-- OR-ing a field in below the bits a byte has appends it to them. -/
theorem leftByte_or_field {k w x : Nat} (acc : Nat) (hk : k + w ≤ 8) (hx : x < 2 ^ w) :
    leftByte k acc ||| BitVec.ofNat 8 (x * 2 ^ (8 - k - w)) = leftByte (k + w) (acc * 2 ^ w + x) := by
  obtain ⟨d, hd⟩ : ∃ d, 8 = k + w + d := ⟨8 - (k + w), by omega⟩
  rw [leftByte, leftByte, show 8 - k = w + d by omega, show w + d - w = d by omega, show 8 - (k + w) = d by omega,
    ← BitVec.ofNat_or]
  congr 1
  calc acc * 2 ^ (w + d) ||| x * 2 ^ d
      = acc <<< w <<< d ||| x <<< d := by rw [← Nat.shiftLeft_add, Nat.shiftLeft_eq, Nat.shiftLeft_eq]
    _ = (acc <<< w + x) <<< d := by rw [← Nat.shiftLeft_or_distrib, Nat.shiftLeft_add_eq_or_of_lt hx]
    _ = (acc * 2 ^ w + x) * 2 ^ d := by rw [Nat.shiftLeft_eq, Nat.shiftLeft_eq]

/-- The buffer `m` is `old` but for the byte `a`, whose first `k` bits are written and spell `acc`. -/
structure Mem.Begun (m old : Mem) (a k acc : Nat) : Prop where
  others : ∀ b, b ≠ a → m.read b = old.read b
  start : k = 0 → acc = 0
  bits : k ≠ 0 → m.read a = some (leftByte k acc)

theorem Mem.begun_start (m : Mem) (a : Nat) : m.Begun m a 0 0 :=
  ⟨fun _ _ => rfl, fun _ => rfl, fun h => absurd rfl h⟩

theorem Mem.Begun.write {m old : Mem} {a k acc k' acc' : Nat} (h : m.Begun old a k acc) (hk : 1 ≤ k') :
    (m.write a (leftByte k' acc')).Begun old a k' acc' where
  others b hb := by rw [Mem.read_write_other _ _ _ _ hb, h.others b hb]
  start h0 := absurd h0 (by omega)
  bits _ := Mem.read_write_same _ _ _

/-- The general path inside one byte is one turn of its loop (R153, R154). -/
theorem emitChunks_field {m old : Mem} {a k acc w x : Nat} (h : m.Begun old a k acc) (hw : 1 ≤ w) (hk : k + w ≤ 8)
    (hx : x < 2 ^ w) :
    emitChunks w w (8 * a + k) x m = .ok (m.write a (leftByte (k + w) (acc * 2 ^ w + x))) := by
  obtain ⟨fuel, rfl⟩ : ∃ fuel, w = fuel + 1 := ⟨w - 1, by omega⟩
  have hdone : ∀ (p : Nat) (m' : Mem), emitChunks fuel 0 p x m' = .ok m' := by
    intro p m'
    cases fuel <;> rfl
  have hmin : min (fuel + 1) (8 - k) = fuel + 1 := by omega
  simp only [emitChunks, if_neg (Nat.succ_ne_zero fuel), show (8 * a + k) / 8 = a by omega,
    show (8 * a + k) % 8 = k by omega, hmin, Nat.sub_self, Nat.pow_zero, Nat.div_one, Nat.mod_eq_of_lt hx, hdone]
  rw [← leftByte_or_field acc hk hx]
  by_cases h0 : k = 0
  · rw [if_pos h0, h.start h0, leftByte_zero, BitVec.zero_or]
  · rw [if_neg h0, h.bits h0]

/-- A field emitted inside one byte comes behind the bits the byte has, on the fast path or the general one. -/
theorem emit_field {m old : Mem} {cap a k acc w : Nat} (v : Nat) (h : m.Begun old a k acc) (hw : 1 ≤ w) (hk : k + w ≤ 8)
    (hroom : a + 1 ≤ cap) :
    emit w v ⟨cap, 8 * a + k, m⟩ =
      .ok ⟨cap, 8 * a + k + w, m.write a (leftByte (k + w) (acc * 2 ^ w + truncBits w v))⟩ := by
  have hin : 8 * a + k + w ≤ 8 * cap := by omega
  have hchunks := emitChunks_field h hw hk (Nat.mod_lt v (Nat.two_pow_pos w))
  by_cases hfast : fastPath (8 * a + k) w = true
  · obtain ⟨rfl, rfl⟩ : k = 0 ∧ w = 8 := by
      simp only [fastPath, Bool.and_eq_true, Bool.or_eq_true, beq_iff_eq] at hfast
      omega
    refine (emit_of_fastPath hw (by decide) hin hfast).trans ?_
    rw [h.start rfl, Nat.zero_mul, Nat.zero_add, Nat.zero_add, leftByte_full,
      Nat.mul_div_cancel_left a (show 0 < 8 by decide)]
    rfl
  · refine emit_of_general hw (by omega) hin hfast (fun hne => ?_) hchunks
    rw [show (8 * a + k) / 8 = a by omega, h.bits (by omega)]
    rfl

/-- The number that fields, given as widths and values, spell one after another. -/
def joinFields (acc : Nat) (fields : List (Nat × Nat)) : Nat :=
  fields.foldl (fun acc f => acc * 2 ^ f.1 + f.2 % 2 ^ f.1) acc

/-- Fields that fill up a begun byte leave it complete (R159). -/
theorem runActions_fields {fields : List (Nat × Nat)} {m old : Mem} {cap a k acc : Nat} (h : m.Begun old a k acc)
    (hw : ∀ f ∈ fields, 1 ≤ f.1) (hfill : k + (fields.map Prod.fst).sum = 8) (hroom : a + 1 ≤ cap) :
    ∃ m', m'.holds old a [BitVec.ofNat 8 (joinFields acc fields)]
      ∧ runActions (fields.map fun f => .put f.1 f.2) ⟨cap, 8 * a + k, m⟩ = (⟨cap, 8 * (a + 1), m'⟩, none) := by
  induction fields generalizing m k acc with
  | nil =>
    obtain rfl : k = 8 := hfill
    exact ⟨m, Mem.holds_singleton ((h.bits (by decide)).trans (by rw [leftByte_full]; rfl)) h.others, rfl⟩
  | cons f rest ih =>
    simp only [List.map_cons, List.sum_cons] at hfill
    have hf : 1 ≤ f.1 := hw f List.mem_cons_self
    obtain ⟨m', hm', hrun⟩ :=
      ih (h.write (k' := k + f.1) (acc' := acc * 2 ^ f.1 + truncBits f.1 f.2) (by omega))
        (fun g hg => hw g (List.mem_cons_of_mem f hg)) (by omega)
    refine ⟨m', hm', ?_⟩
    rw [List.map_cons, runActions, emit_field f.2 h hf (by omega) hroom, Nat.add_assoc]
    exact hrun

/-! ## Sequences of EMITs that write whole bytes -/

/-- From a byte-aligned cursor with room, the sequence writes these bytes and nothing else, and the cursor ends behind them. -/
def EmitsBytes (acts : List EmitAction) (bytes : List Byte) : Prop :=
  ∀ (e : Emission) (a : Nat), e.off = 8 * a → a + bytes.length ≤ e.cap →
    ∃ m, m.holds e.buf a bytes ∧ runActions acts e = (⟨e.cap, 8 * (a + bytes.length), m⟩, none)

theorem EmitsBytes.append {acts acts' : List EmitAction} {bytes bytes' : List Byte} (h : EmitsBytes acts bytes)
    (h' : EmitsBytes acts' bytes') : EmitsBytes (acts ++ acts') (bytes ++ bytes') := by
  intro e a hoff hroom
  rw [List.length_append] at hroom ⊢
  obtain ⟨m, hm, hrun⟩ := h e a hoff (by omega)
  obtain ⟨m', hm', hrun'⟩ := h' ⟨e.cap, 8 * (a + bytes.length), m⟩ (a + bytes.length) rfl (by dsimp only; omega)
  refine ⟨m', hm.append hm', ?_⟩
  rw [runActions_append, hrun, ← Nat.add_assoc]
  exact hrun'

/-- What such a sequence answers as one command. -/
theorem EmitsBytes.emitted {acts : List EmitAction} {bytes : List Byte} (h : EmitsBytes acts bytes) {s : State} {a : Nat}
    (hs : s.cursorAt a bytes.length) : s.emitted a bytes (s.emitAll acts) := by
  obtain ⟨hidle, hlive, hoff, hroom⟩ := hs
  obtain ⟨m, hm, hrun⟩ := h s.emission a hoff hroom
  refine ⟨m, hm, ?_⟩
  rw [State.emitAll, issue_idle _ _ hidle, State.attach, if_pos hlive]
  dsimp only
  rw [hrun]
  rfl

/-- The fields, one after another, are the bits of `x`. -/
structure FieldsOf {n : Nat} (fields : List (Nat × Nat)) (x : BitVec n) : Prop where
  positive : ∀ f ∈ fields, 1 ≤ f.1
  total : (fields.map Prod.fst).sum = n
  value : joinFields 0 fields = x.toNat

theorem FieldsOf.one {w : Nat} (x : BitVec w) (hw : 1 ≤ w := by decide) : FieldsOf [(w, x.toNat)] x where
  positive := by simpa using hw
  total := by simp
  value := by simp [joinFields]

theorem FieldsOf.snoc {n w : Nat} {fields : List (Nat × Nat)} {x : BitVec n} (h : FieldsOf fields x) (y : BitVec w)
    (hw : 1 ≤ w := by decide) : FieldsOf (fields ++ [(w, y.toNat)]) (x ++ y) where
  positive f hf := by
    rcases List.mem_append.1 hf with hf | hf
    · exact h.positive f hf
    · rw [List.mem_singleton.1 hf]
      exact hw
  total := by simp [h.total]
  value := by
    have hvalue := h.value
    unfold joinFields at hvalue ⊢
    rw [List.foldl_append, hvalue, BitVec.toNat_append, ← Nat.shiftLeft_add_eq_or_of_lt y.isLt, Nat.shiftLeft_eq]
    simp

theorem FieldsOf.emits {fields : List (Nat × Nat)} {b : Byte} (h : FieldsOf fields b) :
    EmitsBytes (fields.map fun f => .put f.1 f.2) [b] := by
  rintro ⟨cap, off, buf⟩ a rfl hroom
  obtain ⟨m, hm, hrun⟩ := runActions_fields (buf.begun_start a) h.positive (by rw [h.total]) hroom
  rw [h.value, BitVec.ofNat_toNat, BitVec.setWidth_eq] at hm
  exact ⟨m, hm, hrun⟩

theorem emits_byteItem (b : Byte) : EmitsBytes (byteItem b) [b] := (FieldsOf.one b).emits

/-! ## Little-endian values -/

/-- The first `n` bytes of a word, least significant first. -/
def littleEndian {w : Nat} (n : Nat) (v : BitVec w) : List Byte := (List.range n).map fun k => v.extractLsb' (8 * k) 8

theorem littleEndian_length {w : Nat} (n : Nat) (v : BitVec w) : (littleEndian n v).length = n := by
  simp [littleEndian]

/-- Bytes of a word are not touched by widening it. -/
theorem littleEndian_setWidth {w w' n : Nat} (v : BitVec w) (h : 8 * n ≤ w') :
    littleEndian n (v.setWidth w') = littleEndian n v := by
  refine List.map_congr_left fun k hk => BitVec.extractLsb'_setWidth_of_le ?_
  have := List.mem_range.1 hk
  omega

/-- Dropping the bits past byte `n` does not change the first `n` bytes. -/
theorem leBytes_truncBits (n v : Nat) : leBytes n (truncBits (8 * n) v) = leBytes n v := by
  induction n generalizing v with
  | zero => rfl
  | succ n ih =>
    have hpow : 2 ^ (8 * (n + 1)) = 256 * 2 ^ (8 * n) := by
      rw [Nat.mul_succ, Nat.pow_add, Nat.mul_comm]
    have hbyte : BitVec.ofNat 8 (v % (256 * 2 ^ (8 * n))) = BitVec.ofNat 8 v :=
      BitVec.eq_of_toNat_eq (by simp)
    rw [leBytes, leBytes, truncBits, hpow, hbyte, Nat.mod_mul_right_div_self]
    exact congrArg _ (ih (v / 256))

theorem leBytes_eq_range' {w : Nat} (v : BitVec w) (n k : Nat) :
    leBytes n (v.toNat / 256 ^ k) = (List.range' k n).map fun j => v.extractLsb' (8 * j) 8 := by
  induction n generalizing k with
  | zero => rfl
  | succ n ih =>
    rw [leBytes, Nat.div_div_eq_div_mul, ← Nat.pow_succ, ih (k + 1), List.range'_succ, List.map_cons,
      BitVec.extractLsb', Nat.shiftRight_eq_div_pow, Nat.pow_mul]

theorem leBytes_toNat {w : Nat} (n : Nat) (v : BitVec w) : leBytes n v.toNat = littleEndian n v := by
  rw [littleEndian, List.range_eq_range', ← leBytes_eq_range', Nat.pow_zero, Nat.div_one]

/-- A value of 1, 2, 4 or 8 bytes takes the fast path (R152; spec/20_memory.md R73). -/
theorem emits_valueItem {n : Nat} (hn : n = 1 ∨ n = 2 ∨ n = 4 ∨ n = 8) (v : Word64) :
    EmitsBytes (valueItem (8 * n) v) (littleEndian n v) := by
  rintro ⟨cap, off, buf⟩ a rfl hroom
  rw [littleEndian_length] at hroom ⊢
  refine ⟨buf.writeBytes a (littleEndian n v), buf.holds_writeBytes a _, ?_⟩
  have hfast : fastPath (8 * a) (8 * n) = true := by
    simp only [fastPath, Bool.and_eq_true, Bool.or_eq_true, beq_iff_eq]
    omega
  have hin : 8 * a + 8 * n ≤ 8 * cap := by
    dsimp only at hroom
    omega
  have hn8 : 8 * n / 8 = n := Nat.mul_div_cancel_left n (by decide)
  have ha8 : 8 * a / 8 = a := Nat.mul_div_cancel_left a (by decide)
  rw [valueItem, runActions, emit_of_fastPath (by omega) (by omega) hin hfast, Mem.writeLE, hn8, ha8, leBytes_truncBits,
    leBytes_toNat, Nat.mul_add]
  rfl

theorem emits_farItem {n : Nat} (hn : n = 1 ∨ n = 2 ∨ n = 4 ∨ n = 8) (v : Word64) (g : BitVec 16) :
    EmitsBytes (farItem (8 * n) v (g.zeroExtend 64)) (littleEndian n v ++ littleEndian 2 g) := by
  rw [← littleEndian_setWidth g (show 8 * 2 ≤ 64 by decide)]
  exact (emits_valueItem hn v).append (emits_valueItem (n := 2) (by decide) (g.setWidth 64))

/-! ## REX, VEX, EVEX, ModRM, SIB and the IS4 byte -/

theorem emits_rexItem (w r x b : BitVec 1) : EmitsBytes (rexItem w r x b) [0x4#4 ++ w ++ r ++ x ++ b] :=
  (((((FieldsOf.one 0x4#4).snoc w).snoc r).snoc x).snoc b).emits

theorem emits_vex2Item (f : Vex2Fields) : EmitsBytes (vex2Item f) (vex2Bytes f) :=
  (emits_byteItem 0xC5).append ((((FieldsOf.one f.r).snoc f.v).snoc f.l).snoc f.p).emits

theorem emits_vex3Item (f : Vex3Fields) : EmitsBytes (vex3Item f) (vex3Bytes f) :=
  (emits_byteItem 0xC4).append <|
    ((((FieldsOf.one f.r).snoc f.x).snoc f.b).snoc f.m).emits.append
      ((((FieldsOf.one f.w).snoc f.v).snoc f.l).snoc f.p).emits

theorem emits_evexItem (f : EvexFields) : EmitsBytes (evexItem f) (evexBytes f) :=
  (emits_byteItem 0x62).append <|
    ((((((FieldsOf.one f.r).snoc f.x).snoc f.b).snoc f.rr).snoc 0#1).snoc f.m).emits.append <|
      ((((FieldsOf.one f.w).snoc f.v).snoc 1#1).snoc f.p).emits.append
        (((((FieldsOf.one f.z).snoc f.l).snoc f.bb).snoc f.vv).snoc f.a).emits

theorem emits_modrmItem (m : BitVec 2) (r b : BitVec 3) : EmitsBytes (modrmItem m r b) [m ++ r ++ b] :=
  (((FieldsOf.one m).snoc r).snoc b).emits

theorem emits_is4Item (r i : BitVec 4) : EmitsBytes (is4Item r.toNat i.toNat) [r ++ i] :=
  ((FieldsOf.one r).snoc i).emits

/-! ## The NOP rows -/

/-- A literal stored at offset 0 is all that changes (spec/47_encode_nop.md R380). -/
theorem stored_storeLiteral (s : State) (bytes : List Byte) : s.stored 0 bytes (.code .noError) (s.storeLiteral bytes) :=
  ⟨s.buf.writeBytes 0 bytes, s.buf.holds_writeBytes 0 bytes, rfl⟩

theorem stored_issue_literal {s : State} (h : s.phase = .idle) (bytes : List Byte) :
    s.stored 0 bytes (.code .noError) (s.issue fun s => s.storeLiteral bytes) := by
  rw [issue_idle _ _ h]
  exact stored_storeLiteral s bytes

theorem stored_encodeNop {s : State} (h : s.phase = .idle) {n : Nat} {bytes : List Byte}
    (hrow : nopBytes s.params.nopTable n = some bytes) :
    s.stored 0 bytes (.code .noError) (execEncodeNop n s) := by
  rw [execEncodeNop, issue_idle _ _ h, hrow]
  exact stored_storeLiteral s bytes

end Sys2Proof.Machine

namespace Sys2Proof

open Machine

/-! ## The obligations of spec/30_encoding.md -/

/-- Settles O20: each item is one or two whole bytes. -/
theorem fixedWireBytesAreEmitted : Obligations.FixedWireBytesAreEmitted := by
  intro s a
  constructor
  · intro hs
    have one : ∀ b : Byte, s.emitted a [b] (s.emitAll (byteItem b)) := fun b => (emits_byteItem b).emitted hs
    exact ⟨one _, one _, one _, one _, one _, one _, one _, one _, one _, one _, one 0x0F⟩
  · intro hs
    have two : ∀ b c : Byte, s.emitted a [b, c] (s.emitAll (byteItem b ++ byteItem c)) := fun b c =>
      ((emits_byteItem b).append (emits_byteItem c)).emitted hs
    exact ⟨two 0x0F 0x38, two 0x0F 0x3A⟩

/-- Settles O21: the fields of REX, VEX and EVEX fill each of their bytes from the top. -/
theorem prefixFieldsAreEmittedInTheirLayout : Obligations.PrefixFieldsAreEmittedInTheirLayout := fun _ _ =>
  ⟨fun hs w r x b => (emits_rexItem w r x b).emitted hs, fun hs f => (emits_vex2Item f).emitted hs,
    fun hs f => (emits_vex3Item f).emitted hs, fun hs f => (emits_evexItem f).emitted hs⟩

/-- Settles O22: ModRM and SIB have the same layout. -/
theorem opcodeModrmAndSibAreEmitted : Obligations.OpcodeModrmAndSibAreEmitted := fun _ _ hs =>
  ⟨fun o => (emits_byteItem o).emitted hs, fun m r b => (emits_modrmItem m r b).emitted hs,
    fun ss i b => (emits_modrmItem ss i b).emitted hs⟩

/-- Settles O23: a displacement, a branch displacement and an immediate of one width are one sequence, and a far pointer is two
such values. -/
theorem valuesAreEmittedLittleEndian : Obligations.ValuesAreEmittedLittleEndian := by
  intro s a v
  refine ⟨fun hs => ?byte, fun hs => ?half, fun hs => ?word, fun hs g => ?far32, fun hs => ?double⟩
  case byte =>
    have value := (emits_valueItem (n := 1) (by decide) v).emitted hs
    exact ⟨value, value, value, fun r i => (emits_is4Item r i).emitted hs, fun b => (emits_byteItem b).emitted hs⟩
  case half =>
    have value := (emits_valueItem (n := 2) (by decide) v).emitted hs
    exact ⟨value, value, value⟩
  case word =>
    have value := (emits_valueItem (n := 4) (by decide) v).emitted hs
    exact ⟨value, value, value, fun g => (emits_farItem (n := 2) (by decide) v g).emitted hs⟩
  case far32 => exact (emits_farItem (n := 4) (by decide) v g).emitted hs
  case double => exact (emits_valueItem (n := 8) (by decide) v).emitted hs

/-- Settles O24: ENCODE_NOP with the default table and the row of its length store the same literal. -/
theorem nopRowsAreStored : Obligations.NopRowsAreStored := by
  intro s hidle
  have row : ∀ n, s.stored 0 (nopLiteral n) (.code .noError) (s.issue fun s => s.storeLiteral (nopLiteral n)) :=
    fun n => stored_issue_literal hidle (nopLiteral n)
  refine ⟨fun ht => ?_, row 1, row 2, row 3, row 4, row 5, row 6, row 7, row 8, row 9⟩
  have command : ∀ n, nopBytes defaultNopTable n = some (nopLiteral n) →
      s.stored 0 (nopLiteral n) (.code .noError) (execEncodeNop n s) := fun n hn =>
    stored_encodeNop hidle (by rw [ht, hn])
  exact ⟨command 1 rfl, command 2 rfl, command 3 rfl, command 4 rfl, command 5 rfl, command 6 rfl, command 7 rfl,
    command 8 rfl, command 9 rfl⟩

/-- Settles O2: each word is in the one format named, or in the first the table tries; the words of R104 to R108 follow
from their rows' layouts for all fields. -/
theorem specWordsDecode : Obligations.SpecWordsDecode :=
  ⟨rfl, rfl, wireRow_rex 1 0 0 1, wireRow_vex2 ⟨1, 13, 1, 0⟩, wireRow_vex3 ⟨0, 1, 0, 1, 0, 13, 1, 0⟩,
    wireRow_evex ⟨1, 1, 1, 1, 1, 0, 13, 0, 0, 2, 0, 1, 1⟩, rfl, rfl, rfl, rfl⟩

end Sys2Proof
end

section
/-! What EMIT_BITS does (spec/40_bit_emitter.md R150 to R159). A turn of the general path's loop writes one byte; `laidBit` says
which bit of the value a stream position takes, and an induction over the turns carries it from a byte to the whole value. -/

namespace Sys2Proof.Machine

/-! ## EMIT_BITS as one EMIT -/

theorem exec_emitBits (w : Nat) (v : Word64) (s : State) : exec (.emitBits w v) s = s.emitAll [.put w v.toNat] := by
  rfl

theorem exec_emitBits_of_ok {s : State} {w : Nat} {v : Word64} {e : Emission} (hidle : s.phase = .idle)
    (hlive : s.evLive = true) (h : emit w v.toNat s.emission = .ok e) :
    exec (.emitBits w v) s = (s.withEmission e).finish (.cursor e.off) := by
  rw [exec_emitBits, State.emitAll, issue_idle _ _ hidle, State.attach, if_pos hlive]
  simp only [runActions, h]

/-- An EMIT that stops has moved neither the cursor nor the buffer (R151). -/
theorem exec_emitBits_of_error {s : State} {w : Nat} {v : Word64} {stop : Stop} (hidle : s.phase = .idle)
    (hlive : s.evLive = true) (h : emit w v.toNat s.emission = .error stop) :
    exec (.emitBits w v) s = s.stopped stop := by
  rw [exec_emitBits, State.emitAll, issue_idle _ _ hidle, State.attach, if_pos hlive]
  simp only [runActions, h]
  rfl

/-! The stops of an EMIT, in the order of its tests (R150, R151, R158). -/

theorem emit_of_illegal_width {w v : Nat} {e : Emission} (hw : w = 0 ∨ 64 < w) :
    emit w v e = .error (.refuse .emitWidth) := by
  rw [emit, if_pos hw, refuse]

theorem emit_of_no_room {w v : Nat} {e : Emission} (hw : 1 ≤ w) (hw' : w ≤ 64) (hfull : 8 * e.cap < e.off + w) :
    emit w v e = .error (.raise .bufferTooShort) := by
  rw [emit, if_neg (by omega), if_pos hfull]

theorem emit_of_unestablished {w v : Nat} {e : Emission} (hw : 1 ≤ w) (hw' : w ≤ 64) (hroom : e.off + w ≤ 8 * e.cap)
    (hinside : e.off % 8 ≠ 0) (hnone : e.buf.read (e.off / 8) = none) :
    emit w v e = .error (.refuse .unestablishedByte) := by
  have hslow : ¬fastPath e.off w = true := by simp [fastPath, hinside]
  rw [emit, if_neg (by omega), if_neg (Nat.not_lt.2 hroom), if_neg hslow, if_pos ⟨hinside, hnone⟩, refuse]

/-! ## The context of a bare EMIT -/

/-- Every emission instruction is a sequence of EMITs that does not depend on the state. -/
theorem exec_of_isEmission {i : Instr} (h : isEmission i = true) : ∃ acts, ∀ s, exec i s = s.emitAll acts := by
  cases i with
  | emitBits _ _ | pfxSegEs | pfxSegCs | pfxSegSs | pfxSegDs | pfxSegFs | pfxSegGs | pfxOsz | pfxAsz | pfxRepne | pfxRep
  | rex _ _ _ _ | escMap1 | escMap2 | escMap3 | vex2 _ | vex3 _ | evex _ | opcode _ | modrm _ _ _ | sib _ _ _ | disp _ _
  | brdisp _ _ | farptr _ _ _ | imm1 _ => exact ⟨_, fun _ => rfl⟩
  | imm0 f => cases f <;> exact ⟨_, fun _ => rfl⟩
  | _ => cases h

theorem State.attach_phase (s : State) : s.attach.phase = s.phase := by
  rw [State.attach_eq]

theorem State.attach_attach (s : State) : s.attach.attach = s.attach := by
  rw [State.attach, if_pos (by rw [State.attach_eq])]

/-- A sequence of EMITs starts a context where there is none, and then runs in it. -/
theorem State.emitAll_attach (s : State) (acts : List EmitAction) : s.attach.emitAll acts = s.emitAll acts := by
  unfold State.emitAll State.issue
  dsimp only
  rw [State.attach_phase, State.attach_attach]

/-! ## The fast path -/

theorem littleEndian_getElem? {w n k : Nat} (v : BitVec w) (hk : k < n) :
    (littleEndian n v)[k]? = some (v.extractLsb' (8 * k) 8) := by
  simp [littleEndian, hk]

theorem Mem.holds.read_inside {m old : Mem} {a k : Nat} {bytes : List Byte} (h : m.holds old a bytes)
    (hk : k < bytes.length) : m.read (a + k) = bytes[k]? := by
  rw [h (a + k), if_pos (by omega), Nat.add_sub_cancel_left]

theorem Mem.holds.read_outside {m old : Mem} {a b : Nat} {bytes : List Byte} (h : m.holds old a bytes)
    (hb : b < a ∨ a + bytes.length ≤ b) : m.read b = old.read b := by
  rw [h b, if_neg (by omega)]

/-! ## The general path -/

/-- What stream position `q` takes of the low `rem` bits of `v` laid from position `p` on, top bit first. -/
def laidBit (p rem v q : Nat) : Bool := decide (p ≤ q ∧ q < p + rem) && v.testBit (p + rem - 1 - q)

/-- The bits that one turn of the loop adds to the byte of position `p` (R154). -/
def turnBits (p rem v : Nat) : Byte :=
  let n := min rem (8 - p % 8)
  BitVec.ofNat 8 (v / 2 ^ (rem - n) % 2 ^ n * 2 ^ (8 - p % 8 - n))

/-- What a byte keeps when the position `p` in it is written: nothing from its first position on. -/
def keptByte (p : Nat) (old : Byte) : Byte := if p % 8 = 0 then 0#8 else old

theorem getLsbD_turnBits {p rem v q : Nat} (hq : q / 8 = p / 8) :
    (turnBits p rem v).getLsbD (7 - q % 8) = laidBit p rem v q := by
  have hindex (hin : p ≤ q ∧ q < p + rem) :
      7 - q % 8 - (8 - p % 8 - min rem (8 - p % 8)) + (rem - min rem (8 - p % 8)) = p + rem - 1 - q := by omega
  rw [turnBits, laidBit, Bool.eq_iff_iff]
  simp only [BitVec.getLsbD_ofNat, Nat.testBit_mul_two_pow, Nat.testBit_mod_two_pow, Nat.testBit_div_two_pow,
    Bool.and_eq_true, decide_eq_true_eq]
  constructor
  · rintro ⟨-, hlow, hhigh, hbit⟩
    have hin : p ≤ q ∧ q < p + rem := by omega
    exact ⟨hin, hindex hin ▸ hbit⟩
  · rintro ⟨hin, hbit⟩
    exact ⟨by omega, by omega, by omega, (hindex hin).symm ▸ hbit⟩

theorem getLsbD_keptByte {p q i : Nat} (old : Byte) (hq : q / 8 = p / 8) :
    (keptByte p old).getLsbD i = (decide (p % 8 ≠ 0 ∧ q / 8 = p / 8) && old.getLsbD i) := by
  by_cases hp : p % 8 = 0 <;> simp [keptByte, hp, hq]

/-- A turn of the loop (R153, R154): one byte written, the position behind the bits it took. -/
theorem emitChunks_turn {fuel rem p v : Nat} {m : Mem} {old : Byte} (hrem : rem ≠ 0)
    (hold : p % 8 ≠ 0 → m.read (p / 8) = some old) :
    emitChunks (fuel + 1) rem p v m =
      emitChunks fuel (rem - min rem (8 - p % 8)) (p + min rem (8 - p % 8)) v
        (m.write (p / 8) (keptByte p old ||| turnBits p rem v)) := by
  rw [emitChunks, if_neg hrem]
  by_cases hp : p % 8 = 0
  · rw [if_pos hp, keptByte, if_pos hp, BitVec.zero_or]
    rfl
  · rw [if_neg hp, hold hp, keptByte, if_neg hp]
    rfl

theorem emitChunks_done (fuel p v : Nat) (m : Mem) : emitChunks fuel 0 p v m = .ok m := by
  cases fuel <;> rfl

/-- The byte the general path starts in is written by its first turn only. -/
theorem emitChunks_first_byte {fuel rem p v : Nat} {m m' : Mem} {old : Byte} (hf : rem ≤ fuel) (hrem : rem ≠ 0)
    (hold : p % 8 ≠ 0 → m.read (p / 8) = some old) (h : emitChunks fuel rem p v m = .ok m') :
    m'.read (p / 8) = some (keptByte p old ||| turnBits p rem v) := by
  obtain ⟨fuel, rfl⟩ : ∃ n, fuel = n + 1 := ⟨fuel - 1, by omega⟩
  rw [emitChunks_turn hrem hold] at h
  by_cases hmore : 8 - p % 8 < rem
  · obtain ⟨-, hframe, -⟩ := emitChunks_ok _ _ _ _ _ _ (by omega) h
    rw [hframe (p / 8) (by omega), Mem.read_write_same]
  · rw [show rem - min rem (8 - p % 8) = 0 by omega, emitChunks_done] at h
    cases h
    exact Mem.read_write_same _ _ _

theorem Mem.streamBit_of_read {m : Mem} {q : Nat} {b : Byte} (h : m.read (q / 8) = some b) :
    m.streamBit q = some (b.getLsbD (7 - q % 8)) := by
  rw [Mem.streamBit, h]

/-- Every position of the bytes that the general path touches (R153, R154): the value's bits, OR-ed in the first byte with
what it held if the cursor stands inside it. -/
theorem emitChunks_streamBit {fuel rem p v q : Nat} {m m' : Mem} {old : Byte} (hf : rem ≤ fuel) (hrem : rem ≠ 0)
    (hold : p % 8 ≠ 0 → m.read (p / 8) = some old) (h : emitChunks fuel rem p v m = .ok m')
    (hlo : p / 8 ≤ q / 8) (hhi : q < 8 * ((p + rem + 7) / 8)) :
    m'.streamBit q =
      some (laidBit p rem v q || (decide (p % 8 ≠ 0 ∧ q / 8 = p / 8) && old.getLsbD (7 - q % 8))) := by
  induction fuel generalizing rem p m old with
  | zero => omega
  | succ fuel ih =>
    by_cases hfirst : q / 8 = p / 8
    · have hread : m'.read (q / 8) = some (keptByte p old ||| turnBits p rem v) := by
        rw [hfirst, emitChunks_first_byte hf hrem hold h]
      rw [Mem.streamBit_of_read hread, BitVec.getLsbD_or, getLsbD_turnBits hfirst, getLsbD_keptByte old hfirst, Bool.or_comm]
    · have hmore : 8 - p % 8 < rem := by omega
      have haligned : (p + (8 - p % 8)) % 8 = 0 := by omega
      have hend : p + (8 - p % 8) + (rem - (8 - p % 8)) = p + rem := by omega
      rw [emitChunks_turn hrem hold, Nat.min_eq_right (Nat.le_of_lt hmore)] at h
      have hbit := ih (old := old) (by omega) (by omega) (fun hne => absurd haligned hne) h (by omega) (by rwa [hend])
      have hlater : laidBit (p + (8 - p % 8)) (rem - (8 - p % 8)) v q = laidBit p rem v q := by
        rw [laidBit, laidBit, hend]
        congr 1
        exact decide_eq_decide.2 (by omega)
      simpa [haligned, hfirst, hlater] using hbit

/-- Cutting the value to the width does not change the bits that are laid (R156). -/
theorem laidBit_truncBits {p w q : Nat} (v : Word64) :
    laidBit p w (truncBits w v.toNat) q = (decide (p ≤ q ∧ q < p + w) && v.getLsbD (p + w - 1 - q)) := by
  by_cases hin : p ≤ q ∧ q < p + w
  · rw [laidBit, truncBits, Nat.testBit_mod_two_pow, decide_eq_true (show p + w - 1 - q < w by omega), Bool.true_and,
      BitVec.testBit_toNat]
  · rw [laidBit, decide_eq_false hin, Bool.false_and, Bool.false_and]

end Sys2Proof.Machine

namespace Sys2Proof

open Machine

/-! ## The obligations of spec/40_bit_emitter.md -/

/-- Settles O16: a live aligned cursor is the context of a little-endian value. -/
theorem alignedEmitStoresLittleEndian : Obligations.AlignedEmitStoresLittleEndian := by
  constructor
  · intro i s hi hdead
    obtain ⟨acts, hacts⟩ := exec_of_isEmission hi
    rw [hacts, hacts, ← State.emitAll_attach, State.attach, if_neg (by simp [hdead])]
    rfl
  · intro s w v hidle hlive haligned hw hroom
    obtain ⟨a, ha⟩ : ∃ a, s.ev.bitOffset = 8 * a := ⟨s.ev.bitOffset / 8, by omega⟩
    obtain ⟨n, rfl, hn⟩ : ∃ n, w = 8 * n ∧ (n = 1 ∨ n = 2 ∨ n = 4 ∨ n = 8) := ⟨w / 8, by omega, by omega⟩
    have hlen : (littleEndian n v).length = n := littleEndian_length n v
    obtain ⟨m, hm, hrun⟩ := (emits_valueItem hn v).emitted (s := s) (a := a) ⟨hidle, hlive, ha, by omega⟩
    rw [ha, Nat.mul_div_cancel_left a (by decide), Nat.mul_div_cancel_left n (by decide)]
    refine ⟨m, fun k hk => ?_, fun b hb => hm.read_outside (by omega), ?_⟩
    · rw [hm.read_inside (by omega), littleEndian_getElem? v hk]
    · rw [hlen, Nat.mul_add] at hrun
      exact hrun

/-- Settles O17, by the turns of the general path's loop. -/
theorem generalEmitLaysTheBitsMostSignificantFirst : Obligations.GeneralEmitLaysTheBitsMostSignificantFirst := by
  intro s w v old hidle hlive hw hw' hgeneral hroom hold
  have hslow : ¬fastPath s.ev.bitOffset w = true := by
    simpa only [fastPath, Bool.and_eq_true, Bool.or_eq_true, beq_iff_eq, or_assoc] using hgeneral
  have hstart : s.buf.startsAt s.ev.bitOffset := fun hne => by rw [hold hne, Option.isSome_some]
  obtain ⟨m, hm⟩ := emitChunks_total w w s.ev.bitOffset (truncBits w v.toNat) s.buf hstart
  obtain ⟨-, hframe, -⟩ := emitChunks_ok _ _ _ _ _ _ (Nat.le_refl w) hm
  refine ⟨m, fun p hlo hhi => ?bits, hframe, ?run⟩
  case bits => rw [emitChunks_streamBit (Nat.le_refl w) (by omega) hold hm hlo hhi, laidBit_truncBits]
  case run => exact exec_emitBits_of_ok hidle hlive (emit_of_general hw hw' hroom hslow hstart hm)

/-- Settles O18: the three ways an EMIT stops. -/
theorem emitBitsStopsBeforeWriting : Obligations.EmitBitsStopsBeforeWriting := by
  intro s w v hidle hlive
  refine ⟨fun hw => ?width, fun hw hw' hfull => ?room, fun hw hw' hroom hinside hnone => ?value⟩
  case width => exact exec_emitBits_of_error hidle hlive (emit_of_illegal_width hw)
  case room =>
    rw [exec_emitBits_of_error hidle hlive (emit_of_no_room hw hw' hfull), State.stopped, State.raised, ← hidle]
  case value => exact exec_emitBits_of_error hidle hlive (emit_of_unestablished hw hw' hroom hinside hnone)

/-- Settles O19: the fields fill up the byte at the cursor. -/
theorem fieldsOfOneByteConcatenate : Obligations.FieldsOfOneByteConcatenate := by
  rintro fields ⟨cap, off, buf⟩ hwidths hsum haligned hroom
  obtain ⟨a, rfl⟩ : ∃ a, off = 8 * a := ⟨off / 8, by dsimp only at haligned; omega⟩
  dsimp only at hroom ⊢
  obtain ⟨m, hm, hrun⟩ := runActions_fields (buf.begun_start a) (fun f hf => (hwidths f hf).1)
    (by rw [hsum]) (show a + 1 ≤ cap by omega)
  refine ⟨_, hrun, rfl, rfl, ?_, fun b hb => ?_⟩
  · rw [Nat.mul_div_cancel_left a (by decide)]
    exact hm.read_inside (k := 0) (by simp)
  · exact hm.read_outside (by simp; omega)

end Sys2Proof
end

section
/-! The memory operand (spec/41_field_encoders.md R182 to R196). `encMem` checks the classes of base and index and hands over to
16-bit addressing, to RIP-relative addressing, or to the ModRM and SIB bytes of 32- and 64-bit addressing; there is one lemma
for each, and one for each way it ends in an error. Through the reference field-binding pattern of a row such an error ends an
ENCODE with the buffer untouched. -/

namespace Sys2Proof.Machine

/-! ## The classes of base and index (R183) -/

section Classes

variable {p : Params} {g : RegSpace} {space : Space} {easz : Nat} {cls : RegClass} {rq : Request}

theorem addressClass_ne_ip (hcls : addressClass easz = some cls) : cls ≠ .ip := by
  rintro rfl
  unfold addressClass at hcls
  split at hcls <;> cases hcls

theorem ne_regRIP_of_cls {b : Reg} (h : b.cls ≠ .ip) : b ≠ g.regRIP := fun hb => h (hb ▸ rfl)

theorem checkBaseClass_ok {base : RegOrInvalid} (hcls : addressClass easz = some cls)
    (h : ∀ b, base = some b → b.cls = cls ∨ b = g.regRIP) : checkBaseClass g easz base = .ok () := by
  cases base with
  | none => rfl
  | some b =>
    obtain rfl | rfl := h b rfl
    · have hip := addressClass_ne_ip hcls
      simp [checkBaseClass, hip, hcls]
    · simp [checkBaseClass]

theorem checkIndexClass_ok {index : RegOrInvalid} (hcls : addressClass easz = some cls)
    (h : ∀ x, index = some x → x.cls = cls ∨ x.cls.isVector = true) : checkIndexClass easz index = .ok () := by
  cases index with
  | none => rfl
  | some x =>
    obtain rfl | hvec := h x rfl
    · simp [checkIndexClass, hcls]
    · simp [checkIndexClass, hvec]

theorem encMem_of_classes (hcls : addressClass easz = some cls)
    (hbase : ∀ b, rq.base0 = some b → b.cls = cls ∨ b = p.registers.regRIP)
    (hindex : ∀ x, rq.index = some x → x.cls = cls ∨ x.cls.isVector = true) :
    encMem p space easz rq =
      if easz = 16 then encMem16 p.registers { rq with derived := { rq.derived with hasModrm := true } }
      else encMem32 p space { rq with derived := { rq.derived with hasModrm := true } } := by
  rw [encMem, checkBaseClass_ok hcls hbase, checkIndexClass_ok hcls hindex]
  rfl

/-- EIP and IP as a base (spec/93_implementation_defined.md U6). -/
theorem encMem_base_ip {b : Reg} (hbase : rq.base0 = some b) (hrip : b ≠ p.registers.regRIP) (hip : b.cls = .ip) :
    encMem p space easz rq = refuse .instructionPointerBase := by
  have hcheck : checkBaseClass p.registers easz rq.base0 = refuse .instructionPointerBase := by
    simp [hbase, checkBaseClass, hrip, hip]
  rw [encMem, hcheck]
  rfl

theorem encMem_base_other_class {b : Reg} (hcls : addressClass easz = some cls) (hbase : rq.base0 = some b)
    (hrip : b ≠ p.registers.regRIP) (hip : b.cls ≠ .ip) (hother : b.cls ≠ cls) :
    encMem p space easz rq = refuse .addressClassMismatch := by
  have hcheck : checkBaseClass p.registers easz rq.base0 = refuse .addressClassMismatch := by
    simp [hbase, checkBaseClass, hrip, hip, hcls, hother.symm]
  rw [encMem, hcheck]
  rfl

theorem encMem_index_other_class {x : Reg} (hcls : addressClass easz = some cls)
    (hbase : ∀ b, rq.base0 = some b → b.cls = cls ∨ b = p.registers.regRIP) (hindex : rq.index = some x)
    (hother : x.cls ≠ cls) (hvec : x.cls.isVector = false) :
    encMem p space easz rq = refuse .addressClassMismatch := by
  have hcheck : checkIndexClass easz rq.index = refuse .addressClassMismatch := by
    simp [hindex, checkIndexClass, hvec, hcls, hother.symm]
  rw [encMem, checkBaseClass_ok hcls hbase, hcheck]
  rfl

end Classes

/-! ## 16-bit addressing (R193, R194) -/

/-- The rows of the (base, index) table, each with its RM. -/
def pairRows (g : RegSpace) : List (RegOrInvalid × RegOrInvalid × BitVec 3) :=
  [(some g.regBX, some g.regSI, 0), (some g.regBX, some g.regDI, 1), (some g.regBP, some g.regSI, 2),
    (some g.regBP, some g.regDI, 3), (some g.regSI, none, 4), (some g.regDI, none, 5), (some g.regBP, none, 6),
    (none, none, 6), (some g.regBX, none, 7)]

section Pairs

variable {g : RegSpace} {base index : RegOrInvalid} {rm : BitVec 3}

/-- BX, BP, SI, DI are four registers, so that no row of the table shadows a later one. -/
theorem pairNames_ne (hnames : g.namesDistinct = true) :
    g.regBX ≠ g.regBP ∧ g.regBX ≠ g.regSI ∧ g.regBX ≠ g.regDI ∧ g.regBP ≠ g.regSI ∧ g.regBP ≠ g.regDI
      ∧ g.regSI ≠ g.regDI := by
  obtain ⟨hgpr, -, -⟩ := of_decide_eq_true hnames
  simpa [RegSpace.regBX, RegSpace.regBP, RegSpace.regSI, RegSpace.regDI, and_assoc] using hgpr

theorem table16_of_mem (hnames : g.namesDistinct = true) (h : (base, index, rm) ∈ pairRows g) :
    table16 g base index = .ok rm := by
  obtain ⟨hxp, hxs, hxd, hps, hpd, hsd⟩ := pairNames_ne hnames
  simp only [pairRows, List.mem_cons, List.not_mem_nil, or_false, Prod.mk.injEq] at h
  obtain ⟨rfl, rfl, rfl⟩ | ⟨rfl, rfl, rfl⟩ | ⟨rfl, rfl, rfl⟩ | ⟨rfl, rfl, rfl⟩ | ⟨rfl, rfl, rfl⟩ | ⟨rfl, rfl, rfl⟩ |
    ⟨rfl, rfl, rfl⟩ | ⟨rfl, rfl, rfl⟩ | ⟨rfl, rfl, rfl⟩ := h
  all_goals simp [table16, hxp, hxs, hxd, hps, hpd, hsd, hxp.symm, hsd.symm]

theorem table16_of_not_mem (h : (base, index) ∉ (pairRows g).map fun r => (r.1, r.2.1)) :
    table16 g base index = generalError := by
  simp only [pairRows, List.map_cons, List.map_nil, List.mem_cons, List.not_mem_nil, or_false, Prod.mk.injEq, not_or] at h
  obtain ⟨h0, h1, h2, h3, h4, h5, h6, h6', h7⟩ := h
  simp only [table16, h0, h1, h2, h3, h4, h5, h6, h6', h7, if_false]

/-- Base and index of a row are of class GPR16. -/
theorem cls_of_mem_pairRows (h : (base, index, rm) ∈ pairRows g) :
    (∀ b, base = some b → b.cls = .gpr16) ∧ ∀ x, index = some x → x.cls = .gpr16 := by
  have hrows : ∀ r ∈ pairRows g, (∀ b, r.1 = some b → b.cls = .gpr16) ∧ ∀ x, r.2.1 = some x → x.cls = .gpr16 := by
    simp [pairRows, RegSpace.regBX, RegSpace.regBP, RegSpace.regSI, RegSpace.regDI]
  exact hrows _ h

theorem modDisp16_bare (rq : Request) :
    modDisp16 g none none rq =
      if rq.dispWidth = 16 then .ok { rq with derived := { rq.derived with mod := 0 } }
      else refuse .noBaseDisplacementWidth := rfl

theorem modDisp16_lone_bp {rq : Request} (hw : rq.dispWidth = 0) :
    modDisp16 g (some g.regBP) none rq =
      .ok { rq with dispWidth := 8, disp := 0, derived := { rq.derived with mod := 1 } } := by
  simp [modDisp16, hw]

theorem modDisp16_no_disp {rq : Request} (hbase : base ≠ none) (hbp : ¬(base = some g.regBP ∧ index = none))
    (hw : rq.dispWidth = 0) :
    modDisp16 g base index rq = .ok { rq with derived := { rq.derived with mod := 0 } } := by
  simp [modDisp16, hbase, hbp, hw]

theorem modDisp16_disp8 {rq : Request} (hbase : base ≠ none) (hw : rq.dispWidth = 8) :
    modDisp16 g base index rq = .ok { rq with derived := { rq.derived with mod := 1 } } := by
  simp [modDisp16, hbase, hw]

theorem modDisp16_disp16 {rq : Request} (hbase : base ≠ none) (hw : rq.dispWidth = 16) :
    modDisp16 g base index rq = .ok { rq with derived := { rq.derived with mod := 2 } } := by
  simp [modDisp16, hbase, hw]

theorem modDisp16_other_width {rq : Request} (hbase : base ≠ none)
    (hw : ¬(rq.dispWidth = 0 ∨ rq.dispWidth = 8 ∨ rq.dispWidth = 16)) :
    modDisp16 g base index rq = refuse .displacementWidthForAddressSize := by
  simp only [not_or] at hw
  obtain ⟨h0, h8, h16⟩ := hw
  rw [modDisp16, if_neg (fun h => hbase h.1)]
  split
  · exact absurd ‹_› h0
  · exact absurd ‹_› h8
  · exact absurd ‹_› h16
  · rfl

theorem encMem16_of_pair {rq : Request} (hpair : table16 g rq.base0 rq.index = .ok rm) :
    encMem16 g rq =
      if 1 < rq.scale then refuse .scaleUnder16Bit
      else
        modDisp16 g rq.base0 rq.index
          { rq with derived := { rq.derived with rm := rm, hasSib := false, rexb := false, rexx := false } } := by
  rw [encMem16, hpair]
  rfl

theorem encMem16_of_no_pair {rq : Request} (hpair : table16 g rq.base0 rq.index = generalError) :
    encMem16 g rq = generalError := by
  rw [encMem16, hpair]
  rfl

/-- A pair of registers that has an RM: the scale, then MOD and the displacement. -/
theorem encMem_of_pair {p : Params} {space : Space} {rq : Request}
    (hbase : ∀ b, rq.base0 = some b → b.cls = .gpr16) (hindex : ∀ x, rq.index = some x → x.cls = .gpr16)
    (hpair : table16 p.registers rq.base0 rq.index = .ok rm) :
    encMem p space 16 rq =
      if 1 < rq.scale then refuse .scaleUnder16Bit
      else
        modDisp16 p.registers rq.base0 rq.index { rq with
          derived := { rq.derived with hasModrm := true, rm := rm, hasSib := false, rexb := false, rexx := false } } := by
  rw [encMem_of_classes rfl (fun b hb => .inl (hbase b hb)) (fun x hx => .inl (hindex x hx)), if_pos rfl]
  exact encMem16_of_pair hpair

theorem encMem_of_mem_pairRows {p : Params} {space : Space} {rq : Request} (hnames : p.registers.namesDistinct = true)
    (hrow : (rq.base0, rq.index, rm) ∈ pairRows p.registers) :
    encMem p space 16 rq =
      if 1 < rq.scale then refuse .scaleUnder16Bit
      else
        modDisp16 p.registers rq.base0 rq.index { rq with
          derived := { rq.derived with hasModrm := true, rm := rm, hasSib := false, rexb := false, rexx := false } } := by
  obtain ⟨hbase, hindex⟩ := cls_of_mem_pairRows hrow
  exact encMem_of_pair hbase hindex (table16_of_mem hnames hrow)

end Pairs

/-! ## 32- and 64-bit addressing (R184 to R192, R195) -/

section Addressed

variable {p : Params} {space : Space} {easz : Nat} {cls : RegClass} {rq : Request} {base index : RegOrInvalid}

theorem addressClass_of_addressedBy (haddr : addressedBy easz cls) : addressClass easz = some cls := by
  obtain ⟨rfl, rfl⟩ | ⟨rfl, rfl⟩ := haddr <;> rfl

theorem ne_16_of_addressedBy (haddr : addressedBy easz cls) : easz ≠ 16 := by
  obtain ⟨rfl, -⟩ | ⟨rfl, -⟩ := haddr <;> decide

/-- A register is placed by its own offset, where it is none of AH, CH, DH, BH. -/
theorem fieldOff_of_addressedBy (haddr : addressedBy easz cls) (n : Nat) : fieldOff ⟨cls, n⟩ = n := by
  obtain ⟨-, rfl⟩ | ⟨-, rfl⟩ := haddr <;> rfl

theorem fieldOff_of_isVector {vec : RegClass} (hvec : vec.isVector = true) (x : Nat) : fieldOff ⟨vec, x⟩ = x := by
  cases vec with
  | xmm | ymm | zmm => rfl
  | _ => cases hvec

/-- An index that passes its checks, or none, together with the scale and its code (R183, R185, R186, R172). -/
structure IndexTaken (p : Params) (space : Space) (cls : RegClass) (index : RegOrInvalid) (scale : Nat) (code : BitVec 2) :
    Prop where
  cls : ∀ x, index = some x → x.cls = cls ∨ x.cls.isVector = true
  legal : checkIndex p.indexIllegal index = .ok ()
  code : scaleCode index scale = .ok code
  place : checkPlace space index = .ok ()

theorem indexTaken_none {scale : Nat} (hscale : scale ≤ 1) : IndexTaken p space cls none scale 0 where
  cls := nofun
  legal := rfl
  code := by
    obtain rfl | rfl : scale = 0 ∨ scale = 1 := by omega
    all_goals rfl
  place := rfl

theorem scaleCode_of_scaleOf {scale : Nat} {code : BitVec 2} (h : scaleOf scale code) (x : Reg) :
    scaleCode (some x) scale = .ok code := by
  obtain ⟨rfl, rfl⟩ | ⟨rfl, rfl⟩ | ⟨rfl, rfl⟩ | ⟨rfl, rfl⟩ := h <;> rfl

theorem checkPlace_of_lt {r : Reg} (h : fieldOff r < 16) : checkPlace space (some r) = .ok () := by
  simp [checkPlace, placeable, h]

theorem indexTaken_gpr {scale x : Nat} {code : BitVec 2} (haddr : addressedBy easz cls) (hx : x < 16)
    (hlegal : x ∉ p.indexIllegal) (hscale : scaleOf scale code) : IndexTaken p space cls (some ⟨cls, x⟩) scale code where
  cls := by
    rintro _ ⟨⟩
    exact .inl rfl
  legal := by simp [checkIndex, hlegal]
  code := scaleCode_of_scaleOf hscale _
  place := checkPlace_of_lt ((fieldOff_of_addressedBy haddr x).trans_lt hx)

theorem indexTaken_vector {scale x : Nat} {vec : RegClass} {code : BitVec 2} (hx : x < 32) (hspace : space = .evex ∨ x < 16)
    (hvec : vec.isVector = true) (hscale : scaleOf scale code) : IndexTaken p space cls (some ⟨vec, x⟩) scale code where
  cls := by
    rintro _ ⟨⟩
    exact .inr hvec
  legal := by
    cases vec with
    | xmm | ymm | zmm => rfl
    | _ => cases hvec
  code := scaleCode_of_scaleOf hscale _
  place := by
    have hoff := fieldOff_of_isVector hvec x
    obtain rfl | hlt := hspace
    · simp [checkPlace, placeable, hoff, hx]
    · exact checkPlace_of_lt (hoff.trans_lt hlt)

/-- A base of the width's class, or none: the checks in the order of R196, SIB and ModRM fields, then MOD and the
displacement. -/
theorem encMem_of_addressedBy (haddr : addressedBy easz cls) (hbase : ∀ b, rq.base0 = some b → b.cls = cls)
    (hindex : ∀ x, rq.index = some x → x.cls = cls ∨ x.cls.isVector = true) :
    encMem p space easz rq = (do
      checkIndex p.indexIllegal rq.index
      let code ← scaleCode rq.index rq.scale
      checkPlace space rq.base0
      checkPlace space rq.index
      modDisp rq.base0 { rq with
        derived := sibFields space rq.base0 rq.index code { rq.derived with hasModrm := true } }) := by
  have hcls := addressClass_of_addressedBy haddr
  have hrip : rq.base0 ≠ some p.registers.regRIP := fun h => addressClass_ne_ip hcls (hbase _ h).symm
  rw [encMem_of_classes hcls (fun b hb => .inl (hbase b hb)) hindex, if_neg (ne_16_of_addressedBy haddr), encMem32,
    if_neg hrip]

/-- Base and index pass their checks. -/
theorem encMem_of_indexTaken {code : BitVec 2} (haddr : addressedBy easz cls)
    (hbase : ∀ b, rq.base0 = some b → b.cls = cls ∧ b.off < 16) (hindex : IndexTaken p space cls rq.index rq.scale code) :
    encMem p space easz rq =
      modDisp rq.base0 { rq with
        derived := sibFields space rq.base0 rq.index code { rq.derived with hasModrm := true } } := by
  have hplace : checkPlace space rq.base0 = .ok () := by
    cases hb : rq.base0 with
    | none => rfl
    | some b =>
      obtain ⟨rfl, hn⟩ := hbase b hb
      exact checkPlace_of_lt ((fieldOff_of_addressedBy haddr b.off).trans_lt hn)
  rw [encMem_of_addressedBy haddr (fun b hb => (hbase b hb).1) hindex.cls, hindex.legal, hindex.code, hplace, hindex.place]
  rfl

/-! ### ModRM and SIB fields (R187 to R189, R195) -/

theorem low3_eq_iff {n v : Nat} (hv : v < 8) : low3 n = BitVec.ofNat 3 v ↔ n % 8 = v := by
  rw [low3, ← BitVec.toNat_inj, BitVec.toNat_ofNat, BitVec.toNat_ofNat]
  omega

theorem bit3_eq (n : Nat) : bit3 n = decide (n / 8 % 2 = 1) := rfl

theorem bit4_eq (n : Nat) : bit4 n = decide (n / 16 % 2 = 1) := rfl

theorem bit3_of_lt {n : Nat} (hn : n < 16) : bit3 n = decide (8 ≤ n) := by
  rw [bit3_eq, decide_eq_decide]
  omega

theorem bit4_of_lt {n : Nat} (hn : n < 32) : bit4 n = decide (16 ≤ n) := by
  rw [bit4_eq, decide_eq_decide]
  omega

theorem needSib_lone_base (b : Reg) : needSib (some b) none = decide (b.off % 8 = 4) := by
  rw [needSib, Bool.eq_iff_iff, beq_iff_eq, decide_eq_true_eq]
  exact low3_eq_iff (by decide)

/-- What a base places: its number with its extension bit, or 5 for none. -/
def baseBits : RegOrInvalid → BitVec 3 × Bool
  | none => (5, false)
  | some b => (low3 b.off, bit3 b.off)

theorem baseBits_of_lt {n : Nat} (hbase : base = some ⟨cls, n⟩) (hn : n < 16) :
    baseBits base = (BitVec.ofNat 3 n, decide (8 ≤ n)) := by
  rw [hbase, ← bit3_of_lt hn]
  rfl

theorem sibFields_lone_base {n : Nat} {code : BitVec 2} {d : Derived} (hbase : base = some ⟨cls, n⟩) (hindex : index = none)
    (hn : n < 16) (hlow : n % 8 ≠ 4) :
    sibFields space base index code d =
      { d with
        hasSib := false, rm := BitVec.ofNat 3 n, rexb := decide (8 ≤ n), rexx := false, sibscale := code } := by
  subst hbase hindex
  rw [sibFields, needSib_lone_base, decide_eq_false hlow, if_neg (by decide), ← bit3_of_lt hn]
  rfl

theorem sibFields_lone_base_sib {n : Nat} {code : BitVec 2} {d : Derived} (hbase : base = some ⟨cls, n⟩)
    (hindex : index = none) (hn : n < 16) (hlow : n % 8 = 4) :
    sibFields space base index code d =
      { d with
        hasSib := true, rm := 4, sibbase := 4, rexb := decide (8 ≤ n), sibindex := 4, rexx := false, sibscale := code } := by
  subst hbase hindex
  have hbits : low3 n = 4 := (low3_eq_iff (by decide)).2 hlow
  rw [sibFields, needSib_lone_base, decide_eq_true hlow, if_pos rfl, ← bit3_of_lt hn]
  dsimp only
  rw [hbits]

theorem sibFields_nothing {code : BitVec 2} {d : Derived} (hbase : base = none) (hindex : index = none) :
    sibFields space base index code d =
      { d with
        hasSib := true, rm := 4, sibbase := 5, rexb := false, sibindex := 4, rexx := false, sibscale := code } := by
  subst hbase hindex
  rfl

theorem sibFields_index {x : Reg} {code : BitVec 2} {d : Derived} :
    sibFields space base (some x) code d =
      { d with
        hasSib := true, rm := 4, sibbase := (baseBits base).1, rexb := (baseBits base).2, sibindex := low3 x.off,
        rexx := bit3 x.off, sibscale := code,
        vexdest4 := if space = .evex ∧ x.cls.isVector = true then bit4 x.off else d.vexdest4 } := by
  cases base <;> rfl

theorem sibFields_gpr_index {x : Nat} {code : BitVec 2} {number : BitVec 3} {extension : Bool} {d : Derived}
    (haddr : addressedBy easz cls) (hbase : baseBits base = (number, extension)) (hindex : index = some ⟨cls, x⟩)
    (hx : x < 16) :
    sibFields space base index code d =
      { d with
        hasSib := true, rm := 4, sibbase := number, rexb := extension, sibindex := BitVec.ofNat 3 x, rexx := decide (8 ≤ x),
        sibscale := code } := by
  have hvec : ¬(space = .evex ∧ cls.isVector = true) := by
    obtain ⟨-, rfl⟩ | ⟨-, rfl⟩ := haddr <;> exact fun h => Bool.noConfusion h.2
  rw [hindex, sibFields_index, hbase, if_neg hvec, ← bit3_of_lt hx]
  rfl

theorem sibFields_vector_index {x : Nat} {vec : RegClass} {code : BitVec 2} {number : BitVec 3} {extension : Bool}
    {d : Derived} (hbase : baseBits base = (number, extension)) (hindex : index = some ⟨vec, x⟩) (hx : x < 32)
    (hvec : vec.isVector = true) :
    sibFields space base index code d =
      { d with
        hasSib := true, rm := 4, sibbase := number, rexb := extension, sibindex := BitVec.ofNat 3 x,
        rexx := decide (x / 8 % 2 = 1), sibscale := code,
        vexdest4 := if space = .evex then decide (16 ≤ x) else d.vexdest4 } := by
  simp only [hindex, sibFields_index, hbase, hvec, and_true, bit4_of_lt hx]
  rfl

/-! ### MOD and the displacement (R190 to R192) -/

theorem modDisp_none (hw : rq.dispWidth = 32) :
    modDisp none rq = .ok { rq with derived := { rq.derived with mod := 0 } } := if_pos hw

theorem modDisp_base {n : Nat} (hw : rq.dispWidth = 0 ∨ rq.dispWidth = 8 ∨ rq.dispWidth = 32) :
    ∃ m v w, dispPlaced n rq m v w ∧
      ∀ d, modDisp (some ⟨cls, n⟩) { rq with derived := d } =
        .ok { rq with disp := v, dispWidth := w, derived := { d with mod := m } } := by
  have hlow := low3_eq_iff (n := n) (v := 5) (by decide)
  obtain h0 | h8 | h32 := hw
  · by_cases h5 : n % 8 = 5
    · exact ⟨1, 0, 8, .inl ⟨h0, h5, rfl, rfl, rfl⟩, fun d => by simp [modDisp, h0, hlow.2 h5]⟩
    · exact ⟨0, rq.disp, 0, .inr (.inl ⟨h0, h5, rfl, rfl, rfl⟩), fun d => by simp [modDisp, h0, mt hlow.1 h5]⟩
  · exact ⟨1, rq.disp, 8, .inr (.inr (.inl ⟨h8, rfl, rfl, rfl⟩)), fun d => by simp [modDisp, h8]⟩
  · exact ⟨2, rq.disp, 32, .inr (.inr (.inr ⟨h32, rfl, rfl, rfl⟩)), fun d => by simp [modDisp, h32]⟩

theorem encMem_with_base {n : Nat} {code : BitVec 2} (haddr : addressedBy easz cls) (hn : n < 16)
    (hbase : rq.base0 = some ⟨cls, n⟩) (hindex : IndexTaken p space cls rq.index rq.scale code)
    (hw : rq.dispWidth = 0 ∨ rq.dispWidth = 8 ∨ rq.dispWidth = 32) :
    ∃ m v w, dispPlaced n rq m v w ∧
      ∀ {d}, sibFields space rq.base0 rq.index code { rq.derived with hasModrm := true } = d →
        encMem p space easz rq = .ok { rq with disp := v, dispWidth := w, derived := { d with mod := m } } := by
  obtain ⟨m, v, w, hplaced, hmod⟩ := modDisp_base (cls := cls) (n := n) hw
  refine ⟨m, v, w, hplaced, fun hfields => ?_⟩
  have hchecked : ∀ b, rq.base0 = some b → b.cls = cls ∧ b.off < 16 := by
    rw [hbase]
    rintro _ ⟨⟩
    exact ⟨rfl, hn⟩
  rw [encMem_of_indexTaken haddr hchecked hindex, hfields, ← hmod, ← hbase]

theorem encMem_without_base {code : BitVec 2} {d : Derived} (haddr : addressedBy easz cls) (hbase : rq.base0 = none)
    (hindex : IndexTaken p space cls rq.index rq.scale code) (hw : rq.dispWidth = 32)
    (hfields : sibFields space rq.base0 rq.index code { rq.derived with hasModrm := true } = d) :
    encMem p space easz rq = .ok { rq with derived := { d with mod := 0 } } := by
  have hmod : modDisp rq.base0 { rq with derived := d } = .ok { rq with derived := { d with mod := 0 } } :=
    hbase ▸ modDisp_none (rq := { rq with derived := d }) hw
  rw [encMem_of_indexTaken haddr (by simp [hbase]) hindex, hfields, hmod]

/-! ### RIP-relative (R184, R252) -/

theorem normaliseRip_of_rip {g : RegSpace} (hbase : rq.base0 = some g.regRIP) :
    normaliseRip g rq = { rq with dispWidth := 32, disp := if rq.dispWidth = 0 then 0 else rq.disp } := if_pos hbase

theorem encMem_rip (haddr : addressClass easz = some cls) (heasz : easz ≠ 16) (hbase : rq.base0 = some p.registers.regRIP)
    (hindex : ∀ x, rq.index = some x → x.cls = cls ∨ x.cls.isVector = true) :
    encMem p space easz rq = encMemRip { rq with derived := { rq.derived with hasModrm := true } } := by
  have hrip : ∀ b, rq.base0 = some b → b.cls = cls ∨ b = p.registers.regRIP := by
    intro b hb
    exact .inr (Option.some.inj (hb.symm.trans hbase))
  rw [encMem_of_classes haddr hrip hindex, if_neg heasz, encMem32, if_pos hbase]

theorem encMemRip_ok (hmode : rq.mode = 64) (hindex : rq.index = none) (hw : rq.dispWidth = 32) :
    encMemRip rq = .ok { rq with
      derived := { rq.derived with mod := 0, rm := 5, hasSib := false, rexb := false, rexx := false } } := by
  simp [encMemRip, hmode, hindex, hw]

end Addressed

/-! ## Memory operands without an encoding -/

section Unencodable

variable {p : Params} {space : Space} {easz : Nat} {cls : RegClass} {rq : Request}

/-- Index validation comes first (R186, R196). -/
theorem encMem_illegal_index {n x : Nat} (haddr : addressedBy easz cls) (hbase : rq.base0 = some ⟨cls, n⟩)
    (hindex : rq.index = some ⟨cls, x⟩) (hillegal : x ∈ p.indexIllegal) : encMem p space easz rq = generalError := by
  have hgpr : cls.isGpr = true := by obtain ⟨-, rfl⟩ | ⟨-, rfl⟩ := haddr <;> rfl
  have hcheck : checkIndex p.indexIllegal rq.index = generalError := by simp [hindex, checkIndex, hgpr, hillegal]
  rw [encMem_of_addressedBy haddr (by simp [hbase]) (by simp [hindex]), hcheck]
  rfl

theorem scaleCode_of_no_scale {scale : Nat} (x : Reg) (hscale : ¬(scale = 1 ∨ scale = 2 ∨ scale = 4 ∨ scale = 8)) :
    scaleCode (some x) scale = generalError := by
  simp only [not_or] at hscale
  obtain ⟨h1, h2, h4, h8⟩ := hscale
  rw [scaleCode]
  exacts [h1, h2, h4, h8]

/-- A scale that is none (R185); the index may be an illegal one. -/
theorem encMem_no_scale {n x : Nat} (haddr : addressedBy easz cls) (hbase : rq.base0 = some ⟨cls, n⟩)
    (hindex : rq.index = some ⟨cls, x⟩) (hscale : ¬(rq.scale = 1 ∨ rq.scale = 2 ∨ rq.scale = 4 ∨ rq.scale = 8)) :
    encMem p space easz rq = generalError := by
  by_cases hillegal : x ∈ p.indexIllegal
  · exact encMem_illegal_index haddr hbase hindex hillegal
  · have hlegal : checkIndex p.indexIllegal rq.index = .ok () := by simp [hindex, checkIndex, hillegal]
    have hcode : scaleCode rq.index rq.scale = generalError := hindex ▸ scaleCode_of_no_scale _ hscale
    rw [encMem_of_addressedBy haddr (by simp [hbase]) (by simp [hindex]), hlegal, hcode]
    rfl

theorem encMemRip_outside_64 (hmode : rq.mode ≠ 64) : encMemRip rq = generalError := if_pos hmode

theorem encMemRip_index (hindex : rq.index ≠ none) : encMemRip rq = generalError := by
  by_cases hmode : rq.mode = 64
  · rw [encMemRip, if_neg (not_not.2 hmode), if_pos hindex]
  · exact encMemRip_outside_64 hmode

/-- BX alone has an encoding under 16-bit addressing, whichever row of the table it meets first. -/
theorem encMem_lone_bx_ok (hbase : rq.base0 = some p.registers.regBX) (hindex : rq.index = none) (hscale : rq.scale ≤ 1)
    (hw : rq.dispWidth = 0) : ∃ q, encMem p space 16 rq = .ok q := by
  obtain ⟨rm, hpair⟩ : ∃ rm, table16 p.registers rq.base0 rq.index = .ok rm := by
    simp only [hbase, hindex, table16, reduceCtorEq, and_false, and_true, if_false, if_true]
    split_ifs <;> exact ⟨_, rfl⟩
  have hcls : ∀ b, rq.base0 = some b → b.cls = .gpr16 := by
    rw [hbase]
    rintro _ ⟨⟩
    rfl
  rw [encMem_of_pair hcls (by simp [hindex]) hpair, if_neg (Nat.not_lt.2 hscale)]
  by_cases hbp : p.registers.regBX = p.registers.regBP
  · rw [hbase, hindex, hbp]
    exact ⟨_, modDisp16_lone_bp hw⟩
  · exact ⟨_, modDisp16_no_disp (by simp [hbase]) (by simp [hbase, hbp]) hw⟩

theorem encMem_lone_base_ok {n : Nat} (haddr : addressedBy easz cls) (hn : n < 16) (hbase : rq.base0 = some ⟨cls, n⟩)
    (hindex : rq.index = none) (hscale : rq.scale ≤ 1) (hw : rq.dispWidth = 0) :
    ∃ q, encMem p space easz rq = .ok q := by
  obtain ⟨_, _, _, -, hrun⟩ := encMem_with_base haddr hn hbase (hindex ▸ indexTaken_none hscale) (.inl hw)
  exact ⟨_, hrun rfl⟩

/-- Address widths a machine mode does not have (R201). -/
def noSuchWidth (rq : Request) : Prop :=
  (rq.mode = 64 ∧ effectiveEasz rq = 16) ∨ (rq.mode ≠ 64 ∧ effectiveEasz rq = 64)

theorem sizePrefixes_of_noSuchWidth {oszsens : Bool} {eosz : Nat} (h : noSuchWidth rq) :
    sizePrefixes oszsens eosz (effectiveEasz rq) rq = generalError := if_pos h

/-- The memory operand stops a legacy row with GENERAL_ERROR: in ENC_MEM, or after it in SIZE_PREFIXES. -/
def MemoryFails (p : Params) (rq : Request) : Prop :=
  encMem p .legacy (effectiveEasz rq) rq = generalError
    ∨ (∃ q, encMem p .legacy (effectiveEasz rq) rq = .ok q) ∧ noSuchWidth rq

end Unencodable

/-! ## Bind through a row (R230, R231, R254; log 7) -/

/-- A stop of Bind with GENERAL_ERROR is an ENCODE that failed with the buffer untouched (spec/60_exceptions.md R396, R398). -/
theorem failsUntouched_of_bindRequest {s : State} {cap : Nat} {bind : Binder} (hs : s.encodable)
    (hbind : bindRequest bind s.params (precondition s.params.registers { s.rq with error := .noError }) = generalError) :
    s.failsUntouched (s.startEncode cap bind) := by
  obtain ⟨hidle, hmode, hfresh⟩ := hs
  have hrun : s.runEncode cap bind = .next ((s.enterEncode cap).runPrecondition.encodeRaised .generalError) := by
    simp only [State.runEncode, State.runPrecondition_params, State.runPrecondition_rq, State.enterEncode_params,
      State.enterEncode_rq, hbind]
    rfl
  rw [startEncode_idle hidle, if_neg (by omega), if_neg (by simp [hfresh]), hrun]
  exact ⟨_, rfl, rfl, rfl, rfl, rfl⟩

theorem ruleHolds_byShape (n : Nat) (b : Bound) (rq : Request) :
    ruleHolds { iform := n } b rq = .ok (iformMatches rq b.spec) := by
  cases hmatch : iformMatches rq b.spec <;> simp only [ruleHolds, hmatch] <;> rfl

theorem bindRows_of_matches {rq : Request} {n : Nat} {row : IformSpec} (hmatch : iformMatches rq row = true) :
    bindRows [(n, row)] rq = .ok (referenceBound n row) := by
  have hrule : ruleHolds { iform := n } (referenceBound n row) rq = .ok true :=
    (ruleHolds_byShape n _ rq).trans (congrArg Except.ok hmatch)
  simp only [bindRows, List.map_cons, firstMatch, hrule]
  rfl

theorem bindRequest_of_binding_error {bind : Binder} {p : Params} {rq : Request} {b : Bound}
    (hbind : bind { rq with derived := {} } = .ok b)
    (hfail : runBinding p b b.binding { rq with derived := {} } = generalError) : bindRequest bind p rq = generalError := by
  simp only [bindRequest, hbind]
  change (runBinding p b b.binding { rq with derived := {} } >>= fun q => pure (b, q)) = _
  rw [hfail]
  rfl

theorem Check.bind_of_ok {α β : Type} {x : Check α} {f : α → Check β} {a : α} (h : x = .ok a) : x >>= f = f a := h ▸ rfl

theorem Check.bind_of_generalError {α β : Type} {x : Check α} {f : α → Check β} (h : x = generalError) :
    x >>= f = generalError := h ▸ rfl

section Reference

variable {p : Params} {b : Bound} {rq q : Request}

/-- The request as the roles of the reference pattern find it (R231). -/
def beforeRoles (b : Bound) (rq : Request) : Request :=
  { rq with derived := modrmBits b.spec.modrm { rexw := wBit b.spec.w (effectiveEosz rq) } }

/-- The reference pattern up to SIZE_PREFIXES. -/
theorem runBinding_reference :
    runBinding p b referenceBinding rq =
      applyRoles p b.spec.space 0 b.spec.operands (beforeRoles b rq) >>= fun q =>
        sizePrefixes b.spec.oszsens (effectiveEosz q) (effectiveEasz q) q >>= runBinding p b (referenceBinding.drop 5) := rfl

theorem runBinding_reference_of_roles
    (hroles : applyRoles p b.spec.space 0 b.spec.operands (beforeRoles b rq) = generalError) :
    runBinding p b referenceBinding rq = generalError :=
  runBinding_reference.trans (Check.bind_of_generalError hroles)

theorem runBinding_reference_of_noSuchWidth
    (hroles : applyRoles p b.spec.space 0 b.spec.operands (beforeRoles b rq) = .ok q) (hwidth : noSuchWidth q) :
    runBinding p b referenceBinding rq = generalError := by
  rw [runBinding_reference, Check.bind_of_ok hroles]
  exact Check.bind_of_generalError (sizePrefixes_of_noSuchWidth hwidth)

end Reference

/-! ## ADD_GPRv_MEMv (R234 row 1) -/

/-- A request for ADD EAX, memory. -/
structure AddsMemory (rq : Request) : Prop where
  iclass : rq.iclass = iclassADD
  mode : rq.mode = 16 ∨ rq.mode = 32 ∨ rq.mode = 64
  eosz : rq.eosz = 32
  reg0 : rq.regs.r0 = some ⟨.gpr32, 0⟩
  order : rq.order = [.reg0, .mem0]
  norder : rq.norder = 2
  anySpace : rq.mustUseEvex = false

theorem iformMatches_rowAddGprvMemv {rq : Request} (h : AddsMemory rq) : iformMatches rq rowAddGprvMemv = true := by
  have heosz : effectiveEosz rq = 32 := by simp [effectiveEosz, h.eosz]
  have hmode : [16, 32, 64].contains rq.mode = true := by
    obtain hm | hm | hm := h.mode <;> rw [hm] <;> rfl
  have hregister : patternMatches .legacy 32 rq (orderGet rq.order 0) .regv = true := by
    have hslot : slotOf rq .reg0 = some ⟨.gpr32, 0⟩ := h.reg0
    rw [h.order]
    change regMatches .legacy rq .reg0 (fun c => gprvClass 32 == some c) = true
    rw [regMatches, hslot]
    rfl
  have hmemory : patternMatches .legacy 32 rq (orderGet rq.order 1) .mem = true := by
    rw [h.order]
    rfl
  have hshape : shapeMatches .legacy 32 rq 0 rowAddGprvMemv.operands = true :=
    Bool.and_eq_true_iff.2 ⟨hregister, Bool.and_eq_true_iff.2 ⟨hmemory, rfl⟩⟩
  rw [iformMatches, h.iclass, heosz, h.norder, spaceAllowed, h.anySpace]
  simp only [Bool.and_eq_true]
  exact ⟨⟨⟨⟨⟨rfl, hmode⟩, rfl⟩, rfl⟩, rfl⟩, hshape⟩

/-- The roles of the row: the register, then ENC_MEM. -/
theorem applyRoles_rowAddGprvMemv (p : Params) {rq : Request} (h : AddsMemory rq) :
    ∃ d, applyRoles p .legacy 0 rowAddGprvMemv.operands rq =
      encMem p .legacy (effectiveEasz rq) { rq with derived := d } := by
  obtain ⟨d, hd⟩ : ∃ d, encRegModrmReg .legacy ⟨.gpr32, 0⟩ rq.derived = .ok d := ⟨_, rfl⟩
  have hslot : slotOf rq .reg0 = some ⟨.gpr32, 0⟩ := h.reg0
  have hname : orderGet rq.order 0 = .reg0 := by
    rw [h.order]
    rfl
  have hregister : applyRole p .legacy rq (orderGet rq.order 0) .modrmReg = .ok { rq with derived := d } := by
    simp only [applyRole, placeReg, hname, hslot, hd]
  exact ⟨d, (Check.bind_of_ok hregister).trans (bind_pure _)⟩

/-- A memory operand that fails, fails the row's field-binding pattern. -/
theorem runBinding_rowAddGprvMemv {p : Params} (n : Nat) {rq : Request} (h : AddsMemory rq)
    (hfail : ∀ d, MemoryFails p { rq with derived := d }) :
    runBinding p (referenceBound n rowAddGprvMemv) referenceBinding rq = generalError := by
  have hadds : AddsMemory (beforeRoles (referenceBound n rowAddGprvMemv) rq) := { h with }
  obtain ⟨d, hroles⟩ := applyRoles_rowAddGprvMemv p hadds
  obtain hmem | ⟨⟨q, hmem⟩, hwidth⟩ := hfail d
  · exact runBinding_reference_of_roles (hroles.trans hmem)
  · refine runBinding_reference_of_noSuchWidth (hroles.trans hmem) ?_
    obtain ⟨_, _, _, rfl⟩ := encMem_ok hmem
    exact hwidth

/-- What the Precondition phase changes: the length, and under a RIP base the displacement (R252, R253). -/
theorem precondition_eq (g : RegSpace) (rq : Request) :
    ∃ v w l, precondition g rq = { rq with disp := v, dispWidth := w, vl := l }
      ∧ (rq.base0 ≠ some g.regRIP → w = rq.dispWidth) := by
  have hlength : ∀ q : Request, ∃ l, inferLength q = { q with vl := l } := fun q => by
    unfold inferLength
    split <;> exact ⟨_, rfl⟩
  by_cases hrip : rq.base0 = some g.regRIP
  · obtain ⟨l, hl⟩ := hlength { rq with dispWidth := 32, disp := if rq.dispWidth = 0 then 0 else rq.disp }
    exact ⟨_, _, l, by rw [precondition, normaliseRip_of_rip hrip, hl], fun h => absurd hrip h⟩
  · obtain ⟨l, hl⟩ := hlength rq
    exact ⟨rq.disp, rq.dispWidth, l, by rw [precondition, normaliseRip, if_neg hrip, hl], fun _ => rfl⟩

theorem exec_addGprvMemv (s : State) :
    exec .addGprvMemv s = s.startEncode s.capacity (bindRows [(0, rowAddGprvMemv)]) := rfl

/-- ADD EAX with a memory operand of a base, an index, a scale and no displacement. -/
def addMemory (mode easz : Nat) (base index : RegOrInvalid) (scale : Nat) : Request where
  mode := mode
  iclass := iclassADD
  eosz := 32
  easz := easz
  regs := { r0 := some ⟨.gpr32, 0⟩ }
  base0 := base
  index := index
  scale := scale
  mem0 := true
  order := [.reg0, .mem0]
  norder := 2

/-- ADD with a memory operand that fails, whatever the Precondition phase makes of length and RIP displacement. -/
theorem addGprvMemv_failsUntouched {s : State} {mode easz scale : Nat} {base index : RegOrInvalid} (hidle : s.phase = .idle)
    (hfresh : s.consumed = false) (hmode : mode = 16 ∨ mode = 32 ∨ mode = 64)
    (hrq : s.rq = addMemory mode easz base index scale)
    (hfail : ∀ v w l d, (base ≠ some s.params.registers.regRIP → w = 0) →
      MemoryFails s.params
        { addMemory mode easz base index scale with disp := v, dispWidth := w, vl := l, derived := d }) :
    s.failsUntouched (exec .addGprvMemv s) := by
  rw [exec_addGprvMemv]
  refine failsUntouched_of_bindRequest ⟨hidle, hrq ▸ hmode, hfresh⟩ ?_
  obtain ⟨v, w, l, hpre, hw⟩ := precondition_eq s.params.registers { s.rq with error := .noError }
  have hadds : ∀ v w l d,
      AddsMemory { addMemory mode easz base index scale with disp := v, dispWidth := w, vl := l, derived := d } :=
    fun _ _ _ _ => ⟨rfl, hmode, rfl, rfl, rfl, rfl, rfl⟩
  rw [hpre, hrq]
  rw [hrq] at hw
  exact bindRequest_of_binding_error (bindRows_of_matches (iformMatches_rowAddGprvMemv (hadds v w l {})))
    (runBinding_rowAddGprvMemv 0 (hadds v w l {}) fun d => hfail v w l d hw)

end Sys2Proof.Machine

namespace Sys2Proof

open Machine

/-! ## The obligations of spec/41_field_encoders.md, the memory operand -/

/-- Settles O37: the row gives RM, then the displacement width gives MOD. -/
theorem sixteenBitAddressing : Obligations.SixteenBitAddressing := by
  rintro p space _ rq rfl hnames
  refine ⟨fun rm hrow => ?rows, fun hscale hbase hindex hpair => ?otherPair, fun b hb hrip => ⟨?ip, ?baseClass⟩,
    fun x hx hother hvec hbase => ?indexClass⟩
  case rows =>
    have hrun := encMem_of_mem_pairRows (space := space) hnames hrow
    refine ⟨fun hscale => by rw [hrun, if_pos hscale], fun hscale placed hplaced => ?_⟩
    rw [if_neg (Nat.not_lt.2 hscale)] at hrun
    simp only [hplaced, hrun]
    refine ⟨fun hb hx => ?bare, fun hb => ⟨fun hw hbp hx => ?_, fun hw hbp => modDisp16_no_disp hb hbp hw,
      fun hw => modDisp16_disp8 hb hw, fun hw => modDisp16_disp16 hb hw, fun hw => modDisp16_other_width hb hw⟩⟩
    case bare =>
      rw [hb, hx, modDisp16_bare]
      exact ⟨fun hw => if_pos hw, fun hw => if_neg hw⟩
    · rw [hbp, hx]
      exact modDisp16_lone_bp hw
  case otherPair =>
    rw [encMem_of_classes rfl hbase hindex, if_pos rfl]
    exact encMem16_of_no_pair (table16_of_not_mem hpair)
  case ip => exact fun hip => encMem_base_ip hb hrip hip
  case baseClass => exact fun hip hother => encMem_base_other_class rfl hb hrip hip hother
  case indexClass => exact encMem_index_other_class rfl hbase hx hother hvec

/-- Settles O38: the clauses differ in the index, which decides the scale code and the fields, and in the base, which decides
MOD and the displacement. -/
theorem memoryOperandBits : Obligations.MemoryOperandBits := by
  intro p space easz cls rq haddr
  have hcls := addressClass_of_addressedBy haddr
  refine ⟨fun n hn hbase hindex hscale hw => ?loneBase, fun n x c hn hx hlegal hscale hbase hindex hw => ?baseIndex,
    fun hbase hindex hscale hw => ?nothing, fun x c hx hlegal hscale hbase hindex hw => ?loneIndex, fun hbase => ⟨?width, ?rip⟩,
    fun n x c vec hn hx hspace hvec hscale hbase hindex hw => ?baseVector,
    fun x c vec hx hspace hvec hscale hbase hindex hw => ?loneVector, fun b hb hrip => ⟨?ip, ?baseClass⟩,
    fun x hx hother hvec hbase => ?indexClass⟩
  case loneBase =>
    obtain ⟨m, v, w, hplaced, hrun⟩ := encMem_with_base haddr hn hbase (hindex ▸ indexTaken_none hscale) hw
    exact ⟨m, v, w, hplaced, fun hlow => hrun (sibFields_lone_base hbase hindex hn hlow),
      fun hlow => hrun (sibFields_lone_base_sib hbase hindex hn hlow)⟩
  case baseIndex =>
    obtain ⟨m, v, w, hplaced, hrun⟩ := encMem_with_base haddr hn hbase (hindex ▸ indexTaken_gpr haddr hx hlegal hscale) hw
    exact ⟨m, v, w, hplaced, hrun (sibFields_gpr_index haddr (baseBits_of_lt hbase hn) hindex hx)⟩
  case nothing =>
    exact encMem_without_base haddr hbase (hindex ▸ indexTaken_none hscale) hw (sibFields_nothing hbase hindex)
  case loneIndex =>
    exact encMem_without_base haddr hbase (hindex ▸ indexTaken_gpr haddr hx hlegal hscale) hw
      (sibFields_gpr_index haddr (congrArg baseBits hbase) hindex hx)
  case width => exact normaliseRip_of_rip hbase
  case rip =>
    intro hmode hindex hw
    rw [encMem_rip hcls (ne_16_of_addressedBy haddr) hbase (by simp [hindex])]
    exact encMemRip_ok hmode hindex hw
  case baseVector =>
    obtain ⟨m, v, w, hplaced, hrun⟩ := encMem_with_base haddr hn hbase (hindex ▸ indexTaken_vector hx hspace hvec hscale) hw
    exact ⟨m, v, w, hplaced, hrun (sibFields_vector_index (baseBits_of_lt hbase hn) hindex hx hvec)⟩
  case loneVector =>
    exact encMem_without_base haddr hbase (hindex ▸ indexTaken_vector hx hspace hvec hscale) hw
      (sibFields_vector_index (congrArg baseBits hbase) hindex hx hvec)
  case ip => exact fun hip => encMem_base_ip hb hrip hip
  case baseClass => exact fun hip hother => encMem_base_other_class hcls hb hrip hip hother
  case indexClass => exact encMem_index_other_class hcls hbase hx hother hvec

/-- Settles O39: in the first four clauses ENC_MEM fails; in the last two it places an operand whose address width SIZE_PREFIXES
then rejects. -/
theorem unencodableMemoryOperandsFail : Obligations.UnencodableMemoryOperandsFail := by
  rintro s q hidle hfresh rfl
  have addr64 : addressedBy 64 .gpr64 := .inr ⟨rfl, rfl⟩
  refine ⟨fun b x k hb hx hscale hrq => ?scale, fun b x k hb hx hillegal hrq => ?index, fun x hx hrq => ?ripIndex,
    fun hrq => ?ripMode, fun m b hb hm hrq => ?width64, fun hrq => ?width16⟩
  case scale =>
    exact addGprvMemv_failsUntouched hidle hfresh (.inr (.inr rfl)) hrq fun v w l d _ =>
      .inl (encMem_no_scale addr64 rfl rfl hscale)
  case index =>
    exact addGprvMemv_failsUntouched hidle hfresh (.inr (.inr rfl)) hrq fun v w l d _ =>
      .inl (encMem_illegal_index addr64 rfl rfl hillegal)
  case ripIndex =>
    refine addGprvMemv_failsUntouched hidle hfresh (.inr (.inr rfl)) hrq fun v w l d _ => .inl ?_
    exact (encMem_rip (easz := 64) rfl (by decide) rfl (by simp [addMemory])).trans (encMemRip_index nofun)
  case ripMode =>
    refine addGprvMemv_failsUntouched (mode := 32) (easz := 0) (index := none) (scale := 0) hidle hfresh (.inr (.inl rfl)) hrq
      fun v w l d _ => .inl ?_
    exact (encMem_rip (easz := 32) rfl (by decide) rfl (by simp [addMemory])).trans
      (encMemRip_outside_64 (show 32 ≠ 64 by decide))
  case width64 =>
    refine addGprvMemv_failsUntouched hidle hfresh (by omega) hrq fun v w l d hw => .inr ⟨?_, .inr ⟨?_, rfl⟩⟩
    · obtain rfl := hw (mt Option.some.inj (ne_regRIP_of_cls nofun))
      exact encMem_lone_base_ok addr64 hb rfl rfl (Nat.zero_le 1) rfl
    · exact (by omega : m ≠ 64)
  case width16 =>
    refine addGprvMemv_failsUntouched hidle hfresh (.inr (.inr rfl)) hrq fun v w l d hw => .inr ⟨?_, .inl ⟨rfl, rfl⟩⟩
    obtain rfl := hw (mt Option.some.inj (ne_regRIP_of_cls nofun))
    exact encMem_lone_bx_ok rfl rfl (Nat.zero_le 1) rfl

end Sys2Proof
end

section
/-! Bind (spec/42_table_lookup.md R222, R224, R230, spec/43_encode_dispatch.md R254): the rules of the class's group, each with its
iform, are tried in order. -/

namespace Sys2Proof.Machine

section Rules

variable {t : IsaTable} {rq : Request}

/-- The rules of a group come with their own iforms. -/
theorem groupRules_ok {rules : List BindRule} {l : List (BindRule × Bound)} (h : groupRules t rules = .ok l) :
    l.map Prod.fst = rules ∧ ∀ e ∈ l, ruleBound t e.1 = .ok e.2 := by
  induction rules generalizing l with
  | nil =>
    cases h
    exact ⟨rfl, nofun⟩
  | cons r rest ih =>
    obtain ⟨b, hb, h⟩ := Check.bind_ok h
    obtain ⟨more, hmore, h⟩ := Check.bind_ok h
    cases h
    obtain ⟨hrules, hbounds⟩ := ih hmore
    exact ⟨congrArg (r :: ·) hrules, List.forall_mem_cons.2 ⟨hb, hbounds⟩⟩

theorem groupRules_total {rules : List BindRule} (h : ∀ r ∈ rules, ∃ b, ruleBound t r = .ok b) :
    ∃ l, groupRules t rules = .ok l := by
  induction rules with
  | nil => exact ⟨[], rfl⟩
  | cons r rest ih =>
    obtain ⟨⟨b, hb⟩, hrest⟩ := List.forall_mem_cons.1 h
    obtain ⟨l, hl⟩ := ih hrest
    exact ⟨(r, b) :: l, by rw [groupRules, hb, hl]; rfl⟩

theorem firstMatch_of_holds {e : BindRule × Bound} {rest : List (BindRule × Bound)}
    (h : ruleHolds e.1 e.2 rq = .ok true) : firstMatch rq (e :: rest) = .ok e.2 := by
  rw [firstMatch, h]
  rfl

theorem firstMatch_of_fails {e : BindRule × Bound} {rest : List (BindRule × Bound)}
    (h : ruleHolds e.1 e.2 rq = .ok false) : firstMatch rq (e :: rest) = firstMatch rq rest := by
  rw [firstMatch, h]
  rfl

/-- The iform taken is that of a rule that holds, behind rules that do not (R230). -/
theorem firstMatch_ok {l : List (BindRule × Bound)} {b : Bound} (h : firstMatch rq l = .ok b) :
    ∃ before r after, l = before ++ (r, b) :: after ∧ ruleHolds r b rq = .ok true
      ∧ ∀ e ∈ before, ruleHolds e.1 e.2 rq = .ok false := by
  induction l with
  | nil => cases h
  | cons e rest ih =>
    obtain ⟨holds, hrule, -⟩ := Check.bind_ok h
    cases holds with
    | true =>
      cases (firstMatch_of_holds hrule).symm.trans h
      exact ⟨[], e.1, rest, rfl, hrule, nofun⟩
    | false =>
      rw [firstMatch_of_fails hrule] at h
      obtain ⟨before, r, after, rfl, hr, hbefore⟩ := ih h
      exact ⟨e :: before, r, after, rfl, hr, List.forall_mem_cons.2 ⟨hrule, hbefore⟩⟩

theorem firstMatch_none {l : List (BindRule × Bound)} (h : ∀ e ∈ l, ruleHolds e.1 e.2 rq = .ok false) :
    firstMatch rq l = generalError := by
  induction l with
  | nil => rfl
  | cons e rest ih =>
    obtain ⟨he, hrest⟩ := List.forall_mem_cons.1 h
    rw [firstMatch_of_fails he, ih hrest]

theorem firstMatch_some {l : List (BindRule × Bound)} (htotal : ∀ e ∈ l, ∃ v, ruleHolds e.1 e.2 rq = .ok v)
    (h : ∃ e ∈ l, ruleHolds e.1 e.2 rq = .ok true) : ∃ b, firstMatch rq l = .ok b := by
  induction l with
  | nil =>
    obtain ⟨e, he, -⟩ := h
    cases he
  | cons e rest ih =>
    obtain ⟨⟨v, hv⟩, hrest⟩ := List.forall_mem_cons.1 htotal
    cases v with
    | true => exact ⟨_, firstMatch_of_holds hv⟩
    | false =>
      obtain ⟨e', he', hholds⟩ := h
      obtain rfl | hlater := List.mem_cons.1 he'
      · cases hv.symm.trans hholds
      · rw [firstMatch_of_fails hv]
        exact ih hrest ⟨e', hlater, hholds⟩

theorem bindTable_of_iclass_zero (h : rq.iclass = 0) : bindTable t rq = generalError := if_pos h

theorem bindTable_of_no_group (h : groupIndex rq.iclass t.groupOf = none) : bindTable t rq = generalError := by
  rw [bindTable, h]
  exact ite_self _

theorem bindTable_of_group {g : Nat} {rules : List BindRule} (hclass : rq.iclass ≠ 0)
    (hgroup : groupIndex rq.iclass t.groupOf = some g) (hrules : t.groups[g]? = some rules) :
    bindTable t rq = groupRules t rules >>= firstMatch rq := by
  rw [bindTable, if_neg hclass, hgroup]
  dsimp only
  rw [hrules]

/-- Bind answers through a group of the class only. -/
theorem bindTable_ok {b : Bound} (h : bindTable t rq = .ok b) :
    ∃ g rules l, rq.iclass ≠ 0 ∧ groupIndex rq.iclass t.groupOf = some g ∧ t.groups[g]? = some rules
      ∧ groupRules t rules = .ok l ∧ firstMatch rq l = .ok b := by
  by_cases hclass : rq.iclass = 0
  · cases (bindTable_of_iclass_zero hclass).symm.trans h
  cases hgroup : groupIndex rq.iclass t.groupOf with
  | none => cases (bindTable_of_no_group hgroup).symm.trans h
  | some g =>
    cases hrules : t.groups[g]? with
    | none =>
      rw [bindTable, if_neg hclass, hgroup] at h
      dsimp only at h
      rw [hrules] at h
      cases h
    | some rules =>
      obtain ⟨l, hl, hmatch⟩ := Check.bind_ok ((bindTable_of_group hclass hgroup hrules).symm.trans h)
      exact ⟨g, rules, l, hclass, rfl, hrules, hl, hmatch⟩

end Rules

/-- A bind that finds no iform stops the Bind phase (R254). -/
theorem bindRequest_of_generalError {bind : Binder} {p : Params} {rq : Request}
    (h : bind { rq with derived := {} } = generalError) : bindRequest bind p rq = generalError :=
  Check.bind_of_generalError h

end Sys2Proof.Machine

namespace Sys2Proof

open Machine

/-- Settles O36: the list of the group's rules is cut where the rule that holds stands. -/
theorem bindPicksTheFirstMatch : Obligations.BindPicksTheFirstMatch := by
  intro t rq
  refine ⟨fun b hb => ?answer, bindTable_of_iclass_zero, bindTable_of_no_group,
    fun g rules hclass hgroup hrules htotal => ?group, fun n b => ruleHolds_byShape n b rq, fun s c hs ht hrq hfail => ?encode⟩
  case answer =>
    obtain ⟨g, rules, l, hclass, hgroup, hrules, hl, hmatch⟩ := bindTable_ok hb
    obtain ⟨rfl, hbounds⟩ := groupRules_ok hl
    obtain ⟨before, r, after, rfl, hr, hbefore⟩ := firstMatch_ok hmatch
    refine ⟨g, _, before.map Prod.fst, r, after.map Prod.fst, hclass, hgroup, hrules, List.map_append,
      hbounds (r, b) (by simp), hr, fun k hk => ?_⟩
    obtain ⟨e, he, rfl⟩ := List.mem_map.1 hk
    exact ⟨e.2, hbounds e (List.mem_append_left _ he), hbefore e he⟩
  case group =>
    obtain ⟨l, hl⟩ := groupRules_total fun r hr =>
      let ⟨b, _, hb, _⟩ := htotal r hr
      ⟨b, hb⟩
    obtain ⟨rfl, hbounds⟩ := groupRules_ok hl
    rw [bindTable_of_group hclass hgroup hrules, hl]
    have taken : ∀ {v b e}, e ∈ l → ruleBound t e.1 = .ok b → ruleHolds e.1 b rq = .ok v → ruleHolds e.1 e.2 rq = .ok v := by
      intro v b e he hb hv
      cases (hbounds e he).symm.trans hb
      exact hv
    refine ⟨fun ⟨r, hr, b, hb, hv⟩ => firstMatch_some (fun e he => ?_) ?_, fun hnone => firstMatch_none fun e he => ?_⟩
    · obtain ⟨b, v, hb, hv⟩ := htotal e.1 (List.mem_map_of_mem he)
      exact ⟨v, taken he hb hv⟩
    · obtain ⟨e, he, rfl⟩ := List.mem_map.1 hr
      exact ⟨e, he, taken he hb hv⟩
    · obtain ⟨b, hb, hv⟩ := hnone e.1 (List.mem_map_of_mem he)
      exact taken he hb hv
  case encode =>
    rw [exec_encode_loaded ht]
    exact failsUntouched_of_bindRequest hs (bindRequest_of_generalError (hrq ▸ hfail))

end Sys2Proof
end

section
/-! What the reference emission pattern writes for a row of T0 (spec/43_encode_dispatch.md R257 to R273): `encodingBytes` lists the
bytes of its steps, and an ENCODE whose emission pattern writes these bytes ends with them. -/

namespace Sys2Proof.Machine

/-! ## ENCODE on success -/

/-- The Emit phase and Finalize, where the pattern writes bytes that fit (R256, R274). -/
theorem runEmit_of_emits {u : State} {b : Bound} {bytes : List Byte} (herror : u.rq.error = .noError)
    (hstart : u.ev.bitOffset = 0) (hemits : EmitsBytes (emissionPattern b u.rq) bytes) (hroom : bytes.length ≤ u.ev.ilen) :
    ∃ m n, m.holds u.buf 0 bytes ∧ u.runEmit b =
      .next ({ u with
        ev := { u.ev with bitOffset := 8 * bytes.length }
        buf := m
        phase := .finalize
        stepIndex := n } : State).finalized := by
  obtain ⟨m, hm, hrun⟩ := hemits u.emission 0 hstart ((Nat.zero_add _).trans_le hroom)
  rw [Nat.zero_add] at hrun
  obtain ⟨n, hsteps⟩ := runSteps_eq u b 1 b.emission
  refine ⟨m, n, hm, ?_⟩
  rw [State.runEmit, if_neg (not_not.2 herror), hsteps]
  rw [emissionPattern] at hrun
  rw [hrun]
  exact if_neg (not_not.2 (Nat.mul_mod_right 8 bytes.length))

/-- An ENCODE that binds, and whose emission pattern writes bytes that fit the capacity in force. -/
theorem encoded_of_emits {s : State} {cap : Nat} {bind : Binder} {b : Bound} {q : Request} {bytes : List Byte} (hs : s.encodable)
    (hbind : bindRequest bind s.params (precondition s.params.registers { s.rq with error := .noError }) = .ok (b, q))
    (hemits : EmitsBytes (emissionPattern b q) bytes) (hroom : bytes.length ≤ min cap 15) :
    s.encoded cap bytes (s.startEncode cap bind) := by
  obtain ⟨hidle, hmode, hfresh⟩ := hs
  have hrun : s.runEncode cap bind = (((s.enterEncode cap).runPrecondition).bound b.index q).runEmit b := by
    simp only [State.runEncode, State.runPrecondition_params, State.runPrecondition_rq, State.enterEncode_params,
      State.enterEncode_rq, hbind]
  have herror : q.error = .noError := (bindRequest_error_field hbind).trans (precondition_error _ _)
  obtain ⟨m, n, hm, hemit⟩ := runEmit_of_emits (u := ((s.enterEncode cap).runPrecondition).bound b.index q) herror rfl hemits
    hroom
  have hlength : 8 * bytes.length / 8 = bytes.length := Nat.mul_div_cancel_left _ (by decide)
  rw [startEncode_idle hidle, if_neg (by omega), if_neg (by simp [hfresh]), hrun, hemit]
  refine ⟨m, hm, ?_⟩
  simp only [State.finalized, State.consume, State.bound, State.runPrecondition, State.enterEncode, herror, hlength]

/-! ## The bytes of the steps -/

theorem emits_nil : EmitsBytes [] [] := fun e a hoff _ => ⟨e.buf, e.buf.holds_nil a, by cases e; cases hoff; rfl⟩

theorem emits_emitIf {c : Bool} {acts : List EmitAction} {bytes : List Byte} (h : EmitsBytes acts bytes) :
    EmitsBytes (emitIf c acts) (if c then bytes else []) := by
  cases c with
  | false => exact emits_nil
  | true => exact h

/-- The width of a value of whole bytes, 0 for none (spec/20_memory.md R73). -/
def wholeWidth (w : Nat) : Prop := w = 0 ∨ w = 8 ∨ w = 16 ∨ w = 32 ∨ w = 64

@[simp] theorem littleEndian_zero {w : Nat} (v : BitVec w) : littleEndian 0 v = [] := rfl

@[simp] theorem littleEndian_one {w : Nat} (v : BitVec w) : littleEndian 1 v = [v.extractLsb' 0 8] := rfl

@[simp] theorem littleEndian_two {w : Nat} (v : BitVec w) : littleEndian 2 v = [v.extractLsb' 0 8, v.extractLsb' 8 8] := rfl

@[simp] theorem littleEndian_four {w : Nat} (v : BitVec w) :
    littleEndian 4 v = [v.extractLsb' 0 8, v.extractLsb' 8 8, v.extractLsb' 16 8, v.extractLsb' 24 8] := rfl

@[simp] theorem littleEndian_eight {w : Nat} (v : BitVec w) :
    littleEndian 8 v =
      [v.extractLsb' 0 8, v.extractLsb' 8 8, v.extractLsb' 16 8, v.extractLsb' 24 8, v.extractLsb' 32 8, v.extractLsb' 40 8,
        v.extractLsb' 48 8, v.extractLsb' 56 8] := rfl

/-- A value of whole bytes is written in one piece (R75). -/
theorem emits_valueLine {w : Nat} (hw : wholeWidth w) (h0 : w ≠ 0) (v : Word64) :
    EmitsBytes [valueLine w v.toNat] (littleEndian (w / 8) v) := by
  obtain ⟨n, rfl, hn⟩ : ∃ n, w = 8 * n ∧ (n = 1 ∨ n = 2 ∨ n = 4 ∨ n = 8) := by
    unfold wholeWidth at hw
    exact ⟨w / 8, by omega, by omega⟩
  rw [Nat.mul_div_cancel_left n (by decide)]
  have hvalue := emits_valueItem hn v
  by_cases h8 : 8 * n ≤ 8
  · rw [valueLine, if_pos h8]
    exact hvalue
  · intro e a hoff hroom
    obtain ⟨m, hm, hrun⟩ := hvalue e a hoff hroom
    have hfast : fastPath e.off (8 * n) = true := by
      simp only [hoff, fastPath, Bool.and_eq_true, Bool.or_eq_true, beq_iff_eq]
      omega
    rw [valueItem, runActions] at hrun
    refine ⟨m, hm, ?_⟩
    rw [valueLine, if_neg h8, runActions, if_pos hfast]
    exact hrun

/-- A byte is the number its fields spell. -/
theorem FieldsOf.byte_eq {fields : List (Nat × Nat)} {b : Byte} (h : FieldsOf fields b) :
    b = BitVec.ofNat 8 (joinFields 0 fields) := by
  rw [h.value, BitVec.ofNat_toNat, BitVec.setWidth_eq]

/-- ModRM and SIB, a field of two bits and two of three. -/
theorem byte_of_233 (m : BitVec 2) (r b : BitVec 3) :
    m ++ r ++ b = BitVec.ofNat 8 (64 * m.toNat + 8 * r.toNat + b.toNat) := by
  refine (((FieldsOf.one m).snoc r).snoc b).byte_eq.trans (congrArg _ ?_)
  simp [joinFields]
  omega

theorem rexByte_eq (w r x b : Bool) :
    0x4#4 ++ bitOf w ++ bitOf r ++ bitOf x ++ bitOf b =
      BitVec.ofNat 8 (0x40 + 8 * w.toNat + 4 * r.toNat + 2 * x.toNat + b.toNat) := by
  have hbit : ∀ c : Bool, (bitOf c).toNat % 2 = c.toNat := by decide
  have hfour : (0x4#4).toNat = 4 := rfl
  refine (((((FieldsOf.one 0x4#4).snoc (bitOf w)).snoc (bitOf r)).snoc (bitOf x)).snoc (bitOf b)).byte_eq.trans (congrArg _ ?_)
  simp only [joinFields, List.nil_append, List.cons_append, List.foldl_cons, List.foldl_nil, Nat.pow_one, hbit, hfour]
  omega

def segmentBytes (d : Derived) : List Byte := if d.segpfx = 0 then [] else [d.segpfx]

def repBytes : Rep → List Byte
  | .none => []
  | .rep => [0xF3]
  | .repne => [0xF2]

/-- The REX byte, where it is needed (R197). -/
def rexPrefix (d : Derived) : List Byte :=
  if rexNeeded d then [BitVec.ofNat 8 (0x40 + 8 * d.rexw.toNat + 4 * d.rexr.toNat + 2 * d.rexx.toNat + d.rexb.toNat)] else []

theorem rexPrefix_of_plain {d : Derived} (h : d.needrex = false) :
    rexPrefix d = rexBytes d.rexw.toNat d.rexr.toNat d.rexx.toNat d.rexb.toNat := by
  by_cases hneeded : rexNeeded d = true
  · have hbits := hneeded
    simp only [rexNeeded, h, Bool.or_false, Bool.or_eq_true] at hbits
    rw [rexPrefix, if_pos hneeded, rexBytes, if_neg (by rintro ⟨hw, hr, hx, hb⟩; simp_all)]
  · have hbits := hneeded
    simp only [rexNeeded, Bool.or_eq_true, not_or, Bool.not_eq_true] at hbits
    obtain ⟨⟨⟨⟨hw, hr⟩, hx⟩, hb⟩, -⟩ := hbits
    rw [rexPrefix, if_neg hneeded, hw, hr, hx, hb]
    rfl

def escapeBytes (i : IformSpec) : List Byte := if i.space = .legacy ∧ i.map = 1 then [0x0F] else []

/-- ModRM, SIB and displacement. -/
def addressBytes (q : Request) : List Byte :=
  (if q.derived.hasModrm then
      [BitVec.ofNat 8 (64 * q.derived.mod.toNat + 8 * q.derived.reg.toNat + q.derived.rm.toNat)] else [])
    ++ ((if q.derived.hasSib then
      [BitVec.ofNat 8 (64 * q.derived.sibscale.toNat + 8 * q.derived.sibindex.toNat + q.derived.sibbase.toNat)] else [])
    ++ (if q.mem0 || q.agen then littleEndian (q.dispWidth / 8) q.disp else []))

/-- Branch displacement and immediates. -/
def immediateBytes (q : Request) : List Byte :=
  (if q.relbr then littleEndian (q.brdispWidth / 8) q.brdisp else [])
    ++ (littleEndian (q.immWidth / 8) q.imm0 ++ (if q.imm1Present then [q.imm1] else []))

/-- The steps of the reference pattern in their order, with REX, VEX or EVEX given. -/
def encodingBytes (i : IformSpec) (q : Request) (extension : List Byte) : List Byte :=
  segmentBytes q.derived ++ (repBytes q.rep ++ ((if i.space = .legacy ∧ q.derived.osz = true then [0x66] else [])
    ++ ((if q.derived.asz then [0x67] else []) ++ (extension ++ (escapeBytes i
    ++ ([i.opcode ||| q.derived.opcodeLow3.zeroExtend 8] ++ (addressBytes q ++ immediateBytes q)))))))

/-- What the rows of T0 have in common (spec/42_table_lookup.md R234). -/
structure FixtureRow (i : IformSpec) : Prop where
  pp : i.pp = .none
  map : i.map = 0 ∨ i.map = 1
  modes : i.modeSet = [16, 32, 64]
  widths : i.eoszSet = [8, 16, 32, 64]
  noIs4 : ∀ e ∈ i.operands, e.2 ≠ .is4

theorem fixtureRow_of_index {n : Nat} {i : IformSpec} (h : fixtureRows[n]? = some i) : FixtureRow i := by
  have hrows : ∀ i ∈ fixtureRows, i.pp = .none ∧ (i.map = 0 ∨ i.map = 1) ∧ i.modeSet = [16, 32, 64]
      ∧ i.eoszSet = [8, 16, 32, 64] ∧ ∀ e ∈ i.operands, e.2 ≠ .is4 := by decide
  obtain ⟨hpp, hmap, hmodes, hwidths, hroles⟩ := hrows i (List.mem_of_getElem? h)
  exact ⟨hpp, hmap, hmodes, hwidths, hroles⟩

/-- The request asks for nothing that the pattern of a row of T0 refuses, or emits as part of a far pointer. -/
structure Emittable (i : IformSpec) (q : Request) : Prop where
  rep : i.space = .legacy ∨ q.rep = .none := by exact .inl rfl
  disp : wholeWidth q.dispWidth := by exact .inl rfl
  brdisp : wholeWidth q.brdispWidth := by exact .inl rfl
  relbr : q.relbr = true → q.brdispWidth ≠ 0 := by exact nofun
  ptr : q.ptr = false := by rfl
  imm : wholeWidth q.immWidth := by exact .inl rfl

section Steps

variable {i : IformSpec} {q : Request} {d : Derived}

theorem emits_segStep : EmitsBytes (segStep d) (segmentBytes d) := by
  have h := emits_emitIf (c := d.segpfx != 0) (emits_byteItem d.segpfx)
  simp only [bne_iff_ne, ne_eq, ite_not] at h
  exact h

theorem emits_repStep (hrow : FixtureRow i) (h : i.space = .legacy ∨ q.rep = .none) :
    EmitsBytes (repStep i q.rep) (repBytes q.rep) := by
  cases hrep : q.rep with
  | none =>
    have hnil : repStep i .none = [] := by simp [repStep, hrow.pp]
    rw [hnil]
    exact emits_nil
  | rep | repne =>
    simp only [repStep, h.resolve_right (by simp [hrep]), hrow.pp]
    exact emits_byteItem _

theorem emits_oszStep (hrow : FixtureRow i) :
    EmitsBytes (oszStep i d) (if i.space = .legacy ∧ d.osz = true then [0x66] else []) := by
  have h := emits_emitIf (c := decide (i.space = .legacy) && (d.osz || decide (i.pp = .p66))) (emits_byteItem 0x66)
  simp only [hrow.pp, reduceCtorEq, decide_false, Bool.or_false, Bool.and_eq_true, decide_eq_true_eq] at h
  simp only [oszStep, hrow.pp, reduceCtorEq, decide_false, Bool.or_false]
  exact h

theorem emits_rexStep : EmitsBytes (rexStep d) (rexPrefix d) := by
  have h := emits_emitIf (c := rexNeeded d) (emits_rexItem (bitOf d.rexw) (bitOf d.rexr) (bitOf d.rexx) (bitOf d.rexb))
  rw [rexByte_eq] at h
  exact h

theorem emits_escStep (hrow : FixtureRow i) : EmitsBytes (escStep i) (escapeBytes i) := by
  unfold escStep escapeBytes
  by_cases hspace : i.space = .legacy
  · obtain hmap | hmap := hrow.map
    · simp only [hspace, hmap, if_true]
      exact emits_nil
    · simp only [hspace, hmap, if_true]
      exact emits_byteItem 0x0F
  · simp only [hspace, if_false, false_and]
    exact emits_nil

theorem emits_addressSteps (h : wholeWidth q.dispWidth) :
    EmitsBytes (modrmStep q.derived ++ (sibStep q.derived ++ dispStep q)) (addressBytes q) := by
  have hmodrm := emits_emitIf (c := q.derived.hasModrm) (emits_modrmItem q.derived.mod q.derived.reg q.derived.rm)
  have hsib := emits_emitIf (c := q.derived.hasSib)
    (emits_modrmItem q.derived.sibscale q.derived.sibindex q.derived.sibbase)
  rw [byte_of_233] at hmodrm hsib
  refine hmodrm.append (hsib.append ?_)
  unfold dispStep
  by_cases h0 : q.dispWidth = 0
  · have hnone : (if (q.mem0 || q.agen) = true then littleEndian (q.dispWidth / 8) q.disp else []) = [] := by
      rw [h0]
      exact ite_self []
    rw [hnone, h0, bne_self_eq_false, Bool.and_false]
    exact emits_nil
  · rw [bne_iff_ne.2 h0, Bool.and_true]
    exact emits_emitIf (emits_valueLine h h0 q.disp)

theorem emits_relbrStep (hw : wholeWidth q.brdispWidth) (h0 : q.relbr = true → q.brdispWidth ≠ 0) :
    EmitsBytes (relbrStep q) (if q.relbr then littleEndian (q.brdispWidth / 8) q.brdisp else []) := by
  unfold relbrStep
  cases hrel : q.relbr with
  | false => exact emits_nil
  | true =>
    simp only [if_true, if_neg (h0 hrel)]
    exact emits_valueLine hw (h0 hrel) q.brdisp

theorem is4Name_none {order : List OperandName} {k : Nat} {l : List (OperandPattern × Role)} (h : ∀ e ∈ l, e.2 ≠ .is4) :
    is4Name order k l = none := by
  induction l generalizing k with
  | nil => rfl
  | cons e rest ih =>
    obtain ⟨he, hrest⟩ := List.forall_mem_cons.1 h
    rw [is4Name, if_neg he, ih hrest]

theorem emits_imm0Step (hrow : FixtureRow i) (hptr : q.ptr = false) (hw : wholeWidth q.immWidth) :
    EmitsBytes (imm0Step i q) (littleEndian (q.immWidth / 8) q.imm0) := by
  unfold imm0Step
  by_cases h0 : q.immWidth = 0
  · rw [if_neg fun h => h.1 h0, h0]
    exact emits_nil
  · rw [if_pos ⟨h0, hptr⟩, is4Name_none hrow.noIs4]
    dsimp only
    rw [if_pos (hw.resolve_left h0)]
    exact emits_valueLine hw h0 q.imm0

/-- The reference pattern of a row, step by step. -/
theorem emits_emissionPattern {n : Nat} {extension : List Byte} (hrow : FixtureRow i) (h : Emittable i q)
    (hextension : EmitsBytes (extensionStep i q) extension) :
    EmitsBytes (emissionPattern (referenceBound n i) q) (encodingBytes i q extension) := by
  have hptr : ptrStep q = [] := by rw [ptrStep, h.ptr]; rfl
  have hpattern : emissionPattern (referenceBound n i) q =
      segStep q.derived ++ (repStep i q.rep ++ (oszStep i q.derived ++ (aszStep q.derived ++ (extensionStep i q
        ++ (escStep i ++ (opcodeStep i q.derived ++ ((modrmStep q.derived ++ (sibStep q.derived ++ dispStep q))
        ++ (relbrStep q ++ (imm0Step i q ++ imm1Step q))))))))) := by
    rw [List.append_assoc, List.append_assoc, ← List.append_nil (relbrStep q), ← hptr, ← List.append_nil (imm1Step q)]
    rfl
  rw [hpattern]
  exact emits_segStep.append <| (emits_repStep hrow h.rep).append <| (emits_oszStep hrow).append <|
    (emits_emitIf (emits_byteItem 0x67)).append <| hextension.append <| (emits_escStep hrow).append <|
    (emits_byteItem _).append <| (emits_addressSteps h.disp).append <| (emits_relbrStep h.brdisp h.relbr).append <|
    (emits_imm0Step hrow h.ptr h.imm).append <| emits_emitIf (emits_byteItem q.imm1)

end Steps

end Sys2Proof.Machine
end

section
/-! Bind through a row of T0 (spec/42_table_lookup.md R229 to R231, R234; log 7): the row matches, its roles place the operands,
SIZE_PREFIXES and SEG_PREFIX add their bits, and the two checks pass or fail. -/

namespace Sys2Proof.Machine

/-! ## Matching (R229) -/

section Matching

variable {i : IformSpec} {rq : Request} {space : Space} {eosz : Nat} {n : OperandName} {r : Reg} {cls : RegClass}

/-- A row of T0 takes every mode and operand width (log 15). -/
theorem iformMatches_of_shape (hrow : FixtureRow i) (hclass : rq.iclass = i.iclass)
    (hmode : rq.mode = 16 ∨ rq.mode = 32 ∨ rq.mode = 64) (heosz : rq.eosz = 0 ∨ rq.eosz = 16 ∨ rq.eosz = 32 ∨ rq.eosz = 64)
    (hcount : rq.norder = i.operands.length) (hspace : rq.mustUseEvex = false)
    (hshape : shapeMatches i.space (effectiveEosz rq) rq 0 i.operands = true) : iformMatches rq i = true := by
  have hwidth : effectiveEosz rq = 8 ∨ effectiveEosz rq = 16 ∨ effectiveEosz rq = 32 ∨ effectiveEosz rq = 64 := by
    unfold effectiveEosz
    split_ifs <;> omega
  simp [iformMatches, spaceAllowed, hrow.modes, hrow.widths, hclass, hmode, hwidth, hcount, hspace, hshape]

theorem regMatches_of_slot {takes : RegClass → Bool} (hslot : slotOf rq n = some r) (htakes : takes r.cls = true)
    (hlength : lengthAgrees rq.vl r.cls = true) (hoffset : space = .evex ∨ r.off < 16) :
    regMatches space rq n takes = true := by
  simp [regMatches, hslot, htakes, hlength, offsetAllowed, hoffset]

/-- An operand width with the class of its registers (R233). -/
def widthClass (e : Nat) (cls : RegClass) : Prop :=
  (e = 16 ∧ cls = .gpr16) ∨ (e = 32 ∧ cls = .gpr32) ∨ (e = 64 ∧ cls = .gpr64)

theorem patternMatches_regv {a : Nat} (hslot : slotOf rq n = some ⟨cls, a⟩) (hclass : widthClass eosz cls) (ha : a < 16) :
    patternMatches space eosz rq n .regv = true := by
  obtain ⟨rfl, rfl⟩ | ⟨rfl, rfl⟩ | ⟨rfl, rfl⟩ := hclass
  all_goals exact regMatches_of_slot (takes := fun c => gprvClass _ == some c) hslot rfl rfl (.inr ha)

end Matching

/-! ## Roles on registers (R173 to R177, R231) -/

section Roles

variable {p : Params} {space : Space} {rq : Request} {n : OperandName} {r : Reg}

theorem placeReg_of_slot {enc : Reg → Derived → Check Derived} {d : Derived} (hslot : slotOf rq n = some r)
    (henc : enc r rq.derived = .ok d) : placeReg rq n enc = .ok { rq with derived := d } := by
  rw [placeReg, hslot]
  dsimp only
  rw [henc]

theorem placeable_of_lt (h : fieldOff r < 16) : placeable space r = true := by simp [placeable, h]

theorem placeable_evex (h : fieldOff r < 32) : placeable .evex r = true := by simp [placeable, h]

theorem applyRole_modrmReg (hslot : slotOf rq n = some r) (hplace : placeable space r = true) :
    applyRole p space rq n .modrmReg = .ok { rq with
      derived := noteByteRegister r { rq.derived with
        reg := low3 (fieldOff r)
        rexr := bit3 (fieldOff r)
        rexrr := if space = .evex then bit4 (fieldOff r) else rq.derived.rexrr } } :=
  placeReg_of_slot hslot (if_pos hplace)

theorem applyRole_modrmRm (hslot : slotOf rq n = some r) (hplace : placeable space r = true) :
    applyRole p space rq n .modrmRm = .ok { rq with
      derived := noteByteRegister r { rq.derived with
        mod := 3
        rm := low3 (fieldOff r)
        rexb := bit3 (fieldOff r)
        rexx := if space = .evex then bit4 (fieldOff r) else rq.derived.rexx
        hasSib := false } } :=
  placeReg_of_slot hslot (if_pos hplace)

theorem applyRole_vvvv (hslot : slotOf rq n = some r) (hplace : placeable space r = true) :
    applyRole p space rq n .vvvv = .ok { rq with
      derived := noteHighByte r { rq.derived with
        vvvv := BitVec.ofNat 4 (fieldOff r)
        vexdest4 := if space = .evex then bit4 (fieldOff r) else rq.derived.vexdest4 } } :=
  placeReg_of_slot hslot (if_pos hplace)

theorem applyRole_opcLow3 (hslot : slotOf rq n = some r) (hplace : placeable space r = true) :
    applyRole p space rq n .opcLow3 = .ok { rq with
      derived := noteByteRegister r { rq.derived with opcodeLow3 := low3 (fieldOff r), rexb := bit3 (fieldOff r) } } :=
  placeReg_of_slot hslot (if_pos hplace)

theorem applyRole_mask (hslot : slotOf rq n = some r) (hmask : r.cls = .mask) (hplace : placeable space r = true) :
    applyRole p space rq n .mask = .ok { rq with derived := { rq.derived with aaa := low3 (fieldOff r) } } :=
  placeReg_of_slot hslot ((if_neg (not_not.2 hmask)).trans (if_pos hplace))

theorem applyRoles_cons {k : Nat} {e : OperandPattern × Role} {rest : List (OperandPattern × Role)} {q : Request}
    {result : Check Request} (hrole : applyRole p space rq (orderGet rq.order k) e.2 = .ok q)
    (hrest : applyRoles p space (k + 1) rest q = result) : applyRoles p space k (e :: rest) rq = result :=
  (Check.bind_of_ok hrole).trans hrest

end Roles

/-! ## The lines behind the roles (R180, R181, R200, R201) -/

/-- The request as the reference pattern of a row leaves it, where the roles give the derived bits `d` and the displacement `v`
of width `w`, and SEG_PREFIX the byte `pfx`. -/
def placedRequest (i : IformSpec) (q : Request) (d : Derived) (v : Word64) (w : Nat) (pfx : Byte) : Request :=
  { q with
    disp := v
    dispWidth := w
    derived := { d with
      osz := operandSizeBit i.oszsens q.mode (effectiveEosz q)
      asz := addressSizeBit q (effectiveEasz q)
      segpfx := pfx } }

/-- The roles of a row place the operands of the request, whose address width and segment the row can encode. -/
structure RowPlaces (p : Params) (i : IformSpec) (q : Request) (d : Derived) (v : Word64) (w : Nat) (pfx : Byte) : Prop where
  roles : applyRoles p i.space 0 i.operands
      { q with derived := modrmBits i.modrm { rexw := wBit i.w (effectiveEosz q) } } =
    .ok { q with disp := v, dispWidth := w, derived := d }
  width : ¬noSuchWidth q
  segment : segmentPrefix p.registers q = .ok pfx

section Lines

variable {p : Params} {i : IformSpec} {q : Request} {d : Derived} {v : Word64} {w n : Nat} {pfx : Byte}

theorem segPrefix_of_segmentPrefix {g : RegSpace} (h : segmentPrefix g q = .ok pfx) :
    segPrefix g q = .ok { q with derived := { q.derived with segpfx := pfx } } := by
  rw [segPrefix, h]

theorem runBinding_of_places (h : RowPlaces p i q d v w pfx) :
    runBinding p (referenceBound n i) referenceBinding q =
      if extensionInLegacyMode i.space { q with derived := d } || rexConflict i.space { q with derived := d } then generalError
      else .ok (placedRequest i q d v w pfx) := by
  have hsize : sizePrefixes i.oszsens (effectiveEosz q) (effectiveEasz q) { q with disp := v, dispWidth := w, derived := d } =
      .ok (placedRequest i q d v w d.segpfx) := if_neg h.width
  have hsegment : segPrefix p.registers (placedRequest i q d v w d.segpfx) = .ok (placedRequest i q d v w pfx) :=
    segPrefix_of_segmentPrefix h.segment
  refine runBinding_reference.trans ((Check.bind_of_ok h.roles).trans ((Check.bind_of_ok hsize).trans
    ((Check.bind_of_ok hsegment).trans ?_)))
  change (checkNot (extensionInLegacyMode i.space { q with derived := d }) (placedRequest i q d v w pfx) >>= fun q' =>
    checkNot (rexConflict i.space q') q' >>= pure) = _
  cases extensionInLegacyMode i.space { q with derived := d } with
  | true => rfl
  | false =>
    change (checkNot (rexConflict i.space { q with derived := d }) (placedRequest i q d v w pfx) >>= pure) = _
    cases rexConflict i.space { q with derived := d } <;> rfl

/-- Outside 64-bit mode no extension bit is set (R181). -/
structure NoExtension (space : Space) (d : Derived) : Prop where
  rexr : d.rexr = false
  rexx : d.rexx = false
  rexb : d.rexb = false
  rexrr : d.rexrr = false
  vexdest4 : d.vexdest4 = false
  needrex : d.needrex = false
  rexw : d.rexw = false ∨ space ≠ .legacy

theorem extensionInLegacyMode_eq_false {space : Space} (h : q.mode ≠ 64 → NoExtension space q.derived) :
    extensionInLegacyMode space q = false := by
  by_cases hmode : q.mode = 64
  · simp [extensionInLegacyMode, hmode]
  · obtain ⟨hr, hx, hb, hrr, hv, hneed, hw⟩ := h hmode
    simp [extensionInLegacyMode, hr, hx, hb, hrr, hv, hneed]
    exact fun _ hwide => hw.resolve_left (by simp [hwide])

theorem rexConflict_eq_false {space : Space} (h : q.derived.norex = false) : rexConflict space q = false := by
  simp [rexConflict, h]

end Lines

/-! ## The request at a row -/

section Entry

variable {q : Request}

theorem inferLength_of_unset (hvl : q.vl = 0) : inferLength q = { q with vl := widest (scannedRegs q) } := if_pos hvl

theorem precondition_of_unset {g : RegSpace} (hrip : q.base0 ≠ some g.regRIP) (hvl : q.vl = 0) :
    precondition g q = { q with vl := widest (scannedRegs q) } := by
  rw [precondition, normaliseRip, if_neg hrip, inferLength_of_unset hvl]

/-- No RIP base and no wide vector register: the Precondition phase changes nothing. -/
theorem precondition_eq_self {g : RegSpace} (hrip : q.base0 ≠ some g.regRIP) (hvl : q.vl = 0)
    (hregs : widest (scannedRegs q) = 0) : precondition g q = q := by
  rw [precondition_of_unset hrip hvl, hregs, ← hvl]

theorem not_noSuchWidth_of_default (h : q.easz = 0) : ¬noSuchWidth q := by
  simp [noSuchWidth, effectiveEasz, h]
  omega

theorem addressSizeBit_of_default (h : q.easz = 0) : addressSizeBit q (effectiveEasz q) = false := by
  simp [addressSizeBit, effectiveEasz, h]
  omega

end Entry

section Rules

variable {q : Request} {m n : Nat} {i j : IformSpec} {rest : List (Nat × IformSpec)}

theorem bindRows_of_first (h : iformMatches q i = true) : bindRows ((n, i) :: rest) q = .ok (referenceBound n i) :=
  firstMatch_of_holds (e := ({ iform := n }, referenceBound n i)) ((ruleHolds_byShape n _ q).trans (congrArg Except.ok h))

theorem bindRows_of_later {b : Bound} (h : iformMatches q i = false) (hrest : bindRows rest q = .ok b) :
    bindRows ((n, i) :: rest) q = .ok b :=
  (firstMatch_of_fails (e := ({ iform := n }, referenceBound n i))
    ((ruleHolds_byShape n _ q).trans (congrArg Except.ok h))).trans hrest

theorem iformMatches_of_count (h : q.norder ≠ i.operands.length) : iformMatches q i = false := by simp [iformMatches, h]

end Rules

/-- The request of the state becomes `q` in the Precondition phase and is bound to the row `i`, number `n` of T0. -/
structure RowBinds (s : State) (rows : List (Nat × IformSpec)) (n : Nat) (i : IformSpec) (q : Request) : Prop where
  index : fixtureRows[n]? = some i
  entered : precondition s.params.registers { s.rq with error := .noError } = q
  derived : q.derived = {}
  bound : bindRows rows q = .ok (referenceBound n i)

/-- A request that becomes `q`, which has the shape of the row. -/
theorem rowBinds_of_entered {s : State} {q : Request} {n : Nat} {i : IformSpec} {rest : List (Nat × IformSpec)}
    (hentered : precondition s.params.registers { s.rq with error := .noError } = q)
    (hmode : q.mode = 16 ∨ q.mode = 32 ∨ q.mode = 64) (heosz : q.eosz = 0 ∨ q.eosz = 16 ∨ q.eosz = 32 ∨ q.eosz = 64)
    (hshape : shapeMatches i.space (effectiveEosz q) q 0 i.operands = true) (hindex : fixtureRows[n]? = some i := by rfl)
    (hderived : q.derived = {} := by rfl) (hclass : q.iclass = i.iclass := by rfl)
    (hcount : q.norder = i.operands.length := by rfl) (hspace : q.mustUseEvex = false := by rfl) :
    RowBinds s ((n, i) :: rest) n i q where
  index := hindex
  entered := hentered
  derived := hderived
  bound := bindRows_of_first (iformMatches_of_shape (fixtureRow_of_index hindex) hclass hmode heosz hcount hspace hshape)

/-- A request that the Precondition phase does not change. -/
theorem rowBinds_of_shape {s : State} {q : Request} {n : Nat} {i : IformSpec} {rest : List (Nat × IformSpec)} (hrq : s.rq = q)
    (hmode : q.mode = 16 ∨ q.mode = 32 ∨ q.mode = 64) (heosz : q.eosz = 0 ∨ q.eosz = 16 ∨ q.eosz = 32 ∨ q.eosz = 64)
    (hrip : q.base0 ≠ some s.params.registers.regRIP) (hregs : widest (scannedRegs q) = 0)
    (hshape : shapeMatches i.space (effectiveEosz q) q 0 i.operands = true) (hindex : fixtureRows[n]? = some i := by rfl)
    (herror : q.error = .noError := by rfl) (hvl : q.vl = 0 := by rfl) (hderived : q.derived = {} := by rfl)
    (hclass : q.iclass = i.iclass := by rfl) (hcount : q.norder = i.operands.length := by rfl)
    (hspace : q.mustUseEvex = false := by rfl) : RowBinds s ((n, i) :: rest) n i q := by
  refine rowBinds_of_entered ?_ hmode heosz hshape hindex hderived hclass hcount hspace
  rw [hrq, ← herror]
  exact precondition_eq_self hrip hvl hregs

/-- A row of another number of operands before it changes nothing. -/
theorem RowBinds.after_other_count {s : State} {q : Request} {m n : Nat} {i j : IformSpec} {rows : List (Nat × IformSpec)}
    (h : RowBinds s rows n i q) (hcount : q.norder ≠ j.operands.length) : RowBinds s ((m, j) :: rows) n i q :=
  { h with bound := bindRows_of_later (iformMatches_of_count hcount) h.bound }

/-! ## ENCODE through a row -/

section Encode

variable {s : State} {i : IformSpec} {q : Request} {d : Derived} {v : Word64} {w n : Nat} {pfx : Byte}
  {rows : List (Nat × IformSpec)}

/-- The row encodes the request: the bytes of its pattern. -/
theorem encoded_of_places {extension bytes : List Byte} (hs : s.encodable) (hbinds : RowBinds s rows n i q)
    (hplaces : RowPlaces s.params i q d v w pfx) (hmode : q.mode ≠ 64 → NoExtension i.space d)
    (hrex : rexConflict i.space { q with derived := d } = false) (hemits : Emittable i { q with dispWidth := w })
    (hextension : EmitsBytes (extensionStep i (placedRequest i q d v w pfx)) extension)
    (hbytes : encodingBytes i (placedRequest i q d v w pfx) extension = bytes) (hroom : bytes.length ≤ s.capacity)
    (hlimit : bytes.length ≤ 15) : s.encoded s.capacity bytes (s.encodeRows rows) := by
  obtain ⟨hindex, hentered, hderived, hbound⟩ := hbinds
  have hclear : { q with derived := {} } = q := hderived ▸ rfl
  have hrun : runBinding s.params (referenceBound n i) referenceBinding q = .ok (placedRequest i q d v w pfx) := by
    rw [runBinding_of_places hplaces, extensionInLegacyMode_eq_false (q := { q with derived := d }) hmode, hrex]
    rfl
  have hrequest : bindRequest (bindRows rows) s.params q = .ok (referenceBound n i, placedRequest i q d v w pfx) := by
    rw [bindRequest, hclear, hbound]
    exact Check.bind_of_ok (f := fun q' => pure (referenceBound n i, q')) hrun
  have hplain : Emittable i (placedRequest i q d v w pfx) := { hemits with }
  have hpattern : EmitsBytes (emissionPattern (referenceBound n i) (placedRequest i q d v w pfx)) bytes :=
    hbytes ▸ emits_emissionPattern (fixtureRow_of_index hindex) hplain hextension
  exact encoded_of_emits hs (by rw [hentered]; exact hrequest) hpattern (le_min hroom hlimit)

/-- The row matches, but one of the two checks fails (R180, R181). -/
theorem failsUntouched_of_places (hs : s.encodable) (hbinds : RowBinds s rows n i q)
    (hplaces : RowPlaces s.params i q d v w pfx)
    (hcheck : extensionInLegacyMode i.space { q with derived := d } = true
      ∨ rexConflict i.space { q with derived := d } = true) : s.failsUntouched (s.encodeRows rows) := by
  obtain ⟨-, hentered, hderived, hbound⟩ := hbinds
  have hclear : { q with derived := {} } = q := hderived ▸ rfl
  have hfail : runBinding s.params (referenceBound n i) referenceBinding q = generalError := by
    rw [runBinding_of_places hplaces, if_pos (Bool.or_eq_true_iff.2 hcheck)]
  refine failsUntouched_of_bindRequest hs ?_
  rw [hentered]
  exact bindRequest_of_binding_error (hclear ▸ hbound) (hclear ▸ hfail)

/-- The bytes of a legacy row: the prefixes of R200, R259, R201, then REX, opcode, address and immediates. -/
def legacyBytes (i : IformSpec) (q : Request) (d : Derived) (v : Word64) (w : Nat) (pfx : Byte) : List Byte :=
  (if pfx = 0 then [] else [pfx]) ++ (repBytes q.rep
    ++ ((if operandSizeBit i.oszsens q.mode (effectiveEosz q) then [0x66] else [])
    ++ ((if addressSizeBit q (effectiveEasz q) then [0x67] else []) ++ (rexPrefix d
    ++ ((if i.map = 1 then [0x0F] else []) ++ ((i.opcode ||| d.opcodeLow3.zeroExtend 8)
    :: (addressBytes { q with disp := v, dispWidth := w, derived := d } ++ immediateBytes q)))))))

theorem encoded_of_legacy {bytes : List Byte} (hlegacy : i.space = .legacy) (hs : s.encodable)
    (hbinds : RowBinds s rows n i q) (hplaces : RowPlaces s.params i q d v w pfx)
    (hmode : q.mode ≠ 64 → NoExtension i.space d) (hrex : rexConflict i.space { q with derived := d } = false)
    (hemits : Emittable i { q with dispWidth := w }) (hbytes : legacyBytes i q d v w pfx = bytes)
    (hroom : bytes.length ≤ s.capacity) (hlimit : bytes.length ≤ 15) : s.encoded s.capacity bytes (s.encodeRows rows) := by
  have hextension : EmitsBytes (extensionStep i (placedRequest i q d v w pfx)) (rexPrefix d) := by
    rw [extensionStep, hlegacy]
    exact emits_rexStep (d := (placedRequest i q d v w pfx).derived)
  have hall : encodingBytes i (placedRequest i q d v w pfx) (rexPrefix d) = legacyBytes i q d v w pfx := by
    simp only [encodingBytes, legacyBytes, segmentBytes, escapeBytes, hlegacy, true_and, List.singleton_append]
    rfl
  exact encoded_of_places hs hbinds hplaces hmode hrex hemits hextension (hall.trans hbytes) hroom hlimit

end Encode

end Sys2Proof.Machine
end

section
/-! The rows of T0 whose operands are branch displacements, immediates, or implicit (spec/42_table_lookup.md R234 rows 5 to 7, 12
and 13). -/

namespace Sys2Proof.Machine

/-! ## Rows that place no bits -/

/-- A row of legacy space and opcode map 0 whose operands place no bits. -/
structure NoBits (i : IformSpec) : Prop where
  legacy : i.space = .legacy
  map : i.map = 0
  narrow : i.w = .w0
  modrm : i.modrm = .none
  oszsens : i.oszsens = false
  roles : ∀ e ∈ i.operands, e.2 = .imm ∨ e.2 = .imm1 ∨ e.2 = .brdisp ∨ e.2 = .implicit

theorem noBits_rowJmpRelbrd : NoBits rowJmpRelbrd := ⟨rfl, rfl, rfl, rfl, rfl, by decide⟩

theorem noBits_rowJzRelbrb : NoBits rowJzRelbrb := ⟨rfl, rfl, rfl, rfl, rfl, by decide⟩

theorem noBits_rowEnterImmwImmb : NoBits rowEnterImmwImmb := ⟨rfl, rfl, rfl, rfl, rfl, by decide⟩

theorem noBits_rowMovsb : NoBits rowMovsb := ⟨rfl, rfl, rfl, rfl, rfl, by decide⟩

theorem noBits_rowMovsbMem : NoBits rowMovsbMem := ⟨rfl, rfl, rfl, rfl, rfl, by decide⟩

theorem noExtension_clear {space : Space} : NoExtension space {} := ⟨rfl, rfl, rfl, rfl, rfl, rfl, .inl rfl⟩

theorem applyRoles_of_noBits {p : Params} {space : Space} {k : Nat} {l : List (OperandPattern × Role)} {q : Request}
    (h : ∀ e ∈ l, e.2 = .imm ∨ e.2 = .imm1 ∨ e.2 = .brdisp ∨ e.2 = .implicit) : applyRoles p space k l q = .ok q := by
  induction l generalizing k with
  | nil => rfl
  | cons e rest ih =>
    obtain ⟨he, hrest⟩ := List.forall_mem_cons.1 h
    refine applyRoles_cons ?_ (ih hrest)
    obtain he | he | he | he := he <;> rw [he] <;> rfl

/-- Prefix, opcode, then branch displacement and immediates. -/
theorem encoded_of_noBits {s : State} {i : IformSpec} {q : Request} {n : Nat} {pfx : Byte} {bytes : List Byte}
    {rows : List (Nat × IformSpec)} (hi : NoBits i) (hs : s.encodable) (hbinds : RowBinds s rows n i q) (heasz : q.easz = 0)
    (hw : q.dispWidth = 0) (hsegment : segmentPrefix s.params.registers q = .ok pfx) (hemits : Emittable i q)
    (hbytes : (if pfx = 0 then [] else [pfx]) ++ (repBytes q.rep ++ (i.opcode :: immediateBytes q)) = bytes)
    (hroom : bytes.length ≤ s.capacity) (hlimit : bytes.length ≤ 15) : s.encoded s.capacity bytes (s.encodeRows rows) := by
  have hroles : applyRoles s.params i.space 0 i.operands
      { q with derived := modrmBits i.modrm { rexw := wBit i.w (effectiveEosz q) } } =
      .ok { q with disp := q.disp, dispWidth := 0, derived := {} } := by
    rw [applyRoles_of_noBits hi.roles, hi.narrow, hi.modrm, ← hw]
    rfl
  have hosz : operandSizeBit i.oszsens q.mode (effectiveEosz q) = false := by
    rw [hi.oszsens]
    rfl
  have hlegacy : legacyBytes i q {} q.disp 0 pfx =
      (if pfx = 0 then [] else [pfx]) ++ (repBytes q.rep ++ (i.opcode :: immediateBytes q)) := by
    simp [legacyBytes, rexPrefix, rexNeeded, addressBytes, immediateBytes, hi.map, hosz, addressSizeBit_of_default heasz]
  exact encoded_of_legacy hi.legacy hs hbinds ⟨hroles, not_noSuchWidth_of_default heasz, hsegment⟩ (fun _ => noExtension_clear)
    (rexConflict_eq_false rfl) { hemits with disp := .inl rfl } (hlegacy.trans hbytes) hroom hlimit

/-! ## A register in the opcode byte (R176, R266) -/

@[simp] theorem toNat_low3 (n : Nat) : (low3 n).toNat = n % 8 := BitVec.toNat_ofNat n 3

theorem toNat_bit3 {n : Nat} (h : n < 16) : (bit3 n).toNat = n / 8 := by
  rw [bit3_of_lt h]
  by_cases h8 : 8 ≤ n <;> simp [h8] <;> omega

/-- An opcode byte with room for a register number in its low three bits. -/
theorem opcode_or_low3 (n : Nat) : 0xB8#8 ||| (low3 n).setWidth 8 = BitVec.ofNat 8 (0xB8 + n % 8) := by
  have hall : ∀ x : BitVec 3, 0xB8#8 ||| x.setWidth 8 = BitVec.ofNat 8 (0xB8 + x.toNat) := by decide
  rw [hall, toNat_low3]

theorem rexPrefix_of_wide {d : Derived} (h : d.rexw = true) :
    rexPrefix d = [BitVec.ofNat 8 (0x48 + 4 * d.rexr.toNat + 2 * d.rexx.toNat + d.rexb.toNat)] := by
  simp [rexPrefix, rexNeeded, h]

end Sys2Proof.Machine

namespace Sys2Proof

open Machine

/-! ## The obligations of spec/42_table_lookup.md R234: branches, immediates, strings -/

/-- Settles O41: behind the hint byte and the opcode stands the displacement. -/
theorem branchIformsEncode : Obligations.BranchIformsEncode := by
  intro s m sm v hs hm
  refine ⟨fun hroom hrq => ?jmp, fun hroom h hrq => ?jz⟩
  case jmp =>
    refine encoded_of_noBits (n := 5) (pfx := 0) noBits_rowJmpRelbrd hs
      (rowBinds_of_shape hrq hm (.inl rfl) nofun rfl rfl) rfl rfl rfl ?emits ?bytes hroom (by simp)
    case emits => exact { brdisp := .inr (.inr (.inr (.inl rfl))) }
    case bytes => simp [immediateBytes, repBytes, State.reset, rowJmpRelbrd, baseRow]
  case jz =>
    refine encoded_of_noBits (n := 6) (pfx := hintByte h) noBits_rowJzRelbrb hs
      (rowBinds_of_shape hrq hm (.inl rfl) nofun rfl rfl) rfl rfl rfl ?emits ?bytes ?room ?limit
    case emits => exact { brdisp := .inr (.inl rfl) }
    case bytes => cases h <;> simp [immediateBytes, repBytes, State.reset, rowJzRelbrb, baseRow, hintByte]
    case room => cases h <;> simp <;> omega
    case limit => cases h <;> simp

/-- Settles O42: ENTER places no bits; MOV places the register's number in the opcode byte and its extension bit in REX. -/
theorem immediateIformsEncode : Obligations.ImmediateIformsEncode := by
  intro s sm v b hs
  refine ⟨fun hroom m hm hrq => ?enter, fun hroom r hr hrq => ?mov⟩
  case enter =>
    refine encoded_of_noBits (n := 11) (pfx := 0) noBits_rowEnterImmwImmb hs
      (rowBinds_of_shape hrq hm (.inl rfl) nofun rfl rfl) rfl rfl rfl ?emits ?bytes hroom (by simp)
    case emits => exact { imm := .inr (.inr (.inl rfl)) }
    case bytes => simp [immediateBytes, repBytes, State.reset, rowEnterImmwImmb, baseRow]
  case mov =>
    have hregister : patternMatches .legacy 64 s.rq .reg0 .regv = true :=
      patternMatches_regv (hrq ▸ rfl) (.inr (.inr ⟨rfl, rfl⟩)) hr
    rw [hrq] at hregister
    refine encoded_of_legacy (n := 4) (d := { rexw := true, opcodeLow3 := low3 r, rexb := bit3 r }) (v := 0) (w := 0) (pfx := 0)
      rfl hs (rowBinds_of_shape hrq (.inr (.inr rfl)) (.inr (.inr (.inr rfl))) nofun rfl
        (Bool.and_eq_true_iff.2 ⟨hregister, rfl⟩)) ⟨?roles, not_noSuchWidth_of_default rfl, rfl⟩ (absurd rfl)
      (rexConflict_eq_false rfl) ?emits ?bytes hroom (by simp)
    case roles => exact applyRoles_cons (applyRole_opcLow3 (r := ⟨.gpr64, r⟩) rfl (placeable_of_lt hr)) rfl
    case emits => exact { imm := .inr (.inr (.inr (.inr rfl))) }
    case bytes =>
      simp [legacyBytes, rexPrefix_of_wide, toNat_bit3 hr, opcode_or_low3, repBytes, addressBytes, immediateBytes, State.reset,
        rowMovGprvImmv, baseRow, operandSizeBit, addressSizeBit, effectiveEosz]

/-- Settles O43: without operands the first shape of the row matches, with the two memory operands the second. -/
theorem stringIformEncodes : Obligations.StringIformEncodes := by
  intro s m sm p hs hm hroom
  have hlength : ((match p with | .none => ([] : List Byte) | .rep => [0xF3] | .repne => [0xF2]) ++ [0xA4]).length ≤ 2 := by
    cases p <;> decide
  refine ⟨fun hrq => ?bare, fun hrq => ?memory⟩
  case bare =>
    refine encoded_of_noBits (n := 12) (pfx := 0) noBits_rowMovsb hs (rowBinds_of_shape hrq hm (.inl rfl) nofun rfl rfl) rfl rfl rfl
      {} ?bytes (hlength.trans hroom) (hlength.trans (by decide))
    case bytes => cases p <;> simp [immediateBytes, repBytes, State.reset, rowMovsb, baseRow]
  case memory =>
    have hbinds := rowBinds_of_shape (n := 13) (i := rowMovsbMem) (rest := []) hrq (.inr (.inr rfl)) (.inl rfl)
      (mt Option.some.inj (ne_regRIP_of_cls nofun)) rfl rfl
    refine encoded_of_noBits (pfx := 0) noBits_rowMovsbMem hs (hbinds.after_other_count nofun) rfl rfl rfl {} ?bytes
      (hlength.trans hroom) (hlength.trans (by decide))
    case bytes => cases p <;> simp [immediateBytes, repBytes, State.reset, rowMovsbMem, baseRow]

end Sys2Proof
end

section
/-! The rows of T0 with two registers (spec/42_table_lookup.md R234 rows 2 and 4; spec/41_field_encoders.md R173, R174, R179 to R181,
R197): the first goes to ModRM.rm, the second to ModRM.reg. Whether a REX byte is needed decides whether the pair has an encoding. -/

namespace Sys2Proof.Machine

/-! ## REX and the two checks (R180, R181, R197) -/

section Checks

variable {q : Request} {d : Derived}

theorem noExtension_of_not_rexNeeded (h : rexNeeded d = false) (hrr : d.rexrr = false) (hv : d.vexdest4 = false) :
    NoExtension .legacy d := by
  simp only [rexNeeded, Bool.or_eq_false_iff] at h
  obtain ⟨⟨⟨⟨hw, hr⟩, hx⟩, hb⟩, hneed⟩ := h
  exact ⟨hr, hx, hb, hrr, hv, hneed, .inl hw⟩

/-- A REX byte outside 64-bit mode. -/
theorem extensionInLegacyMode_of_rexNeeded (hmode : q.mode ≠ 64) (h : rexNeeded q.derived = true) :
    extensionInLegacyMode .legacy q = true := by
  simp only [rexNeeded, Bool.or_eq_true] at h
  simp only [extensionInLegacyMode, hmode, ne_eq, not_false_eq_true, decide_true, Bool.true_and, Bool.and_true, Bool.or_eq_true]
  tauto

theorem rexConflict_legacy : rexConflict .legacy q = (rexNeeded q.derived && q.derived.norex) := by simp [rexConflict]

end Checks

/-! ## The sizes (R201) -/

section Sizes

theorem oszBytes_eq {m e : Nat} (hm : m = 16 ∨ m = 32 ∨ m = 64) :
    (if operandSizeBit true m e then [0x66] else []) = oszBytes m e := by
  simp only [operandSizeBit, Bool.true_and, decide_eq_true_eq, oszBytes]
  exact if_congr (by omega) rfl rfl

theorem oszBytes_length (m e : Nat) :
    (oszBytes m e).length = if (m = 16 ∧ e = 32) ∨ (m ≠ 16 ∧ e = 16) then 1 else 0 := by
  unfold oszBytes
  split_ifs <;> rfl

theorem rexBytes_length (w r x b : Nat) :
    (rexBytes w r x b).length = if w = 0 ∧ r = 0 ∧ x = 0 ∧ b = 0 then 0 else 1 := by
  unfold rexBytes
  split_ifs <;> rfl

end Sizes

/-- REXW of an operand-size sensitive row, as a number. -/
theorem toNat_beq_wide (e : Nat) : (e == 64).toNat = if e = 64 then 1 else 0 := by
  by_cases he : e = 64 <;> simp [he]

/-! ## Two registers -/

/-- A request with two register operands. -/
def twoRegisters (m sm iclass e : Nat) (r0 r1 : Reg) : Request where
  mode := m
  smode := sm
  iclass := iclass
  eosz := e
  regs := { r0 := some r0, r1 := some r1 }
  order := [.reg0, .reg1]
  norder := 2

/-- SPL, BPL, SIL or DIL (R179). -/
def lowByteMark (r : Reg) : Bool := decide (r.cls = .gpr8 ∧ 4 ≤ r.off ∧ r.off ≤ 7)

/-- What the two registers place. -/
def rmRegBits (w : Bool) (r0 r1 : Reg) : Derived where
  hasModrm := true
  mod := 3
  rm := low3 (fieldOff r0)
  rexb := bit3 (fieldOff r0)
  reg := low3 (fieldOff r1)
  rexr := bit3 (fieldOff r1)
  rexw := w
  needrex := lowByteMark r0 || lowByteMark r1
  norex := decide (r0.cls = .gpr8h) || decide (r1.cls = .gpr8h)

/-- A legacy row of map 0 with a register in ModRM.rm and one in ModRM.reg. -/
structure RmRegRow (i : IformSpec) : Prop where
  legacy : i.space = .legacy
  map : i.map = 0
  modrm : i.modrm = .rr
  roles : ∃ x y, i.operands = [(x, .modrmRm), (y, .modrmReg)]

section TwoRegisters

variable {s : State} {i : IformSpec} {m sm ic e n : Nat} {r0 r1 : Reg}

theorem rowPlaces_twoRegisters (hi : RmRegRow i) (h0 : fieldOff r0 < 16) (h1 : fieldOff r1 < 16) :
    RowPlaces s.params i (twoRegisters m sm ic e r0 r1)
      (rmRegBits (wBit i.w (effectiveEosz (twoRegisters m sm ic e r0 r1))) r0 r1) 0 0 0 where
  roles := by
    obtain ⟨x, y, hroles⟩ := hi.roles
    rw [hi.legacy, hi.modrm, hroles]
    exact applyRoles_cons (applyRole_modrmRm (r := r0) rfl (placeable_of_lt h0))
      (applyRoles_cons (applyRole_modrmReg (r := r1) rfl (placeable_of_lt h1)) rfl)
  width := not_noSuchWidth_of_default rfl
  segment := rfl

theorem legacyBytes_twoRegisters (w : Bool) (hi : RmRegRow i) :
    legacyBytes i (twoRegisters m sm ic e r0 r1) (rmRegBits w r0 r1) 0 0 0 =
      (if operandSizeBit i.oszsens m (effectiveEosz (twoRegisters m sm ic e r0 r1)) then [0x66] else [])
        ++ (rexPrefix (rmRegBits w r0 r1)
        ++ [i.opcode, BitVec.ofNat 8 (0xC0 + 8 * (fieldOff r1 % 8) + fieldOff r0 % 8)]) := by
  have hasz := addressSizeBit_of_default (q := twoRegisters m sm ic e r0 r1) rfl
  have hopcode : i.opcode ||| BitVec.zeroExtend 8 (0 : BitVec 3) = i.opcode := by simp
  have haddress : addressBytes { twoRegisters m sm ic e r0 r1 with disp := 0, dispWidth := 0, derived := rmRegBits w r0 r1 } =
      [BitVec.ofNat 8 (0xC0 + 8 * (fieldOff r1 % 8) + fieldOff r0 % 8)] := by
    simp [addressBytes, rmRegBits, twoRegisters]
  have himmediate : immediateBytes (twoRegisters m sm ic e r0 r1) = [] := by simp [immediateBytes, twoRegisters]
  have hrep : (twoRegisters m sm ic e r0 r1).rep = .none := rfl
  have hlow : (rmRegBits w r0 r1).opcodeLow3 = 0 := rfl
  rw [legacyBytes, hasz, hi.map, haddress, himmediate, hrep, hlow]
  simp only [if_true, repBytes, List.nil_append, Nat.zero_ne_one, if_false, List.append_nil, Bool.false_eq_true, hopcode]
  rfl

/-- The pair has an encoding: no REX byte, or 64-bit mode and none of AH to BH. -/
theorem encoded_twoRegisters {d : Derived} {bytes : List Byte} (hi : RmRegRow i) (hs : s.encodable)
    (hbinds : RowBinds s [(n, i)] n i (twoRegisters m sm ic e r0 r1)) (h0 : fieldOff r0 < 16) (h1 : fieldOff r1 < 16)
    (hd : d = rmRegBits (wBit i.w (effectiveEosz (twoRegisters m sm ic e r0 r1))) r0 r1)
    (hencodable : rexNeeded d = true → m = 64 ∧ d.norex = false)
    (hbytes : legacyBytes i (twoRegisters m sm ic e r0 r1) d 0 0 0 = bytes) (hroom : bytes.length ≤ s.capacity)
    (hlimit : bytes.length ≤ 15) : s.encoded s.capacity bytes (s.encodeRows [(n, i)]) := by
  subst hd
  have hmode : m ≠ 64 → NoExtension i.space (rmRegBits (wBit i.w (effectiveEosz (twoRegisters m sm ic e r0 r1))) r0 r1) := by
    intro hm
    rw [hi.legacy]
    exact noExtension_of_not_rexNeeded (Bool.eq_false_iff.2 fun hneeded => hm (hencodable hneeded).1) rfl rfl
  refine encoded_of_legacy hi.legacy hs hbinds (rowPlaces_twoRegisters hi h0 h1) hmode ?_ { rep := .inl hi.legacy } hbytes hroom
    hlimit
  rw [hi.legacy, rexConflict_legacy]
  exact Bool.and_eq_false_imp.2 fun hneeded => (hencodable hneeded).2

/-- The pair has none. -/
theorem failsUntouched_twoRegisters {d : Derived} (hi : RmRegRow i) (hs : s.encodable)
    (hbinds : RowBinds s [(n, i)] n i (twoRegisters m sm ic e r0 r1)) (h0 : fieldOff r0 < 16) (h1 : fieldOff r1 < 16)
    (hd : d = rmRegBits (wBit i.w (effectiveEosz (twoRegisters m sm ic e r0 r1))) r0 r1) (hneeded : rexNeeded d = true)
    (hfail : m ≠ 64 ∨ d.norex = true) : s.failsUntouched (s.encodeRows [(n, i)]) := by
  subst hd
  refine failsUntouched_of_places hs hbinds (rowPlaces_twoRegisters hi h0 h1) ?_
  rw [hi.legacy, rexConflict_legacy]
  exact hfail.imp (fun hm => extensionInLegacyMode_of_rexNeeded hm hneeded) fun hnorex => Bool.and_eq_true_iff.2 ⟨hneeded, hnorex⟩

end TwoRegisters

/-! ## ADD_GPRv_GPRv_01 -/

section Add

variable {s : State} {m sm a b e : Nat} {cls : RegClass}

theorem rmRegRow_rowAddGprvGprv01 : RmRegRow rowAddGprvGprv01 := ⟨rfl, rfl, rfl, _, _, rfl⟩

/-- Registers of 16, 32 or 64 bits bring their extension bits only. -/
theorem rmRegBits_widthClass (w : Bool) (hclass : widthClass e cls) :
    rmRegBits w ⟨cls, a⟩ ⟨cls, b⟩ =
      { hasModrm := true, mod := 3, rm := low3 a, rexb := bit3 a, reg := low3 b, rexr := bit3 b, rexw := w } := by
  obtain ⟨-, rfl⟩ | ⟨-, rfl⟩ | ⟨-, rfl⟩ := hclass <;> rfl

theorem fieldOff_of_widthClass (hclass : widthClass e cls) (n : Nat) : fieldOff ⟨cls, n⟩ = n := by
  obtain ⟨-, rfl⟩ | ⟨-, rfl⟩ | ⟨-, rfl⟩ := hclass <;> rfl

theorem effectiveEosz_of_widthClass {q : Request} (hclass : widthClass e cls) (heosz : q.eosz = e) : effectiveEosz q = e := by
  obtain ⟨rfl, -⟩ | ⟨rfl, -⟩ | ⟨rfl, -⟩ := hclass <;> simp [effectiveEosz, heosz]

theorem rowBinds_addRegisters (hm : m = 16 ∨ m = 32 ∨ m = 64) (ha : a < 16) (hb : b < 16) (hclass : widthClass e cls)
    (hrq : s.rq = twoRegisters m sm iclassADD e ⟨cls, a⟩ ⟨cls, b⟩) :
    RowBinds s [(1, rowAddGprvGprv01)] 1 rowAddGprvGprv01 (twoRegisters m sm iclassADD e ⟨cls, a⟩ ⟨cls, b⟩) := by
  have heosz := effectiveEosz_of_widthClass (q := twoRegisters m sm iclassADD e ⟨cls, a⟩ ⟨cls, b⟩) hclass rfl
  refine rowBinds_of_shape hrq hm (.inr (hclass.imp And.left (Or.imp And.left And.left))) nofun ?widest ?shape
  case widest => obtain ⟨-, rfl⟩ | ⟨-, rfl⟩ | ⟨-, rfl⟩ := hclass <;> rfl
  case shape =>
    rw [heosz]
    exact Bool.and_eq_true_iff.2 ⟨patternMatches_regv rfl hclass ha,
      Bool.and_eq_true_iff.2 ⟨patternMatches_regv rfl hclass hb, rfl⟩⟩

theorem rexNeeded_addRegisters (w : Bool) (ha : a < 16) (hb : b < 16) (hclass : widthClass e cls) :
    rexNeeded (rmRegBits w ⟨cls, a⟩ ⟨cls, b⟩) = true ↔ w = true ∨ 8 ≤ b ∨ 8 ≤ a := by
  simp [rmRegBits_widthClass w hclass, rexNeeded, bit3_of_lt ha, bit3_of_lt hb, or_assoc]

end Add

/-! ## MOV_GPR8_GPR8 -/

section Mov

variable {s : State} {m sm : Nat} {r r0 r1 : Reg}

theorem rmRegRow_rowMovGpr8Gpr8 : RmRegRow rowMovGpr8Gpr8 := ⟨rfl, rfl, rfl, _, _, rfl⟩

theorem fieldOff_of_byteReg (h : byteReg r) : fieldOff r < 16 := by
  obtain ⟨hcls, hoff⟩ | ⟨hcls, hoff⟩ := h <;> simp [fieldOff, hcls] <;> omega

theorem fieldOff_of_gpr8 (h : r.cls = .gpr8) : fieldOff r = r.off := if_neg (by simp [h])

theorem fieldOff_of_not_needsRex (h : byteReg r) (hrex : ¬needsRex r) : fieldOff r < 8 := by
  obtain ⟨hcls, hoff⟩ | ⟨hcls, hoff⟩ := h
  · have hlow : ¬4 ≤ r.off := fun hle => hrex ⟨hcls, hle⟩
    simp [fieldOff, hcls]
    omega
  · simp [fieldOff, hcls]
    omega

/-- A byte register needs REX for its extension bit (R172) or for its mark (R179). -/
theorem needsRex_iff (h : byteReg r) : (bit3 (fieldOff r) = true ∨ lowByteMark r = true) ↔ needsRex r := by
  rw [bit3_of_lt (fieldOff_of_byteReg h)]
  obtain ⟨hcls, hoff⟩ | ⟨hcls, hoff⟩ := h
  · simp [fieldOff, lowByteMark, needsRex, hcls]
    omega
  · simp [fieldOff, lowByteMark, needsRex, hcls]
    omega

theorem rexNeeded_byteRegisters (h0 : byteReg r0) (h1 : byteReg r1) :
    rexNeeded (rmRegBits false r0 r1) = true ↔ needsRex r0 ∨ needsRex r1 := by
  rw [← needsRex_iff h0, ← needsRex_iff h1]
  simp only [rexNeeded, rmRegBits, Bool.or_eq_true, Bool.false_or, Bool.or_false]
  tauto

theorem patternMatches_byteReg {space : Space} {eosz : Nat} {rq : Request} {n : OperandName} (hslot : slotOf rq n = some r)
    (h : byteReg r) : patternMatches space eosz rq n (.reg [.gpr8, .gpr8h]) = true := by
  obtain ⟨cls, off⟩ := r
  obtain ⟨rfl, hoff⟩ | ⟨rfl, hoff⟩ : (cls = .gpr8 ∧ off < 16) ∨ (cls = .gpr8h ∧ off < 4) := h
  · exact regMatches_of_slot hslot rfl rfl (.inr hoff)
  · exact regMatches_of_slot hslot rfl rfl (.inr (Nat.lt_of_lt_of_le hoff (by decide)))

theorem rowBinds_movBytes (hm : m = 16 ∨ m = 32 ∨ m = 64) (h0 : byteReg r0) (h1 : byteReg r1)
    (hrq : s.rq = twoRegisters m sm iclassMOV 0 r0 r1) :
    RowBinds s [(3, rowMovGpr8Gpr8)] 3 rowMovGpr8Gpr8 (twoRegisters m sm iclassMOV 0 r0 r1) := by
  refine rowBinds_of_shape hrq hm (.inl rfl) nofun ?widest ?shape
  case widest =>
    have hlength : ∀ {r}, byteReg r → regLength (some r) = 0 := fun h => by
      obtain ⟨hcls, -⟩ | ⟨hcls, -⟩ := h <;> simp [regLength, hcls]
    simp [scannedRegs, twoRegisters, widest, hlength h0, hlength h1]
    rfl
  case shape =>
    exact Bool.and_eq_true_iff.2 ⟨patternMatches_byteReg rfl h0, Bool.and_eq_true_iff.2 ⟨patternMatches_byteReg rfl h1, rfl⟩⟩

end Mov

end Sys2Proof.Machine

namespace Sys2Proof

open Machine

/-- Settles O44: a pair is encoded where REX is not needed or can be had. -/
theorem registerIformsEncode : Obligations.RegisterIformsEncode := by
  intro s m sm hs hm
  refine ⟨fun a b e cls ha hb hclass hrq => ?add, fun r0 r1 h0 h1 hrq => ?mov⟩
  case add =>
    have hbinds := rowBinds_addRegisters hm ha hb hclass hrq
    have heosz := effectiveEosz_of_widthClass (q := twoRegisters m sm iclassADD e ⟨cls, a⟩ ⟨cls, b⟩) hclass rfl
    have hbits : rmRegBits (e == 64) ⟨cls, a⟩ ⟨cls, b⟩ = rmRegBits (wBit rowAddGprvGprv01.w
      (effectiveEosz (twoRegisters m sm iclassADD e ⟨cls, a⟩ ⟨cls, b⟩))) ⟨cls, a⟩ ⟨cls, b⟩ := by rw [heosz]; rfl
    have hneeded := rexNeeded_addRegisters (e == 64) ha hb hclass
    have hplace := fieldOff_of_widthClass hclass
    have h0 : fieldOff ⟨cls, a⟩ < 16 := (hplace a).trans_lt ha
    have h1 : fieldOff ⟨cls, b⟩ < 16 := (hplace b).trans_lt hb
    rw [beq_iff_eq] at hneeded
    refine ⟨fun hencodable hroom => ?encoded, fun hmode hrex => ?fails⟩
    case encoded =>
      refine encoded_twoRegisters rmRegRow_rowAddGprvGprv01 hs hbinds h0 h1 hbits (fun hrex => ?check) ?bytes ?room ?limit
      case check =>
        rw [hneeded] at hrex
        exact ⟨hencodable.resolve_right fun ⟨ha, hb, he⟩ => hrex.elim he (by omega), by rw [rmRegBits_widthClass _ hclass]⟩
      case bytes =>
        have hplain : rexPrefix (rmRegBits (e == 64) ⟨cls, a⟩ ⟨cls, b⟩) = rexBytes (if e = 64 then 1 else 0) (b / 8) 0 (a / 8) := by
          rw [rmRegBits_widthClass _ hclass, rexPrefix_of_plain rfl]
          dsimp only
          rw [toNat_beq_wide, toNat_bit3 ha, toNat_bit3 hb]
          rfl
        rw [legacyBytes_twoRegisters _ rmRegRow_rowAddGprvGprv01, heosz, hplain, hplace, hplace]
        exact congrArg (· ++ _) (oszBytes_eq hm)
      all_goals
        simp only [List.length_append, oszBytes_length, rexBytes_length, List.length_cons, List.length_nil, true_and]
        split_ifs at hroom ⊢ <;> omega
    case fails =>
      exact failsUntouched_twoRegisters rmRegRow_rowAddGprvGprv01 hs hbinds h0 h1 hbits (hneeded.2 (by omega)) (.inl hmode)
  case mov =>
    have hbinds := rowBinds_movBytes hm h0 h1 hrq
    have hneeded := rexNeeded_byteRegisters h0 h1
    have hplace0 := fieldOff_of_byteReg h0
    have hplace1 := fieldOff_of_byteReg h1
    have hbytes : legacyBytes rowMovGpr8Gpr8 (twoRegisters m sm iclassMOV 0 r0 r1) (rmRegBits false r0 r1) 0 0 0 =
        rexPrefix (rmRegBits false r0 r1) ++ [0x88, BitVec.ofNat 8 (0xC0 + 8 * (fieldOff r1 % 8) + fieldOff r0 % 8)] :=
      legacyBytes_twoRegisters false rmRegRow_rowMovGpr8Gpr8
    refine ⟨fun hn0 hn1 hroom => ?plain, fun hrex hmode hc0 hc1 hroom => ?rex, fun hrex hfail => ?fails⟩
    case plain =>
      have hnone : rexNeeded (rmRegBits false r0 r1) = false := Bool.eq_false_iff.2 fun h => (hneeded.1 h).elim hn0 hn1
      refine encoded_twoRegisters rmRegRow_rowMovGpr8Gpr8 hs hbinds hplace0 hplace1 rfl
        (fun h => absurd (hneeded.1 h) (not_or.2 ⟨hn0, hn1⟩))
        (hbytes.trans ?_) hroom (by simp)
      rw [rexPrefix, hnone, Nat.mod_eq_of_lt (fieldOff_of_not_needsRex h0 hn0), Nat.mod_eq_of_lt (fieldOff_of_not_needsRex h1 hn1)]
      rfl
    case rex =>
      refine encoded_twoRegisters rmRegRow_rowMovGpr8Gpr8 hs hbinds hplace0 hplace1 rfl (fun _ => ⟨hmode, ?_⟩)
        (hbytes.trans ?_) hroom (by simp)
      · simp [rmRegBits, hc0, hc1]
      · rw [rexPrefix, if_pos (hneeded.2 hrex)]
        rw [fieldOff_of_gpr8 hc0] at hplace0 ⊢
        rw [fieldOff_of_gpr8 hc1] at hplace1 ⊢
        simp [rmRegBits, fieldOff_of_gpr8 hc0, fieldOff_of_gpr8 hc1, toNat_bit3 hplace0, toNat_bit3 hplace1]
    case fails =>
      refine failsUntouched_twoRegisters rmRegRow_rowMovGpr8Gpr8 hs hbinds hplace0 hplace1 rfl (hneeded.2 hrex) (hfail.imp_right ?_)
      exact fun h => by simpa [rmRegBits] using h

end Sys2Proof
end

section
/-! The bytes of a memory operand (spec/41_field_encoders.md R184 to R194, spec/43_encode_dispatch.md R267 to R269): ModRM, SIB and
displacement of what ENC_MEM places, for each kind of address. -/

namespace Sys2Proof.Machine

/-- What ENC_MEM places in ModRM and SIB beside the reg field. -/
structure AddressBits where
  mod : BitVec 2
  rm : BitVec 3
  hasSib : Bool
  scale : BitVec 2
  index : BitVec 3
  base : BitVec 3

/-- The derived bits with an address and the extension bits of its index and base. -/
def addressed (d : Derived) (a : AddressBits) (x b : Bool) : Derived :=
  { d with
    hasModrm := true
    mod := a.mod
    rm := a.rm
    hasSib := a.hasSib
    sibscale := a.scale
    sibindex := a.index
    sibbase := a.base
    rexx := x
    rexb := b }

/-- ENC_MEM gives the memory operand of the request these extension bits, and bits and a displacement that are emitted as these
bytes. -/
def AddressEncodes (p : Params) (space : Space) (rq : Request) (x b : Bool) (bytes : List Byte) : Prop :=
  ∃ a v w, encMem p space (effectiveEasz rq) rq = .ok { rq with disp := v, dispWidth := w, derived := addressed rq.derived a x b }
    ∧ wholeWidth w ∧ addressBytes { rq with disp := v, dispWidth := w, derived := addressed rq.derived a x b } = bytes

section Addresses

variable {p : Params} {space : Space} {rq : Request} {easz : Nat} {cls : RegClass}

/-- The displacement that a base forces or keeps, as bytes (R191, R192). -/
theorem dispPlaced_bytes {n w : Nat} {m : BitVec 2} {v : Word64} (h : dispPlaced n rq m v w) :
    wholeWidth w ∧ m.toNat = dispMod n rq.dispWidth ∧ littleEndian (w / 8) v = dispBytes n rq.dispWidth rq.disp := by
  obtain ⟨h0, h5, rfl, rfl, rfl⟩ | ⟨h0, h5, rfl, rfl, rfl⟩ | ⟨h8, rfl, rfl, rfl⟩ | ⟨h32, rfl, rfl, rfl⟩ := h
  · exact ⟨.inr (.inl rfl), by simp [dispMod, h0, h5], by simp [dispBytes, h0, h5]⟩
  · exact ⟨.inl rfl, by simp [dispMod, h0, h5], by simp [dispBytes, h0, h5]⟩
  · exact ⟨.inr (.inl rfl), by simp [dispMod, h8], by simp [dispBytes, h8]⟩
  · exact ⟨.inr (.inr (.inr (.inl rfl))), by simp [dispMod, h32], by simp [dispBytes, h32]⟩

/-- A base alone (R187, R188, R190 to R192). -/
theorem addressEncodes_lone_base {n : Nat} (haddr : addressedBy easz cls) (heasz : effectiveEasz rq = easz) (hn : n < 16)
    (hbase : rq.base0 = some ⟨cls, n⟩) (hindex : rq.index = none) (hscale : rq.scale ≤ 1) (hmem : rq.mem0 = true)
    (hw : rq.dispWidth = 0 ∨ rq.dispWidth = 8 ∨ rq.dispWidth = 32) :
    AddressEncodes p space rq false (decide (8 ≤ n)) (baseDispBytes rq.derived.reg.toNat n rq.dispWidth rq.disp) := by
  obtain ⟨m, v, w, hplaced, hrun⟩ := encMem_with_base (p := p) (space := space) haddr hn hbase
    (hindex ▸ indexTaken_none hscale) hw
  obtain ⟨hwhole, hmod, hdisp⟩ := dispPlaced_bytes hplaced
  have hreg : rq.derived.reg.toNat % 8 = rq.derived.reg.toNat := Nat.mod_eq_of_lt rq.derived.reg.isLt
  subst heasz
  by_cases hlow : n % 8 = 4
  · refine ⟨⟨m, 4, true, 0, 4, 4⟩, v, w, hrun (sibFields_lone_base_sib hbase hindex hn hlow), hwhole, ?_⟩
    simp [addressBytes, addressed, baseDispBytes, hmem, hmod, hdisp, hlow, hreg]
  · refine ⟨⟨m, BitVec.ofNat 3 n, false, 0, rq.derived.sibindex, rq.derived.sibbase⟩, v, w,
      hrun (sibFields_lone_base hbase hindex hn hlow), hwhole, ?_⟩
    simp [addressBytes, addressed, baseDispBytes, hmem, hmod, hdisp, hlow, hreg]

/-- A base and a scaled index (R185, R189). -/
theorem addressEncodes_indexed {n x : Nat} {code : BitVec 2} (haddr : addressedBy easz cls) (heasz : effectiveEasz rq = easz)
    (hn : n < 16) (hx : x < 16) (hlegal : x ∉ p.indexIllegal) (hscale : scaleOf rq.scale code)
    (hbase : rq.base0 = some ⟨cls, n⟩) (hindex : rq.index = some ⟨cls, x⟩) (hmem : rq.mem0 = true)
    (hw : rq.dispWidth = 0 ∨ rq.dispWidth = 8 ∨ rq.dispWidth = 32) :
    AddressEncodes p space rq (decide (8 ≤ x)) (decide (8 ≤ n))
      (indexedBytes rq.derived.reg.toNat n x code rq.dispWidth rq.disp) := by
  obtain ⟨m, v, w, hplaced, hrun⟩ := encMem_with_base (p := p) (space := space) haddr hn hbase
    (hindex ▸ indexTaken_gpr haddr hx hlegal hscale) hw
  obtain ⟨hwhole, hmod, hdisp⟩ := dispPlaced_bytes hplaced
  have hreg : rq.derived.reg.toNat % 8 = rq.derived.reg.toNat := Nat.mod_eq_of_lt rq.derived.reg.isLt
  subst heasz
  refine ⟨⟨m, 4, true, code, BitVec.ofNat 3 x, BitVec.ofNat 3 n⟩, v, w,
    hrun (sibFields_gpr_index haddr (baseBits_of_lt hbase hn) hindex hx), hwhole, ?_⟩
  simp [addressBytes, addressed, indexedBytes, hmem, hmod, hdisp, hreg]

/-- BX + SI under 16-bit addressing (R193, R194). -/
theorem addressEncodes_bx_si (hnames : p.registers.namesDistinct = true) (heasz : effectiveEasz rq = 16)
    (hbase : rq.base0 = some p.registers.regBX) (hindex : rq.index = some p.registers.regSI) (hscale : rq.scale ≤ 1)
    (hmem : rq.mem0 = true) (hw : rq.dispWidth = 0 ∨ rq.dispWidth = 8 ∨ rq.dispWidth = 16) :
    AddressEncodes p space rq false false
      (BitVec.ofNat 8 (64 * (rq.dispWidth / 8) + 8 * rq.derived.reg.toNat) :: littleEndian (rq.dispWidth / 8) rq.disp) := by
  have hrow : (rq.base0, rq.index, 0) ∈ pairRows p.registers := by simp [hbase, hindex, pairRows]
  have hpair := encMem_of_mem_pairRows (space := space) hnames hrow
  rw [if_neg (Nat.not_lt.2 hscale)] at hpair
  have hne : rq.base0 ≠ none := by simp [hbase]
  have hbp : ¬(rq.base0 = some p.registers.regBP ∧ rq.index = none) := by simp [hindex]
  obtain ⟨m, hm, hmod⟩ : ∃ m : BitVec 2, m.toNat = rq.dispWidth / 8 ∧ ∀ d, modDisp16 p.registers rq.base0 rq.index
      { rq with derived := d } = .ok { rq with derived := { d with mod := m } } := by
    obtain h0 | h8 | h16 := hw
    · exact ⟨0, by rw [h0]; rfl, fun d => modDisp16_no_disp hne hbp h0⟩
    · exact ⟨1, by rw [h8]; rfl, fun d => modDisp16_disp8 hne h8⟩
    · exact ⟨2, by rw [h16]; rfl, fun d => modDisp16_disp16 hne h16⟩
  rw [hmod, ← heasz] at hpair
  refine ⟨⟨m, 0, false, rq.derived.sibscale, rq.derived.sibindex, rq.derived.sibbase⟩, rq.disp, rq.dispWidth, hpair, ?_, ?_⟩
  · unfold wholeWidth
    omega
  · simp [addressBytes, addressed, hmem, hm]

/-- RIP with its displacement of 32 bits (R184). -/
theorem addressEncodes_rip (heasz : effectiveEasz rq = 64) (hmode : rq.mode = 64) (hbase : rq.base0 = some p.registers.regRIP)
    (hindex : rq.index = none) (hmem : rq.mem0 = true) (hw : rq.dispWidth = 32) :
    AddressEncodes p space rq false false (BitVec.ofNat 8 (8 * rq.derived.reg.toNat + 5) :: littleEndian 4 rq.disp) := by
  have hrun : encMem p space 64 rq = encMemRip { rq with derived := { rq.derived with hasModrm := true } } :=
    encMem_rip (cls := .gpr64) rfl (by decide) hbase (by simp [hindex])
  refine ⟨⟨0, 5, false, rq.derived.sibscale, rq.derived.sibindex, rq.derived.sibbase⟩, rq.disp, 32, ?_, ?_, ?_⟩
  · rw [heasz, ← hw]
    exact hrun.trans (encMemRip_ok hmode hindex hw)
  · exact .inr (.inr (.inr (.inl rfl)))
  · simp [addressBytes, addressed, hmem]

end Addresses

/-! ## The segment (R200) -/

section Segment

variable {g : RegSpace} {easz n : Nat} {cls : RegClass}

theorem defaultSegment_of_base (haddr : addressedBy easz cls) (hn : n < 16) :
    defaultSegment g (some ⟨cls, n⟩) = if n = 4 ∨ n = 5 then g.segSS else g.segDS := by
  have hgpr : cls.isGpr = true := by obtain ⟨-, rfl⟩ | ⟨-, rfl⟩ := haddr <;> rfl
  have h4 : low3 n = 4 ↔ n % 8 = 4 := low3_eq_iff (by decide)
  have h5 : low3 n = 5 ↔ n % 8 = 5 := low3_eq_iff (by decide)
  simp only [defaultSegment, hgpr, h4, h5, bit3_of_lt hn, decide_eq_false_iff_not, true_and]
  exact if_congr (by omega) rfl rfl

/-- The six segment registers, in the order in which SEG_PREFIX looks for one, are different. -/
theorem segmentNames_pairwise (hnames : g.namesDistinct = true) :
    [g.segES, g.segCS, g.segSS, g.segDS, g.segFS, g.segGS].Pairwise fun earlier later => later ≠ earlier := by
  obtain ⟨-, hseg, -⟩ := of_decide_eq_true hnames
  exact List.pairwise_map.2 (hseg.imp fun hne h => hne (Reg.mk.inj h).2.symm)

theorem segmentByte_eq (hnames : g.namesDistinct = true) :
    segmentByte g g.segES = .ok 0x26 ∧ segmentByte g g.segCS = .ok 0x2E ∧ segmentByte g g.segSS = .ok 0x36
      ∧ segmentByte g g.segDS = .ok 0x3E ∧ segmentByte g g.segFS = .ok 0x64 ∧ segmentByte g g.segGS = .ok 0x65 := by
  have hne := segmentNames_pairwise hnames
  simp only [List.pairwise_cons, List.forall_mem_cons] at hne
  simp [segmentByte, hne]

/-- The override byte of a memory operand's segment: none for the default one. -/
theorem segmentPrefix_of_overrideBytes {q : Request} {pfx : List Byte} (hnames : g.namesDistinct = true)
    (haddr : addressedBy easz cls) (hn : n < 16) (hbase : q.base0 = some ⟨cls, n⟩) (hmem : q.mem0 = true)
    (h : overrideBytes g (n = 4 ∨ n = 5) q.seg0 pfx) :
    ∃ byte, segmentPrefix g q = .ok byte ∧ pfx = if byte = 0 then [] else [byte] := by
  have hne := segmentNames_pairwise hnames
  simp only [List.pairwise_cons, List.forall_mem_cons] at hne
  obtain ⟨⟨-, hes, hed, -⟩, ⟨hcs, hcd, -⟩, ⟨hsd, hsf, hsg, -⟩, ⟨hdf, hdg, -⟩, -⟩ := hne
  obtain ⟨byteES, byteCS, byteSS, byteDS, byteFS, byteGS⟩ := segmentByte_eq hnames
  have override : ∀ {r byte}, q.seg0 = some r → segmentByte g r = .ok byte →
      segmentPrefix g q = if r = (if n = 4 ∨ n = 5 then g.segSS else g.segDS) then .ok 0 else .ok byte := by
    intro r byte hr hbyte
    simp [segmentPrefix, hmem, hr, hbase, hbyte, defaultSegment_of_base haddr hn]
  have never : ∀ {r byte}, q.seg0 = some r → segmentByte g r = .ok byte → r ≠ g.segSS → r ≠ g.segDS →
      segmentPrefix g q = .ok byte := by
    intro r byte hr hbyte hss hds
    rw [override hr hbyte, if_neg]
    split_ifs <;> assumption
  obtain ⟨hr, rfl⟩ | ⟨hr, rfl⟩ | ⟨hr, rfl⟩ | ⟨hr, rfl⟩ | ⟨hr, rfl⟩ | ⟨hr, rfl⟩ | ⟨hr, rfl⟩ := h
  · exact ⟨0, by simp [segmentPrefix, hmem, hr], rfl⟩
  · exact ⟨0x26, never hr byteES hes.symm hed.symm, rfl⟩
  · exact ⟨0x2E, never hr byteCS hcs.symm hcd.symm, rfl⟩
  · by_cases hstack : n = 4 ∨ n = 5
    · exact ⟨0, by simp [override hr byteSS, hstack], by simp [hstack]⟩
    · exact ⟨0x36, by simp [override hr byteSS, hstack, hsd.symm], by simp [hstack]⟩
  · by_cases hstack : n = 4 ∨ n = 5
    · exact ⟨0x3E, by simp [override hr byteDS, hstack, hsd], by simp [hstack]⟩
    · exact ⟨0, by simp [override hr byteDS, hstack], by simp [hstack]⟩
  · exact ⟨0x64, never hr byteFS hsf hdf, rfl⟩
  · exact ⟨0x65, never hr byteGS hsg hdg, rfl⟩

end Segment

end Sys2Proof.Machine
end

section
/-! The legacy rows of T0 with a memory operand (spec/42_table_lookup.md R234 rows 1, 3 and 8): sizes, REX, opcode and the bytes of
the address. -/

namespace Sys2Proof.Machine

/-! ## A legacy row on a memory operand -/

/-- An operand-size sensitive legacy row whose REXW is that of 64-bit operands. -/
structure SizedRow (i : IformSpec) : Prop where
  legacy : i.space = .legacy
  wide : i.w = .weosz
  oszsens : i.oszsens = true

/-- A machine mode, an operand width and an address width that the mode has (R201). -/
structure Widths (m e ea : Nat) : Prop where
  operand : e = 16 ∨ e = 32 ∨ e = 64
  address : (m = 64 ∧ ea = 64) ∨ ((m = 16 ∨ m = 32 ∨ m = 64) ∧ ea = 32) ∨ ((m = 16 ∨ m = 32) ∧ ea = 16)

/-- A request with one memory operand, these widths, no branch and no far pointer. -/
structure MemoryRequest (q : Request) (m e ea : Nat) : Prop where
  mode : q.mode = m := by rfl
  eosz : q.eosz = e := by rfl
  easz : q.easz = ea := by rfl
  mem0 : q.mem0 = true := by rfl
  rep : q.rep = .none := by rfl
  relbr : q.relbr = false := by rfl
  brdispWidth : q.brdispWidth = 0 := by rfl
  ptr : q.ptr = false := by rfl
  imm : wholeWidth q.immWidth := by exact .inl rfl

/-- The derived bits before ENC_MEM: REXW, and the reg field with its extension bit. -/
def regBits (e : Nat) (number : BitVec 3) (extension : Bool) : Derived where
  hasModrm := true
  rexw := e == 64
  reg := number
  rexr := extension

section Memory

variable {s : State} {i : IformSpec} {q : Request} {m e ea n : Nat} {number : BitVec 3} {r x b : Bool} {pfx : Byte}
  {rows : List (Nat × IformSpec)}

theorem Widths.mode (h : Widths m e ea) : m = 16 ∨ m = 32 ∨ m = 64 := by
  have := h.address
  omega

theorem MemoryRequest.effectiveEosz (hq : MemoryRequest q m e ea) (h : Widths m e ea) : effectiveEosz q = e := by
  have := h.operand
  rw [Machine.effectiveEosz, hq.eosz, if_pos (by omega)]

theorem MemoryRequest.effectiveEasz (hq : MemoryRequest q m e ea) (h : Widths m e ea) : effectiveEasz q = ea := by
  have := h.address
  rw [Machine.effectiveEasz, hq.easz, if_pos (by omega)]

theorem MemoryRequest.aszBytes_eq (hq : MemoryRequest q m e ea) (h : Widths m e ea) :
    (if addressSizeBit q ea then [0x67] else []) = aszBytes m ea := by
  have := h.address
  simp only [addressSizeBit, hq.mem0, hq.mode, Bool.true_or, Bool.true_and, decide_eq_true_eq, aszBytes]
  by_cases hsame : m = ea
  · rw [if_pos hsame, if_neg (by omega)]
  · rw [if_neg hsame, if_pos (by omega)]

theorem MemoryRequest.not_noSuchWidth (hq : MemoryRequest q m e ea) (h : Widths m e ea) : ¬noSuchWidth q := by
  have := h.address
  rw [noSuchWidth, hq.effectiveEasz h, hq.mode]
  omega

theorem rexBytes_addressed {a : AddressBits} :
    rexPrefix (addressed (regBits e number r) a x b) = rexBytes (if e = 64 then 1 else 0) r.toNat x.toNat b.toNat := by
  rw [← toNat_beq_wide]
  exact rexPrefix_of_plain rfl

/-- The row on a request whose operands ENC_MEM finishes. -/
theorem encoded_memory {address bytes : List Byte} (hi : SizedRow i) (hs : s.encodable) (hbinds : RowBinds s rows n i q)
    (hq : MemoryRequest q m e ea) (hwidths : Widths m e ea) (hsegment : segmentPrefix s.params.registers q = .ok pfx)
    (hroles : applyRoles s.params .legacy 0 i.operands { q with derived := modrmBits i.modrm { rexw := e == 64 } } =
      encMem s.params .legacy ea { q with derived := regBits e number r })
    (haddress : AddressEncodes s.params .legacy { q with derived := regBits e number r } x b address)
    (hlegacyMode : m ≠ 64 → r = false ∧ x = false ∧ b = false ∧ e ≠ 64)
    (hbytes : (if pfx = 0 then [] else [pfx]) ++ (oszBytes m e ++ (aszBytes m ea
      ++ (rexBytes (if e = 64 then 1 else 0) r.toNat x.toNat b.toNat ++ ((if i.map = 1 then [0x0F] else [])
      ++ (i.opcode :: (address ++ immediateBytes q)))))) = bytes)
    (hroom : bytes.length ≤ s.capacity) (hlimit : bytes.length ≤ 15) : s.encoded s.capacity bytes (s.encodeRows rows) := by
  obtain ⟨a, v, w, hmem, hwhole, hadd⟩ := haddress
  have heasz : effectiveEasz { q with derived := regBits e number r } = ea := hq.effectiveEasz hwidths
  have hplaces : RowPlaces s.params i q (addressed (regBits e number r) a x b) v w pfx := by
    refine ⟨?_, hq.not_noSuchWidth hwidths, hsegment⟩
    rw [hi.legacy, hi.wide, hq.effectiveEosz hwidths]
    rw [heasz] at hmem
    exact hroles.trans hmem
  refine encoded_of_legacy hi.legacy hs hbinds hplaces ?mode (rexConflict_eq_false rfl) ?emits (Eq.trans ?bytes hbytes) hroom hlimit
  case mode =>
    rw [hq.mode]
    intro hm
    obtain ⟨rfl, rfl, rfl, he⟩ := hlegacyMode hm
    exact ⟨rfl, rfl, rfl, rfl, rfl, rfl, .inl (beq_eq_false_iff_ne.2 he)⟩
  case emits =>
    exact ⟨.inl hi.legacy, hwhole, .inl hq.brdispWidth, by simp [hq.relbr], hq.ptr, hq.imm⟩
  case bytes =>
    have hopcode : i.opcode ||| BitVec.zeroExtend 8 (0 : BitVec 3) = i.opcode := by simp
    subst hadd
    rw [legacyBytes, hq.effectiveEosz hwidths, hq.effectiveEasz hwidths, hi.oszsens, hq.mode, oszBytes_eq hwidths.mode,
      hq.aszBytes_eq hwidths, rexBytes_addressed, hq.rep]
    simp only [repBytes, List.nil_append]
    exact congrArg (fun o => _ ++ (oszBytes m e ++ (_ ++ (_ ++ (_ ++ (o :: _)))))) hopcode

end Memory

/-! ## The operands of the rows -/

/-- A memory operand of the widths `m`, `e`, `ea`. -/
def memoryOperand (m sm e ea : Nat) (base index : RegOrInvalid) (scale : Nat) (seg : RegOrInvalid) (v : Word64) (dw : Nat) :
    Request where
  mode := m
  smode := sm
  eosz := e
  easz := ea
  base0 := base
  index := index
  scale := scale
  seg0 := seg
  disp := v
  dispWidth := dw
  mem0 := true
  norder := 2

/-- A register, then the memory operand. -/
def registerMemory (q : Request) (iclass : Nat) (r : Reg) : Request :=
  { q with iclass := iclass, regs := { r0 := some r }, order := [.reg0, .mem0] }

/-- The memory operand, then an immediate of 8 bits. -/
def memoryImmediate (q : Request) (iclass : Nat) (v : Word64) : Request :=
  { q with iclass := iclass, imm0 := v, immWidth := 8, order := [.mem0, .imm0] }

/-- A row with a register in ModRM.reg and a memory operand. -/
structure RegMemRow (i : IformSpec) : Prop extends SizedRow i where
  modrm : i.modrm = .rr
  operands : i.operands = [(.regv, .modrmReg), (.mem, .mem)]

theorem regMemRow_rowAddGprvMemv : RegMemRow rowAddGprvMemv := ⟨⟨rfl, rfl, rfl⟩, rfl, rfl⟩

theorem regMemRow_rowMovzxGprvMemb : RegMemRow rowMovzxGprvMemb := ⟨⟨rfl, rfl, rfl⟩, rfl, rfl⟩

theorem sizedRow_rowAddMemvImmb : SizedRow rowAddMemvImmb := ⟨rfl, rfl, rfl⟩

section Operands

variable {s : State} {i : IformSpec} {q : Request} {m sm e ea r n : Nat} {rc : RegClass}

theorem shapeMatches_registerMemory {iclass : Nat} (hi : RegMemRow i) (hclass : widthClass e rc) (hr : r < 16) :
    shapeMatches i.space e (registerMemory q iclass ⟨rc, r⟩) 0 i.operands = true := by
  rw [hi.operands]
  exact Bool.and_eq_true_iff.2 ⟨patternMatches_regv rfl hclass hr, rfl⟩

theorem applyRoles_registerMemory {p : Params} {iclass : Nat} (hi : RegMemRow i) (hclass : widthClass e rc) (hr : r < 16)
    (heasz : effectiveEasz (registerMemory q iclass ⟨rc, r⟩) = ea) :
    applyRoles p .legacy 0 i.operands
        { registerMemory q iclass ⟨rc, r⟩ with derived := modrmBits i.modrm { rexw := e == 64 } } =
      encMem p .legacy ea { registerMemory q iclass ⟨rc, r⟩ with derived := regBits e (low3 r) (bit3 r) } := by
  have hplace := fieldOff_of_widthClass hclass r
  have hbits : noteByteRegister ⟨rc, r⟩ (regBits e (low3 r) (bit3 r)) = regBits e (low3 r) (bit3 r) := by
    obtain ⟨-, rfl⟩ | ⟨-, rfl⟩ | ⟨-, rfl⟩ := hclass <;> rfl
  have hregister := applyRole_modrmReg (p := p) (space := .legacy) (n := .reg0) (r := ⟨rc, r⟩)
    (rq := { registerMemory q iclass ⟨rc, r⟩ with derived := modrmBits .rr { rexw := e == 64 } }) rfl
    (placeable_of_lt (hplace.trans_lt hr))
  rw [hplace] at hregister
  rw [hi.operands, hi.modrm, ← heasz, ← hbits]
  exact applyRoles_cons hregister (bind_pure _)

end Operands

end Sys2Proof.Machine
end

section
/-! A register and a memory operand, and a memory operand and an immediate, through the legacy rows (spec/42_table_lookup.md R234
rows 1, 3 and 8): base alone, base and index, the 16-bit pair BX + SI, and RIP. -/

namespace Sys2Proof.Machine

/-! ## Lengths -/

theorem aszBytes_length_le (m ea : Nat) : (aszBytes m ea).length ≤ 1 := by
  unfold aszBytes
  split_ifs <;> simp

theorem dispBytes_length_le (n dw : Nat) (v : Word64) : (dispBytes n dw v).length ≤ 4 := by
  unfold dispBytes
  split_ifs <;> simp

theorem baseDispBytes_length_le (reg n dw : Nat) (v : Word64) : (baseDispBytes reg n dw v).length ≤ 6 := by
  have hdisp := dispBytes_length_le n dw v
  unfold baseDispBytes
  split_ifs <;> simp <;> omega

theorem indexedBytes_length_le (reg n x : Nat) (code : BitVec 2) (dw : Nat) (v : Word64) :
    (indexedBytes reg n x code dw v).length ≤ 6 := by
  have hdisp := dispBytes_length_le n dw v
  simp [indexedBytes]
  omega

/-- The bytes before the opcode of a legacy memory row with an override byte or none. -/
theorem sizeBytes_length_le (pfx : Byte) (m e ea w r x b : Nat) (rest : List Byte) :
    ((if pfx = 0 then [] else [pfx]) ++ (oszBytes m e ++ (aszBytes m ea ++ (rexBytes w r x b ++ rest)))).length ≤
      4 + rest.length := by
  have hasz := aszBytes_length_le m ea
  simp only [List.length_append, oszBytes_length, rexBytes_length]
  split_ifs <;> simp <;> omega

/-! ## A register and a memory operand -/

theorem toNat_decide_extension {n : Nat} (h : n < 16) : (decide (8 ≤ n)).toNat = n / 8 := by
  rw [← toNat_bit3 h, bit3_of_lt h]


section RegisterMemory

variable {s : State} {i : IformSpec} {m sm e ea r n k : Nat} {rc ac : RegClass} {base index seg : RegOrInvalid} {scale dw : Nat}
  {v imm : Word64} {address bytes override : List Byte} {x b : Bool} {pfx : Byte}

theorem Widths.eosz (h : Widths m e ea) : e = 0 ∨ e = 16 ∨ e = 32 ∨ e = 64 := .inr h.operand

theorem widest_registerMemory {q : Request} {iclass : Nat} (hclass : widthClass e rc) (hindex : regLength q.index = 0) :
    widest (scannedRegs (registerMemory q iclass ⟨rc, r⟩)) = 0 := by
  have hreg : regLength (some ⟨rc, r⟩) = 0 := by obtain ⟨-, rfl⟩ | ⟨-, rfl⟩ | ⟨-, rfl⟩ := hclass <;> rfl
  simp [scannedRegs, registerMemory, widest, hreg, hindex]
  rfl

theorem rowBinds_registerMemory (hi : RegMemRow i) (hfixture : fixtureRows[k]? = some i) (hwidths : Widths m e ea)
    (hclass : widthClass e rc) (hr : r < 16) (hbase : base ≠ some s.params.registers.regRIP) (hindex : regLength index = 0)
    (hrq : s.rq = registerMemory (memoryOperand m sm e ea base index scale seg v dw) i.iclass ⟨rc, r⟩) :
    RowBinds s [(k, i)] k i (registerMemory (memoryOperand m sm e ea base index scale seg v dw) i.iclass ⟨rc, r⟩) := by
  refine rowBinds_of_shape hrq hwidths.mode hwidths.eosz hbase (widest_registerMemory hclass hindex) ?shape hfixture
    (hcount := by rw [hi.operands]; rfl)
  case shape =>
    rw [effectiveEosz_of_widthClass hclass rfl]
    exact shapeMatches_registerMemory hi hclass hr

/-- A register and a memory operand that ENC_MEM places. -/
theorem encoded_registerMemory (hi : RegMemRow i) (hs : s.encodable)
    (hbinds : RowBinds s [(k, i)] k i (registerMemory (memoryOperand m sm e ea base index scale seg v dw) i.iclass ⟨rc, r⟩))
    (hwidths : Widths m e ea) (hclass : widthClass e rc) (hr : r < 16)
    (hsegment : segmentPrefix s.params.registers (memoryOperand m sm e ea base index scale seg v dw) = .ok pfx)
    (haddress : AddressEncodes s.params .legacy { registerMemory (memoryOperand m sm e ea base index scale seg v dw) i.iclass
      ⟨rc, r⟩ with derived := regBits e (low3 r) (bit3 r) } x b address)
    (hmode : m ≠ 64 → r < 8 ∧ x = false ∧ b = false ∧ e ≠ 64)
    (hbytes : (if pfx = 0 then [] else [pfx]) ++ (oszBytes m e ++ (aszBytes m ea
      ++ (rexBytes (if e = 64 then 1 else 0) (r / 8) x.toNat b.toNat ++ ((if i.map = 1 then [0x0F] else [])
      ++ (i.opcode :: address))))) = bytes)
    (hroom : bytes.length ≤ s.capacity) (hlimit : bytes.length ≤ 15) : s.encoded s.capacity bytes (s.encodeRows [(k, i)]) := by
  have hq : MemoryRequest (registerMemory (memoryOperand m sm e ea base index scale seg v dw) i.iclass ⟨rc, r⟩) m e ea := {}
  refine encoded_memory hi.toSizedRow hs hbinds hq hwidths hsegment
    (applyRoles_registerMemory hi hclass hr (hq.effectiveEasz hwidths)) haddress ?mode (Eq.trans ?bytes hbytes) hroom hlimit
  case mode =>
    intro hm
    obtain ⟨hlow, hrest⟩ := hmode hm
    exact ⟨by rw [bit3_of_lt hr, decide_eq_false_iff_not, Nat.not_le]; exact hlow, hrest⟩
  case bytes =>
    have himmediate :
        immediateBytes (registerMemory (memoryOperand m sm e ea base index scale seg v dw) i.iclass ⟨rc, r⟩) = [] := by
      simp [immediateBytes, registerMemory, memoryOperand]
    rw [himmediate, List.append_nil, toNat_bit3 hr]



/-- A base register of the address width, and a width of displacement for it (R187, R191, R192). -/
structure LoneBase (ea n dw : Nat) (ac : RegClass) : Prop where
  addressed : addressedBy ea ac
  number : n < 16
  disp : dw = 0 ∨ dw = 8 ∨ dw = 32

theorem LoneBase.ne_regRIP {g : RegSpace} (h : LoneBase ea n dw ac) : some (⟨ac, n⟩ : Reg) ≠ some g.regRIP := by
  refine mt Option.some.inj (ne_regRIP_of_cls ?_)
  obtain ⟨-, rfl⟩ | ⟨-, rfl⟩ := h.addressed <;> nofun

/-- A base alone, a register in ModRM.reg. -/
theorem encoded_registerMemory_lone_base (hi : RegMemRow i) (hs : s.encodable) (hfixture : fixtureRows[k]? = some i)
    (hnames : s.params.registers.namesDistinct = true) (hwidths : Widths m e ea) (hbase : LoneBase ea n dw ac)
    (hclass : widthClass e rc) (hr : r < 16) (hmode : m ≠ 64 → r < 8 ∧ n < 8 ∧ e ≠ 64)
    (hoverride : overrideBytes s.params.registers (n = 4 ∨ n = 5) seg override)
    (hrq : s.rq = registerMemory (memoryOperand m sm e ea (some ⟨ac, n⟩) none 0 seg v dw) i.iclass ⟨rc, r⟩)
    (hcapacity : 12 ≤ s.capacity) :
    s.encoded s.capacity (override ++ (oszBytes m e ++ (aszBytes m ea ++ (rexBytes (if e = 64 then 1 else 0) (r / 8) 0 (n / 8)
      ++ ((if i.map = 1 then [0x0F] else []) ++ (i.opcode :: baseDispBytes r n dw v)))))) (s.encodeRows [(k, i)]) := by
  have hbinds := rowBinds_registerMemory hi hfixture hwidths hclass hr hbase.ne_regRIP rfl hrq
  obtain ⟨haddr, hn, hw⟩ := hbase
  obtain ⟨byte, hsegment, rfl⟩ := segmentPrefix_of_overrideBytes hnames haddr hn
    (q := memoryOperand m sm e ea (some ⟨ac, n⟩) none 0 seg v dw) rfl rfl hoverride
  have haddress := addressEncodes_lone_base (p := s.params) (space := .legacy)
    (rq := { registerMemory (memoryOperand m sm e ea (some ⟨ac, n⟩) none 0 seg v dw) i.iclass ⟨rc, r⟩ with
      derived := regBits e (low3 r) (bit3 r) }) haddr (MemoryRequest.effectiveEasz (m := m) (e := e) {} hwidths) hn rfl rfl
    (Nat.zero_le 1) rfl hw
  have hnumber : baseDispBytes (low3 r).toNat n dw v = baseDispBytes r n dw v := by simp [baseDispBytes]
  have hlength := sizeBytes_length_le byte m e ea (if e = 64 then 1 else 0) (r / 8) 0 (n / 8)
    ((if i.map = 1 then [0x0F] else []) ++ (i.opcode :: baseDispBytes r n dw v))
  have haddressLength := baseDispBytes_length_le r n dw v
  have hrest : ((if i.map = 1 then [0x0F] else []) ++ (i.opcode :: baseDispBytes r n dw v)).length ≤ 8 := by
    split_ifs <;> simp <;> omega
  refine encoded_registerMemory hi hs hbinds hwidths hclass hr hsegment haddress (fun hm => ?mode) ?bytes (by omega) (by omega)
  case mode =>
    obtain ⟨hr8, hn8, he⟩ := hmode hm
    exact ⟨hr8, rfl, decide_eq_false (by omega), he⟩
  case bytes =>
    rw [← hnumber, toNat_decide_extension hn]
    rfl

theorem applyRoles_rowAddMemvImmb {p : Params} {q : Request} (heasz : effectiveEasz q = ea) :
    applyRoles p .legacy 0 rowAddMemvImmb.operands q = encMem p .legacy ea q := by
  subst heasz
  exact bind_pure (m := Except Stop) (encMem p .legacy (effectiveEasz q) q)

/-- A base alone, with an immediate byte. -/
theorem encoded_memoryImmediate_lone_base (hs : s.encodable) (hnames : s.params.registers.namesDistinct = true)
    (hwidths : Widths m e ea) (hbase : LoneBase ea n dw ac) (hmode : m ≠ 64 → n < 8 ∧ e ≠ 64)
    (hoverride : overrideBytes s.params.registers (n = 4 ∨ n = 5) seg override)
    (hrq : s.rq = memoryImmediate (memoryOperand m sm e ea (some ⟨ac, n⟩) none 0 seg v dw) iclassADD imm)
    (hcapacity : 12 ≤ s.capacity) :
    s.encoded s.capacity (override ++ (oszBytes m e ++ (aszBytes m ea ++ (rexBytes (if e = 64 then 1 else 0) 0 0 (n / 8)
      ++ (0x83 :: (baseDispBytes 0 n dw v ++ [imm.extractLsb' 0 8])))))) (exec .addMemvImmb s) := by
  have hq : MemoryRequest (memoryImmediate (memoryOperand m sm e ea (some ⟨ac, n⟩) none 0 seg v dw) iclassADD imm) m e ea :=
    { imm := .inr (.inl rfl) }
  have hbinds : RowBinds s [(2, rowAddMemvImmb)] 2 rowAddMemvImmb
      (memoryImmediate (memoryOperand m sm e ea (some ⟨ac, n⟩) none 0 seg v dw) iclassADD imm) :=
    rowBinds_of_shape hrq hwidths.mode hwidths.eosz hbase.ne_regRIP rfl rfl
  obtain ⟨haddr, hn, hw⟩ := hbase
  obtain ⟨byte, hsegment, rfl⟩ := segmentPrefix_of_overrideBytes hnames haddr hn
    (q := memoryOperand m sm e ea (some ⟨ac, n⟩) none 0 seg v dw) rfl rfl hoverride
  have haddress := addressEncodes_lone_base (p := s.params) (space := .legacy)
    (rq := { memoryImmediate (memoryOperand m sm e ea (some ⟨ac, n⟩) none 0 seg v dw) iclassADD imm with
      derived := regBits e 0 false }) haddr (hq.effectiveEasz hwidths) hn rfl rfl (Nat.zero_le 1) rfl hw
  have hroles : applyRoles s.params .legacy 0 rowAddMemvImmb.operands
      { memoryImmediate (memoryOperand m sm e ea (some ⟨ac, n⟩) none 0 seg v dw) iclassADD imm with
        derived := modrmBits rowAddMemvImmb.modrm { rexw := e == 64 } } =
      encMem s.params .legacy ea { memoryImmediate (memoryOperand m sm e ea (some ⟨ac, n⟩) none 0 seg v dw) iclassADD imm with
        derived := regBits e 0 false } := applyRoles_rowAddMemvImmb (hq.effectiveEasz hwidths)
  have himmediate : immediateBytes (memoryImmediate (memoryOperand m sm e ea (some ⟨ac, n⟩) none 0 seg v dw) iclassADD imm) =
      [imm.extractLsb' 0 8] := by
    simp [immediateBytes, memoryImmediate, memoryOperand]
  have hlength := sizeBytes_length_le byte m e ea (if e = 64 then 1 else 0) 0 0 (n / 8)
    (0x83 :: (baseDispBytes 0 n dw v ++ [imm.extractLsb' 0 8]))
  have hrest : (0x83 :: (baseDispBytes 0 n dw v ++ [imm.extractLsb' 0 8])).length ≤ 8 := by
    have := baseDispBytes_length_le 0 n dw v
    simp
    omega
  refine encoded_memory sizedRow_rowAddMemvImmb hs hbinds hq hwidths hsegment hroles haddress (fun hm => ?mode) ?bytes (by omega)
    (by omega)
  case mode =>
    obtain ⟨hn8, he⟩ := hmode hm
    exact ⟨rfl, rfl, decide_eq_false (by omega), he⟩
  case bytes =>
    rw [himmediate, toNat_decide_extension hn]
    rfl

/-- A base and a scaled index, a register in ModRM.reg. -/
theorem encoded_registerMemory_indexed {y : Nat} {code : BitVec 2} (hi : RegMemRow i) (hs : s.encodable)
    (hfixture : fixtureRows[k]? = some i) (hmap : i.map = 0) (hwidths : Widths m e ea) (hbase : LoneBase ea n dw ac)
    (hclass : widthClass e rc) (hr : r < 16) (hy : y < 16) (hlegal : y ∉ s.params.indexIllegal) (hscale : scaleOf scale code)
    (hmode : m ≠ 64 → r < 8 ∧ n < 8 ∧ y < 8 ∧ e ≠ 64)
    (hrq : s.rq = registerMemory (memoryOperand m sm e ea (some ⟨ac, n⟩) (some ⟨ac, y⟩) scale none v dw) i.iclass ⟨rc, r⟩)
    (hcapacity : 11 ≤ s.capacity) :
    s.encoded s.capacity (oszBytes m e ++ (aszBytes m ea ++ (rexBytes (if e = 64 then 1 else 0) (r / 8) (y / 8) (n / 8)
      ++ (i.opcode :: indexedBytes r n y code dw v)))) (s.encodeRows [(k, i)]) := by
  have hindex : regLength (some ⟨ac, y⟩) = 0 := by obtain ⟨-, rfl⟩ | ⟨-, rfl⟩ := hbase.addressed <;> rfl
  have hbinds := rowBinds_registerMemory hi hfixture hwidths hclass hr hbase.ne_regRIP hindex hrq
  obtain ⟨haddr, hn, hw⟩ := hbase
  have haddress := addressEncodes_indexed (p := s.params) (space := .legacy)
    (rq := { registerMemory (memoryOperand m sm e ea (some ⟨ac, n⟩) (some ⟨ac, y⟩) scale none v dw) i.iclass ⟨rc, r⟩ with
      derived := regBits e (low3 r) (bit3 r) }) haddr (MemoryRequest.effectiveEasz (m := m) (e := e) {} hwidths) hn hy hlegal
    hscale rfl rfl rfl hw
  have hnumber : indexedBytes (low3 r).toNat n y code dw v = indexedBytes r n y code dw v := by simp [indexedBytes]
  have hlength := sizeBytes_length_le 0 m e ea (if e = 64 then 1 else 0) (r / 8) (y / 8) (n / 8)
    (i.opcode :: indexedBytes r n y code dw v)
  have haddressLength := indexedBytes_length_le r n y code dw v
  rw [if_pos rfl, List.nil_append, List.length_cons] at hlength
  refine encoded_registerMemory hi hs hbinds hwidths hclass hr rfl haddress (fun hm => ?mode) ?bytes (by omega) (by omega)
  case mode =>
    obtain ⟨hr8, hn8, hy8, he⟩ := hmode hm
    exact ⟨hr8, decide_eq_false (by omega), decide_eq_false (by omega), he⟩
  case bytes =>
    rw [← hnumber, toNat_decide_extension hy, toNat_decide_extension hn, hmap]
    rfl

/-- BX + SI under 16-bit addressing, a register in ModRM.reg. -/
theorem encoded_registerMemory_bx_si (hi : RegMemRow i) (hs : s.encodable) (hfixture : fixtureRows[k]? = some i)
    (hmap : i.map = 0) (hnames : s.params.registers.namesDistinct = true) (hm : m = 16 ∨ m = 32) (hclass : widthClass m rc)
    (hr : r < 8) (hw : dw = 0 ∨ dw = 8 ∨ dw = 16)
    (hrq : s.rq = registerMemory (memoryOperand m sm m 16 (some s.params.registers.regBX) (some s.params.registers.regSI) 1 none
      v dw) i.iclass ⟨rc, r⟩) (hcapacity : 5 ≤ s.capacity) :
    s.encoded s.capacity (aszBytes m 16 ++ (i.opcode :: BitVec.ofNat 8 (64 * (dw / 8) + 8 * r) :: littleEndian (dw / 8) v))
      (s.encodeRows [(k, i)]) := by
  have hwidths : Widths m m 16 := ⟨by omega, .inr (.inr ⟨hm, rfl⟩)⟩
  have hr16 : r < 16 := by omega
  have hbase : some s.params.registers.regBX ≠ some s.params.registers.regRIP :=
    mt Option.some.inj (ne_regRIP_of_cls (by nofun))
  have hbinds := rowBinds_registerMemory hi hfixture hwidths hclass hr16 hbase rfl hrq
  have haddress := addressEncodes_bx_si (p := s.params) (space := .legacy)
    (rq := { registerMemory (memoryOperand m sm m 16 (some s.params.registers.regBX) (some s.params.registers.regSI) 1 none v dw)
      i.iclass ⟨rc, r⟩ with derived := regBits m (low3 r) (bit3 r) }) hnames rfl rfl rfl (le_refl 1) rfl hw
  have hnumber : (low3 r).toNat = r := by rw [toNat_low3, Nat.mod_eq_of_lt hr]
  have hbit : r / 8 = 0 := Nat.div_eq_of_lt hr
  have hosz : oszBytes m m = [] := if_neg (by omega)
  have hrex : rexBytes (if m = 64 then 1 else 0) (r / 8) 0 0 = [] := by
    rw [hbit, if_neg (by omega)]
    rfl
  have hasz := aszBytes_length_le m 16
  have hdisp : (littleEndian (dw / 8) v).length ≤ 2 := by obtain rfl | rfl | rfl := hw <;> simp
  have hlength :
      (aszBytes m 16 ++ (i.opcode :: BitVec.ofNat 8 (64 * (dw / 8) + 8 * r) :: littleEndian (dw / 8) v)).length ≤ 5 := by
    simp
    omega
  refine encoded_registerMemory hi hs hbinds hwidths hclass hr16 rfl haddress (fun hm => ?mode) ?bytes (by omega) (by omega)
  case mode => exact ⟨hr, rfl, rfl, by omega⟩
  case bytes =>
    rw [hosz, hmap]
    change [] ++ ([] ++ (aszBytes m 16 ++ (rexBytes (if m = 64 then 1 else 0) (r / 8) 0 0 ++ ([] ++ i.opcode ::
      BitVec.ofNat 8 (64 * (dw / 8) + 8 * (low3 r).toNat) :: littleEndian (dw / 8) v)))) = _
    rw [hrex, hnumber]
    rfl

/-- A RIP base takes a displacement of 32 bits, zero where none was supplied (R252). -/
theorem precondition_of_rip {g : RegSpace} {q : Request} (hbase : q.base0 = some g.regRIP) (hvl : q.vl = 0)
    (hregs : widest (scannedRegs q) = 0) :
    precondition g q = { q with vl := 0, dispWidth := 32, disp := if q.dispWidth = 0 then 0 else q.disp } := by
  rw [precondition, normaliseRip_of_rip hbase, inferLength, if_pos hvl]
  exact congrArg (fun l => { q with vl := l, dispWidth := 32, disp := if q.dispWidth = 0 then 0 else q.disp }) hregs

/-- RIP in 64-bit mode, a register in ModRM.reg: the displacement has 32 bits, zero where none was supplied (R184, R252). -/
theorem encoded_registerMemory_rip (hi : RegMemRow i) (hs : s.encodable) (hfixture : fixtureRows[k]? = some i)
    (hmap : i.map = 0) (hclass : widthClass e rc) (hr : r < 16)
    (hrq : s.rq = registerMemory (memoryOperand 64 sm e 64 (some s.params.registers.regRIP) none 0 none v dw) i.iclass ⟨rc, r⟩)
    (hcapacity : 8 ≤ s.capacity) :
    s.encoded s.capacity (oszBytes 64 e ++ (rexBytes (if e = 64 then 1 else 0) (r / 8) 0 0
      ++ (i.opcode :: BitVec.ofNat 8 (8 * (r % 8) + 5) :: littleEndian 4 (if dw = 0 then 0 else v)))) (s.encodeRows [(k, i)]) := by
  have hwidths : Widths 64 e 64 := ⟨hclass.imp And.left (Or.imp And.left And.left), .inl ⟨rfl, rfl⟩⟩
  have hentered : precondition s.params.registers { s.rq with error := .noError } =
      registerMemory (memoryOperand 64 sm e 64 (some s.params.registers.regRIP) none 0 none (if dw = 0 then 0 else v) 32) i.iclass
        ⟨rc, r⟩ := by
    rw [hrq]
    exact precondition_of_rip rfl rfl (widest_registerMemory hclass rfl)
  have hbinds : RowBinds s [(k, i)] k i (registerMemory (memoryOperand 64 sm e 64 (some s.params.registers.regRIP) none 0 none
      (if dw = 0 then 0 else v) 32) i.iclass ⟨rc, r⟩) := by
    refine rowBinds_of_entered hentered hwidths.mode hwidths.eosz ?shape hfixture (hcount := by rw [hi.operands]; rfl)
    case shape =>
      rw [effectiveEosz_of_widthClass hclass rfl]
      exact shapeMatches_registerMemory hi hclass hr
  have haddress := addressEncodes_rip (p := s.params) (space := .legacy)
    (rq := { registerMemory (memoryOperand 64 sm e 64 (some s.params.registers.regRIP) none 0 none (if dw = 0 then 0 else v) 32)
      i.iclass ⟨rc, r⟩ with derived := regBits e (low3 r) (bit3 r) }) rfl rfl rfl rfl rfl rfl
  have hlength : (oszBytes 64 e ++ (rexBytes (if e = 64 then 1 else 0) (r / 8) 0 0
      ++ (i.opcode :: BitVec.ofNat 8 (8 * (r % 8) + 5) :: littleEndian 4 (if dw = 0 then 0 else v)))).length ≤ 8 := by
    simp only [List.length_append, List.length_cons, oszBytes_length, rexBytes_length, littleEndian_four, List.length_nil]
    split_ifs <;> omega
  refine encoded_registerMemory hi hs hbinds hwidths hclass hr rfl haddress (fun hm => absurd rfl hm) ?bytes (by omega) (by omega)
  case bytes =>
    rw [hmap]
    change [] ++ (oszBytes 64 e ++ ([] ++ (rexBytes (if e = 64 then 1 else 0) (r / 8) 0 0 ++ ([] ++ i.opcode ::
      BitVec.ofNat 8 (8 * (low3 r).toNat + 5) :: littleEndian 4 (if dw = 0 then 0 else v))))) = _
    rw [toNat_low3]
    rfl

end RegisterMemory

end Sys2Proof.Machine

namespace Sys2Proof

open Machine

/-- Settles O45: row 1 with each kind of address, rows 3 and 8 with a base alone. -/
theorem memoryIformsEncode : Obligations.MemoryIformsEncode := by
  intro s sm g hs hg hnames
  subst hg
  refine ⟨?base, ?bxSi, ?indexed, ?rip⟩
  case base =>
    intro m ea e r n dw ac rc seg override v imm q hcapacity hea haddr hclass hr hn hmode hw hoverride hq
    subst hq
    have hwidths : Widths m e ea := ⟨hclass.imp And.left (Or.imp And.left And.left), hea.imp_right .inl⟩
    have hbase : LoneBase ea n dw ac := ⟨haddr, hn, hw⟩
    refine ⟨fun hrq => ?add, fun hrq => ?movzx, fun hrq => ?immediate⟩
    case add =>
      exact encoded_registerMemory_lone_base (i := rowAddGprvMemv) (k := 0) regMemRow_rowAddGprvMemv hs rfl
        hnames hwidths hbase hclass hr hmode hoverride hrq hcapacity
    case movzx =>
      exact encoded_registerMemory_lone_base (i := rowMovzxGprvMemb) (k := 7) regMemRow_rowMovzxGprvMemb hs rfl
        hnames hwidths hbase hclass hr hmode hoverride hrq hcapacity
    case immediate =>
      exact encoded_memoryImmediate_lone_base hs hnames hwidths hbase (fun hm => (hmode hm).2) hoverride hrq hcapacity
  case bxSi =>
    intro m r dw v hcapacity hm hr hw hrq
    have hclass : widthClass m (if m = 16 then .gpr16 else .gpr32) := by
      obtain rfl | rfl := hm
      · exact .inl ⟨rfl, rfl⟩
      · exact .inr (.inl ⟨rfl, rfl⟩)
    have hdisp : littleEndian (dw / 8) v =
        if dw = 0 then [] else if dw = 8 then [v.extractLsb' 0 8] else [v.extractLsb' 0 8, v.extractLsb' 8 8] := by
      obtain rfl | rfl | rfl := hw <;> rfl
    rw [← hdisp]
    exact encoded_registerMemory_bx_si (i := rowAddGprvMemv) (k := 0) regMemRow_rowAddGprvMemv hs rfl rfl
      hnames hm hclass hr hw hrq hcapacity
  case indexed =>
    intro m ea e r n y scale dw code ac rc v hcapacity hea haddr hclass hr hn hy hmode hlegal hscale hw hrq
    have hwidths : Widths m e ea := ⟨hclass.imp And.left (Or.imp And.left And.left), hea.imp_right .inl⟩
    exact encoded_registerMemory_indexed (i := rowAddGprvMemv) (k := 0) regMemRow_rowAddGprvMemv hs rfl rfl hwidths
      ⟨haddr, hn, hw⟩ hclass hr hy hlegal hscale hmode hrq hcapacity
  case rip =>
    intro e r dw rc v hcapacity hclass hr _ hrq
    have hdisp : littleEndian 4 (if dw = 0 then 0 else v) = if dw = 0 then [0, 0, 0, 0]
        else [v.extractLsb' 0 8, v.extractLsb' 8 8, v.extractLsb' 16 8, v.extractLsb' 24 8] := by
      split_ifs <;> rfl
    rw [← hdisp]
    exact encoded_registerMemory_rip (i := rowAddGprvMemv) (k := 0) regMemRow_rowAddGprvMemv hs rfl rfl hclass hr hrq hcapacity

end Sys2Proof
end

section
/-! The rows of T0 in VEX space (spec/42_table_lookup.md R234 rows 9 and 10; spec/43_encode_dispatch.md R253, R263;
spec/41_field_encoders.md R198): the bytes of the two forms, and the row on three registers or on two registers and memory. -/

namespace Sys2Proof.Machine

/-! ## The bytes of the VEX and EVEX fields (R106 to R108, R198) -/

section Fields

theorem byte_of_1412 (w : BitVec 1) (v : BitVec 4) (l : BitVec 1) (p : BitVec 2) :
    w ++ v ++ l ++ p = BitVec.ofNat 8 (128 * w.toNat + 8 * v.toNat + 4 * l.toNat + p.toNat) := by
  refine ((((FieldsOf.one w).snoc v).snoc l).snoc p).byte_eq.trans (congrArg _ ?_)
  simp [joinFields]
  omega

theorem byte_of_1115 (r x b : BitVec 1) (m : BitVec 5) :
    r ++ x ++ b ++ m = BitVec.ofNat 8 (128 * r.toNat + 64 * x.toNat + 32 * b.toNat + m.toNat) := by
  refine ((((FieldsOf.one r).snoc x).snoc b).snoc m).byte_eq.trans (congrArg _ ?_)
  simp [joinFields]
  omega

@[simp] theorem toNat_bitOf (b : Bool) : (bitOf b).toNat = b.toNat := BitVec.toNat_ofBool b

@[simp] theorem toNat_bitNot (b : Bool) : (bitNot b).toNat = 1 - b.toNat := by cases b <;> rfl

theorem toNat_not_vvvv (n : Nat) : (~~~BitVec.ofNat 4 n).toNat = 15 - n % 16 := by simp

end Fields

/-! ## A vector row (R257) -/

/-- A request of 64-bit mode for a row in VEX or EVEX space: no immediates, no REP, the default segment. -/
structure VectorRequest (q : Request) : Prop where
  mode : q.mode = 64 := by rfl
  easz : q.easz = 0 := by rfl
  rep : q.rep = .none := by rfl
  relbr : q.relbr = false := by rfl
  brdispWidth : q.brdispWidth = 0 := by rfl
  ptr : q.ptr = false := by rfl
  immWidth : q.immWidth = 0 := by rfl
  imm1Present : q.imm1Present = false := by rfl
  segment (g : RegSpace) : segmentPrefix g q = .ok 0 := by exact fun _ => rfl

/-- A row in VEX or EVEX space: the bytes of its space, opcode and address. -/
theorem encoded_of_vector {s : State} {i : IformSpec} {q : Request} {d : Derived} {v : Word64} {w n : Nat}
    {rows : List (Nat × IformSpec)} {extension bytes : List Byte} (hspace : i.space ≠ .legacy) (hs : s.encodable)
    (hbinds : RowBinds s rows n i q) (hq : VectorRequest q)
    (hroles : applyRoles s.params i.space 0 i.operands
        { q with derived := modrmBits i.modrm { rexw := wBit i.w (effectiveEosz q) } } =
      .ok { q with disp := v, dispWidth := w, derived := d })
    (hlow : d.opcodeLow3 = 0) (hw : wholeWidth w)
    (hextension : EmitsBytes (extensionStep i (placedRequest i q d v w 0)) extension)
    (hbytes : extension ++ (i.opcode :: addressBytes { q with disp := v, dispWidth := w, derived := d }) = bytes)
    (hroom : bytes.length ≤ s.capacity) (hlimit : bytes.length ≤ 15) : s.encoded s.capacity bytes (s.encodeRows rows) := by
  have hplaces : RowPlaces s.params i q d v w 0 := ⟨hroles, not_noSuchWidth_of_default hq.easz, hq.segment _⟩
  refine encoded_of_places hs hbinds hplaces (fun hm => absurd hq.mode hm) ?conflict ?emits hextension ?bytes hroom hlimit
  case conflict => simp [rexConflict, hspace]
  case emits => exact ⟨.inr hq.rep, hw, .inl hq.brdispWidth, by simp [hq.relbr], hq.ptr, .inl hq.immWidth⟩
  case bytes =>
    have himmediate : immediateBytes (placedRequest i q d v w 0) = [] := by
      simp [immediateBytes, placedRequest, hq.relbr, hq.immWidth, hq.imm1Present]
    have hasz : (placedRequest i q d v w 0).derived.asz = false := addressSizeBit_of_default hq.easz
    have hopcode : i.opcode ||| BitVec.zeroExtend 8 d.opcodeLow3 = i.opcode := by simp [hlow]
    have hescape : escapeBytes i = [] := if_neg fun h => hspace h.1
    rw [encodingBytes, himmediate, hasz, hescape, if_neg fun h : i.space = .legacy ∧ _ => hspace h.1]
    change [] ++ (repBytes q.rep ++ ([] ++ ([] ++ (extension ++ ([] ++ ((i.opcode ||| BitVec.zeroExtend 8 d.opcodeLow3) ::
      (addressBytes { q with disp := v, dispWidth := w, derived := d } ++ []))))))) = bytes
    rw [hq.rep, hopcode, List.append_nil]
    exact hbytes

/-! ## The two forms of VEX (R263) -/

/-- The VEX bytes of a row of map 1 without mandatory byte, REXW or index: two bytes where the last register needs no
extension bit. -/
def vexExtension (a b c l : Nat) : List Byte :=
  if c < 8 then [0xC5, BitVec.ofNat 8 (128 * (1 - a / 8) + 8 * (15 - b) + 4 * l)]
  else [0xC4, BitVec.ofNat 8 (128 * (1 - a / 8) + 64 + 1), BitVec.ofNat 8 (8 * (15 - b) + 4 * l)]

theorem vexExtension_length_le (a b c l : Nat) : (vexExtension a b c l).length ≤ 3 := by
  unfold vexExtension
  split_ifs <;> simp

/-- The derived bits of the first two registers (R173, R175). -/
def vexBits (a b : Nat) : Derived where
  hasModrm := true
  reg := low3 a
  rexr := bit3 a
  vvvv := BitVec.ofNat 4 b

/-- A VADDPS row in VEX space. -/
structure VexRow (i : IformSpec) : Prop where
  space : i.space = .vex
  map : i.map = 1
  pp : i.pp = .none
  narrow : i.w = .w0
  modrm : i.modrm = .rr
  opcode : i.opcode = 0x58

theorem vexRow_rowVaddpsVexRrr : VexRow rowVaddpsVexRrr := ⟨rfl, rfl, rfl, rfl, rfl, rfl⟩

theorem vexRow_rowVaddpsVexRrm : VexRow rowVaddpsVexRrm := ⟨rfl, rfl, rfl, rfl, rfl, rfl⟩

section Vex

variable {s : State} {i : IformSpec} {q : Request} {d : Derived} {a b c l k w : Nat} {bits : AddressBits} {v : Word64}
  {address : List Byte}

theorem emits_vexStep (hi : VexRow i) (ha : a < 16) (hb : b < 16) (hc : c < 16) (hl : l = 0 ∨ l = 1) (hvl : q.vl = l)
    (hw : q.derived.rexw = false) (hr : q.derived.rexr = bit3 a) (hx : q.derived.rexx = false)
    (hext : q.derived.rexb = decide (8 ≤ c)) (hv : q.derived.vvvv = BitVec.ofNat 4 b) :
    EmitsBytes (vexStep i q) (vexExtension a b c l) := by
  have hlength : (BitVec.ofNat 1 l).toNat = l := by obtain rfl | rfl := hl <;> rfl
  have hvvvv : (~~~BitVec.ofNat 4 b).toNat = 15 - b := by rw [toNat_not_vvvv, Nat.mod_eq_of_lt hb]
  have hreg : (bitNot (bit3 a)).toNat = 1 - a / 8 := by rw [toNat_bitNot, toNat_bit3 ha]
  simp only [vexStep, hi.map, hi.pp, hvl, hw, hr, hx, hext, hv, ppBits, decide_eq_false_iff_not, and_true, true_and,
    if_neg (show l ≠ 2 by omega), if_neg (show ¬3 < 1 by decide), vexExtension]
  by_cases h8 : c < 8
  · have hbytes := emits_vex2Item ⟨bitNot (bit3 a), ~~~BitVec.ofNat 4 b, BitVec.ofNat 1 l, 0⟩
    rw [vex2Bytes, byte_of_1412, hreg, hvvvv, hlength] at hbytes
    rw [if_pos h8, if_pos (by omega)]
    exact hbytes
  · have hbytes := emits_vex3Item ⟨bitNot (bit3 a), bitNot false, bitNot (decide (8 ≤ c)), BitVec.ofNat 5 1, bitOf false,
      ~~~BitVec.ofNat 4 b, BitVec.ofNat 1 l, 0⟩
    rw [vex3Bytes, byte_of_1115, byte_of_1412, hreg, hvvvv, hlength, decide_eq_true (by omega : 8 ≤ c)] at hbytes
    rw [if_neg h8, if_neg (by omega), decide_eq_true (by omega : 8 ≤ c)]
    simp only [toNat_bitOf, Bool.toNat_false, Nat.mul_zero, Nat.zero_add] at hbytes
    exact hbytes

/-- The row's roles place the first two registers, then the last operand, whose base or register has the number `c`. -/
theorem encoded_vex (hi : VexRow i) (hs : s.encodable) (hbinds : RowBinds s [(k, i)] k i q) (ha : a < 16) (hb : b < 16)
    (hc : c < 16) (hl : l = 0 ∨ l = 1) (hvl : q.vl = l) (hq : VectorRequest q)
    (hroles : applyRoles s.params .vex 0 i.operands { q with derived := modrmBits .rr {} } =
      .ok { q with disp := v, dispWidth := w, derived := addressed (vexBits a b) bits false (decide (8 ≤ c)) })
    (hw : wholeWidth w)
    (haddress : addressBytes { q with
      disp := v, dispWidth := w, derived := addressed (vexBits a b) bits false (decide (8 ≤ c)) } = address)
    (hlength : address.length ≤ 6) (hcapacity : 10 ≤ s.capacity) :
    s.encoded s.capacity (vexExtension a b c l ++ (0x58 :: address)) (s.encodeRows [(k, i)]) := by
  have hextension := emits_vexStep (q := placedRequest i q (addressed (vexBits a b) bits false (decide (8 ≤ c))) v w 0) hi ha hb hc
    hl hvl rfl rfl rfl rfl rfl
  have hplaced : applyRoles s.params i.space 0 i.operands
      { q with derived := modrmBits i.modrm { rexw := wBit i.w (effectiveEosz q) } } =
      .ok { q with disp := v, dispWidth := w, derived := addressed (vexBits a b) bits false (decide (8 ≤ c)) } := by
    rw [hi.space, hi.modrm, hi.narrow]
    exact hroles
  refine encoded_of_vector (by simp [hi.space]) hs hbinds hq hplaced rfl hw (extension := vexExtension a b c l) ?extension ?bytes
    ?room ?limit
  case extension =>
    rw [extensionStep, hi.space]
    exact hextension
  case bytes =>
    subst haddress
    rw [hi.opcode]
  all_goals
    have hshort := vexExtension_length_le a b c l
    simp only [List.length_append, List.length_cons]
    omega

end Vex

/-! ## The operands of the rows (R229, R253) -/

/-- A vector length of VEX with the class of its registers. -/
def vexClass (l : Nat) (cls : RegClass) : Prop := (l = 0 ∧ cls = .xmm) ∨ (l = 1 ∧ cls = .ymm)

/-- VADDPS on three registers. -/
def vexRegisters (sm l : Nat) (r0 r1 r2 : Reg) : Request where
  mode := 64
  smode := sm
  iclass := iclassVADDPS
  vl := l
  regs := { r0 := some r0, r1 := some r1, r2 := some r2 }
  order := [.reg0, .reg1, .reg2]
  norder := 3

/-- VADDPS on two registers and memory at a base with a displacement of 32 bits. -/
def vexMemory (sm l : Nat) (r0 r1 base : Reg) (v : Word64) : Request where
  mode := 64
  smode := sm
  iclass := iclassVADDPS
  vl := l
  regs := { r0 := some r0, r1 := some r1 }
  base0 := some base
  disp := v
  dispWidth := 32
  mem0 := true
  order := [.reg0, .reg1, .mem0]
  norder := 3

theorem patternMatches_classes {space : Space} {eosz : Nat} {rq : Request} {n : OperandName} {r : Reg} {classes : List RegClass}
    (hslot : slotOf rq n = some r) (hclass : classes.contains r.cls = true) (hlength : lengthAgrees rq.vl r.cls = true)
    (hoffset : space = .evex ∨ r.off < 16) : patternMatches space eosz rq n (.reg classes) = true :=
  regMatches_of_slot hslot hclass hlength hoffset

theorem patternMatches_same {space : Space} {eosz : Nat} {rq : Request} {n : OperandName} {r : Reg}
    (hslot : slotOf rq n = some r) (hsame : sameClass rq rq.order = some r.cls) (hlength : lengthAgrees rq.vl r.cls = true)
    (hoffset : space = .evex ∨ r.off < 16) : patternMatches space eosz rq n .same = true :=
  regMatches_of_slot (takes := fun c => sameClass rq rq.order == some c) hslot (by simp [hsame]) hlength hoffset

section VexOperands

variable {s : State} {q : Request} {cls : RegClass} {sm a b c l eosz : Nat} {v : Word64}

theorem shapeMatches_vexRegisters (hclass : vexClass l cls) (ha : a < 16) (hb : b < 16) (hc : c < 16) :
    shapeMatches .vex eosz (vexRegisters sm l ⟨cls, a⟩ ⟨cls, b⟩ ⟨cls, c⟩) 0 rowVaddpsVexRrr.operands = true := by
  obtain ⟨rfl, rfl⟩ | ⟨rfl, rfl⟩ := hclass
  all_goals
    exact Bool.and_eq_true_iff.2 ⟨patternMatches_classes rfl rfl rfl (.inr ha), Bool.and_eq_true_iff.2
      ⟨patternMatches_same rfl rfl rfl (.inr hb), Bool.and_eq_true_iff.2 ⟨patternMatches_same rfl rfl rfl (.inr hc), rfl⟩⟩⟩

theorem shapeMatches_vexMemory (hclass : vexClass l cls) (ha : a < 16) (hb : b < 16) :
    shapeMatches .vex eosz (vexMemory sm l ⟨cls, a⟩ ⟨cls, b⟩ ⟨.gpr64, c⟩ v) 0 rowVaddpsVexRrm.operands = true := by
  obtain ⟨rfl, rfl⟩ | ⟨rfl, rfl⟩ := hclass
  all_goals
    exact Bool.and_eq_true_iff.2 ⟨patternMatches_classes rfl rfl rfl (.inr ha), Bool.and_eq_true_iff.2
      ⟨patternMatches_same rfl rfl rfl (.inr hb), rfl⟩⟩

theorem rowBinds_vexRegisters (hclass : vexClass l cls) (ha : a < 16) (hb : b < 16) (hc : c < 16)
    (hrq : s.rq = vexRegisters sm 0 ⟨cls, a⟩ ⟨cls, b⟩ ⟨cls, c⟩) :
    RowBinds s [(8, rowVaddpsVexRrr)] 8 rowVaddpsVexRrr (vexRegisters sm l ⟨cls, a⟩ ⟨cls, b⟩ ⟨cls, c⟩) := by
  refine rowBinds_of_entered ?entered (.inr (.inr rfl)) (.inl rfl) (shapeMatches_vexRegisters hclass ha hb hc)
  case entered =>
    rw [hrq]
    refine (precondition_of_unset (Option.some_ne_none _).symm rfl).trans ?_
    obtain ⟨rfl, rfl⟩ | ⟨rfl, rfl⟩ := hclass <;> rfl

theorem rowBinds_vexMemory (hclass : vexClass l cls) (ha : a < 16) (hb : b < 16)
    (hrq : s.rq = vexMemory sm 0 ⟨cls, a⟩ ⟨cls, b⟩ ⟨.gpr64, c⟩ v) :
    RowBinds s [(9, rowVaddpsVexRrm)] 9 rowVaddpsVexRrm (vexMemory sm l ⟨cls, a⟩ ⟨cls, b⟩ ⟨.gpr64, c⟩ v) := by
  have hbase : some (⟨.gpr64, c⟩ : Reg) ≠ some s.params.registers.regRIP := mt Option.some.inj (ne_regRIP_of_cls nofun)
  refine rowBinds_of_entered ?entered (.inr (.inr rfl)) (.inl rfl) (shapeMatches_vexMemory hclass ha hb)
  case entered =>
    rw [hrq]
    refine (precondition_of_unset hbase rfl).trans ?_
    obtain ⟨rfl, rfl⟩ | ⟨rfl, rfl⟩ := hclass <;> rfl

/-- The first register goes to ModRM.reg, the second to vvvv. -/
theorem applyRoles_vex {p : Params} {x y z : OperandPattern} {role : Role} (hclass : vexClass l cls) (ha : a < 16) (hb : b < 16)
    (hfirst : slotOf q (orderGet q.order 0) = some ⟨cls, a⟩) (hsecond : slotOf q (orderGet q.order 1) = some ⟨cls, b⟩) :
    applyRoles p .vex 0 [(x, .modrmReg), (y, .vvvv), (z, role)] { q with derived := modrmBits .rr {} } =
      applyRole p .vex { q with derived := vexBits a b } (orderGet q.order 2) role := by
  obtain ⟨-, rfl⟩ | ⟨-, rfl⟩ := hclass
  all_goals
    exact applyRoles_cons (applyRole_modrmReg hfirst (placeable_of_lt ha)) (applyRoles_cons
      (applyRole_vvvv hsecond (placeable_of_lt hb)) (bind_pure _))

theorem applyRole_vex_rm {p : Params} {n : OperandName} (hclass : vexClass l cls) (hc : c < 16)
    (hslot : slotOf q n = some ⟨cls, c⟩) :
    applyRole p .vex { q with derived := vexBits a b } n .modrmRm =
      .ok { q with derived := addressed (vexBits a b) ⟨3, low3 c, false, 0, 0, 0⟩ false (bit3 c) } := by
  obtain ⟨-, rfl⟩ | ⟨-, rfl⟩ := hclass <;>
    exact applyRole_modrmRm (rq := { q with derived := vexBits a b }) hslot (placeable_of_lt hc)

end VexOperands

end Sys2Proof.Machine

namespace Sys2Proof

open Machine

/-- Settles O46: the last register or base decides the form. -/
theorem vexIformsEncode : Obligations.VexIformsEncode := by
  intro s sm a b c l cls v hs ha hb hc hclass hcapacity
  have hl : l = 0 ∨ l = 1 := hclass.imp And.left And.left
  refine ⟨fun hrq => ?registers, fun hrq => ?memory⟩
  case registers =>
    have hbinds := rowBinds_vexRegisters hclass ha hb hc hrq
    have hroles : applyRoles s.params .vex 0 rowVaddpsVexRrr.operands
        { vexRegisters sm l ⟨cls, a⟩ ⟨cls, b⟩ ⟨cls, c⟩ with derived := modrmBits .rr {} } =
        .ok { vexRegisters sm l ⟨cls, a⟩ ⟨cls, b⟩ ⟨cls, c⟩ with
          disp := 0, dispWidth := 0, derived := addressed (vexBits a b) ⟨3, low3 c, false, 0, 0, 0⟩ false (decide (8 ≤ c)) } := by
      rw [← bit3_of_lt hc]
      exact (applyRoles_vex hclass ha hb rfl rfl).trans (applyRole_vex_rm hclass hc rfl)
    have haddress : addressBytes { vexRegisters sm l ⟨cls, a⟩ ⟨cls, b⟩ ⟨cls, c⟩ with
        disp := 0, dispWidth := 0, derived := addressed (vexBits a b) ⟨3, low3 c, false, 0, 0, 0⟩ false (decide (8 ≤ c)) } =
        [BitVec.ofNat 8 (0xC0 + 8 * (a % 8) + c % 8)] := by
      simp [addressBytes, addressed, vexBits, vexRegisters]
    exact encoded_vex vexRow_rowVaddpsVexRrr hs hbinds ha hb hc hl rfl {} hroles (.inl rfl) haddress (by simp) hcapacity
  case memory =>
    have hbinds := rowBinds_vexMemory hclass ha hb hrq
    obtain ⟨bits, disp, width, hrun, hwhole, haddress⟩ := addressEncodes_lone_base (p := s.params) (space := .vex)
      (rq := { vexMemory sm l ⟨cls, a⟩ ⟨cls, b⟩ ⟨.gpr64, c⟩ v with derived := vexBits a b }) (.inr ⟨rfl, rfl⟩) rfl hc rfl rfl
      (Nat.zero_le 1) rfl (.inr (.inr rfl))
    have hnumber : baseDispBytes (low3 a).toNat c 32 v = baseDispBytes a c 32 v := by simp [baseDispBytes]
    exact encoded_vex vexRow_rowVaddpsVexRrm hs hbinds ha hb hc hl rfl {} ((applyRoles_vex hclass ha hb rfl rfl).trans hrun) hwhole
      (haddress.trans hnumber) (baseDispBytes_length_le a c 32 v) hcapacity

end Sys2Proof
end

section
/-! The row of T0 in EVEX space (spec/42_table_lookup.md R234 row 11; spec/43_encode_dispatch.md R253, R264;
spec/41_field_encoders.md R172 to R175, R177, R198): three ZMM registers, a mask and zeroing. -/

namespace Sys2Proof.Machine

/-! ## The bytes of EVEX (R108) -/

theorem byte_of_111113 (r x b rr z : BitVec 1) (m : BitVec 3) :
    r ++ x ++ b ++ rr ++ z ++ m =
      BitVec.ofNat 8 (128 * r.toNat + 64 * x.toNat + 32 * b.toNat + 16 * rr.toNat + 8 * z.toNat + m.toNat) := by
  refine ((((((FieldsOf.one r).snoc x).snoc b).snoc rr).snoc z).snoc m).byte_eq.trans (congrArg _ ?_)
  simp [joinFields]
  omega

theorem byte_of_12113 (z : BitVec 1) (l : BitVec 2) (b v : BitVec 1) (a : BitVec 3) :
    z ++ l ++ b ++ v ++ a = BitVec.ofNat 8 (128 * z.toNat + 32 * l.toNat + 16 * b.toNat + 8 * v.toNat + a.toNat) := by
  refine (((((FieldsOf.one z).snoc l).snoc b).snoc v).snoc a).byte_eq.trans (congrArg _ ?_)
  simp [joinFields]
  omega

/-- The extension bit 3 of a register number (R172). -/
theorem toNat_bit3_eq (n : Nat) : (bit3 n).toNat = n / 8 % 2 := by
  rw [bit3_eq]
  obtain h | h := Nat.mod_two_eq_zero_or_one (n / 8) <;> simp [h]

theorem toNat_bit4 {n : Nat} (h : n < 32) : (bit4 n).toNat = n / 16 := by
  rw [bit4_of_lt h]
  by_cases h16 : 16 ≤ n <;> simp [h16] <;> omega

/-! ## The row -/

/-- VADDPS on a ZMM register, a mask and two more ZMM registers. -/
def evexRegisters (sm l a b c k : Nat) (z : Bool) : Request where
  mode := 64
  smode := sm
  iclass := iclassVADDPS
  vl := l
  regs := { r0 := some ⟨.zmm, a⟩, r1 := some ⟨.mask, k⟩, r2 := some ⟨.zmm, b⟩, r3 := some ⟨.zmm, c⟩ }
  zeroing := z
  order := [.reg0, .reg1, .reg2, .reg3]
  norder := 4

/-- What the registers and the mask place. -/
def evexBits (a b c k : Nat) : Derived where
  hasModrm := true
  mod := 3
  reg := low3 a
  rexr := bit3 a
  rexrr := bit4 a
  aaa := low3 k
  vvvv := BitVec.ofNat 4 b
  vexdest4 := bit4 b
  rm := low3 c
  rexb := bit3 c
  rexx := bit4 c

/-- The EVEX bytes of registers and mask at 512 bits. -/
def evexExtension (a b c k : Nat) (z : Bool) : List Byte :=
  [0x62,
    BitVec.ofNat 8 (128 * (1 - a / 8 % 2) + 64 * (1 - c / 16) + 32 * (1 - c / 8 % 2) + 16 * (1 - a / 16) + 1),
    BitVec.ofNat 8 (8 * (15 - b % 16) + 4),
    BitVec.ofNat 8 (128 * z.toNat + 64 + 8 * (1 - b / 16) + k)]

section Evex

variable {s : State} {sm a b c k : Nat} {z : Bool}

theorem rowBinds_evexRegisters (hrq : s.rq = evexRegisters sm 0 a b c k z) :
    RowBinds s [(10, rowVaddpsEvexRkrr)] 10 rowVaddpsEvexRkrr (evexRegisters sm 2 a b c k z) := by
  refine rowBinds_of_entered ?entered (.inr (.inr rfl)) (.inl rfl) ?shape
  case entered =>
    rw [hrq]
    exact precondition_of_unset (Option.some_ne_none _).symm rfl
  case shape =>
    exact Bool.and_eq_true_iff.2 ⟨patternMatches_classes rfl rfl rfl (.inl rfl), Bool.and_eq_true_iff.2
      ⟨patternMatches_classes rfl rfl rfl (.inl rfl), Bool.and_eq_true_iff.2
      ⟨patternMatches_same rfl rfl rfl (.inl rfl), Bool.and_eq_true_iff.2 ⟨patternMatches_same rfl rfl rfl (.inl rfl), rfl⟩⟩⟩⟩

theorem applyRoles_evexRegisters {p : Params} (ha : a < 32) (hb : b < 32) (hc : c < 32) (hk : k < 8) :
    applyRoles p .evex 0 rowVaddpsEvexRkrr.operands { evexRegisters sm 2 a b c k z with derived := modrmBits .rr {} } =
      .ok { evexRegisters sm 2 a b c k z with derived := evexBits a b c k } := by
  refine applyRoles_cons (applyRole_modrmReg (r := ⟨.zmm, a⟩) rfl (placeable_evex ha)) ?_
  refine applyRoles_cons (applyRole_mask (r := ⟨.mask, k⟩) rfl rfl (placeable_evex (Nat.lt_trans hk (by decide)))) ?_
  refine applyRoles_cons (applyRole_vvvv (r := ⟨.zmm, b⟩) rfl (placeable_evex hb)) ?_
  exact applyRoles_cons (applyRole_modrmRm (r := ⟨.zmm, c⟩) rfl (placeable_evex hc)) rfl

theorem emits_evexStep (ha : a < 32) (hb : b < 32) (hc : c < 32) (hk : k < 8) :
    EmitsBytes (evexStep rowVaddpsEvexRkrr
      (placedRequest rowVaddpsEvexRkrr (evexRegisters sm 2 a b c k z) (evexBits a b c k) 0 0 0)) (evexExtension a b c k z) := by
  have hbytes := emits_evexItem ⟨bitNot (bit3 a), bitNot (bit4 c), bitNot (bit3 c), bitNot (bit4 a), 1, bitOf false,
    ~~~BitVec.ofNat 4 b, 0, bitOf z, 2, bitOf false, bitNot (bit4 b), low3 k⟩
  have hmask : (low3 k).toNat = k := by rw [toNat_low3, Nat.mod_eq_of_lt hk]
  rw [evexBytes, byte_of_111113, byte_of_1412, byte_of_12113, hmask, toNat_not_vvvv] at hbytes
  simp only [toNat_bitNot, toNat_bitOf, toNat_bit3_eq, toNat_bit4 ha, toNat_bit4 hb, toNat_bit4 hc, Bool.toNat_false,
    Nat.mul_zero, Nat.zero_add, Nat.add_zero] at hbytes
  exact hbytes

end Evex

end Sys2Proof.Machine

namespace Sys2Proof

open Machine

/-- Settles O47: the four roles place every extension bit. -/
theorem evexIformEncodes : Obligations.EvexIformEncodes := by
  intro s sm a b c k z hs ha hb hc hk hcapacity hrq
  have haddress : addressBytes { evexRegisters sm 2 a b c k z with disp := 0, dispWidth := 0, derived := evexBits a b c k } =
      [BitVec.ofNat 8 (0xC0 + 8 * (a % 8) + c % 8)] := by
    simp [addressBytes, evexRegisters, evexBits]
  exact encoded_of_vector (by decide) hs (rowBinds_evexRegisters hrq) {} (applyRoles_evexRegisters ha hb hc hk) rfl (.inl rfl)
    (emits_evexStep ha hb hc hk) (congrArg (fun address => evexExtension a b c k z ++ 0x58 :: address) haddress) hcapacity
    (by simp)

end Sys2Proof
end

section
/-! The Precondition phase infers a vector length (spec/43_encode_dispatch.md R253): the widest length of a list is at most `n`
just where each register's is, so each value of it is a statement about every register the inference scans. -/

namespace Sys2Proof.Machine

theorem widest_le_iff {l : List RegOrInvalid} {n : Nat} : widest l ≤ n ↔ ∀ x ∈ l, regLength x ≤ n := by
  induction l with
  | nil => simp [widest]
  | cons x rest ih => simp [widest, ih]

theorem forall_mem_scannedRegs {rq : Request} {P : RegOrInvalid → Prop} :
    (∀ x ∈ scannedRegs rq, P x) ↔ (∀ k, k ≤ 8 → P (slotGet rq.regs k)) ∧ P rq.index := by
  have hscanned : scannedRegs rq = (List.range 9).map (slotGet rq.regs) ++ [rq.index] := rfl
  simp [hscanned, or_imp, forall_and, Nat.lt_succ_iff]

theorem regLength_le_two (x : RegOrInvalid) : regLength x ≤ 2 := by
  unfold regLength
  repeat' split
  all_goals decide

theorem regLength_le_one_iff {x : RegOrInvalid} : regLength x ≤ 1 ↔ ∀ r, x = some r → r.cls ≠ .zmm := by
  cases x with
  | none => simp [regLength]
  | some r => cases hcls : r.cls <;> simp [regLength, hcls]

theorem regLength_le_zero_iff {x : RegOrInvalid} :
    regLength x ≤ 0 ↔ ∀ r, x = some r → r.cls ≠ .zmm ∧ r.cls ≠ .ymm := by
  cases x with
  | none => simp [regLength]
  | some r => cases hcls : r.cls <;> simp [regLength, hcls]

theorem widest_scannedRegs_le_two (rq : Request) : widest (scannedRegs rq) ≤ 2 :=
  widest_le_iff.2 fun x _ => regLength_le_two x

end Sys2Proof.Machine

namespace Sys2Proof

open Machine

/-- Settles O35: a length of 2 is one above 1, a length of 0 one not above 0. -/
theorem vectorLengthInference : Obligations.VectorLengthInference := by
  intro rq
  refine ⟨fun hvl => if_neg hvl, fun hvl => ⟨_, inferLength_of_unset hvl, ?zmm, ?none, widest_scannedRegs_le_two rq⟩⟩
  case zmm =>
    have htop : widest (scannedRegs rq) = 2 ↔ ¬widest (scannedRegs rq) ≤ 1 := by
      have := widest_scannedRegs_le_two rq
      omega
    simp only [htop, widest_le_iff, forall_mem_scannedRegs, regLength_le_one_iff]
    grind
  case none =>
    rw [← Nat.le_zero, widest_le_iff, forall_mem_scannedRegs]
    simp only [regLength_le_zero_iff]
    grind

end Sys2Proof
end

section
/-! The Emit phase and Finalize as one function of what the emitter answers (spec/43_encode_dispatch.md R256 to R276), and two
claims that follow from how the phases stop: a GENERAL_ERROR comes before the first byte (spec/60_exceptions.md R398), and
a pattern within its contract stops only at the end of the capacity (spec/43_encode_dispatch.md R279). -/

namespace Sys2Proof.Machine

/-! ## ENCODE from a bound request -/

/-- What Emit and Finalize answer when the emitter has left `e` and stopped with `st`, or has not stopped. -/
def State.afterEmission (u : State) : Emission × Option Stop → Result
  | (_, some stop) => u.spoil.encodeStopped stop
  | (e, none) => if e.off % 8 ≠ 0 then .next (u.withEmission e).toFatal else .next (u.withEmission e).finalized

theorem State.afterEmission_stop (u : State) (e : Emission) (stop : Stop) :
    u.afterEmission (e, some stop) = u.spoil.encodeStopped stop := rfl

theorem State.afterEmission_aligned {u : State} {e : Emission} (h : e.off % 8 = 0) :
    u.afterEmission (e, none) = .next (u.withEmission e).finalized := if_neg (not_not.2 h)

theorem State.afterEmission_unaligned {u : State} {e : Emission} (h : e.off % 8 ≠ 0) :
    u.afterEmission (e, none) = .next (u.withEmission e).toFatal := if_pos h

theorem runEmit_eq {u : State} {b : Bound} (herror : u.rq.error = .noError) :
    u.runEmit b = u.afterEmission (runActions (emissionPattern b u.rq) u.emission) := by
  obtain ⟨n, hsteps⟩ := runSteps_eq u b 1 b.emission
  rw [State.runEmit, if_neg (not_not.2 herror), hsteps, emissionPattern]
  rcases runActions (b.emission.flatMap (lineActions b u.rq)) u.emission with ⟨e, _ | stop⟩ <;> rfl

/-- The state in which Emit starts, with the iform number `n` and the request `q` of Bind. -/
def State.atEmit (s : State) (cap n : Nat) (q : Request) : State := (s.enterEncode cap).runPrecondition.bound n q

/-- An ENCODE that binds answers what the emitter's run of the pattern makes of it. -/
theorem startEncode_of_bound {s : State} {cap : Nat} {bind : Binder} {b : Bound} {q : Request} (hs : s.encodable)
    (hbind : bindRequest bind s.params (precondition s.params.registers { s.rq with error := .noError }) = .ok (b, q)) :
    s.startEncode cap bind =
      (s.atEmit cap b.index q).afterEmission (runActions (emissionPattern b q) ⟨min cap 15, 0, s.buf⟩) := by
  obtain ⟨hidle, hmode, hfresh⟩ := hs
  have herror : q.error = .noError := (bindRequest_error_field hbind).trans (precondition_error _ _)
  have hrun : s.runEncode cap bind = (s.atEmit cap b.index q).runEmit b := by
    simp only [State.runEncode, State.runPrecondition_params, State.runPrecondition_rq, State.enterEncode_params,
      State.enterEncode_rq, hbind]
    rfl
  rw [startEncode_idle hidle, if_neg (by omega), if_neg (by simp [hfresh]), hrun]
  exact runEmit_eq herror

/-- Every next state an ENCODE that stopped ends in. -/
theorem encodeStopped_next {u t : State} {stop : Stop} (h : u.encodeStopped stop = .next t) :
    (∃ c, stop = .raise c ∧ t = u.encodeRaised c) ∨ (stop = .fatal ∧ t = u.toFatal) := by
  cases stop with
  | raise c =>
    cases h
    exact .inl ⟨c, rfl, rfl⟩
  | fatal =>
    cases h
    exact .inr ⟨rfl, rfl⟩
  | refuse r => cases h
  | fault f => cases h

/-- A code that an ENCODE which stopped returns is the one raised. -/
theorem encodeStopped_encodeCode {u t : State} {stop : Stop} {c : ReturnCode} (h : u.encodeStopped stop = .next t)
    (hc : t.result.encodeCode = some c) : stop = .raise c ∧ t = u.encodeRaised c := by
  obtain ⟨c', rfl, rfl⟩ | ⟨-, rfl⟩ := encodeStopped_next h
  · cases hc
    exact ⟨rfl, rfl⟩
  · cases hc

/-! ## GENERAL_ERROR -/

/-- Emit ends in GENERAL_ERROR only where a VEX iform meets a length of 512 bits (R263). -/
theorem vex_of_generalError_stop {b : Bound} {q : Request} {e e' : Emission}
    (h : runActions (emissionPattern b q) e = (e', some (.raise .generalError))) : b.spec.space = .vex ∧ q.vl = 2 := by
  obtain ⟨-, -, -, -, hstop, -⟩ := runActions_frame _ _ _ _ h
  obtain hline | hemit := hstop _ rfl
  · obtain ⟨l, -, hl⟩ := List.mem_flatMap.1 hline
    obtain ⟨-, hvex⟩ | ⟨r, hr, -⟩ := lineActions_halt hl
    · exact hvex
    · cases hr
  · simp at hemit

/-- A code that Emit returns with an error is one the emitter stopped with. -/
theorem afterEmission_encodeCode {u t : State} {r : Emission × Option Stop} {c : ReturnCode} (h : u.afterEmission r = .next t)
    (hc : t.result.encodeCode = some c) (hne : c ≠ .noError) : r = (r.1, some (.raise c)) := by
  obtain ⟨e, _ | stop⟩ := r
  · by_cases halign : e.off % 8 = 0
    · rw [State.afterEmission_aligned halign] at h
      cases h
      cases hc
      exact absurd rfl hne
    · rw [State.afterEmission_unaligned halign] at h
      cases h
      cases hc
  · obtain ⟨rfl, -⟩ := encodeStopped_encodeCode h hc
    rfl

/-! ## A pattern within its contract (spec/42_table_lookup.md R226) -/

theorem emit_of_room {w v : Nat} {e : Emission} (hw : 1 ≤ w) (hw' : w ≤ 64) (hroom : e.off + w ≤ 8 * e.cap)
    (hstart : e.buf.startsAt e.off) : ∃ e', emit w v e = .ok e' := by
  cases h : emit w v e with
  | ok e' => exact ⟨e', rfl⟩
  | error stop =>
    obtain ⟨-, hbad⟩ | ⟨-, hfull⟩ | ⟨-, hunset⟩ := emit_error h
    · omega
    · omega
    · exact absurd hstart hunset

/-- A line within the contract is an EMIT of a legal width. -/
theorem meetsContract_cons {a : EmitAction} {rest : List EmitAction} {off : Nat} (h : meetsContract off (a :: rest) = true) :
    ∃ w v, 1 ≤ w ∧ w ≤ 64 ∧ actionBits (a :: rest) = w + actionBits rest ∧ meetsContract (off + w) rest = true
      ∧ ∀ e : Emission, e.off = off →
        (∀ e', emit w v e = .ok e' → runActions (a :: rest) e = runActions rest e')
          ∧ ∀ stop, emit w v e = .error stop → runActions (a :: rest) e = (e, some stop) := by
  cases a with
  | halt stop => cases h
  | put w v =>
    simp only [meetsContract, Bool.and_eq_true, decide_eq_true_eq] at h
    obtain ⟨⟨hw, hw'⟩, hrest⟩ := h
    refine ⟨w, v, hw, hw', rfl, hrest, fun e _ => ⟨fun e' he => ?_, fun stop he => ?_⟩⟩ <;> rw [runActions, he]
  | putWhole w v =>
    simp only [meetsContract, Bool.and_eq_true] at h
    obtain ⟨hfast, hrest⟩ := h
    have hwidth : 1 ≤ w ∧ w ≤ 64 := by
      simp only [fastPath, Bool.and_eq_true, Bool.or_eq_true, beq_iff_eq] at hfast
      omega
    refine ⟨w, v, hwidth.1, hwidth.2, rfl, hrest, fun e he => ?_⟩
    subst he
    refine ⟨fun e' he => ?_, fun stop he => ?_⟩ <;> rw [runActions, if_pos hfast, he]

/-- A pattern within the contract that fits is emitted whole; past its last bit nothing is written. -/
theorem runActions_of_room {acts : List EmitAction} {e : Emission} (hcontract : meetsContract e.off acts = true)
    (hroom : e.off + actionBits acts ≤ 8 * e.cap) (hstart : e.buf.startsAt e.off) :
    ∃ e', runActions acts e = (e', none) ∧ e'.off = e.off + actionBits acts
      ∧ ∀ a, (e.off + actionBits acts + 7) / 8 ≤ a → e'.buf.read a = e.buf.read a := by
  induction acts generalizing e with
  | nil => exact ⟨e, rfl, rfl, fun _ _ => rfl⟩
  | cons a rest ih =>
    obtain ⟨w, v, hw, hw', hbits, hrest, hrun⟩ := meetsContract_cons hcontract
    rw [hbits] at hroom ⊢
    obtain ⟨e₁, he₁⟩ := emit_of_room (v := v) hw hw' (by omega) hstart
    obtain ⟨-, -, -, hcap, hoff, hframe, -, -, hstart₁⟩ := emit_ok he₁
    obtain ⟨e', he', hoff', hframe'⟩ := ih (e := e₁) (by rwa [hoff]) (by omega) hstart₁
    refine ⟨e', by rw [(hrun e rfl).1 e₁ he₁, he'], by omega, fun b hb => ?_⟩
    rw [hframe' b (by omega), hframe b (by omega)]

/-- A pattern within the contract that does not fit stops where the capacity ends (R151). -/
theorem runActions_of_no_room {acts : List EmitAction} {e : Emission} (hcontract : meetsContract e.off acts = true)
    (hin : e.off ≤ 8 * e.cap) (hfull : 8 * e.cap < e.off + actionBits acts) (hstart : e.buf.startsAt e.off) :
    ∃ e', runActions acts e = (e', some (.raise .bufferTooShort)) := by
  induction acts generalizing e with
  | nil => exact absurd hfull (Nat.not_lt.2 hin)
  | cons a rest ih =>
    obtain ⟨w, v, hw, hw', hbits, hrest, hrun⟩ := meetsContract_cons hcontract
    rw [hbits] at hfull
    by_cases hroom : e.off + w ≤ 8 * e.cap
    · obtain ⟨e₁, he₁⟩ := emit_of_room (v := v) hw hw' hroom hstart
      obtain ⟨-, -, -, hcap, hoff, -, -, -, hstart₁⟩ := emit_ok he₁
      obtain ⟨e', he'⟩ := ih (e := e₁) (by rwa [hoff]) (by omega) (by omega) hstart₁
      exact ⟨e', ((hrun e rfl).1 e₁ he₁).trans he'⟩
    · exact ⟨e, (hrun e rfl).2 _ (emit_of_no_room hw hw' (Nat.lt_of_not_le hroom))⟩

theorem Mem.startsAt_zero (m : Mem) : m.startsAt 0 := fun h => absurd rfl h

end Sys2Proof.Machine

namespace Sys2Proof

open Machine

/-- Settles O51: Bind writes no byte, and Emit raises GENERAL_ERROR for the excepted iform only. -/
theorem generalErrorWritesNothing : Obligations.GeneralErrorWritesNothing := by
  intro s t table c htable hexec hcode hvex
  rw [exec_encode_loaded htable] at hexec
  obtain ⟨hs, ⟨stop, -, hstop⟩ | ⟨b, q, hbind, -⟩⟩ := startEncode_next hexec
  · obtain ⟨-, rfl⟩ := encodeStopped_encodeCode hstop hcode
    rfl
  · rw [startEncode_of_bound hs hbind] at hexec
    exact absurd (vex_of_generalError_stop (afterEmission_encodeCode hexec hcode nofun)) (hvex b q hbind)

/-- Settles O49: the emitter has room for the pattern, or stops in it. -/
theorem capacityBoundary : Obligations.CapacityBoundary := by
  intro s t b q n c hs htable hbind hcontract hbits
  have herror : q.error = .noError := (bindRequest_error_field hbind).trans (precondition_error _ _)
  rw [exec_encode_loaded htable, startEncode_of_bound hs hbind]
  refine ⟨fun hcap hlimit => ?fits, fun hshort => ?short⟩
  case fits =>
    obtain ⟨e, hrun, hoff, hframe⟩ := runActions_of_room (e := ⟨min c 15, 0, s.buf⟩) hcontract (by dsimp only; omega)
      s.buf.startsAt_zero
    dsimp only at hoff hframe
    refine ⟨_, by rw [hrun, State.afterEmission_aligned (by omega)], ?_, rfl, herror, fun a ha => hframe a (by omega)⟩
    exact congrArg (CmdResult.encoded .noError) (show e.off / 8 = n by omega)
  case short =>
    obtain ⟨e, hrun⟩ := runActions_of_no_room (e := ⟨min c 15, 0, s.buf⟩) hcontract (Nat.zero_le _) (by dsimp only; omega)
      s.buf.startsAt_zero
    refine ⟨_, by rw [hrun, State.afterEmission_stop]; rfl, rfl, rfl, rfl, fun a ha => ?_⟩
    exact (s.buf.read_drawBytes s.draws (min c 15) a).trans (if_neg (Nat.not_lt.2 ha))

end Sys2Proof
end

section
/-! ENCODE is a function of the request, the table and the capacity (spec/43_encode_dispatch.md R280). Bind reads two parameters
besides the table; the emitter reads no byte that it has not entered itself, so two runs of a pattern over different buffers
stop alike and agree on every byte up to the cursor. -/

namespace Sys2Proof.Machine

/-! ## What Bind reads of the parameters -/

/-- The parameters that the field encoders read agree: INDEX_ILLEGAL_SET and the register space. -/
structure EncodesLike (p p' : Params) : Prop where
  indexIllegal : p.indexIllegal = p'.indexIllegal
  registers : p.registers = p'.registers

section Bind

variable {p p' : Params} {b : Bound}

theorem encMem_eq_of_encodesLike (h : EncodesLike p p') : encMem p = encMem p' := by
  funext space easz q
  simp only [encMem, encMem32, h.indexIllegal, h.registers]

theorem applyRole_eq_of_encodesLike (h : EncodesLike p p') : applyRole p = applyRole p' := by
  funext space q n role
  cases role with
  | mem => exact congrFun (congrFun (congrFun (encMem_eq_of_encodesLike h) space) (effectiveEasz q)) q
  | _ => rfl

theorem applyRoles_eq_of_encodesLike (h : EncodesLike p p') : applyRoles p = applyRoles p' := by
  funext space k l q
  induction l generalizing k q with
  | nil => rfl
  | cons e rest ih => simp only [applyRoles, applyRole_eq_of_encodesLike h, ih]

theorem runBindingOp_eq_of_encodesLike (h : EncodesLike p p') (q : Request) (op : BindingOp) :
    runBindingOp p b q op = runBindingOp p' b q op := by
  cases op with
  | roles => simp only [runBindingOp, applyRoles_eq_of_encodesLike h]
  | place role k => simp only [runBindingOp, applyRole_eq_of_encodesLike h]
  | segmentPrefix => simp only [runBindingOp, h.registers]
  | _ => rfl

theorem runBinding_eq_of_encodesLike (h : EncodesLike p p') (l : List BindingLine) (q : Request) :
    runBinding p b l q = runBinding p' b l q := by
  induction l generalizing q with
  | nil => rfl
  | cons line rest ih => simp only [runBinding, runBindingOp_eq_of_encodesLike h, ih]

theorem bindRequest_eq_of_encodesLike (h : EncodesLike p p') (bind : Binder) (q : Request) :
    bindRequest bind p q = bindRequest bind p' q := by
  simp only [bindRequest, runBinding_eq_of_encodesLike h]

end Bind

/-! ## What the emitter reads of the buffer -/

/-- The buffers hold the same bytes up to the one the position `p` stands in or has completed. -/
def Mem.AgreeTo (p : Nat) (m m' : Mem) : Prop := ∀ a, a < (p + 7) / 8 → m.read a = m'.read a

/-- The work areas differ only in bytes that the cursor has not entered (R40). -/
structure Emission.Agrees (e e' : Emission) : Prop where
  cap : e.cap = e'.cap
  off : e.off = e'.off
  buf : Mem.AgreeTo e.off e.buf e'.buf

/-- Both computations give values in the relation `R`, or both stop alike. -/
def Check.Alike {α : Type} (R : α → α → Prop) : Check α → Check α → Prop
  | .ok a, .ok b => R a b
  | .error x, .error y => x = y
  | .ok _, .error _ | .error _, .ok _ => False

theorem Mem.agreeTo_zero (m m' : Mem) : Mem.AgreeTo 0 m m' := fun a ha => absurd ha (by omega)

/-- The same byte written where the position stands. -/
theorem Mem.AgreeTo.write {p q : Nat} {m m' : Mem} (h : Mem.AgreeTo p m m') (hq : (q + 7) / 8 ≤ p / 8 + 1) (x : Byte) :
    Mem.AgreeTo q (m.write (p / 8) x) (m'.write (p / 8) x) := by
  intro a ha
  rw [Mem.read_write, Mem.read_write]
  by_cases hp : a = p / 8
  · rw [if_pos hp, if_pos hp]
  · rw [if_neg hp, if_neg hp, h a (by omega)]

/-- The same value of `n` bytes written from an aligned position on. -/
theorem Mem.AgreeTo.writeLE {p : Nat} {m m' : Mem} (h : Mem.AgreeTo p m m') (hp : p % 8 = 0) (n v : Nat) :
    Mem.AgreeTo (p + 8 * n) (m.writeLE (p / 8) n v) (m'.writeLE (p / 8) n v) := by
  intro a ha
  rw [Mem.writeLE, Mem.writeLE, Mem.read_writeBytes, Mem.read_writeBytes, leBytes_length]
  by_cases hin : p / 8 ≤ a ∧ a < p / 8 + n
  · rw [if_pos hin, if_pos hin]
  · rw [if_neg hin, if_neg hin, h a (by omega)]

/-- The general path writes the same bytes over both buffers (R153, R154). -/
theorem emitChunks_alike {fuel rem p v : Nat} {m m' : Mem} (hf : rem ≤ fuel) (h : Mem.AgreeTo p m m') :
    Check.Alike (Mem.AgreeTo (p + rem)) (emitChunks fuel rem p v m) (emitChunks fuel rem p v m') := by
  induction fuel generalizing rem p m m' with
  | zero =>
    obtain rfl : rem = 0 := by omega
    exact h
  | succ fuel ih =>
    by_cases hrem : rem = 0
    · subst hrem
      exact h
    have hturn : ∀ x : Byte,
        Check.Alike (Mem.AgreeTo (p + rem))
          (emitChunks fuel (rem - min rem (8 - p % 8)) (p + min rem (8 - p % 8)) v (m.write (p / 8) x))
          (emitChunks fuel (rem - min rem (8 - p % 8)) (p + min rem (8 - p % 8)) v (m'.write (p / 8) x)) := by
      intro x
      have hnext := ih (rem := rem - min rem (8 - p % 8)) (p := p + min rem (8 - p % 8)) (by omega) (h.write (by omega) x)
      rwa [show p + min rem (8 - p % 8) + (rem - min rem (8 - p % 8)) = p + rem by omega] at hnext
    simp only [emitChunks, if_neg hrem]
    by_cases hp : p % 8 = 0
    · simp only [if_pos hp]
      exact hturn _
    · simp only [if_neg hp, ← h (p / 8) (by omega)]
      cases m.read (p / 8) with
      | none => rfl
      | some old => exact hturn _

/-- One EMIT over both buffers. -/
theorem emit_alike {w v : Nat} {e e' : Emission} (h : e.Agrees e') :
    Check.Alike Emission.Agrees (emit w v e) (emit w v e') := by
  obtain ⟨cap, off, buf⟩ := e
  obtain ⟨cap', off', buf'⟩ := e'
  obtain ⟨hcap, hoff, hbuf⟩ := h
  dsimp only at hcap hoff hbuf
  subst hcap hoff
  by_cases hw : w = 0 ∨ 64 < w
  · simp only [emit, if_pos hw]
    rfl
  by_cases hfull : 8 * cap < off + w
  · simp only [emit, if_neg hw, if_pos hfull]
    rfl
  by_cases hfast : fastPath off w = true
  · simp only [emit, if_neg hw, if_neg hfull, if_pos hfast]
    obtain ⟨haligned, hwhole⟩ : off % 8 = 0 ∧ 8 * (w / 8) = w := by
      simp only [fastPath, Bool.and_eq_true, Bool.or_eq_true, beq_iff_eq] at hfast
      omega
    have hwritten := hbuf.writeLE haligned (w / 8) (truncBits w v)
    rw [hwhole] at hwritten
    exact ⟨rfl, rfl, hwritten⟩
  have hstart : (off % 8 ≠ 0 ∧ buf'.read (off / 8) = none) ↔ (off % 8 ≠ 0 ∧ buf.read (off / 8) = none) :=
    and_congr_right fun hne => by rw [hbuf (off / 8) (by omega)]
  simp only [emit, if_neg hw, if_neg hfull, if_neg hfast, hstart]
  by_cases hunset : off % 8 ≠ 0 ∧ buf.read (off / 8) = none
  · simp only [if_pos hunset]
    rfl
  simp only [if_neg hunset]
  have hchunks := emitChunks_alike (v := truncBits w v) (Nat.le_refl w) hbuf
  cases hm : emitChunks w w off (truncBits w v) buf <;> cases hm' : emitChunks w w off (truncBits w v) buf' <;>
    rw [hm, hm'] at hchunks
  · exact hchunks
  · exact hchunks.elim
  · exact hchunks.elim
  · exact ⟨rfl, rfl, hchunks⟩

/-- A whole pattern over both buffers: the same stop, and the same bytes up to the cursor. -/
theorem runActions_alike {acts : List EmitAction} {e e' : Emission} (h : e.Agrees e') :
    (runActions acts e).2 = (runActions acts e').2 ∧ (runActions acts e).1.Agrees (runActions acts e').1 := by
  induction acts generalizing e e' with
  | nil => exact ⟨rfl, h⟩
  | cons a rest ih =>
    have hput : ∀ w v,
        (runActions (.put w v :: rest) e).2 = (runActions (.put w v :: rest) e').2
          ∧ (runActions (.put w v :: rest) e).1.Agrees (runActions (.put w v :: rest) e').1 := by
      intro w v
      have hemit := emit_alike (w := w) (v := v) h
      cases he : emit w v e <;> cases he' : emit w v e' <;> rw [he, he'] at hemit <;>
        simp only [runActions, he, he']
      · exact ⟨congrArg some hemit, h⟩
      · exact hemit.elim
      · exact hemit.elim
      · exact ih hemit
    cases a with
    | halt stop => exact ⟨rfl, h⟩
    | put w v => exact hput w v
    | putWhole w v =>
      simp only [runActions, ← h.off]
      by_cases hfast : fastPath e.off w = true
      · simp only [if_pos hfast]
        exact hput w v
      · simp only [if_neg hfast]
        exact ⟨trivial, h⟩

/-! ## What the host sees of an ENCODE -/

/-- Two ends of an ENCODE with the same code, and on success the same length and bytes. -/
def State.AnswersLike (t t' : State) : Prop :=
  t'.phase = t.phase ∧ t'.result.encodeCode = t.result.encodeCode
    ∧ ∀ n, t.result = .encoded .noError n →
      t'.result = .encoded .noError n ∧ ∀ a, a < n → t'.buf.read a = t.buf.read a

/-- An ENCODE that raised an error answers with the code alone. -/
theorem encodeRaised_answersLike {u t' : State} {c : ReturnCode} (hc : c ≠ .noError) (hphase : t'.phase = .idle)
    (hcode : t'.result.encodeCode = some c) : (u.encodeRaised c).AnswersLike t' := by
  refine ⟨hphase, hcode, fun n hn => ?_⟩
  cases hn
  exact absurd rfl hc

/-- Emit and Finalize answer alike where the emitter does. -/
theorem afterEmission_alike {u u' t : State} {r r' : Emission × Option Stop} (hstop : r.2 = r'.2) (hagrees : r.1.Agrees r'.1)
    (herror : ∀ c, r.2 = some (.raise c) → c ≠ .noError) (h : u.afterEmission r = .next t) :
    ∃ t', u'.afterEmission r' = .next t' ∧ t.AnswersLike t' := by
  obtain ⟨e, st⟩ := r
  obtain ⟨e', st'⟩ := r'
  dsimp only at hstop hagrees herror
  subst hstop
  cases st with
  | none =>
    by_cases haligned : e.off % 8 = 0
    · rw [State.afterEmission_aligned haligned] at h
      cases h
      refine ⟨_, State.afterEmission_aligned (by rwa [← hagrees.off]), rfl, rfl, fun n hn => ?_⟩
      obtain rfl : e.off / 8 = n := (CmdResult.encoded.inj hn).2
      have hlength : e'.off / 8 = e.off / 8 := by rw [hagrees.off]
      exact ⟨congrArg (CmdResult.encoded .noError) hlength, fun a ha => (hagrees.buf a (by omega)).symm⟩
    · rw [State.afterEmission_unaligned haligned] at h
      cases h
      exact ⟨_, State.afterEmission_unaligned (by rwa [← hagrees.off]), rfl, rfl, nofun⟩
  | some stop =>
    obtain ⟨c, rfl, rfl⟩ | ⟨rfl, rfl⟩ := encodeStopped_next h
    · exact ⟨_, rfl, encodeRaised_answersLike (herror c rfl) rfl rfl⟩
    · exact ⟨_, rfl, rfl, rfl, nofun⟩

/-- Emit raises no NONE. -/
theorem emission_raises_error {b : Bound} {q : Request} {cap : Nat} {m : Mem} {c : ReturnCode}
    (h : (runActions (emissionPattern b q) ⟨cap, 0, m⟩).2 = some (.raise c)) : c ≠ .noError := by
  have hrun : runActions (emissionPattern b q) ⟨cap, 0, m⟩ =
      ((runActions (emissionPattern b q) ⟨cap, 0, m⟩).1, some (.raise c)) := by rw [← h]
  exact mayStopEncode_of_emission (s := { buf := m }) hrun fun hw => ⟨Nat.zero_le _, m.startsAt_zero, hw⟩

end Sys2Proof.Machine

namespace Sys2Proof

open Machine

/-- Settles O50: Bind is the same computation in both states, and the emitter's two runs agree. -/
theorem encodeDependsOnTheRequestAlone : Obligations.EncodeDependsOnTheRequestAlone := by
  intro s s' t c hidle hidle' hconsumed hrq htable hillegal hregisters hexec
  have hparams : EncodesLike s.params s'.params := ⟨hillegal, hregisters⟩
  cases hloaded : s.params.table with
  | none =>
    rw [exec_encode_unloaded hloaded, issue_idle s _ hidle] at hexec
    cases hexec
  | some table =>
    rw [exec_encode_loaded (htable ▸ hloaded)]
    rw [exec_encode_loaded hloaded] at hexec
    obtain ⟨hs, hend⟩ := startEncode_next hexec
    have hs' : s'.encodable := ⟨hidle', hrq ▸ hs.2.1, hconsumed ▸ hs.2.2⟩
    have hsame : bindRequest (bindTable table) s'.params (precondition s'.params.registers { s'.rq with error := .noError }) =
        bindRequest (bindTable table) s.params (precondition s.params.registers { s.rq with error := .noError }) := by
      rw [← hrq, ← hregisters, bindRequest_eq_of_encodesLike hparams]
    obtain ⟨stop, hbind, hstop⟩ | ⟨b, q, hbind, -⟩ := hend
    · obtain rfl | ⟨r, rfl, -⟩ := bindRequest_error (fun q => bindTable_error) hbind
      · cases hstop
        obtain ⟨t', ht', hcode, -, hphase, -⟩ := failsUntouched_of_bindRequest (cap := c) hs' (hsame.trans hbind)
        exact ⟨t', ht', encodeRaised_answersLike nofun hphase hcode⟩
      · cases hstop
    · rw [startEncode_of_bound hs hbind] at hexec
      rw [startEncode_of_bound hs' (hsame.trans hbind)]
      have hstart : Emission.Agrees ⟨min c 15, 0, s.buf⟩ ⟨min c 15, 0, s'.buf⟩ := ⟨rfl, rfl, s.buf.agreeTo_zero s'.buf⟩
      obtain ⟨hstop, hagrees⟩ := runActions_alike (acts := emissionPattern b q) hstart
      exact afterEmission_alike hstop hagrees (fun _ => emission_raises_error) hexec

end Sys2Proof
end

section
/-! ENCODE through the fixture table T0 (spec/42_table_lookup.md R230, R234): the group of a class offers its rows in table
order, so ENCODE runs as the row that is first to match, which is a fixture iform in the capacity that ENCODE declares. -/

namespace Sys2Proof.Machine

/-- A row of T0 as a rule of a group binds it. -/
theorem ruleBound_fixtureT0 {n : Nat} {i : IformSpec} (h : fixtureRows[n]? = some i) :
    ruleBound fixtureT0 { iform := n } = .ok (referenceBound n i) := by
  have hrows : ∀ i ∈ fixtureRows, i.fbIndex = 0 ∧ i.emitIndex = 0 := by decide
  obtain ⟨hbinding, hemission⟩ := hrows i (List.mem_of_getElem? h)
  have hiform : fixtureT0.iforms[n]? = some i := h
  have hvalues : fixtureT0.fieldValues.drop i.fvStart = [] := List.drop_nil
  change boundOf fixtureT0 n = _
  rw [boundOf, hiform]
  dsimp only
  rw [hbinding, hemission, hvalues]
  rfl

theorem groupRules_fixtureT0 {rows : List (Nat × IformSpec)} (h : ∀ r ∈ rows, fixtureRows[r.1]? = some r.2) :
    groupRules fixtureT0 (shapeGroup (rows.map Prod.fst)) =
      .ok (rows.map fun r => ({ iform := r.1 }, referenceBound r.1 r.2)) := by
  induction rows with
  | nil => rfl
  | cons r rest ih =>
    obtain ⟨hr, hrest⟩ := List.forall_mem_cons.1 h
    change groupRules fixtureT0 ({ iform := r.1 } :: shapeGroup (rest.map Prod.fst)) = _
    rw [groupRules, ruleBound_fixtureT0 hr, ih hrest]
    rfl

/-- Bind through T0 is a bind among the rows of the class's group. -/
theorem bindTable_fixtureT0 {q : Request} {g : Nat} {rows : List (Nat × IformSpec)} (hclass : q.iclass ≠ 0)
    (hgroup : groupIndex q.iclass fixtureT0.groupOf = some g)
    (hrules : fixtureT0.groups[g]? = some (shapeGroup (rows.map Prod.fst)))
    (hrows : ∀ r ∈ rows, fixtureRows[r.1]? = some r.2) : bindTable fixtureT0 q = bindRows rows q := by
  rw [bindTable_of_group hclass hgroup hrules, groupRules_fixtureT0 hrows]
  rfl

/-- ENCODE reads its bind at one request: the one Precondition hands over, with the derived bits cleared. -/
theorem startEncode_of_same_bound {s : State} {cap : Nat} {bind bind' : Binder} {q : Request}
    (hentered : precondition s.params.registers { s.rq with error := .noError } = q)
    (h : bind { q with derived := {} } = bind' { q with derived := {} }) :
    s.startEncode cap bind = s.startEncode cap bind' := by
  have hbind : bindRequest bind s.params q = bindRequest bind' s.params q := by
    simp only [bindRequest, h]
  have hrun : s.runEncode cap bind = s.runEncode cap bind' := by
    simp only [State.runEncode, State.runPrecondition_params, State.runPrecondition_rq, State.enterEncode_params,
      State.enterEncode_rq, hentered, hbind]
  simp only [State.startEncode, State.issue, hrun]

/-- A request that binds to the row `i`, also through T0, is encoded as by the row's iform in a state of that capacity. -/
theorem exec_encode_of_rowBinds {s : State} {c n : Nat} {i : IformSpec} {q : Request} (ht : s.params.table = some fixtureT0)
    (hbinds : RowBinds { s with capacity := c } [(n, i)] n i q) (hbound : bindTable fixtureT0 q = .ok (referenceBound n i)) :
    exec (.encode c) s = ({ s with capacity := c } : State).encodeRows [(n, i)] := by
  obtain ⟨-, hentered, hderived, hrow⟩ := hbinds
  have hclear : { q with derived := {} } = q := hderived ▸ rfl
  rw [exec_encode_loaded ht]
  exact startEncode_of_same_bound hentered (by rw [hclear, hbound, hrow])

/-- ADD EAX, [EDX + disp32] in 32-bit mode (spec/45_operand_builder.md R355). -/
def addEaxMemory (sm : Nat) (v : Word64) : Request :=
  registerMemory (memoryOperand 32 sm 32 32 (some ⟨.gpr32, 2⟩) none 0 none v 32) iclassADD ⟨.gpr32, 0⟩

theorem widths_addEaxMemory : Widths 32 32 32 := ⟨.inr (.inl rfl), .inr (.inl ⟨.inr (.inl rfl), rfl⟩)⟩

theorem rowBinds_addEaxMemory {s : State} {sm : Nat} {v : Word64} (hrq : s.rq = addEaxMemory sm v) :
    RowBinds s [(0, rowAddGprvMemv)] 0 rowAddGprvMemv (addEaxMemory sm v) :=
  rowBinds_registerMemory regMemRow_rowAddGprvMemv rfl widths_addEaxMemory (.inr (.inl ⟨rfl, rfl⟩)) (by decide)
    (LoneBase.ne_regRIP ⟨.inl ⟨rfl, rfl⟩, by decide, .inr (.inr rfl)⟩) rfl hrq

theorem bindTable_addEaxMemory (sm : Nat) (v : Word64) :
    bindTable fixtureT0 (addEaxMemory sm v) = .ok (referenceBound 0 rowAddGprvMemv) := by
  have hgroup : bindTable fixtureT0 (addEaxMemory sm v) =
      bindRows [(0, rowAddGprvMemv), (1, rowAddGprvGprv01), (2, rowAddMemvImmb)] (addEaxMemory sm v) :=
    bindTable_fixtureT0 (g := 0) (Nat.succ_ne_zero 0) rfl rfl (by decide)
  have hshape : shapeMatches .legacy 32 (addEaxMemory sm v) 0 rowAddGprvMemv.operands = true :=
    shapeMatches_registerMemory regMemRow_rowAddGprvMemv (.inr (.inl ⟨rfl, rfl⟩)) (by decide)
  exact hgroup.trans (bindRows_of_first (iformMatches_of_shape (fixtureRow_of_index (n := 0) rfl) rfl (.inr (.inl rfl))
    (.inr (.inr (.inl rfl))) rfl rfl hshape))

/-- The row encodes it in six bytes. -/
theorem encoded_addEaxMemory {s : State} {sm : Nat} {v : Word64} (hs : s.encodable) (hcapacity : 6 ≤ s.capacity)
    (hrq : s.rq = addEaxMemory sm v) :
    s.encoded s.capacity [0x03, 0x82, v.extractLsb' 0 8, v.extractLsb' 8 8, v.extractLsb' 16 8, v.extractLsb' 24 8]
      (s.encodeRows [(0, rowAddGprvMemv)]) := by
  have haddress : AddressEncodes s.params .legacy { addEaxMemory sm v with derived := regBits 32 (low3 0) (bit3 0) } false false
      (baseDispBytes 0 2 32 v) :=
    addressEncodes_lone_base (easz := 32) (n := 2) (.inl ⟨rfl, rfl⟩) rfl (by decide) rfl rfl (Nat.zero_le 1) rfl
      (.inr (.inr rfl))
  exact encoded_registerMemory regMemRow_rowAddGprvMemv hs (rowBinds_addEaxMemory hrq) widths_addEaxMemory
    (.inr (.inl ⟨rfl, rfl⟩)) (by decide) rfl haddress (fun _ => ⟨by decide, rfl, rfl, by decide⟩) rfl hcapacity (by simp)

end Sys2Proof.Machine

namespace Sys2Proof

open Machine

/-- Settles O48: the group of ADD offers row 1 first, which matches. -/
theorem encodeOfTheLiteralScenario : Obligations.EncodeOfTheLiteralScenario := by
  intro s sm c v hs htable hcapacity hrq
  have hbinds := rowBinds_addEaxMemory (s := { s with capacity := c }) hrq
  rw [exec_encode_of_rowBinds htable hbinds (bindTable_addEaxMemory sm v)]
  exact encoded_addEaxMemory (s := { s with capacity := c }) hs hcapacity hrq

end Sys2Proof
end

section
/-! Which instructions enter FATAL (spec/43_encode_dispatch.md R276, spec/60_exceptions.md R394): a computation asserts if it
stops with `fatal`, and only the two width setters do; every other command that answers a next state ends in IDLE. -/

namespace Sys2Proof.Machine

/-! ## Computations that do not assert -/

/-- The computation does not stop by a fatal assertion. -/
def Check.NoAssert {α : Type} (x : Check α) : Prop := x ≠ .error .fatal

theorem noAssert_ok {α : Type} (a : α) : Check.NoAssert (.ok a : Check α) := nofun

theorem noAssert_refuse {α : Type} (r : Refusal) : Check.NoAssert (refuse r : Check α) := nofun

theorem noAssert_ite {α : Type} {c : Prop} [Decidable c] {x y : Check α} (hx : x.NoAssert) (hy : y.NoAssert) :
    Check.NoAssert (if c then x else y) := by
  split
  · exact hx
  · exact hy

theorem Check.NoAssert.bind {α β : Type} {x : Check α} {f : α → Check β} (hx : x.NoAssert) (hf : ∀ a, (f a).NoAssert) :
    (x >>= f).NoAssert := by
  intro h
  obtain h | ⟨a, -, h⟩ := Check.bind_error h
  · exact hx h
  · exact hf a h

/-- The stop of such a computation, as the stop of another. -/
theorem Check.NoAssert.of_error {α β : Type} {x : Check α} {stop : Stop} (hx : x.NoAssert) (h : x = .error stop) :
    Check.NoAssert (.error stop : Check β) := by
  intro hstop
  cases hstop
  exact hx h

/-! ## The works of the commands -/

theorem noAssert_putEosz {b : Nat} (hb : b = 8 ∨ b = 16 ∨ b = 32 ∨ b = 64) (q : Request) : (putEosz b q).NoAssert := by
  rw [putEosz, if_pos hb]
  exact noAssert_ok _

theorem noAssert_putEasz {b : Nat} (hb : b = 16 ∨ b = 32 ∨ b = 64) (q : Request) : (putEasz b q).NoAssert := by
  rw [putEasz, if_pos hb]
  exact noAssert_ok _

theorem noAssert_putNatField (legal : Bool) (q : Request) : (putNatField legal q).NoAssert :=
  noAssert_ite (noAssert_ok _) (noAssert_refuse _)

theorem noAssert_assignField (p : Params) (f : FieldAssign) (q : Request) : (assignField p f q).NoAssert := by
  cases f with
  | mode v | smode v | eosz v | easz v | dispWidth v | brdispWidth v | roundc v | norder v => exact noAssert_putNatField _ _
  | vl v =>
    simp only [assignField]
    split
    · exact noAssert_ok _
    · exact noAssert_refuse _
  | orderEntry k v | named i v => exact noAssert_ite (noAssert_ok _) (noAssert_refuse _)
  | error v => exact noAssert_refuse _
  | _ => exact noAssert_ok _

theorem noAssert_initRequest (mode smode : Nat) (s : State) : (initRequest mode smode s).NoAssert :=
  noAssert_ite (noAssert_ok _) (noAssert_refuse _)

theorem noAssert_bridgeRequest (d : DecodedRecord) (s : State) : (bridgeRequest d s).NoAssert := by
  unfold bridgeRequest
  split
  · exact noAssert_refuse _
  · exact noAssert_ite (noAssert_refuse _) (noAssert_ite (noAssert_refuse _) (noAssert_ok _))

theorem noAssert_setAndPush (s : State) (f : Request → Request) (n : OperandName) : (s.setAndPush f n).NoAssert := by
  have hpush : (pushOperand s.params.maxOperands n (f s.rq)).NoAssert := noAssert_ite (noAssert_ok _) (noAssert_refuse _)
  unfold State.setAndPush
  split
  · exact noAssert_ok _
  · exact hpush.of_error ‹_›

theorem noAssert_buildReg (r : RegOrInvalid) (s : State) : (buildReg r s).NoAssert := by
  refine noAssert_ite (noAssert_refuse _) ?_
  split
  · exact noAssert_ok _
  · exact (noAssert_setAndPush _ _ _).of_error ‹_›

theorem noAssert_buildMem0 (m : MemDesc) (s : State) : (buildMem0 m s).NoAssert := by
  unfold buildMem0
  dsimp only
  split
  · exact noAssert_ok _
  · exact (noAssert_setAndPush _ _ _).of_error ‹_›

theorem noAssert_buildMem1 (m : MemDesc) (s : State) : (buildMem1 m s).NoAssert := by
  refine noAssert_ite (noAssert_refuse _) ?_
  split
  · exact noAssert_ok _
  · exact (noAssert_setAndPush _ _ _).of_error ‹_›

theorem noAssert_buildMem (m : MemDesc) (s : State) : (buildMem m s).NoAssert := by
  refine noAssert_ite ?_ (noAssert_refuse _)
  split
  · exact noAssert_buildMem0 m s
  · exact noAssert_buildMem1 m s
  · exact noAssert_refuse _

/-- A turn of BUILD's loop, if the descriptor has one. -/
theorem noAssert_buildOne {d : Descriptor} {s : State} {x : Check State} (h : buildOne d s = some x) : x.NoAssert := by
  cases d <;> cases h
  case reg r => exact noAssert_buildReg r s
  case brdisp v w | ptr v w => exact noAssert_ite (noAssert_setAndPush _ _ _) (noAssert_refuse _)
  case uimm0 v w | simm0 v w | imm1 v => exact noAssert_setAndPush _ _ _
  case mem m => exact noAssert_buildMem m s
  case other f =>
    unfold buildOther
    split
    · exact noAssert_ok _
    · exact (noAssert_assignField _ _ _).of_error ‹_›

theorem noAssert_buildAll (ds : List Descriptor) (s : State) : (buildAll ds s).NoAssert := by
  induction ds generalizing s with
  | nil => exact noAssert_ok _
  | cons d rest ih =>
    unfold buildAll
    split
    · exact noAssert_ok _
    · exact ih _
    · exact (noAssert_buildOne ‹_›).of_error rfl

theorem noAssert_buildWidths {eosz easz : Nat} (heosz : eosz = 0 ∨ eosz = 8 ∨ eosz = 16 ∨ eosz = 32 ∨ eosz = 64)
    (heasz : easz = 0 ∨ easz = 16 ∨ easz = 32 ∨ easz = 64) (q : Request) : (buildWidths eosz easz q).NoAssert := by
  have haddress (q : Request) : Check.NoAssert (if easz = 0 then .ok q else putEasz easz q) := by
    split
    · exact noAssert_ok _
    · exact noAssert_putEasz (heasz.resolve_left ‹_›) q
  unfold buildWidths
  dsimp only
  split
  · exact haddress q
  · exact (noAssert_putEosz (heosz.resolve_left ‹_›) q).bind haddress

theorem noAssert_buildHead {mode smode iclass eosz easz : Nat} {p : Rep} {h : Hint} {s : State}
    (heosz : eosz = 0 ∨ eosz = 8 ∨ eosz = 16 ∨ eosz = 32 ∨ eosz = 64) (heasz : easz = 0 ∨ easz = 16 ∨ easz = 32 ∨ easz = 64) :
    (buildHead mode smode iclass eosz easz p h s).NoAssert := by
  exact (noAssert_initRequest mode smode s).bind fun t => (noAssert_buildWidths heosz heasz _).bind fun q => noAssert_ok _

/-! ## The phase a command ends in -/

theorem setRequest_next_idle {s t : State} {f : Request → Request} (h : s.setRequest f = .next t) : t.phase = .idle := by
  obtain ⟨hidle, rfl⟩ := setRequest_next h
  exact hidle

theorem trySet_next_idle {s t : State} {f : State → Check Request} (hf : (f s).NoAssert) (h : s.trySet f = .next t) :
    t.phase = .idle := by
  obtain ⟨hidle, ⟨q, -, rfl⟩ | ⟨c, -, rfl⟩ | ⟨hfatal, -⟩⟩ := trySet_next h
  · exact hidle
  · rfl
  · exact absurd hfatal hf

/-- A command whose work keeps the phase and does not assert. -/
theorem perform_next_idle {s t : State} {v : CmdResult} {work : State → Check State} (hwork : (work s).NoAssert)
    (hphase : ∀ u, work s = .ok u → u.phase = s.phase) (h : (s.issue fun s => s.perform v work) = .next t) :
    t.phase = .idle := by
  obtain ⟨hidle, h⟩ := issue_next h
  obtain ⟨u, hu, rfl⟩ | ⟨c, -, rfl⟩ | ⟨hfatal, -⟩ := perform_next h
  · exact (hphase u hu).trans hidle
  · rfl
  · exact absurd hfatal hwork

theorem initRequest_phase {mode smode : Nat} {s u : State} (h : initRequest mode smode s = .ok u) : u.phase = s.phase := by
  unfold initRequest at h
  split at h <;> cases h
  rfl

theorem bridgeRequest_phase {d : DecodedRecord} {s u : State} (h : bridgeRequest d s = .ok u) : u.phase = s.phase := by
  unfold bridgeRequest at h
  repeat' split at h
  all_goals cases h
  rfl

theorem buildAll_phase {ds : List Descriptor} {s u : State} {done : Bool} (h : buildAll ds s = .ok (u, done)) :
    u.phase = s.phase := by
  induction ds generalizing s with
  | nil =>
    cases h
    rfl
  | cons d rest ih =>
    unfold buildAll at h
    split at h
    · cases h
      rfl
    · rename_i t ht
      obtain ⟨q, rc, mc, rfl⟩ := buildOne_ok ht
      exact (ih h).trans rfl
    · cases h

theorem buildHead_phase {mode smode iclass eosz easz : Nat} {p : Rep} {hint : Hint} {s u : State}
    (h : buildHead mode smode iclass eosz easz p hint s = .ok u) : u.phase = s.phase := by
  obtain ⟨t, ht, h⟩ := Check.bind_ok h
  obtain ⟨q, -, h⟩ := Check.bind_ok h
  have hphase := initRequest_phase ht
  cases h
  exact hphase

theorem buildTurn_next_idle {s t : State} {work : State → Check State} {d : Descriptor} (hd : buildOne d s = some (work s))
    (h : s.buildTurn work = .next t) : t.phase = .idle := by
  refine perform_next_idle ?_ (fun u hu => ?_) h
  · split
    · exact noAssert_ok _
    · exact (noAssert_buildOne hd).of_error ‹_›
  · split at hu
    · rename_i t ht
      cases hu
      obtain ⟨q, rc, mc, rfl⟩ := buildOne_ok (hd.trans (congrArg some ht))
      rfl
    · cases hu

theorem build_next_idle {mode smode iclass eosz easz : Nat} {p : Rep} {hint : Hint} {ds : List Descriptor} {s t : State}
    (heosz : eosz = 0 ∨ eosz = 8 ∨ eosz = 16 ∨ eosz = 32 ∨ eosz = 64) (heasz : easz = 0 ∨ easz = 16 ∨ easz = 32 ∨ easz = 64)
    (h : execBuild mode smode iclass eosz easz p hint ds s = .next t) : t.phase = .idle := by
  obtain ⟨hidle, h⟩ := issue_next h
  have stopped : ∀ {stop : Stop}, stop ≠ .fatal → s.stopped stop = .next t → t.phase = .idle := by
    intro stop hstop h
    cases stop <;> cases h
    · rfl
    · exact absurd rfl hstop
  split at h
  · cases h
  split at h
  · cases h
  split at h
  · rename_i stop hstop
    exact stopped (fun hfatal => noAssert_buildHead heosz heasz (hfatal ▸ hstop)) h
  · rename_i u hu
    split at h
    · rename_i stop hstop
      exact stopped (fun hfatal => noAssert_buildAll ds u (hfatal ▸ hstop)) h
    · rename_i hall
      cases h
      exact (buildAll_phase hall).trans ((buildHead_phase hu).trans hidle)

theorem patch_next_idle {s t : State} {loc : Option FieldLoc} {length width : Nat} {value : Word64}
    (h : s.patch loc length value width = .next t) : t.phase = .idle := by
  obtain ⟨hidle, h⟩ := issue_next h
  repeat' split at h
  all_goals cases h
  all_goals exact hidle

theorem storeLiteral_next_idle {s t : State} {bytes : List Byte} (h : (s.issue fun s => s.storeLiteral bytes) = .next t) :
    t.phase = .idle := by
  obtain ⟨hidle, h⟩ := issue_next h
  cases h
  exact hidle

theorem encodeNop_next_idle {s t : State} {length : Nat} (h : execEncodeNop length s = .next t) : t.phase = .idle := by
  obtain ⟨hidle, h⟩ := issue_next h
  split at h <;> cases h <;> exact hidle

theorem getOperandOrder_next_idle {s t : State} {position : Nat} (h : execGetOperandOrder position s = .next t) :
    t.phase = .idle := by
  obtain ⟨hidle, h⟩ := issue_next h
  split at h <;> cases h
  exact hidle

theorem emitAll_next_idle {s t : State} {acts : List EmitAction} (hp : acts.all EmitAction.isPut = true)
    (h : s.emitAll acts = .next t) : t.phase = .idle := by
  obtain ⟨hidle, e, st, hrun, ⟨-, rfl⟩ | ⟨c, -, rfl⟩ | ⟨rfl, -⟩⟩ := emitAll_next h
  · exact (State.attach_phase s).trans hidle
  · rfl
  · obtain ⟨-, -, -, -, hstop, -⟩ := runActions_frame _ _ _ _ hrun
    obtain hline | hemit := hstop _ rfl
    · exact absurd hline (halt_notMem hp)
    · simp at hemit

end Sys2Proof.Machine

namespace Sys2Proof

open Machine

/-- Settles O55: cases on the instruction, by the shared operation it runs. -/
theorem onlyAssertionsEnterFatal : Obligations.OnlyAssertionsEnterFatal := by
  intro i s t h hfatal
  unfold exec at h
  have idle {P : Prop} (hidle : t.phase = .idle) : P := by
    rw [hidle] at hfatal
    cases hfatal
  cases i with
  | setEosz b => exact .inl ⟨b, rfl, fun hb => idle (trySet_next_idle (noAssert_putEosz hb s.rq) h)⟩
  | setEasz b => exact .inr (.inl ⟨b, rfl, fun hb => idle (trySet_next_idle (noAssert_putEasz hb s.rq) h)⟩)
  | build m sm ic eo ea p hint ds =>
    exact .inr (.inr (.inl ⟨m, sm, ic, eo, ea, p, hint, ds, rfl, fun ⟨heo, hea⟩ => idle (build_next_idle heo hea h)⟩))
  | encode c => exact .inr (.inr (.inr rfl))
  | addGprvMemv | addGprvGprv01 | addMemvImmb | movGpr8Gpr8 | movGprvImmv | jmpRelbrd | jzRelbrb | movzxGprvMemb
  | vaddpsVexRrr | vaddpsVexRrm | vaddpsEvexRkrr | enterImmwImmb | movsb => exact .inr (.inr (.inr rfl))
  | reqInit m sm => exact idle (perform_next_idle (noAssert_initRequest m sm s) (fun _ => initRequest_phase) h)
  | setIclass _ | setRep | clearRep | setRepne | clearRepne | setHintTaken | setHintNotTaken | setUimm0 _ _ | setSimm0 _ _
  | setUimm1 _ | setBase0 _ | setBase1 _ | setIndex _ | setScale _ | setRelbr | setPtr | setAgen | setMem0 | setMem1 =>
    exact idle (setRequest_next_idle h)
  | setReg _ _ | setDisp _ _ | setDispBits _ _ | setBrdisp _ _ | setSeg0 _ | setSeg1 _ | setOperandOrder _ _ =>
    exact idle (trySet_next_idle (noAssert_ite (noAssert_ok _) (noAssert_refuse _)) h)
  | setField f => exact idle (trySet_next_idle (noAssert_assignField s.params f s.rq) h)
  | getOperandOrder k => exact idle (getOperandOrder_next_idle h)
  | encodeNop n => exact idle (encodeNop_next_idle h)
  | initFromDecode d => exact idle (perform_next_idle (noAssert_bridgeRequest d s) (fun _ => bridgeRequest_phase) h)
  | patchDisp _ _ _ | patchRelbr _ _ _ | patchImm0 _ _ _ => exact idle (patch_next_idle h)
  | descReg r => exact idle (buildTurn_next_idle (d := .reg r) rfl h)
  | descBrdisp v w => exact idle (buildTurn_next_idle (d := .brdisp v w) rfl h)
  | descPtr v w => exact idle (buildTurn_next_idle (d := .ptr v w) rfl h)
  | descUimm0 v w => exact idle (buildTurn_next_idle (d := .uimm0 v w) rfl h)
  | descSimm0 v w => exact idle (buildTurn_next_idle (d := .simm0 v w) rfl h)
  | descImm1 v => exact idle (buildTurn_next_idle (d := .imm1 v) rfl h)
  | descMem m => exact idle (buildTurn_next_idle (d := .mem m) rfl h)
  | descOther f => exact idle (buildTurn_next_idle (d := .other f) rfl h)
  | emitBits _ _ | pfxSegEs | pfxSegCs | pfxSegSs | pfxSegDs | pfxSegFs | pfxSegGs | pfxOsz | pfxAsz | pfxRepne | pfxRep
  | rex _ _ _ _ | escMap1 | escMap2 | escMap3 | vex2 _ | vex3 _ | evex _ | opcode _ | modrm _ _ _ | sib _ _ _ | disp _ _
  | brdisp _ _ | farptr _ _ _ | imm1 _ => exact idle (emitAll_next_idle rfl h)
  | imm0 f => cases f <;> exact idle (emitAll_next_idle rfl h)
  | nop1 | nop2 | nop3 | nop4 | nop5 | nop6 | nop7 | nop8 | nop9 => exact idle (storeLiteral_next_idle h)

end Sys2Proof
end

section
/-! The request surface (spec/44_request_surface.md R290 to R320). A setter ends in one of three ways, by what its work answers:
the request it leaves, a refusal, or a fatal assertion; with one lemma for each way, and the rules of the slots and the order
array, a command's statement is a look at the tests of its work. SET_FIELD is compared with the other setters through the
request they leave. -/

namespace Sys2Proof.Machine

/-! ## Slots and the order array (spec/10_state.md R22, R29) -/

theorem slotGet_slotSet_same {k : Nat} (h : k ≤ 8) (f : RegFile) (r : RegOrInvalid) : slotGet (slotSet f k r) k = r := by
  interval_cases k <;> rfl

theorem slotGet_slotSet_other {j k : Nat} (h : j ≠ k) (f : RegFile) (r : RegOrInvalid) :
    slotGet (slotSet f k r) j = slotGet f j := by
  unfold slotSet
  split
  all_goals
    unfold slotGet
    split <;> simp at h ⊢

/-- What reading a slot gives after a write. -/
theorem slotGet_slotSet {k : Nat} (h : k ≤ 8) (f : RegFile) (r : RegOrInvalid) (j : Nat) :
    slotGet (slotSet f k r) j = if j = k then r else slotGet f j := by
  split
  · rename_i hj
    rw [hj, slotGet_slotSet_same h]
  · exact slotGet_slotSet_other ‹_› f r

/-- What reading an entry of the order array gives after a write. -/
theorem orderGet_orderSet (order : List OperandName) (k : Nat) (n : OperandName) (j : Nat) :
    orderGet (orderSet order k n) j = if j = k then n else orderGet order j := by
  induction order, k, n using orderSet.induct generalizing j with
  | case1 n | case3 m rest n => cases j <;> simp [orderSet, orderGet]
  | case2 k n ih | case4 m rest k n ih =>
    cases j with
    | zero => simp [orderSet, orderGet]
    | succ j => simpa [orderSet, orderGet] using ih j

/-! ## Value sets (spec/10_state.md R21, R23, R26) -/

theorem isMode_iff {m : Nat} : isMode m = true ↔ m = 16 ∨ m = 32 ∨ m = 64 := by simp [isMode, or_assoc]

theorem isDispWidth_iff {w : Nat} : isDispWidth w = true ↔ w = 0 ∨ w = 8 ∨ w = 16 ∨ w = 32 := by
  simp [isDispWidth, or_assoc]

theorem segmentOrInvalid_iff {r : RegOrInvalid} : segmentOrInvalid r = true ↔ ∀ g, r = some g → g.cls = .seg := by
  cases r <;> simp [segmentOrInvalid]

/-- Where the lengths have different values, the value of each stands for it (parameter P19). -/
theorem lengthOf_of_distinct {n : LengthNumbers} (h : n.distinct = true) :
    n.lengthOf n.bits256 = some 1 ∧ n.lengthOf n.bits512 = some 2 := by
  obtain ⟨h256, h512, hne⟩ := of_decide_eq_true h
  simp [LengthNumbers.lengthOf, h256, h512, Ne.symm hne]

/-! ## How a setter ends -/

section Ends

variable {s : State} (hidle : s.phase = .idle)
include hidle

theorem setRequest_leaves (f : Request → Request) : s.setRequest f = s.leaves (f s.rq) := setRequest_idle s f hidle

theorem trySet_of_ok {f : State → Check Request} {q : Request} (h : f s = .ok q) : s.trySet f = s.leaves q := by
  rw [State.trySet, issue_idle s _ hidle, State.perform, h]
  rfl

theorem trySet_of_error {f : State → Check Request} {stop : Stop} (h : f s = .error stop) : s.trySet f = s.stopped stop := by
  rw [State.trySet, issue_idle s _ hidle, State.perform, h]

theorem trySet_of_refuse {f : State → Check Request} {r : Refusal} (h : f s = refuse r) : s.trySet f = .refused r :=
  trySet_of_error hidle h

/-- A fatal assertion of a setter: FATAL, no code, the parameters unchanged (spec/60_exceptions.md R394). -/
theorem trySet_of_fatal {f : State → Check Request} (h : f s = .error .fatal) :
    ∃ t, s.trySet f = .next t ∧ t.phase = .fatal ∧ t.result = .noResult ∧ t.params = s.params :=
  ⟨s.toFatal, trySet_of_error hidle h, rfl, rfl, rfl⟩

theorem exec_setField_of_ok {f : FieldAssign} {q : Request} (h : assignField s.params f s.rq = .ok q) :
    exec (.setField f) s = s.leaves q := trySet_of_ok hidle h

theorem exec_setField_of_refuse {f : FieldAssign} {r : Refusal} (h : assignField s.params f s.rq = refuse r) :
    exec (.setField f) s = .refused r := trySet_of_refuse hidle h

/-! ## The commands with a test -/

theorem exec_setEosz_of_width {b : Nat} (hb : b = 8 ∨ b = 16 ∨ b = 32 ∨ b = 64) :
    exec (.setEosz b) s = s.leaves { s.rq with eosz := b } := trySet_of_ok hidle (if_pos hb)

theorem exec_setEasz_of_width {b : Nat} (hb : b = 16 ∨ b = 32 ∨ b = 64) :
    exec (.setEasz b) s = s.leaves { s.rq with easz := b } := trySet_of_ok hidle (if_pos hb)

theorem exec_setReg_of_slot {k : Nat} (hk : k ≤ 8) (r : RegOrInvalid) :
    exec (.setReg k r) s = s.leaves { s.rq with regs := slotSet s.rq.regs k r } := trySet_of_ok hidle (if_pos hk)

theorem exec_setSeg0_of_segment {r : RegOrInvalid} (hr : ∀ g, r = some g → g.cls = .seg) :
    exec (.setSeg0 r) s = s.leaves { s.rq with seg0 := r } := trySet_of_ok hidle (if_pos (segmentOrInvalid_iff.2 hr))

theorem exec_setSeg1_of_segment {r : RegOrInvalid} (hr : ∀ g, r = some g → g.cls = .seg) :
    exec (.setSeg1 r) s = s.leaves { s.rq with seg1 := r } := trySet_of_ok hidle (if_pos (segmentOrInvalid_iff.2 hr))

theorem exec_setOperandOrder_of_entry {k : Nat} (hk : k < s.params.maxOperands) (n : OperandName) :
    exec (.setOperandOrder k n) s =
      s.leaves { s.rq with order := orderSet s.rq.order k n, norder := max s.rq.norder (k + 1) } := by
  have hnorder : (if s.rq.norder ≤ k then k + 1 else s.rq.norder) = max s.rq.norder (k + 1) := by split <;> omega
  rw [← hnorder]
  exact trySet_of_ok hidle (if_pos hk)

theorem exec_getOperandOrder (k : Nat) :
    exec (.getOperandOrder k) s =
      if k < s.params.maxOperands then s.finish (.name (orderGet s.rq.order k)) else .refused .operandIndex := by
  change execGetOperandOrder k s = _
  exact issue_idle s _ hidle

theorem exec_reqInit_of_modes {m sm : Nat} (h : (isMode m && isMode sm) = true) :
    exec (.reqInit m sm) s = (s.startRequest (freshRequest m sm)).finish (.code .noError) := by
  change execReqInit m sm s = _
  rw [execReqInit, issue_idle s _ hidle, State.perform, initRequest, if_pos h]

theorem exec_reqInit_of_other_mode {m sm : Nat} (h : ¬(isMode m && isMode sm) = true) :
    exec (.reqInit m sm) s = .refused .modeValue := by
  change execReqInit m sm s = _
  rw [execReqInit, issue_idle s _ hidle, State.perform, initRequest, if_neg h]
  rfl

end Ends

end Sys2Proof.Machine

namespace Sys2Proof

open Machine

/-! ## The obligations of spec/44_request_surface.md -/

/-- Settles O11: the slot is tested, then written. -/
theorem setRegWritesOneSlot : Obligations.SetRegWritesOneSlot := by
  intro s k r hidle
  refine ⟨fun hk => ?slot, fun hk => ?above⟩
  case slot => exact ⟨slotSet s.rq.regs k r, slotGet_slotSet hk s.rq.regs r, exec_setReg_of_slot hidle hk r⟩
  case above => exact trySet_of_refuse hidle (if_neg (Nat.not_le_of_lt hk))

/-- Settles O14: both commands test the position against MAX_OPERANDS. -/
theorem orderCommandsWriteAndReadOneEntry : Obligations.OrderCommandsWriteAndReadOneEntry := by
  intro s k n hidle
  rw [exec_getOperandOrder hidle]
  refine ⟨fun hk => ⟨?set, if_pos hk⟩, fun hk => ⟨?refused, if_neg (Nat.not_lt_of_le hk)⟩⟩
  case set => exact ⟨orderSet s.rq.order k n, orderGet_orderSet s.rq.order k n, exec_setOperandOrder_of_entry hidle hk n⟩
  case refused => exact trySet_of_refuse hidle (if_neg (Nat.not_lt_of_le hk))

/-- Settles O6: the request starts from the reset values. -/
theorem reqInitMakesAFreshRequest : Obligations.ReqInitMakesAFreshRequest := by
  intro s m sm hidle
  rw [← isMode_iff, ← isMode_iff, ← Bool.and_eq_true]
  exact ⟨exec_reqInit_of_modes hidle, exec_reqInit_of_other_mode hidle⟩

/-- Settles O7: none of these setters has a test. -/
theorem plainSettersWriteTheirFields : Obligations.PlainSettersWriteTheirFields := by
  intro s hidle
  have hlow (v : Word64) : v.extractLsb' 0 8 = v.setWidth 8 := (BitVec.setWidth_eq_extractLsb' (by decide)).symm
  refine ⟨fun _ => ?iclass, fun _ _ => ?uimm0, fun _ _ => ?simm0, fun v => ?uimm1, fun _ => ?base0, fun _ => ?base1,
    fun _ => ?index, fun _ => ?scale⟩
  case uimm1 =>
    rw [hlow]
    exact setRequest_leaves hidle _
  all_goals
    unfold exec
    exact setRequest_leaves hidle _

/-- Settles O8: a clear that does not find its value leaves the request as it is. -/
theorem prefixSettersWriteRepAndHint : Obligations.PrefixSettersWriteRepAndHint := by
  refine ⟨rfl, rfl, fun s hidle => ?_⟩
  have cleared (p : Rep) : (if s.rq.rep = p then { s.rq with rep := .none } else s.rq) =
      { s.rq with rep := if s.rq.rep = p then .none else s.rq.rep } := by
    split <;> rfl
  refine ⟨?setRep, ?setRepne, ?clearRep, ?clearRepne, ?taken, ?notTaken⟩
  case clearRep => exact (setRequest_leaves hidle _).trans (congrArg s.leaves (cleared .rep))
  case clearRepne => exact (setRequest_leaves hidle _).trans (congrArg s.leaves (cleared .repne))
  all_goals
    unfold exec
    exact setRequest_leaves hidle _

/-- Settles O9: none of these setters has a test. -/
theorem flagSettersSetTheirFlag : Obligations.FlagSettersSetTheirFlag := by
  refine ⟨rfl, rfl, fun s hidle => ?_⟩
  refine ⟨?relbr, ?ptr, ?agen, ?mem0, ?mem1⟩
  all_goals
    unfold exec
    exact setRequest_leaves hidle _

/-- Settles O10: the other widths are asserted away. -/
theorem widthSettersWriteOrAreFatal : Obligations.WidthSettersWriteOrAreFatal := fun _ _ hidle =>
  ⟨exec_setEosz_of_width hidle, exec_setEasz_of_width hidle, fun hb => trySet_of_fatal hidle (if_neg hb),
    fun hb => trySet_of_fatal hidle (if_neg hb)⟩

/-- Settles O12: each command tests its width, then writes value and width. -/
theorem displacementSettersWriteValueAndWidth : Obligations.DisplacementSettersWriteValueAndWidth := by
  intro s v w hidle
  refine ⟨fun hw => ?bytes, fun hw => ?otherBytes, fun hw => ?bits, fun hw => ?otherBits, fun hw => ?branch,
    fun hw => ?otherBranch⟩
  case bytes | branch => exact trySet_of_ok hidle (if_pos hw)
  case otherBytes | otherBranch => exact trySet_of_refuse hidle (if_neg hw)
  case bits => exact trySet_of_ok hidle (if_pos (isDispWidth_iff.2 hw))
  case otherBits => exact trySet_of_refuse hidle (if_neg (mt isDispWidth_iff.1 hw))

/-- Settles O13: the class is tested, then the register written. -/
theorem segmentSettersTakeSegmentsOnly : Obligations.SegmentSettersTakeSegmentsOnly := by
  intro s r hidle
  refine ⟨fun hr => ⟨exec_setSeg0_of_segment hidle hr, exec_setSeg1_of_segment hidle hr⟩, fun g hg hcls => ?_⟩
  have hother : ¬segmentOrInvalid r = true := fun hr => hcls (segmentOrInvalid_iff.1 hr g hg)
  exact ⟨trySet_of_refuse hidle (if_neg hother), trySet_of_refuse hidle (if_neg hother)⟩

/-- Settles O15: the fields without a set are written by definition; the named cases have a test to pass or a place to write. -/
theorem setFieldWritesTheNamedField : Obligations.SetFieldWritesTheNamedField := by
  intro s hidle
  have written {f : FieldAssign} {q : Request} (h : assignField s.params f s.rq = .ok q) :
      exec (.setField f) s = s.leaves q := exec_setField_of_ok hidle h
  have like {f : FieldAssign} {q : Request} {answer : Result} (hq : answer = s.leaves q)
      (h : assignField s.params f s.rq = .ok q) : exec (.setField f) s = answer := (written h).trans hq.symm
  obtain ⟨hiclass, -, -, -, hbase0, hbase1, hindex, hscale⟩ := plainSettersWriteTheirFields s hidle
  obtain ⟨-, -, hsetters⟩ := prefixSettersWriteRepAndHint
  obtain ⟨hrep, hrepne, -, -, htaken, hnotTaken⟩ := hsetters s hidle
  obtain ⟨-, -, hflags⟩ := flagSettersSetTheirFlag
  obtain ⟨hrelbr, hptr, hagen, hmem0, hmem1⟩ := hflags s hidle
  refine ⟨fun m hm => ?modes, fun b hb => ?eosz, written rfl, written rfl,
    fun n => ⟨written rfl, like (hiclass n) rfl⟩, fun k r => ?slots,
    -- registers, scale and displacements (R22 to R24)
    fun r => ⟨like (hbase0 r) rfl, written rfl, like (hbase1 r) rfl, written rfl, like (hindex r) rfl, written rfl⟩,
    fun n => ⟨like (hscale n) rfl, written rfl⟩, fun r hr => ?segments,
    fun _ => written rfl, fun _ => written rfl, fun w hw => ?widths,
    -- immediates, flags, prefixes and vector fields (R23 to R26)
    fun _ => written rfl, fun _ => written rfl, fun _ => written rfl, fun _ => written rfl, fun _ => written rfl,
    fun _ => written rfl, fun _ => written rfl, fun _ => written rfl, fun _ => written rfl, fun _ => written rfl,
    fun _ => written rfl, fun _ => written rfl, fun _ => written rfl, fun _ => written rfl,
    like hrelbr rfl, like hptr rfl, like hagen rfl, like hmem0 rfl, like hmem1 rfl,
    fun _ => written rfl, like hrep rfl, like hrepne rfl, fun _ => written rfl, like htaken rfl, like hnotTaken rfl,
    written rfl, fun hdistinct => ?lengths, fun v hv => ?roundc,
    -- the derived bits (R27)
    fun _ => written rfl, fun _ => written rfl, fun _ => written rfl, fun _ => written rfl, fun _ => written rfl,
    fun _ => written rfl, fun _ => written rfl, fun _ => written rfl, fun _ => written rfl, fun _ => written rfl,
    fun _ => written rfl, fun _ => written rfl, fun _ => written rfl, fun _ => written rfl, fun _ => written rfl,
    fun _ => written rfl, fun _ => written rfl, fun _ => written rfl, fun _ => written rfl, fun _ => written rfl,
    fun _ => written rfl, fun _ => written rfl,
    fun k n hk => ?entry, fun k n hk => ?outside, fun n hn => ?norder, fun i v hi hwf => ?named, fun i v hi => ?unknown,
    fun _ => exec_setField_of_refuse hidle rfl⟩
  case modes =>
    have hmode : (m == 0 || isMode m) = true := by rw [isMode_iff.2 hm, Bool.or_true]
    exact ⟨written (if_pos hmode), written (if_pos hmode), written (if_pos hmode),
      like (exec_setEasz_of_width hidle hm) (if_pos hmode)⟩
  case eosz =>
    have hwidth : (b == 0 || b == 8 || isMode b) = true := by
      obtain rfl | hb := hb
      · rfl
      · rw [isMode_iff.2 hb, Bool.or_true]
    exact ⟨written (if_pos hwidth), like (exec_setEosz_of_width hidle hb) (if_pos hwidth)⟩
  case slots =>
    have hk : k.val ≤ 8 := Nat.le_of_lt_succ k.isLt
    exact ⟨like (exec_setReg_of_slot hidle hk r) rfl, slotSet s.rq.regs k.val r, slotGet_slotSet hk s.rq.regs r, written rfl⟩
  case segments =>
    exact ⟨like (exec_setSeg0_of_segment hidle hr) rfl, written rfl, like (exec_setSeg1_of_segment hidle hr) rfl, written rfl⟩
  case widths =>
    have hwidth : isDispWidth w = true := isDispWidth_iff.2 hw
    exact ⟨written (if_pos hwidth), written (if_pos hwidth)⟩
  case lengths =>
    obtain ⟨h256, h512⟩ := lengthOf_of_distinct hdistinct
    exact ⟨written (by simp only [assignField, h256]), written (by simp only [assignField, h512])⟩
  case roundc => exact written (if_pos (decide_eq_true hv))
  case entry => exact ⟨orderSet s.rq.order k n, orderGet_orderSet s.rq.order k n, written (if_pos hk)⟩
  case outside => exact exec_setField_of_refuse hidle (if_neg (Nat.not_lt_of_le hk))
  case norder => exact written (if_pos (decide_eq_true hn))
  case named =>
    exact ⟨setNamed s.rq.named i v, fun j => getNamed_setNamed i v j hwf, written (if_pos (List.contains_iff_mem.2 hi))⟩
  case unknown => exact exec_setField_of_refuse hidle (if_neg (mt List.contains_iff_mem.1 hi))

end Sys2Proof
end

section
/-! The operand builder (spec/45_operand_builder.md R340 to R354). Each work of BUILD's loop has one equation that says which test
it passes, what it writes and which name it pushes; from these a turn either writes the request and the two counters or is
refused, whatever the last command returned (`TurnEnds`). So a turn issued alone and the same turn inside BUILD answer alike, and
what a turn wrote can be compared with what its setters write. -/

namespace Sys2Proof.Machine

/-! ## Pushing an operand name (R341) -/

/-- The request after a push with room in the order array. -/
def pushedRequest (q : Request) (n : OperandName) : Request :=
  { q with order := orderSet q.order q.norder n, norder := q.norder + 1 }

theorem pushed_pushedRequest (q : Request) (n : OperandName) : pushed q n (pushedRequest q n) :=
  ⟨rfl, orderGet_orderSet q.order q.norder n⟩

theorem setAndPush_eq (s : State) (f : Request → Request) (n : OperandName) :
    s.setAndPush f n =
      if (f s.rq).norder < s.params.maxOperands then .ok { s with rq := pushedRequest (f s.rq) n }
      else refuse .operandIndex := by
  unfold State.setAndPush pushOperand
  by_cases hroom : (f s.rq).norder < s.params.maxOperands
  · simp only [if_pos hroom, pushedRequest]
  · simp only [if_neg hroom, refuse]

/-! ## The works with a counter (R342 to R345) -/

theorem buildReg_eq (r : RegOrInvalid) (s : State) :
    buildReg r s =
      if 8 < s.regcnt then refuse .registerOperandCount
      else if s.rq.norder < s.params.maxOperands then
        .ok { s with
          rq := pushedRequest { s.rq with regs := slotSet s.rq.regs s.regcnt r } (regName s.regcnt)
          regcnt := s.regcnt + 1 }
      else refuse .operandIndex := by
  unfold buildReg
  rw [setAndPush_eq]
  split_ifs <;> rfl

/-- What a first memory operand writes (R343, R344). -/
def firstMemory (g : RegSpace) (m : MemDesc) (q : Request) : Request :=
  { q with
    base0 := m.base
    index := m.index
    scale := m.scale
    seg0 := m.seg
    disp := m.dispValue
    dispWidth := m.dispWidth
    mem0 := true
    easz := inferEasz g m.base m.index q.easz }

theorem buildMem0_eq (m : MemDesc) (s : State) :
    buildMem0 m s =
      if s.rq.norder < s.params.maxOperands then
        .ok { s with rq := pushedRequest (firstMemory s.params.registers m s.rq) .mem0, memcnt := 1 }
      else refuse .operandIndex := by
  unfold buildMem0
  dsimp only
  rw [setAndPush_eq]
  split_ifs <;> rfl

/-- What a second memory operand writes (R345). -/
def secondMemory (m : MemDesc) (q : Request) : Request := { q with base1 := m.base, seg1 := m.seg, mem1 := true }

theorem buildMem1_eq (m : MemDesc) (s : State) :
    buildMem1 m s =
      if m.index ≠ none ∨ (m.scale ≠ 0 ∧ m.scale ≠ 1) ∨ m.dispWidth ≠ 0 then refuse .secondMemoryFields
      else if s.rq.norder < s.params.maxOperands then
        .ok { s with rq := pushedRequest (secondMemory m s.rq) .mem1, memcnt := 2 }
      else refuse .operandIndex := by
  unfold buildMem1
  rw [setAndPush_eq]
  split_ifs <;> rfl

/-- MEM tests the displacement width, then counts the memory operands. -/
theorem buildMem_of_width {m : MemDesc} (hw : isDispWidth m.dispWidth = true) (s : State) :
    (s.memcnt = 0 → buildMem m s = buildMem0 m s) ∧ (s.memcnt = 1 → buildMem m s = buildMem1 m s)
      ∧ (2 ≤ s.memcnt → buildMem m s = refuse .thirdMemoryOperand) := by
  rw [buildMem, if_pos hw]
  refine ⟨fun h => ?first, fun h => ?second, fun h => ?third⟩
  case first | second => simp only [h]
  case third =>
    obtain ⟨k, hk⟩ : ∃ k, s.memcnt = k + 2 := ⟨s.memcnt - 2, by omega⟩
    simp only [hk]

/-! ## Address-width inference (R344) -/

/-- The base, or the index where there is no base, decides alone. -/
theorem inferEasz_of_register {base index : RegOrInvalid} {r : Reg} (h : base = some r ∨ (base = none ∧ index = some r))
    (g : RegSpace) (easz : Nat) : inferEasz g base index easz = inferEasz g (some r) none easz := by
  obtain rfl | ⟨rfl, rfl⟩ := h
  · rfl
  · rfl

theorem inferEasz_of_gpr (g : RegSpace) (r : Reg) (easz : Nat) :
    (r.cls = .gpr16 → inferEasz g (some r) none easz = 16) ∧ (r.cls = .gpr32 → inferEasz g (some r) none easz = 32)
      ∧ (r.cls = .gpr64 → inferEasz g (some r) none easz = 64) := by
  refine ⟨fun h => ?_, fun h => ?_, fun h => ?_⟩
  all_goals simp only [inferEasz, h]

theorem inferEasz_of_other_class {r : Reg} (h16 : r.cls ≠ .gpr16) (h32 : r.cls ≠ .gpr32) (h64 : r.cls ≠ .gpr64)
    (hip : r.cls ≠ .ip) (g : RegSpace) (easz : Nat) : inferEasz g (some r) none easz = easz := by
  unfold inferEasz
  dsimp only
  split
  · exact absurd ‹_› h16
  · exact absurd ‹_› h32
  · exact absurd ‹_› h64
  · exact absurd ‹_› hip
  · rfl

/-- RIP, EIP and IP where these are three registers. -/
theorem inferEasz_of_instructionPointer {g : RegSpace} (hnames : g.namesDistinct = true) (easz : Nat) :
    inferEasz g (some g.regRIP) none easz = 64 ∧ inferEasz g (some g.regEIP) none easz = 32
      ∧ inferEasz g (some g.regIP) none easz = 16 := by
  obtain ⟨-, -, hip⟩ := of_decide_eq_true hnames
  obtain ⟨⟨hie, hir⟩, her⟩ : (g.ip ≠ g.eip ∧ g.ip ≠ g.rip) ∧ g.eip ≠ g.rip := by simpa using hip
  simp [inferEasz, RegSpace.regRIP, RegSpace.regEIP, RegSpace.regIP, hie, hir, her]

/-- The width stays, or becomes one that SET_EASZ takes. -/
theorem inferEasz_eq_or (g : RegSpace) (base index : RegOrInvalid) (easz : Nat) :
    inferEasz g base index easz = easz ∨ inferEasz g base index easz = 16 ∨ inferEasz g base index easz = 32
      ∨ inferEasz g base index easz = 64 := by
  unfold inferEasz
  dsimp only
  repeat' split
  all_goals simp

/-! ## How a turn ends -/

/-- SET_FIELD and OTHER write the request or are refused. -/
theorem assignField_ok_or_refuse (p : Params) (f : FieldAssign) (q : Request) :
    (∃ q', assignField p f q = .ok q') ∨ ∃ r, assignField p f q = refuse r := by
  have guarded (c : Prop) [Decidable c] (q' : Request) (r : Refusal) :
      (∃ q'', (if c then .ok q' else refuse r : Check Request) = .ok q'')
        ∨ ∃ r', (if c then .ok q' else refuse r : Check Request) = refuse r' := by
    split
    · exact .inl ⟨q', rfl⟩
    · exact .inr ⟨r, rfl⟩
  cases f with
  | mode v | smode v | eosz v | easz v | dispWidth v | brdispWidth v | roundc v | norder v | orderEntry k v | named i v =>
    exact guarded _ _ _
  | vl v =>
    simp only [assignField]
    split
    · exact .inl ⟨_, rfl⟩
    · exact .inr ⟨_, rfl⟩
  | error v => exact .inr ⟨_, rfl⟩
  | _ => exact .inl ⟨_, rfl⟩

/-- From `s` the work writes the request and the two counters, or is refused, whatever the last command returned. -/
def TurnEnds (s : State) (work : State → Check State) : Prop :=
  (∃ q rc mc, ∀ v, work { s with result := v } = .ok { s with rq := q, regcnt := rc, memcnt := mc, result := v })
    ∨ ∃ r, ∀ v, work { s with result := v } = refuse r

section Ends

variable {s : State} {x y : State → Check State}

theorem turnEnds_ok (s : State) (q : Request) (rc mc : Nat) :
    TurnEnds s fun t => .ok { t with rq := q, regcnt := rc, memcnt := mc } := .inl ⟨q, rc, mc, fun _ => rfl⟩

theorem turnEnds_refuse (s : State) (r : Refusal) : TurnEnds s fun _ => refuse r := .inr ⟨r, fun _ => rfl⟩

theorem turnEnds_ite (c : Prop) [Decidable c] (hx : TurnEnds s x) (hy : TurnEnds s y) :
    TurnEnds s fun t => if c then x t else y t := by
  by_cases h : c
  · simpa only [if_pos h] using hx
  · simpa only [if_neg h] using hy

theorem TurnEnds.congr (hy : TurnEnds s y) (h : ∀ v, x { s with result := v } = y { s with result := v }) :
    TurnEnds s x := by
  unfold TurnEnds at hy ⊢
  simpa only [h] using hy

end Ends

theorem turnEnds_setAndPush (s : State) (f : Request → Request) (n : OperandName) :
    TurnEnds s fun t => t.setAndPush f n :=
  (turnEnds_ite ((f s.rq).norder < s.params.maxOperands) (turnEnds_ok s (pushedRequest (f s.rq) n) s.regcnt s.memcnt)
    (turnEnds_refuse s .operandIndex)).congr fun v => setAndPush_eq { s with result := v } f n

theorem turnEnds_buildReg (r : RegOrInvalid) (s : State) : TurnEnds s (buildReg r) :=
  (turnEnds_ite (8 < s.regcnt) (turnEnds_refuse s .registerOperandCount)
    (turnEnds_ite (s.rq.norder < s.params.maxOperands)
      (turnEnds_ok s (pushedRequest { s.rq with regs := slotSet s.rq.regs s.regcnt r } (regName s.regcnt)) (s.regcnt + 1)
        s.memcnt)
      (turnEnds_refuse s .operandIndex))).congr fun v => buildReg_eq r { s with result := v }

theorem turnEnds_buildMem0 (m : MemDesc) (s : State) : TurnEnds s (buildMem0 m) :=
  (turnEnds_ite (s.rq.norder < s.params.maxOperands)
    (turnEnds_ok s (pushedRequest (firstMemory s.params.registers m s.rq) .mem0) s.regcnt 1)
    (turnEnds_refuse s .operandIndex)).congr fun v => buildMem0_eq m { s with result := v }

theorem turnEnds_buildMem1 (m : MemDesc) (s : State) : TurnEnds s (buildMem1 m) :=
  (turnEnds_ite (m.index ≠ none ∨ (m.scale ≠ 0 ∧ m.scale ≠ 1) ∨ m.dispWidth ≠ 0) (turnEnds_refuse s .secondMemoryFields)
    (turnEnds_ite (s.rq.norder < s.params.maxOperands)
      (turnEnds_ok s (pushedRequest (secondMemory m s.rq) .mem1) s.regcnt 2) (turnEnds_refuse s .operandIndex))).congr
    fun v => buildMem1_eq m { s with result := v }

theorem turnEnds_buildMem (m : MemDesc) (s : State) : TurnEnds s (buildMem m) := by
  by_cases hw : isDispWidth m.dispWidth = true
  · have counted (v : CmdResult) := buildMem_of_width hw { s with result := v }
    obtain h | h | h : s.memcnt = 0 ∨ s.memcnt = 1 ∨ 2 ≤ s.memcnt := by omega
    · exact (turnEnds_buildMem0 m s).congr fun v => (counted v).1 h
    · exact (turnEnds_buildMem1 m s).congr fun v => (counted v).2.1 h
    · exact (turnEnds_refuse s _).congr fun v => (counted v).2.2 h
  · exact (turnEnds_refuse s _).congr fun _ => if_neg hw

theorem turnEnds_buildOther (f : FieldAssign) (s : State) : TurnEnds s (buildOther f) := by
  obtain ⟨q, h⟩ | ⟨r, h⟩ := assignField_ok_or_refuse s.params f s.rq
  · exact (turnEnds_ok s q s.regcnt s.memcnt).congr fun v => by simp only [buildOther, h]
  · exact (turnEnds_refuse s r).congr fun v => by simp only [buildOther, h, refuse]

/-- The instruction of a descriptor runs the work that BUILD's loop runs for it (log 4). -/
theorem turnOf_work {d : Descriptor} {i : Instr} (h : turnOf d = some i) :
    ∃ work, (∀ s, exec i s = s.buildTurn work) ∧ (∀ s, buildOne d s = some (work s)) ∧ ∀ s, TurnEnds s work := by
  cases d <;> cases h
  case reg r => exact ⟨_, fun _ => rfl, fun _ => rfl, turnEnds_buildReg r⟩
  case brdisp v w | ptr v w =>
    exact ⟨_, fun _ => rfl, fun _ => rfl, fun s => turnEnds_ite _ (turnEnds_setAndPush s _ _) (turnEnds_refuse s _)⟩
  case uimm0 v w | simm0 v w | imm1 v => exact ⟨_, fun _ => rfl, fun _ => rfl, fun s => turnEnds_setAndPush s _ _⟩
  case mem m => exact ⟨_, fun _ => rfl, fun _ => rfl, turnEnds_buildMem m⟩
  case other f => exact ⟨_, fun _ => rfl, fun _ => rfl, turnEnds_buildOther f⟩

section Turns

variable {s : State} {work : State → Check State}

theorem buildTurn_of_ok {u : State} (hidle : s.phase = .idle) (h : work s = .ok u) :
    s.buildTurn work = .next { u with loopIndex := u.loopIndex + 1, result := .flag true } := by
  rw [State.buildTurn, issue_idle s _ hidle, State.perform, h]
  rfl

theorem buildTurn_of_refuse {r : Refusal} (hidle : s.phase = .idle) (h : work s = refuse r) :
    s.buildTurn work = .refused r := by
  rw [State.buildTurn, issue_idle s _ hidle, State.perform, h]
  rfl

/-- A turn answers a next state only if its work gives a state. -/
theorem buildTurn_next {t : State} (hwork : TurnEnds s work) (h : s.buildTurn work = .next t) :
    s.phase = .idle ∧ ∃ u, work s = .ok u ∧ t = { u with loopIndex := u.loopIndex + 1, result := .flag true } := by
  obtain ⟨hidle, -⟩ := issue_next h
  refine ⟨hidle, ?_⟩
  obtain ⟨q, rc, mc, hok⟩ | ⟨r, hrefuse⟩ := hwork
  · rw [buildTurn_of_ok hidle (hok s.result)] at h
    cases h
    exact ⟨_, hok s.result, rfl⟩
  · rw [buildTurn_of_refuse hidle (hrefuse s.result)] at h
    cases h

/-- A turn that writes some fields and pushes one name. -/
theorem buildTurn_of_setAndPush {f : Request → Request} {n : OperandName} (hidle : s.phase = .idle)
    (hwork : work s = s.setAndPush f n) (hroom : (f s.rq).norder < s.params.maxOperands) :
    ∃ q, pushed (f s.rq) n q
      ∧ s.buildTurn work = .next { s with rq := q, loopIndex := s.loopIndex + 1, result := .flag true } := by
  rw [setAndPush_eq, if_pos hroom] at hwork
  exact ⟨pushedRequest (f s.rq) n, pushed_pushedRequest _ _, buildTurn_of_ok hidle hwork⟩

theorem exec_descOther_of_ok {f : FieldAssign} {q : Request} (hidle : s.phase = .idle)
    (h : assignField s.params f s.rq = .ok q) :
    exec (.descOther f) s = .next { s with rq := q, loopIndex := s.loopIndex + 1, result := .flag true } := by
  have hwork : buildOther f s = .ok { s with rq := q } := by rw [buildOther, h]
  exact buildTurn_of_ok hidle hwork

theorem exec_descOther_of_refuse {f : FieldAssign} {r : Refusal} (hidle : s.phase = .idle)
    (h : assignField s.params f s.rq = refuse r) : exec (.descOther f) s = .refused r := by
  have hwork : buildOther f s = refuse r := by
    rw [buildOther, h]
    rfl
  exact buildTurn_of_refuse hidle hwork

end Turns

/-! ## BUILD (R340, R351) -/

/-- The widths BUILD takes, 0 for "not supplied". -/
def widthsSupplied (eosz easz : Nat) : Prop :=
  (eosz = 0 ∨ eosz = 8 ∨ eosz = 16 ∨ eosz = 32 ∨ eosz = 64) ∧ (easz = 0 ∨ easz = 16 ∨ easz = 32 ∨ easz = 64)

theorem putEosz_or_kept {eosz : Nat} {q : Request} (h : eosz = 0 ∨ eosz = 8 ∨ eosz = 16 ∨ eosz = 32 ∨ eosz = 64)
    (hq : q.eosz = 0) : (if eosz = 0 then .ok q else putEosz eosz q : Check Request) = .ok { q with eosz := eosz } := by
  split
  · rename_i h0
    rw [h0, ← hq]
  · exact if_pos (h.resolve_left ‹_›)

theorem putEasz_or_kept {easz : Nat} {q : Request} (h : easz = 0 ∨ easz = 16 ∨ easz = 32 ∨ easz = 64)
    (hq : q.easz = 0) : (if easz = 0 then .ok q else putEasz easz q : Check Request) = .ok { q with easz := easz } := by
  split
  · rename_i h0
    rw [h0, ← hq]
  · exact if_pos (h.resolve_left ‹_›)

theorem buildWidths_eq_bind (eosz easz : Nat) (q : Request) :
    buildWidths eosz easz q =
      (if eosz = 0 then .ok q else putEosz eosz q : Check Request) >>= fun q' =>
        if easz = 0 then .ok q' else putEasz easz q' := by
  unfold buildWidths
  dsimp only
  split <;> rfl

theorem buildWidths_of_widths {eosz easz : Nat} {q : Request} (h : widthsSupplied eosz easz) (heosz : q.eosz = 0)
    (heasz : q.easz = 0) : buildWidths eosz easz q = .ok { q with eosz := eosz, easz := easz } := by
  obtain ⟨heo, hea⟩ := h
  rw [buildWidths_eq_bind, putEosz_or_kept heo heosz]
  exact putEasz_or_kept (q := { q with eosz := eosz }) hea heasz

theorem buildWidths_of_other {eosz easz : Nat} {q : Request} (h : ¬widthsSupplied eosz easz) (heosz : q.eosz = 0) :
    buildWidths eosz easz q = .error .fatal := by
  rw [buildWidths_eq_bind]
  by_cases heo : eosz = 0 ∨ eosz = 8 ∨ eosz = 16 ∨ eosz = 32 ∨ eosz = 64
  · obtain ⟨hea0, hea⟩ : easz ≠ 0 ∧ ¬(easz = 16 ∨ easz = 32 ∨ easz = 64) := not_or.1 fun hea => h ⟨heo, hea⟩
    rw [putEosz_or_kept heo heosz]
    exact (if_neg hea0).trans (if_neg hea)
  · obtain ⟨heo0, heo⟩ := not_or.1 heo
    rw [if_neg heo0, putEosz, if_neg heo]
    rfl

/-- The request BUILD's loop starts from. -/
def builtRequest (mode smode iclass eosz easz : Nat) (p : Rep) (h : Hint) : Request :=
  { freshRequest mode smode with iclass := iclass, eosz := eosz, easz := easz, rep := p, hint := h }

section Head

variable {mode smode iclass eosz easz : Nat} {p : Rep} {h : Hint}

theorem buildHead_of_widths (hmodes : (isMode mode && isMode smode) = true) (hwidths : widthsSupplied eosz easz) (s : State) :
    buildHead mode smode iclass eosz easz p h s = .ok (s.startRequest (builtRequest mode smode iclass eosz easz p h)) := by
  have hq := buildWidths_of_widths (q := { freshRequest mode smode with iclass := iclass }) hwidths rfl rfl
  rw [buildHead, initRequest, if_pos hmodes]
  change (buildWidths eosz easz { freshRequest mode smode with iclass := iclass } >>= _) = _
  rw [hq]
  rfl

theorem buildHead_of_other_width (hmodes : (isMode mode && isMode smode) = true) (hwidths : ¬widthsSupplied eosz easz)
    (s : State) : buildHead mode smode iclass eosz easz p h s = .error .fatal := by
  have hq := buildWidths_of_other (q := { freshRequest mode smode with iclass := iclass }) hwidths rfl
  rw [buildHead, initRequest, if_pos hmodes]
  change (buildWidths eosz easz { freshRequest mode smode with iclass := iclass } >>= _) = _
  rw [hq]
  rfl

end Head

/-- BUILD's loop takes its descriptors in order. -/
theorem buildAll_append {ds : List Descriptor} {s t : State} (h : buildAll ds s = .ok (t, true)) (es : List Descriptor) :
    buildAll (ds ++ es) s = buildAll es t := by
  induction ds generalizing s with
  | nil =>
    cases h
    rfl
  | cons d rest ih =>
    simp only [List.cons_append, buildAll] at h ⊢
    split at h
    · cases h
    · exact ih h
    · cases h

theorem buildAll_one_of_ok {d : Descriptor} {s t : State} (h : buildOne d s = some (.ok t)) :
    buildAll [d] s = .ok (t.advanceLoop, true) := by simp only [buildAll, h]

theorem buildAll_one_of_refuse {d : Descriptor} {s : State} {r : Refusal} (h : buildOne d s = some (refuse r)) :
    buildAll [d] s = refuse r := by
  rw [buildAll, h]
  rfl

/-- How a BUILD issued in `s` ends, by what its head and its loop gave. -/
def State.endBuild (s : State) : Check (State × Bool) → Result
  | .ok (u, done) => .next { u with result := .flag done }
  | .error stop => s.stopped stop

theorem endBuild_true {s t : State} {x : Check (State × Bool)} (h : s.endBuild x = .next t) (htrue : t.result = .flag true) :
    ∃ v, x = .ok (v, true) ∧ t = { v with result := .flag true } := by
  obtain stop | ⟨v, done⟩ := x
  · cases stop <;> cases h <;> cases htrue
  · cases h
    cases htrue
    exact ⟨v, rfl, rfl⟩

section Build

variable {s : State} {mode smode iclass eosz easz : Nat} {p : Rep} {h : Hint} {ds : List Descriptor}

theorem exec_build_of_other_mode (hidle : s.phase = .idle) (hmodes : ¬(isMode mode && isMode smode) = true) :
    exec (.build mode smode iclass eosz easz p h ds) s = .refused .modeValue := by
  change execBuild mode smode iclass eosz easz p h ds s = _
  rw [execBuild, issue_idle s _ hidle, Bool.eq_false_of_not_eq_true hmodes]
  rfl

theorem exec_build_of_count (hidle : s.phase = .idle) (hmodes : (isMode mode && isMode smode) = true)
    (hcount : s.params.maxOperands < ds.length) :
    exec (.build mode smode iclass eosz easz p h ds) s = .refused .operandCount := by
  change execBuild mode smode iclass eosz easz p h ds s = _
  rw [execBuild, issue_idle s _ hidle, hmodes]
  exact if_pos hcount

section Admitted

variable (hidle : s.phase = .idle) (hmodes : (isMode mode && isMode smode) = true)
  (hcount : ds.length ≤ s.params.maxOperands)
include hidle hmodes hcount

/-- Past the tests of mode and count, BUILD is its head and then its loop. -/
theorem exec_build_of_admitted :
    exec (.build mode smode iclass eosz easz p h ds) s =
      s.endBuild (buildHead mode smode iclass eosz easz p h s >>= buildAll ds) := by
  change execBuild mode smode iclass eosz easz p h ds s = _
  rw [execBuild, issue_idle s _ hidle, hmodes, if_neg (by decide), if_neg (Nat.not_lt_of_le hcount)]
  cases buildHead mode smode iclass eosz easz p h s with
  | error stop => rfl
  | ok u =>
    change _ = s.endBuild (buildAll ds u)
    cases hall : buildAll ds u <;> simp only [hall] <;> rfl

theorem exec_build_of_fatal (hhead : buildHead mode smode iclass eosz easz p h s = .error .fatal) :
    exec (.build mode smode iclass eosz easz p h ds) s = .next s.toFatal := by
  rw [exec_build_of_admitted hidle hmodes hcount, hhead]
  rfl

theorem exec_build_of_ok {u v : State} {done : Bool} (hhead : buildHead mode smode iclass eosz easz p h s = .ok u)
    (hall : buildAll ds u = .ok (v, done)) :
    exec (.build mode smode iclass eosz easz p h ds) s = .next { v with result := .flag done } := by
  rw [exec_build_of_admitted hidle hmodes hcount, hhead]
  exact congrArg s.endBuild hall

theorem exec_build_of_refuse {u : State} {r : Refusal} (hhead : buildHead mode smode iclass eosz easz p h s = .ok u)
    (hall : buildAll ds u = refuse r) : exec (.build mode smode iclass eosz easz p h ds) s = .refused r := by
  rw [exec_build_of_admitted hidle hmodes hcount, hhead]
  exact congrArg s.endBuild hall

end Admitted

/-- What a BUILD that returned true went through. -/
theorem exec_build_true {t : State} (hexec : exec (.build mode smode iclass eosz easz p h ds) s = .next t)
    (htrue : t.result = .flag true) :
    s.phase = .idle ∧ (isMode mode && isMode smode) = true ∧ ∃ u v,
      buildHead mode smode iclass eosz easz p h s = .ok u ∧ buildAll ds u = .ok (v, true)
        ∧ t = { v with result := .flag true } := by
  have hidle : s.phase = .idle := by
    change execBuild mode smode iclass eosz easz p h ds s = .next t at hexec
    exact (issue_next hexec).1
  by_cases hmodes : (isMode mode && isMode smode) = true
  · obtain hcount | hcount := Nat.lt_or_ge s.params.maxOperands ds.length
    · rw [exec_build_of_count hidle hmodes hcount] at hexec
      cases hexec
    · rw [exec_build_of_admitted hidle hmodes hcount] at hexec
      obtain ⟨v, hrun, ht⟩ := endBuild_true hexec htrue
      obtain ⟨u, hhead, hall⟩ := Check.bind_ok hrun
      exact ⟨hidle, hmodes, u, v, hhead, hall, ht⟩
  · rw [exec_build_of_other_mode hidle hmodes] at hexec
    cases hexec

end Build

/-! ## Setters in sequence (R354) -/

/-- The instructions complete one after another and leave the request `q`. -/
def State.runsTo (s : State) (is : List Instr) (q : Request) : Prop := ∃ u, runAll is s = .next u ∧ u.rq = q

/-- The state a completed setter leaves. -/
def State.answered (s : State) (q : Request) : State := { s with rq := q, result := .code .noError }

theorem leaves_eq (s : State) (q : Request) : s.leaves q = .next (s.answered q) := rfl

/-- A setter first, the others on the request it leaves. -/
theorem runsTo_cons {s : State} {i : Instr} {is : List Instr} {q q' : Request} (hidle : s.phase = .idle)
    (h : exec i s = s.leaves q) (hrest : (s.answered q).phase = .idle → (s.answered q).runsTo is q') :
    s.runsTo (i :: is) q' := by
  obtain ⟨u, hu, hq⟩ := hrest hidle
  refine ⟨u, ?_, hq⟩
  rw [runAll, h, leaves_eq]
  exact hu

theorem runsTo_one {s : State} {i : Instr} {q : Request} (h : exec i s = s.leaves q) : s.runsTo [i] q := by
  refine ⟨s.answered q, ?_, rfl⟩
  rw [runAll, h, leaves_eq]
  rfl

/-- One SET_OPERAND_ORDER at NORDER is a push. -/
theorem runsTo_order {s : State} {k : Nat} {n : OperandName} (hidle : s.phase = .idle) (hk : k = s.rq.norder)
    (hroom : k < s.params.maxOperands) : s.runsTo [.setOperandOrder k n] (pushedRequest s.rq n) := by
  refine runsTo_one ((exec_setOperandOrder_of_entry hidle hroom n).trans ?_)
  rw [hk, Nat.max_eq_right (Nat.le_succ _)]
  rfl

/-- SET_EASZ where the width changes. -/
def setEaszIfChanged (ea easz : Nat) : List Instr := if ea = easz then [] else [.setEasz ea]

/-- SET_EASZ where the width changed, then one SET_OPERAND_ORDER at NORDER. -/
theorem runsTo_easz_order {s : State} {k easz ea : Nat} {q : Request} {n : OperandName} (hidle : s.phase = .idle)
    (hk : k = s.rq.norder) (hroom : k < s.params.maxOperands) (heasz : s.rq.easz = easz)
    (hea : ea = easz ∨ ea = 16 ∨ ea = 32 ∨ ea = 64) (hq : { s.rq with easz := ea } = q) :
    s.runsTo (setEaszIfChanged ea easz ++ [.setOperandOrder k n]) (pushedRequest q n) := by
  subst hq
  unfold setEaszIfChanged
  by_cases hsame : ea = easz
  · rw [if_pos hsame, hsame, ← heasz]
    exact runsTo_order hidle hk hroom
  · rw [if_neg hsame]
    exact runsTo_cons hidle (exec_setEasz_of_width hidle (hea.resolve_left hsame)) fun hidle =>
      runsTo_order hidle hk hroom

/-! ## What a completed turn wrote -/

section Completed

variable {s t : State}

/-- A completed turn that writes some fields and pushes one name found room for it. -/
theorem buildTurn_setAndPush_next {f : Request → Request} {n : OperandName}
    (h : (s.buildTurn fun u => u.setAndPush f n) = .next t) :
    s.phase = .idle ∧ (f s.rq).norder < s.params.maxOperands ∧ t.rq = pushedRequest (f s.rq) n := by
  obtain ⟨hidle, u, hu, rfl⟩ := buildTurn_next (turnEnds_setAndPush s f n) h
  rw [setAndPush_eq] at hu
  split at hu <;> cases hu
  exact ⟨hidle, ‹_›, rfl⟩

/-- With a test on the descriptor before it. -/
theorem buildTurn_guarded_next {c : Prop} [Decidable c] {f : Request → Request} {n : OperandName} {r : Refusal}
    (h : (s.buildTurn fun u => if c then u.setAndPush f n else refuse r) = .next t) :
    c ∧ s.phase = .idle ∧ (f s.rq).norder < s.params.maxOperands ∧ t.rq = pushedRequest (f s.rq) n := by
  by_cases hc : c
  · simp only [if_pos hc] at h
    exact ⟨hc, buildTurn_setAndPush_next h⟩
  · simp only [if_neg hc] at h
    obtain ⟨-, u, hu, -⟩ := buildTurn_next (turnEnds_refuse s r) h
    cases hu

theorem buildReg_ok {r : RegOrInvalid} (h : buildReg r s = .ok t) :
    s.regcnt ≤ 8 ∧ s.rq.norder < s.params.maxOperands
      ∧ t.rq = pushedRequest { s.rq with regs := slotSet s.rq.regs s.regcnt r } (regName s.regcnt) := by
  rw [buildReg_eq] at h
  split at h
  · cases h
  rename_i hslot
  split at h <;> cases h
  exact ⟨Nat.le_of_not_lt hslot, ‹_›, rfl⟩

theorem buildMem0_ok {m : MemDesc} (h : buildMem0 m s = .ok t) :
    s.rq.norder < s.params.maxOperands ∧ t.rq = pushedRequest (firstMemory s.params.registers m s.rq) .mem0 := by
  rw [buildMem0_eq] at h
  split at h <;> cases h
  exact ⟨‹_›, rfl⟩

theorem buildMem1_ok {m : MemDesc} (h : buildMem1 m s = .ok t) :
    s.rq.norder < s.params.maxOperands ∧ t.rq = pushedRequest (secondMemory m s.rq) .mem1 := by
  rw [buildMem1_eq] at h
  split at h
  · cases h
  split at h <;> cases h
  exact ⟨‹_›, rfl⟩

/-- A completed MEM turn was the first or the second. -/
theorem buildMem_ok {m : MemDesc} (h : buildMem m s = .ok t) :
    isDispWidth m.dispWidth = true
      ∧ ((s.memcnt = 0 ∧ buildMem0 m s = .ok t) ∨ (s.memcnt = 1 ∧ buildMem1 m s = .ok t)) := by
  by_cases hw : isDispWidth m.dispWidth = true
  · obtain ⟨hfirst, hsecond, hthird⟩ := buildMem_of_width hw s
    obtain hm | hm | hm : s.memcnt = 0 ∨ s.memcnt = 1 ∨ 2 ≤ s.memcnt := by omega
    · exact ⟨hw, .inl ⟨hm, hfirst hm ▸ h⟩⟩
    · exact ⟨hw, .inr ⟨hm, hsecond hm ▸ h⟩⟩
    · rw [hthird hm] at h
      cases h
  · rw [buildMem, if_neg hw] at h
    cases h

theorem buildOther_ok {f : FieldAssign} (h : buildOther f s = .ok t) : assignField s.params f s.rq = .ok t.rq := by
  unfold buildOther at h
  split at h <;> cases h
  assumption

end Completed

/-! ## A turn and its setters (R354) -/

section Setters

variable {s : State} (hidle : s.phase = .idle)
include hidle

theorem runsTo_reg (hslot : s.regcnt ≤ 8) (hroom : s.rq.norder < s.params.maxOperands) (r : RegOrInvalid) :
    s.runsTo [.setReg s.regcnt r, .setOperandOrder s.rq.norder (regName s.regcnt)]
      (pushedRequest { s.rq with regs := slotSet s.rq.regs s.regcnt r } (regName s.regcnt)) :=
  runsTo_cons hidle (exec_setReg_of_slot hidle hslot r) fun hidle => runsTo_order hidle rfl hroom

/-- One setter without a test, then one SET_OPERAND_ORDER at NORDER. -/
theorem runsTo_setRequest_order {i : Instr} {f : Request → Request} {n : OperandName} (hi : exec i s = s.setRequest f)
    (hnorder : (f s.rq).norder = s.rq.norder) (hroom : s.rq.norder < s.params.maxOperands) :
    s.runsTo [i, .setOperandOrder s.rq.norder n] (pushedRequest (f s.rq) n) :=
  runsTo_cons hidle (hi.trans (setRequest_leaves hidle f)) fun hidle => runsTo_order hidle hnorder.symm hroom

/-- SET_BRDISP, the flag of the operand kind, then one SET_OPERAND_ORDER at NORDER. -/
theorem runsTo_branch {i : Instr} {f : Request → Request} {n : OperandName} {v : Word64} {w : Nat}
    (hw : w = 8 ∨ w = 16 ∨ w = 32) (hi : ∀ u, exec i u = u.setRequest f) (hnorder : ∀ q, (f q).norder = q.norder)
    (hroom : s.rq.norder < s.params.maxOperands) :
    s.runsTo [.setBrdisp v w, i, .setOperandOrder s.rq.norder n]
      (pushedRequest (f { s.rq with brdisp := v, brdispWidth := w }) n) :=
  runsTo_cons hidle (trySet_of_ok hidle (if_pos hw)) fun hidle => runsTo_setRequest_order hidle (hi _) (hnorder _) hroom

theorem exec_setBase0_of_idle (r : RegOrInvalid) : exec (.setBase0 r) s = s.leaves { s.rq with base0 := r } :=
  setRequest_leaves hidle fun q => { q with base0 := r }

theorem exec_setBase1_of_idle (r : RegOrInvalid) : exec (.setBase1 r) s = s.leaves { s.rq with base1 := r } :=
  setRequest_leaves hidle fun q => { q with base1 := r }

theorem exec_setIndex_of_idle (r : RegOrInvalid) : exec (.setIndex r) s = s.leaves { s.rq with index := r } :=
  setRequest_leaves hidle fun q => { q with index := r }

theorem exec_setScale_of_idle (n : Nat) : exec (.setScale n) s = s.leaves { s.rq with scale := n } :=
  setRequest_leaves hidle fun q => { q with scale := n }

theorem exec_setMem0_of_idle : exec .setMem0 s = s.leaves { s.rq with mem0 := true } :=
  setRequest_leaves hidle fun q => { q with mem0 := true }

theorem exec_setMem1_of_idle : exec .setMem1 s = s.leaves { s.rq with mem1 := true } :=
  setRequest_leaves hidle fun q => { q with mem1 := true }

theorem exec_setDispBits_of_width {w : Nat} (hw : isDispWidth w = true) (v : Word64) :
    exec (.setDispBits v w) s = s.leaves { s.rq with disp := v, dispWidth := w } := trySet_of_ok hidle (if_pos hw)

/-- Base, index and scale of the first memory operand, then the rest. -/
theorem runsTo_address {m : MemDesc} {is : List Instr} {q : Request}
    (hrest : (s.answered { s.rq with base0 := m.base, index := m.index, scale := m.scale }).runsTo is q) :
    s.runsTo (.setBase0 m.base :: .setIndex m.index :: .setScale m.scale :: is) q := by
  refine runsTo_cons hidle (exec_setBase0_of_idle hidle _) fun hidle => ?_
  refine runsTo_cons hidle (exec_setIndex_of_idle hidle _) fun hidle => ?_
  exact runsTo_cons hidle (exec_setScale_of_idle hidle _) fun _ => hrest

/-- Its segment, displacement and MEM0, then the rest. -/
theorem runsTo_segment {m : MemDesc} {is : List Instr} {q : Request} (hw : isDispWidth m.dispWidth = true)
    (hseg : ∀ g, m.seg = some g → g.cls = .seg)
    (hrest : (s.answered { s.rq with seg0 := m.seg, disp := m.dispValue, dispWidth := m.dispWidth, mem0 := true }).runsTo
      is q) :
    s.runsTo (.setSeg0 m.seg :: .setDispBits m.dispValue m.dispWidth :: .setMem0 :: is) q := by
  refine runsTo_cons hidle (exec_setSeg0_of_segment hidle hseg) fun hidle => ?_
  refine runsTo_cons hidle (exec_setDispBits_of_width hidle hw _) fun hidle => ?_
  exact runsTo_cons hidle (exec_setMem0_of_idle hidle) fun _ => hrest

/-- Base, index, scale, segment, displacement, MEM0, the width where it is inferred, then the push. -/
theorem runsTo_firstMemory {m : MemDesc} (hw : isDispWidth m.dispWidth = true) (hseg : ∀ g, m.seg = some g → g.cls = .seg)
    (hroom : s.rq.norder < s.params.maxOperands) :
    s.runsTo (.setBase0 m.base :: .setIndex m.index :: .setScale m.scale :: .setSeg0 m.seg
        :: .setDispBits m.dispValue m.dispWidth :: .setMem0
        :: (setEaszIfChanged (firstMemory s.params.registers m s.rq).easz s.rq.easz ++ [.setOperandOrder s.rq.norder .mem0]))
      (pushedRequest (firstMemory s.params.registers m s.rq) .mem0) := by
  refine runsTo_address hidle ?_
  refine runsTo_segment (s := s.answered _) hidle hw hseg ?_
  exact runsTo_easz_order hidle rfl hroom rfl (inferEasz_eq_or _ _ _ _) rfl

theorem runsTo_secondMemory {m : MemDesc} (hseg : ∀ g, m.seg = some g → g.cls = .seg)
    (hroom : s.rq.norder < s.params.maxOperands) :
    s.runsTo [.setBase1 m.base, .setSeg1 m.seg, .setMem1, .setOperandOrder s.rq.norder .mem1]
      (pushedRequest (secondMemory m s.rq) .mem1) := by
  refine runsTo_cons hidle (exec_setBase1_of_idle hidle _) fun hidle => ?_
  refine runsTo_cons hidle (exec_setSeg1_of_segment hidle hseg) fun hidle => ?_
  exact runsTo_cons hidle (exec_setMem1_of_idle hidle) fun hidle => runsTo_order hidle rfl hroom

end Setters

end Sys2Proof.Machine

namespace Sys2Proof

open Machine

/-! ## The obligations of spec/45_operand_builder.md -/

/-- Settles O27: BUILD on the longer list runs the shorter one first, and a turn answers alike whatever the last result was. -/
theorem buildIsItsTurns : Obligations.BuildIsItsTurns := by
  intro s t m sm ic eo ea p h ds hexec htrue
  obtain ⟨hidle, hmodes, u, v, hhead, hall, rfl⟩ := exec_build_true hexec htrue
  have hvidle : v.phase = .idle := (buildAll_phase hall).trans ((buildHead_phase hhead).trans hidle)
  refine ⟨fun d i hi hcount => ?turn, fun n rest hcount => ?unrecognized⟩
  case turn =>
    obtain ⟨work, hwork, hone, hends⟩ := turnOf_work hi
    have hcount' : (ds ++ [d]).length ≤ s.params.maxOperands := by simpa using hcount
    have hlast := buildAll_append hall [d]
    rw [hwork]
    obtain ⟨q, rc, mc, hok⟩ | ⟨r, hrefuse⟩ := hends v
    · have hinside := hlast.trans (buildAll_one_of_ok ((hone v).trans (congrArg some (hok v.result))))
      have halone := buildTurn_of_ok (s := { v with result := .flag true }) hvidle (hok (.flag true))
      exact (exec_build_of_ok hidle hmodes hcount' hhead hinside).trans halone.symm
    · have hinside := hlast.trans (buildAll_one_of_refuse ((hone v).trans (congrArg some (hrefuse v.result))))
      have halone := buildTurn_of_refuse (s := { v with result := .flag true }) hvidle (hrefuse (.flag true))
      exact (exec_build_of_refuse hidle hmodes hcount' hhead hinside).trans halone.symm
  case unrecognized =>
    have hstops : buildAll (ds ++ .unrecognized n :: rest) u = .ok (v, false) := buildAll_append hall _
    exact (exec_build_of_ok hidle hmodes hcount hhead hstops).trans rfl

/-- Settles O28: each turn writes its fields and pushes; REG also tests and moves its counter. -/
theorem operandTurnsWriteAndPush : Obligations.OperandTurnsWriteAndPush := by
  intro s hidle hroom
  refine ⟨fun r hslot => ?reg, fun r hslot => ?tenth, fun v w hw => ?brdisp, fun v w hw => ?ptr, fun v w => ?uimm0,
    fun v w => ?simm0, fun v => ?imm1⟩
  case reg =>
    have hwork := buildReg_eq r s
    rw [if_neg (Nat.not_lt_of_le hslot), if_pos hroom] at hwork
    exact ⟨_, _, slotGet_slotSet hslot s.rq.regs r, pushed_pushedRequest _ _, buildTurn_of_ok hidle hwork⟩
  case tenth => exact buildTurn_of_refuse hidle (if_pos hslot)
  case brdisp =>
    have hwork : buildBrdisp v w s = s.setAndPush _ .relbr := if_pos hw
    exact buildTurn_of_setAndPush hidle hwork hroom
  case ptr =>
    have hwork : buildPtr v w s = s.setAndPush _ .ptr := if_pos hw
    exact buildTurn_of_setAndPush hidle hwork hroom
  case uimm0 => exact buildTurn_of_setAndPush (work := buildUimm0 v w) hidle rfl hroom
  case simm0 => exact buildTurn_of_setAndPush (work := buildSimm0 v w) hidle rfl hroom
  case imm1 => exact buildTurn_of_setAndPush (work := buildImm1 v) hidle rfl hroom

/-- Settles O29: MEM counts the memory operands; the first one infers the address width. -/
theorem memoryTurnsWriteAndPush : Obligations.MemoryTurnsWriteAndPush := by
  intro s m hidle hroom hw
  obtain ⟨hfirst, hsecond, hthird⟩ := buildMem_of_width (isDispWidth_iff.2 hw) s
  have hmem1 := buildMem1_eq m s
  refine ⟨fun hm => ?first, fun hm hindex hscale hdisp => ?second, fun hm hfields => ?fields, fun hm => ?third⟩
  case first =>
    have hwork := (hfirst hm).trans (buildMem0_eq m s)
    rw [if_pos hroom] at hwork
    refine ⟨_, _, pushed_pushedRequest _ _, fun r hr => ?_, fun hbase hindex => ?_, buildTurn_of_ok hidle hwork⟩
    · obtain ⟨h16, h32, h64⟩ := inferEasz_of_gpr s.params.registers r s.rq.easz
      rw [inferEasz_of_register hr]
      refine ⟨h16, h32, h64, fun hnames => ?_, fun hn16 hn32 hn64 hip => inferEasz_of_other_class hn16 hn32 hn64 hip _ _⟩
      obtain ⟨hrip, heip, hip⟩ := inferEasz_of_instructionPointer hnames s.rq.easz
      exact ⟨fun h => h ▸ hrip, fun h => h ▸ heip, fun h => h ▸ hip⟩
    · rw [hbase, hindex]
      rfl
  case second =>
    have hplain : ¬(m.index ≠ none ∨ (m.scale ≠ 0 ∧ m.scale ≠ 1) ∨ m.dispWidth ≠ 0) := by
      rintro (h | h | h)
      · exact h hindex
      · omega
      · exact h hdisp
    rw [if_neg hplain, if_pos hroom] at hmem1
    exact ⟨_, pushed_pushedRequest _ _, buildTurn_of_ok hidle ((hsecond hm).trans hmem1)⟩
  case fields =>
    have hscale : 1 < m.scale → m.scale ≠ 0 ∧ m.scale ≠ 1 := by omega
    rw [if_pos (hfields.imp_right (Or.imp_left hscale))] at hmem1
    exact buildTurn_of_refuse hidle ((hsecond hm).trans hmem1)
  case third => exact buildTurn_of_refuse hidle (hthird hm)

/-- Settles O31: a completed turn pushed what it wrote, and each setter of its rule writes one part of that. -/
theorem turnsAgreeWithTheSetters : Obligations.TurnsAgreeWithTheSetters := by
  intro s t
  refine ⟨fun r h => ?reg, fun v w h => ?brdisp, fun v w h => ?ptr, fun v w h => ?uimm0, fun v w h => ?simm0, fun v h => ?imm1,
    fun m hseg h => ?mem, fun f h => ?other⟩
  case reg =>
    obtain ⟨hidle, u, hu, rfl⟩ := buildTurn_next (turnEnds_buildReg r s) h
    obtain ⟨hslot, hroom, hq⟩ := buildReg_ok hu
    exact hq ▸ runsTo_reg hidle hslot hroom r
  case brdisp =>
    obtain ⟨hw, hidle, hroom, hq⟩ := buildTurn_guarded_next h
    exact hq ▸ runsTo_branch (f := fun q => { q with relbr := true }) hidle hw (fun _ => rfl) (fun _ => rfl) hroom
  case ptr =>
    obtain ⟨hw, hidle, hroom, hq⟩ := buildTurn_guarded_next h
    exact hq ▸ runsTo_branch (f := fun q => { q with ptr := true }) hidle (.inr hw) (fun _ => rfl) (fun _ => rfl) hroom
  case uimm0 | simm0 =>
    obtain ⟨hidle, hroom, hq⟩ := buildTurn_setAndPush_next h
    exact hq ▸ runsTo_setRequest_order hidle rfl rfl hroom
  case imm1 =>
    obtain ⟨hidle, hroom, hq⟩ := buildTurn_setAndPush_next h
    have hlow : (v.zeroExtend 64).setWidth 8 = v := by simp
    have hi : exec (.setUimm1 (v.zeroExtend 64)) s = s.setRequest (putUimm1 v) :=
      congrArg (fun b => s.setRequest (putUimm1 b)) hlow
    exact hq ▸ runsTo_setRequest_order hidle hi rfl hroom
  case mem =>
    obtain ⟨hidle, u, hu, rfl⟩ := buildTurn_next (turnEnds_buildMem m s) h
    obtain ⟨hw, ⟨hm, hu⟩ | ⟨hm, hu⟩⟩ := buildMem_ok hu
    · obtain ⟨hroom, hq⟩ := buildMem0_ok hu
      exact ⟨fun _ => hq ▸ runsTo_firstMemory hidle hw hseg hroom, fun hne => absurd hm hne⟩
    · obtain ⟨hroom, hq⟩ := buildMem1_ok hu
      exact ⟨fun h0 => absurd (h0.symm.trans hm) (by decide), fun _ => hq ▸ runsTo_secondMemory hidle hseg hroom⟩
  case other =>
    obtain ⟨hidle, u, hu, rfl⟩ := buildTurn_next (turnEnds_buildOther f s) h
    have hq : assignField s.params f s.rq = .ok u.rq := buildOther_ok hu
    exact runsTo_one (exec_setField_of_ok hidle hq)

/-- Settles O26: with no descriptor BUILD is its head. -/
theorem buildWithoutOperands : Obligations.BuildWithoutOperands := by
  intro s m sm ic eo ea p h hidle
  rw [← isMode_iff, ← isMode_iff]
  refine ⟨fun hm hsm => ?legal, fun hmodes ds => exec_build_of_other_mode hidle (mt Bool.and_eq_true_iff.1 hmodes)⟩
  have hmodes := Bool.and_eq_true_iff.2 ⟨hm, hsm⟩
  refine ⟨fun heo hea => ?built, fun hwidths => ?fatal, fun ds hcount => exec_build_of_count hidle hmodes hcount⟩
  case built =>
    have hhead := buildHead_of_widths (iclass := ic) (p := p) (h := h) hmodes ⟨heo, hea⟩ s
    exact (exec_build_of_ok (ds := []) hidle hmodes (Nat.zero_le _) hhead rfl).trans rfl
  case fatal =>
    have hhead := buildHead_of_other_width (iclass := ic) (p := p) (h := h) hmodes hwidths s
    exact ⟨s.toFatal, exec_build_of_fatal hidle hmodes (Nat.zero_le _) hhead, rfl, rfl⟩

/-- Settles O30: both answer by what `assignField` gives. -/
theorem otherTurnIsSetField : Obligations.OtherTurnIsSetField := by
  intro s f hidle
  refine ⟨fun t ht => ?completes, fun r hr => ?refused, fun b => exec_descOther_of_ok hidle rfl⟩
  all_goals obtain ⟨q, h⟩ | ⟨r', h⟩ := assignField_ok_or_refuse s.params f s.rq
  case completes.inl =>
    rw [exec_setField_of_ok hidle h] at ht
    cases ht
    exact ⟨exec_descOther_of_ok hidle h, rfl, rfl⟩
  case completes.inr =>
    rw [exec_setField_of_refuse hidle h] at ht
    cases ht
  case refused.inl =>
    rw [exec_setField_of_ok hidle h] at hr
    cases hr
  case refused.inr =>
    rw [exec_setField_of_refuse hidle h] at hr
    cases hr
    exact exec_descOther_of_refuse hidle h

end Sys2Proof
end

section
/-! The bridge from a decoded record and the patch commands (spec/46_bridge_patch.md R360 to R369). INIT_FROM_DECODE is its work
with a test of the fields and a count of the operands. The three patch commands are one operation on a recorded location; it
answers in three ways, and a store goes through the first bytes of the value, least significant first. -/

namespace Sys2Proof.Machine

/-! ## The further named fields of a record -/

/-- A further named field that the table needs has the record's value, any other none (spec/10_state.md R26). -/
theorem getNamed_keepNamed (needed : List Nat) (l : List (Nat × Nat)) (i : Nat) :
    getNamed (keepNamed needed l) i = if i ∈ needed then getNamed l i else 0 := by
  induction l with
  | nil => exact (ite_self 0).symm
  | cons e rest ih =>
    rw [keepNamed, getNamed]
    by_cases hi : i = e.1
    · subst hi
      by_cases hneeded : e.1 ∈ needed
      · rw [if_pos (List.contains_iff_mem.2 hneeded), getNamed_setNamed _ _ _ (namedWf_keepNamed _ _), if_pos rfl,
          if_pos hneeded, if_pos rfl]
      · rw [if_neg (mt List.contains_iff_mem.1 hneeded), ih, if_neg hneeded, if_neg hneeded]
    · rw [if_neg (Ne.symm hi)]
      split
      · rw [getNamed_setNamed _ _ _ (namedWf_keepNamed _ _), if_neg hi, ih]
      · exact ih

/-! ## INIT_FROM_DECODE -/

theorem listedOperands_length (ops : List DecodedOperand) :
    (listedOperands ops).length = (ops.filter fun o => !o.suppressed).length := List.length_map _

section Bridge

variable {s : State} {d : DecodedRecord} {l : Nat} (hlength : s.params.lengths.lengthOf d.fields.vl = some l)
  (hlegal : legalRequest s.params.maxOperands (recordFields l d) = true)
include hlength hlegal

/-- For a record of legal fields only the count of its operands is left to test. -/
theorem bridgeRequest_of_legal :
    bridgeRequest d s =
      if s.params.maxOperands < (listedOperands d.operands).length then refuse .recordOperandCount
      else .ok (s.startRequest (requestOf s.params l d)) := by
  simp only [bridgeRequest, hlength, hlegal, Bool.not_true, Bool.false_eq_true, if_false]

variable (hidle : s.phase = .idle)
include hidle

theorem exec_initFromDecode_of_count (hcount : (listedOperands d.operands).length ≤ s.params.maxOperands) :
    exec (.initFromDecode d) s = (s.startRequest (requestOf s.params l d)).finish (.code .noError) := by
  change execInitFromDecode d s = _
  rw [execInitFromDecode, issue_idle s _ hidle, State.perform, bridgeRequest_of_legal hlength hlegal,
    if_neg (Nat.not_lt_of_le hcount)]

theorem exec_initFromDecode_of_more (hcount : s.params.maxOperands < (listedOperands d.operands).length) :
    exec (.initFromDecode d) s = .refused .recordOperandCount := by
  change execInitFromDecode d s = _
  rw [execInitFromDecode, issue_idle s _ hidle, State.perform, bridgeRequest_of_legal hlength hlegal, if_pos hcount]
  rfl

end Bridge

/-! ## The patch commands -/

theorem exec_patchDisp (d : DecodedRecord) (v : Word64) (w : Nat) (s : State) :
    exec (.patchDisp d v w) s = s.patch d.dispLoc d.length v w := rfl

theorem exec_patchRelbr (d : DecodedRecord) (v : Word64) (w : Nat) (s : State) :
    exec (.patchRelbr d v w) s = s.patch d.brdispLoc d.length v w := rfl

theorem exec_patchImm0 (d : DecodedRecord) (v : Word64) (w : Nat) (s : State) :
    exec (.patchImm0 d v w) s = s.patch d.imm0Loc d.length v w := rfl

section Patch

variable {s : State} (hidle : s.phase = .idle)
include hidle

/-- The field is absent, or its recorded width is another one (R365). -/
theorem patch_of_no_match {loc : Option FieldLoc} {w : Nat} (h : ∀ l, loc = some l → l.width ≠ w) (length : Nat) (v : Word64) :
    s.patch loc length v w = .next { s with result := .flag false } := by
  rw [State.patch, issue_idle s _ hidle]
  cases loc with
  | none => rfl
  | some l => exact if_pos (h l rfl).symm

/-- A location of `n` bytes inside the instruction takes the first `n` bytes of the value (R364, R366). -/
theorem stored_patch {n : Nat} (hn : n = 1 ∨ n = 2 ∨ n = 4 ∨ n = 8) {pos length : Nat} (hinside : pos + n ≤ length)
    (v : Word64) : s.stored pos (littleEndian n v) (.flag true) (s.patch (some ⟨pos, 8 * n⟩) length v (8 * n)) := by
  have hn8 : 8 * n / 8 = n := Nat.mul_div_cancel_left n (by decide)
  have hloc : locationInside ⟨pos, 8 * n⟩ length = true := by
    simp only [locationInside, Bool.and_eq_true, Bool.or_eq_true, beq_iff_eq, decide_eq_true_eq]
    omega
  refine ⟨s.buf.writeBytes pos (littleEndian n v), s.buf.holds_writeBytes pos _, ?_⟩
  rw [State.patch, issue_idle s _ hidle]
  dsimp only
  rw [if_neg (not_not_intro rfl), hloc, hn8, Mem.writeLE, leBytes_truncBits, leBytes_toNat]
  rfl

end Patch

end Sys2Proof.Machine

namespace Sys2Proof

open Machine

/-! ## The obligations of spec/46_bridge_patch.md -/

/-- Settles O32: with legal fields the count of the operands decides, and the request is `requestOf` the record. -/
theorem initFromDecodeCopiesTheRecord : Obligations.InitFromDecodeCopiesTheRecord := by
  intro s d vl hidle hlength hlegal
  rw [← listedOperands_length]
  refine ⟨fun hcount => ?copied, fun hcount => exec_initFromDecode_of_more hlength hlegal hidle hcount⟩
  case copied =>
    exact ⟨keepNamed s.params.namedFields d.fields.named, fun _ => getNamed_keepNamed _ _, namedWf_keepNamed _ _,
      exec_initFromDecode_of_count hlength hlegal hidle hcount⟩

/-- Settles O33: the bytes of each width are the first of the value, and the three commands are one operation. -/
theorem patchOverwritesTheRecordedBytes : Obligations.PatchOverwritesTheRecordedBytes := by
  intro s d v pos w bytes hidle hinside hbytes
  obtain ⟨n, hn, rfl, rfl⟩ : ∃ n, (n = 1 ∨ n = 2 ∨ n = 4 ∨ n = 8) ∧ w = 8 * n ∧ bytes = littleEndian n v := by
    obtain ⟨rfl, rfl⟩ | ⟨rfl, rfl⟩ | ⟨rfl, rfl⟩ | ⟨rfl, rfl⟩ := hbytes
    · exact ⟨1, by decide, rfl, rfl⟩
    · exact ⟨2, by decide, rfl, rfl⟩
    · exact ⟨4, by decide, rfl, rfl⟩
    · exact ⟨8, by decide, rfl, rfl⟩
  have patched := stored_patch hidle hn (show pos + n ≤ d.length by omega) v
  refine ⟨fun hloc => ?disp, fun hloc => ?relbr, fun hloc => ?imm0⟩
  case disp => rwa [exec_patchDisp, hloc]
  case relbr => rwa [exec_patchRelbr, hloc]
  case imm0 => rwa [exec_patchImm0, hloc]

/-- Settles O34: the three commands are one operation, which tests the location first. -/
theorem patchFailsWithoutWriting : Obligations.PatchFailsWithoutWriting := fun s d v w hidle =>
  ⟨fun h => (exec_patchDisp d v w s).trans (patch_of_no_match hidle h d.length v),
    fun h => (exec_patchRelbr d v w s).trans (patch_of_no_match hidle h d.length v),
    fun h => (exec_patchImm0 d v w s).trans (patch_of_no_match hidle h d.length v)⟩

end Sys2Proof
end

section
/-! ENCODE_NOP of a length without a row (spec/47_encode_nop.md R382). The NOP table has rows for the lengths 1 to 9 only; without
a row the command returns its code and has no store to make. -/

namespace Sys2Proof.Machine

/-! ## The lengths of the NOP table -/

/-- Whatever its rows hold, the table has one exactly for the lengths 1 to 9 (spec/30_encoding.md R115). -/
theorem nopBytes_eq_none_iff (t : NopTable) (n : Nat) : nopBytes t n = none ↔ n = 0 ∨ 9 < n := by
  match n with
  | 0 => exact iff_of_true rfl (.inl rfl)
  | 1 | 2 | 3 | 4 | 5 | 6 | 7 | 8 | 9 => exact iff_of_false (Option.some_ne_none _) (by decide)
  | k + 10 => exact iff_of_true rfl (.inr (Nat.le_add_left 10 k))

/-! ## ENCODE_NOP without a row -/

theorem exec_encodeNop (n : Nat) (s : State) : exec (.encodeNop n) s = execEncodeNop n s := rfl

theorem encodeNop_of_no_row {s : State} (hidle : s.phase = .idle) {n : Nat} (hrow : nopBytes s.params.nopTable n = none) :
    execEncodeNop n s = s.finish (.code .generalError) := by
  rw [execEncodeNop, issue_idle _ _ hidle, hrow]

end Sys2Proof.Machine

namespace Sys2Proof

open Machine

/-! ## The obligation of spec/47_encode_nop.md -/

/-- Settles O25: a length outside 1 to 9 has no row, so nothing is stored; the host's number is the parameter's by definition. -/
theorem nopOfAnotherLengthLeavesTheBuffer : Obligations.NopOfAnotherLengthLeavesTheBuffer := by
  intro s n hidle hlength
  have hrow : nopBytes s.params.nopTable n = none := (nopBytes_eq_none_iff _ n).2 hlength
  exact ⟨(exec_encodeNop n s).trans (encodeNop_of_no_row hidle hrow), rfl⟩

end Sys2Proof
end

section
/-! Admission, ERROR and block reset (spec/60_exceptions.md R394, R402, spec/70_reset_and_hazards.md R420). Every instruction is
admitted by `State.issue`, so none runs in FATAL. Outside ENCODE and emission no work raises, and each keeps ERROR or starts a
request with NONE: `State.RecordsNoCode` says this of one answer, and each shared operation answers so. -/

namespace Sys2Proof.Machine

/-! ## Admission (R394) -/

section Fatal

variable {s : State} (hfatal : s.phase = .fatal)
include hfatal

theorem setRequest_of_fatal_phase (f : Request → Request) : s.setRequest f = .refused .engineInFatal := issue_fatal s _ hfatal

theorem trySet_of_fatal_phase (f : State → Check Request) : s.trySet f = .refused .engineInFatal := issue_fatal s _ hfatal

theorem patch_of_fatal_phase (loc : Option FieldLoc) (length : Nat) (value : Word64) (width : Nat) :
    s.patch loc length value width = .refused .engineInFatal := issue_fatal s _ hfatal

theorem buildTurn_of_fatal_phase (work : State → Check State) : s.buildTurn work = .refused .engineInFatal :=
  issue_fatal s _ hfatal

theorem emitAll_of_fatal_phase (acts : List EmitAction) : s.emitAll acts = .refused .engineInFatal := issue_fatal s _ hfatal

theorem startEncode_of_fatal_phase (cap : Nat) (bind : Binder) : s.startEncode cap bind = .refused .engineInFatal :=
  issue_fatal s _ hfatal

theorem encodeRows_of_fatal_phase (rows : List (Nat × IformSpec)) : s.encodeRows rows = .refused .engineInFatal :=
  startEncode_of_fatal_phase hfatal _ _

/-- Whether or not a table is loaded. -/
theorem exec_encode_of_fatal_phase (cap : Nat) : exec (.encode cap) s = .refused .engineInFatal := by
  cases htable : s.params.table with
  | none => exact (exec_encode_unloaded htable).trans (issue_fatal s _ hfatal)
  | some t => exact (exec_encode_loaded htable).trans (startEncode_of_fatal_phase hfatal _ _)

/-- Cases on the instruction, by the shared operation it runs, in the last cases a sequence of EMITs. -/
theorem exec_of_fatal_phase (i : Instr) : exec i s = .refused .engineInFatal := by
  unfold exec
  cases i with
  | setIclass _ | setRep | clearRep | setRepne | clearRepne | setHintTaken | setHintNotTaken | setUimm0 _ _ | setSimm0 _ _
  | setUimm1 _ | setBase0 _ | setBase1 _ | setIndex _ | setScale _ | setRelbr | setPtr | setAgen | setMem0 | setMem1 =>
    exact setRequest_of_fatal_phase hfatal _
  | setEosz _ | setEasz _ | setReg _ _ | setDisp _ _ | setDispBits _ _ | setBrdisp _ _ | setSeg0 _ | setSeg1 _
  | setOperandOrder _ _ | setField _ => exact trySet_of_fatal_phase hfatal _
  | patchDisp _ _ _ | patchRelbr _ _ _ | patchImm0 _ _ _ => exact patch_of_fatal_phase hfatal _ _ _ _
  | descReg _ | descBrdisp _ _ | descPtr _ _ | descUimm0 _ _ | descSimm0 _ _ | descImm1 _ | descMem _ | descOther _ =>
    exact buildTurn_of_fatal_phase hfatal _
  | reqInit _ _ | getOperandOrder _ | encodeNop _ | build _ _ _ _ _ _ _ _ | initFromDecode _ | nop1 | nop2 | nop3 | nop4
  | nop5 | nop6 | nop7 | nop8 | nop9 =>
    exact issue_fatal s _ hfatal
  | encode c => exact exec_encode_of_fatal_phase hfatal c
  | addGprvMemv | addGprvGprv01 | addMemvImmb | movGpr8Gpr8 | movGprvImmv | jmpRelbrd | jzRelbrb | movzxGprvMemb
  | vaddpsVexRrr | vaddpsVexRrm | vaddpsEvexRkrr | enterImmwImmb | movsb => exact encodeRows_of_fatal_phase hfatal _
  | imm0 f => cases f <;> exact emitAll_of_fatal_phase hfatal _
  | _ => exact emitAll_of_fatal_phase hfatal _

end Fatal

/-! ## Block reset (R420) -/

theorem step_of_resetRequest {s : State} (h : s.resetRequest = true) : step s = .next s.blockReset := if_pos h

/-! ## Computations that do not raise -/

/-- The computation gives a value with `P`, or stops by something else than a raise. -/
def Check.Gives {α : Type} (P : α → Prop) : Check α → Prop
  | .ok a => P a
  | .error stop => ∀ c, stop ≠ .raise c

theorem Check.gives_refuse {α : Type} {P : α → Prop} (r : Refusal) : Check.Gives P (refuse r) := fun _ => nofun

theorem Check.gives_fatal {α : Type} {P : α → Prop} : Check.Gives P (.error .fatal) := fun _ => nofun

theorem Check.gives_ite {α : Type} {P : α → Prop} {c : Prop} [Decidable c] {x y : Check α} (hx : Check.Gives P x)
    (hy : Check.Gives P y) : Check.Gives P (if c then x else y) := by
  split
  · exact hx
  · exact hy

theorem Check.Gives.mono {α : Type} {P Q : α → Prop} {x : Check α} (hx : Check.Gives P x) (h : ∀ a, P a → Q a) :
    Check.Gives Q x := by
  cases x with
  | error stop => exact hx
  | ok a => exact h a hx

/-! ## The works of the commands -/

/-- SET_FIELD keeps ERROR, which it does not take (spec/44_request_surface.md R320). -/
theorem gives_assignField (p : Params) (f : FieldAssign) (q : Request) :
    Check.Gives (fun q' => q'.error = q.error) (assignField p f q) := by
  cases f with
  | mode v | smode v | eosz v | easz v | dispWidth v | brdispWidth v | roundc v | norder v | orderEntry k v | named i v =>
    exact Check.gives_ite rfl (Check.gives_refuse _)
  | vl v =>
    simp only [assignField]
    split
    · exact rfl
    · exact Check.gives_refuse _
  | error v => exact Check.gives_refuse _
  | _ => exact rfl

theorem gives_initRequest (mode smode : Nat) (s : State) :
    Check.Gives (fun t => t.rq.error = .noError) (initRequest mode smode s) :=
  Check.gives_ite rfl (Check.gives_refuse _)

theorem gives_bridgeRequest (d : DecodedRecord) (s : State) :
    Check.Gives (fun t => t.rq.error = .noError) (bridgeRequest d s) := by
  unfold bridgeRequest
  split
  · exact Check.gives_refuse _
  · exact Check.gives_ite (Check.gives_refuse _) (Check.gives_ite (Check.gives_refuse _) rfl)

/-! ## The builder's works -/

theorem setAndPush_error_field {s t : State} {f : Request → Request} {n : OperandName} (h : s.setAndPush f n = .ok t) :
    t.rq.error = (f s.rq).error := by
  obtain ⟨-, rfl⟩ := setAndPush_ok h
  rfl

theorem buildMem_error_field {m : MemDesc} {s t : State} (h : buildMem m s = .ok t) : t.rq.error = s.rq.error := by
  obtain ⟨-, ⟨-, h⟩ | ⟨-, h⟩⟩ := buildMem_ok h
  · obtain ⟨-, hrq⟩ := buildMem0_ok h
    rw [hrq]
    rfl
  · obtain ⟨-, hrq⟩ := buildMem1_ok h
    rw [hrq]
    rfl

theorem buildOne_error_field {d : Descriptor} {s t : State} (h : buildOne d s = some (.ok t)) :
    t.rq.error = s.rq.error := by
  cases d with
  | reg r =>
    obtain ⟨-, -, hrq⟩ := buildReg_ok (Option.some.inj h)
    rw [hrq]
    rfl
  | brdisp v w | ptr v w =>
    obtain ⟨-, h⟩ := (ite_eq_iff.1 (Option.some.inj h)).resolve_right nofun
    exact setAndPush_error_field h
  | uimm0 v w | simm0 v w | imm1 v => exact setAndPush_error_field (Option.some.inj h)
  | mem m => exact buildMem_error_field (Option.some.inj h)
  | other f =>
    have hassign := gives_assignField s.params f s.rq
    rwa [buildOther_ok (Option.some.inj h)] at hassign
  | unrecognized n => cases h

/-- A turn of BUILD's loop is refused where it gives no state. -/
theorem gives_buildOne {d : Descriptor} {s : State} {x : Check State} (h : buildOne d s = some x) :
    Check.Gives (fun t => t.rq.error = s.rq.error) x := by
  cases hd : turnOf d with
  | none =>
    cases d <;> cases hd
    cases h
  | some i =>
    obtain ⟨work, -, hone, hends⟩ := turnOf_work hd
    have hx : work s = x := Option.some.inj ((hone s).symm.trans h)
    obtain ⟨q, rc, mc, hok⟩ | ⟨r, hrefuse⟩ := hends s
    · obtain rfl := hx.symm.trans (hok s.result)
      exact buildOne_error_field h
    · obtain rfl := hx.symm.trans (hrefuse s.result)
      exact Check.gives_refuse r

theorem gives_buildAll (ds : List Descriptor) (s : State) :
    Check.Gives (fun r => r.1.rq.error = s.rq.error) (buildAll ds s) := by
  induction ds generalizing s with
  | nil => exact rfl
  | cons d rest ih =>
    unfold buildAll
    split
    · exact rfl
    · rename_i t ht
      have hturn : t.advanceLoop.rq.error = s.rq.error := buildOne_error_field (t := t) ht
      rw [← hturn]
      exact ih t.advanceLoop
    · rename_i stop hstop
      exact gives_buildOne hstop

/-- BUILD starts a request, whose ERROR is NONE, and its loop keeps that. -/
theorem gives_build {mode smode : Nat} (hmodes : (isMode mode && isMode smode) = true) (iclass eosz easz : Nat) (p : Rep)
    (h : Hint) (ds : List Descriptor) (s : State) :
    Check.Gives (fun r => r.1.rq.error = .noError) (buildHead mode smode iclass eosz easz p h s >>= buildAll ds) := by
  by_cases hwidths : widthsSupplied eosz easz
  · rw [buildHead_of_widths hmodes hwidths]
    exact gives_buildAll ds _
  · rw [buildHead_of_other_width hmodes hwidths]
    exact Check.gives_fatal

/-! ## Answers that record no code (R402) -/

/-- An answer of the machine in `s`: a next state in IDLE has ERROR as in `s`, or NONE there. -/
def State.RecordsNoCode (s : State) : Result → Prop
  | .next t => t.phase = .idle → t.rq.error = s.rq.error ∨ t.rq.error = .noError
  | .fault _ | .refused _ => True

theorem recordsNoCode_finish {s t : State} {v : CmdResult} (h : t.rq.error = s.rq.error ∨ t.rq.error = .noError) :
    s.RecordsNoCode (t.finish v) := fun _ => h

theorem recordsNoCode_stopped (s : State) {stop : Stop} (h : ∀ c, stop ≠ .raise c) : s.RecordsNoCode (s.stopped stop) := by
  cases stop with
  | raise c => exact absurd rfl (h c)
  | fatal => exact nofun
  | refuse r | fault f => trivial

/-- Outside IDLE a command is refused. -/
theorem recordsNoCode_of_idle {s : State} {k : State → Result} (h : s.phase = .idle → s.RecordsNoCode (s.issue k)) :
    s.RecordsNoCode (s.issue k) := by
  cases hphase : s.phase
  case idle => exact h hphase
  case fatal | precondition | bind | emit | finalize =>
    simp only [State.issue, hphase]
    trivial

theorem recordsNoCode_issue {s : State} {k : State → Result} (h : s.RecordsNoCode (k s)) : s.RecordsNoCode (s.issue k) :=
  recordsNoCode_of_idle fun hidle => issue_idle s k hidle ▸ h

theorem recordsNoCode_perform {s : State} {v : CmdResult} {work : State → Check State}
    (h : Check.Gives (fun t => t.rq.error = s.rq.error ∨ t.rq.error = .noError) (work s)) :
    s.RecordsNoCode (s.perform v work) := by
  unfold State.perform
  cases hwork : work s with
  | ok t =>
    rw [hwork] at h
    exact recordsNoCode_finish h
  | error stop =>
    rw [hwork] at h
    exact recordsNoCode_stopped s h

/-- A command whose work starts a request. -/
theorem recordsNoCode_start {s : State} {v : CmdResult} {work : State → Check State}
    (h : Check.Gives (fun t => t.rq.error = .noError) (work s)) :
    s.RecordsNoCode (s.issue fun s => s.perform v work) :=
  recordsNoCode_issue (recordsNoCode_perform (h.mono fun _ => .inr))

theorem recordsNoCode_setRequest {s : State} {f : Request → Request} (h : (f s.rq).error = s.rq.error) :
    s.RecordsNoCode (s.setRequest f) := recordsNoCode_issue (recordsNoCode_finish (.inl h))

theorem recordsNoCode_trySet {s : State} {f : State → Check Request}
    (h : Check.Gives (fun q => q.error = s.rq.error) (f s)) : s.RecordsNoCode (s.trySet f) := by
  refine recordsNoCode_issue (recordsNoCode_perform ?_)
  cases hf : f s with
  | ok q =>
    rw [hf] at h
    exact .inl h
  | error stop =>
    rw [hf] at h
    exact h

theorem recordsNoCode_getOperandOrder (position : Nat) (s : State) : s.RecordsNoCode (execGetOperandOrder position s) := by
  refine recordsNoCode_issue ?_
  split
  · exact recordsNoCode_finish (.inl rfl)
  · trivial

theorem recordsNoCode_storeLiteral (s : State) (bytes : List Byte) : s.RecordsNoCode (s.storeLiteral bytes) :=
  recordsNoCode_finish (.inl rfl)

/-- ENCODE_NOP returns its code and does not store it (spec/47_encode_nop.md R380). -/
theorem recordsNoCode_encodeNop (length : Nat) (s : State) : s.RecordsNoCode (execEncodeNop length s) := by
  refine recordsNoCode_issue ?_
  split
  · exact recordsNoCode_finish (.inl rfl)
  · exact recordsNoCode_storeLiteral s _

theorem recordsNoCode_patch (s : State) (loc : Option FieldLoc) (length : Nat) (value : Word64) (width : Nat) :
    s.RecordsNoCode (s.patch loc length value width) := by
  refine recordsNoCode_issue ?_
  split
  · exact recordsNoCode_finish (.inl rfl)
  split
  · exact recordsNoCode_finish (.inl rfl)
  split
  · trivial
  · exact recordsNoCode_finish (.inl rfl)

theorem recordsNoCode_turn {d : Descriptor} {i : Instr} (hi : turnOf d = some i) (s : State) : s.RecordsNoCode (exec i s) := by
  obtain ⟨work, hexec, hone, hends⟩ := turnOf_work hi
  rw [hexec]
  cases hanswer : s.buildTurn work with
  | next t =>
    obtain ⟨-, u, hu, rfl⟩ := buildTurn_next (hends s) hanswer
    exact fun _ => .inl (buildOne_error_field (t := u) ((hone s).trans (congrArg some hu)))
  | fault f | refused r => trivial

theorem recordsNoCode_endBuild {s : State} {x : Check (State × Bool)}
    (h : Check.Gives (fun r => r.1.rq.error = .noError) x) : s.RecordsNoCode (s.endBuild x) := by
  cases x with
  | ok r => exact fun _ => .inr h
  | error stop => exact recordsNoCode_stopped s h

theorem recordsNoCode_build (mode smode iclass eosz easz : Nat) (p : Rep) (h : Hint) (ds : List Descriptor) (s : State) :
    s.RecordsNoCode (execBuild mode smode iclass eosz easz p h ds s) := by
  refine recordsNoCode_of_idle fun hidle => ?_
  change s.RecordsNoCode (exec (.build mode smode iclass eosz easz p h ds) s)
  by_cases hmodes : (isMode mode && isMode smode) = true
  · obtain hcount | hcount := Nat.lt_or_ge s.params.maxOperands ds.length
    · rw [exec_build_of_count hidle hmodes hcount]
      trivial
    · rw [exec_build_of_admitted hidle hmodes hcount]
      exact recordsNoCode_endBuild (gives_build hmodes iclass eosz easz p h ds s)
  · rw [exec_build_of_other_mode hidle hmodes]
    trivial

/-- Cases on the instruction, by the shared operation it runs; the last cases are ENCODE and emission. -/
theorem recordsNoCode_exec {i : Instr} (hencode : isEncode i = false) (hemission : isEmission i = false) (s : State) :
    s.RecordsNoCode (exec i s) := by
  unfold exec
  cases i with
  | reqInit m sm => exact recordsNoCode_start (gives_initRequest m sm s)
  | initFromDecode d => exact recordsNoCode_start (gives_bridgeRequest d s)
  | build m sm ic eo ea p h ds => exact recordsNoCode_build m sm ic eo ea p h ds s
  | setIclass _ | setRep | setRepne | setHintTaken | setHintNotTaken | setUimm0 _ _ | setSimm0 _ _ | setUimm1 _ | setBase0 _
  | setBase1 _ | setIndex _ | setScale _ | setRelbr | setPtr | setAgen | setMem0 | setMem1 =>
    exact recordsNoCode_setRequest rfl
  | clearRep | clearRepne =>
    refine recordsNoCode_setRequest ?_
    split <;> rfl
  | setEosz _ | setEasz _ => exact recordsNoCode_trySet (Check.gives_ite rfl Check.gives_fatal)
  | setReg _ _ | setDisp _ _ | setDispBits _ _ | setBrdisp _ _ | setSeg0 _ | setSeg1 _ | setOperandOrder _ _ =>
    exact recordsNoCode_trySet (Check.gives_ite rfl (Check.gives_refuse _))
  | setField f => exact recordsNoCode_trySet (gives_assignField s.params f s.rq)
  | getOperandOrder k => exact recordsNoCode_getOperandOrder k s
  | encodeNop n => exact recordsNoCode_encodeNop n s
  | nop1 | nop2 | nop3 | nop4 | nop5 | nop6 | nop7 | nop8 | nop9 =>
    exact recordsNoCode_issue (recordsNoCode_storeLiteral s _)
  | patchDisp _ _ _ | patchRelbr _ _ _ | patchImm0 _ _ _ => exact recordsNoCode_patch s _ _ _ _
  | descReg r => exact recordsNoCode_turn (d := .reg r) rfl s
  | descBrdisp v w => exact recordsNoCode_turn (d := .brdisp v w) rfl s
  | descPtr v w => exact recordsNoCode_turn (d := .ptr v w) rfl s
  | descUimm0 v w => exact recordsNoCode_turn (d := .uimm0 v w) rfl s
  | descSimm0 v w => exact recordsNoCode_turn (d := .simm0 v w) rfl s
  | descImm1 v => exact recordsNoCode_turn (d := .imm1 v) rfl s
  | descMem m => exact recordsNoCode_turn (d := .mem m) rfl s
  | descOther f => exact recordsNoCode_turn (d := .other f) rfl s
  | encode _ | addGprvMemv | addGprvGprv01 | addMemvImmb | movGpr8Gpr8 | movGprvImmv | jmpRelbrd | jzRelbrb | movzxGprvMemb
  | vaddpsVexRrr | vaddpsVexRrm | vaddpsEvexRkrr | enterImmwImmb | movsb => cases hencode
  | _ => cases hemission

end Sys2Proof.Machine

namespace Sys2Proof

open Machine

/-! ## The obligations of spec/60_exceptions.md and spec/70_reset_and_hazards.md -/

/-- Settles O54: every instruction is issued, and in FATAL what is issued is refused. -/
theorem fatalRefusesEveryInstruction : Obligations.FatalRefusesEveryInstruction := fun i _ hfatal => exec_of_fatal_phase hfatal i

/-- Settles O56: an instruction of neither family answers so that no code is recorded. -/
theorem onlyEncodeAndEmitRecordErrors : Obligations.OnlyEncodeAndEmitRecordErrors := by
  intro i s t hencode hemission hexec hidle
  have hanswer := recordsNoCode_exec hencode hemission s
  rw [hexec] at hanswer
  exact hanswer hidle

/-- Settles O5: the step answers the block reset of the state, whatever its phase. -/
theorem blockResetLeavesFatal : Obligations.BlockResetLeavesFatal := fun s hreset =>
  ⟨s.blockReset, step_of_resetRequest hreset, s.blockReset_phase, s.blockReset_stepIndex, s.blockReset_rq,
    s.blockReset_consumed, s.blockReset_params, s.blockReset_capacity, s.blockReset_input, s.blockReset_resetRequest⟩

end Sys2Proof
end
